-- ==== Sys2Proof/Word.lean ====
section
/-! DEFINITION. The word types of the machine and 32-lane vectors (R24, R26). -/

namespace Sys2Proof

/-- A 32-bit lane word of a general register (R26). -/
abbrev Word := BitVec 32
/-- A 64-bit value of a register pair (R74). -/
abbrev DWord := BitVec 64
/-- One byte of memory. -/
abbrev Byte := BitVec 8
/-- A set of lanes: bit l is lane l (R24). -/
abbrev Mask := BitVec 32

/-- One value per lane of a warp (R24). -/
abbrev Lanes (α : Type) := Vector α 32

namespace Lanes

/-- The 32 values `f 0` to `f 31`, written out so that the kernel evaluates it. -/
def tab {α : Type} (f : Nat → α) : Lanes α :=
  ⟨#[f 0, f 1, f 2, f 3, f 4, f 5, f 6, f 7, f 8, f 9, f 10, f 11, f 12, f 13, f 14, f 15,
     f 16, f 17, f 18, f 19, f 20, f 21, f 22, f 23, f 24, f 25, f 26, f 27, f 28, f 29,
     f 30, f 31], rfl⟩

/-- Lane `l`; lane 0 of a number that is no lane. -/
def at' {α : Type} (v : Lanes α) (l : Nat) : α :=
  if h : l < 32 then v[l] else v[0]

/-- The same value in every lane. -/
def all {α : Type} (a : α) : Lanes α := tab fun _ => a

end Lanes

/-- One value per predicate p0 to p11 of a warp (R26). -/
abbrev Preds (α : Type) := Vector α 12

namespace Preds

/-- The 12 values `f 0` to `f 11`. -/
def tab {α : Type} (f : Nat → α) : Preds α :=
  ⟨#[f 0, f 1, f 2, f 3, f 4, f 5, f 6, f 7, f 8, f 9, f 10, f 11], rfl⟩

/-- Value `i`, or `d` for a number that is no predicate. -/
def at' {α : Type} (d : α) (v : Preds α) (i : Nat) : α :=
  if h : i < 12 then v[i] else d

end Preds

/-- One value per accumulator a0 to a7 of a warp (R26, R92). -/
abbrev Accs (α : Type) := Vector α 8

namespace Accs

/-- The 8 values `f 0` to `f 7`. -/
def tab {α : Type} (f : Nat → α) : Accs α :=
  ⟨#[f 0, f 1, f 2, f 3, f 4, f 5, f 6, f 7], rfl⟩

/-- Value `i`, or `d` for a number that is no accumulator. -/
def at' {α : Type} (d : α) (v : Accs α) (i : Nat) : α :=
  if h : i < 8 then v[i] else d

end Accs

/-- The mask of the lanes that satisfy `f`. -/
def maskOf (f : Nat → Bool) : Mask :=
  BitVec.ofBoolListLE
    [f 0, f 1, f 2, f 3, f 4, f 5, f 6, f 7, f 8, f 9, f 10, f 11, f 12, f 13, f 14, f 15,
     f 16, f 17, f 18, f 19, f 20, f 21, f 22, f 23, f 24, f 25, f 26, f 27, f 28, f 29,
     f 30, f 31]

/-- The lane numbers 0 to 31, in increasing order. -/
def laneList : List Nat := List.range 32

/-- The lanes of a mask, in increasing order. -/
def lanesOf (m : Mask) : List Nat := laneList.filter fun l => m.getLsbD l

/-- The lowest lane of a mask; 0 for an empty mask. -/
def lowest (m : Mask) : Nat := (lanesOf m).headD 0

end Sys2Proof
end

