-- ==== Sys2Proof/Syntax.lean ====
section
/-! DEFINITION. The instructions, parcels and events of the device as syntax (R68 to R86, R116 to R149,
and the entries of the instruction reference); one constructor per row of the opcode table. -/

namespace Sys2Proof

/-- Number of a general register g0 to g255 (R26). -/
abbrev GReg := BitVec 8
/-- Number of a predicate, 15 for pt (R69, R73). -/
abbrev PNum := BitVec 4
/-- Number of an accumulator a0 to a7 (R92). -/
abbrev AccNum := BitVec 3

/-- Guard and empty handling of a long-form instruction: GP, GN and FE (R68, R69, R70).
FE bits of sources that the instruction does not read are zero here. -/
structure Hd where
  gp : PNum
  gn : Bool
  fe : BitVec 3
  deriving DecidableEq, Repr, Inhabited

/-- A predicate source with its negation (R186, R188, R202). -/
structure PSrc where
  neg : Bool
  p : PNum
  deriving DecidableEq, Repr

/-- The M-byte (R172). -/
structure MByte where
  w64 : Bool
  fz : Bool
  rm : BitVec 3
  sat : Bool
  sg : BitVec 2
  deriving DecidableEq, Repr

/-- The F-byte (R234). -/
structure FByte where
  na : Bool
  fz : Bool
  rm : BitVec 3
  sat : Bool
  nb : Bool
  nc : Bool
  deriving DecidableEq, Repr

/-- Modifiers of LD, ST, LDC and LDS (R324). -/
structure AccMod where
  nb : Bool
  nc : Bool
  ord : BitVec 2
  scope : BitVec 3
  space : BitVec 2
  sg : BitVec 2
  ty : BitVec 4
  deriving DecidableEq, Repr

/-- Modifiers of ATOM, ATOMR, LR and SC (R333). -/
structure AtomMod where
  w64 : Bool
  ord : BitVec 2
  scope : BitVec 3
  space : BitVec 2
  sg : BitVec 2
  aop : BitVec 4
  deriving DecidableEq, Repr

/-- The modifier field of the value parcels (R128). -/
structure PMod where
  sg : Bool
  c : Bool
  n : Bool
  q : Bool
  deriving DecidableEq, Repr

/-- A 128-byte line: its bytes, byte 0 lowest, and the poison mark of each aligned word (R329). -/
structure LineData where
  bits : BitVec 1024
  poison : Mask
  deriving DecidableEq, Repr

/-- The queue a launch record waits in (R407, R423). -/
inductive QueueRef where
  /-- the submission list of region entry `n` of the control window -/
  | list (n : Nat)
  /-- entry `i` of the pending-launch queue of core `c` -/
  | core (c i : Nat)
  deriving DecidableEq, Repr

/-- A unit of storage that an uncorrectable error poisons (R453, R455). -/
inductive PoisonUnit where
  | reg (w r l : Nat)
  | pred (w p l : Nat)
  | acc (w k l : Nat)
  | carry (w k l : Nat)
  | window (w k n l : Nat)
  | tile (w k e : Nat)
  | scratch (g off : Nat)
  | fifo (c bank word : Nat)
  | sector (pa : Nat)
  | control (w : Nat)
  deriving DecidableEq, Repr

/-- What reaches the device outside READY (R493). -/
inductive NotReadyKind where
  | regRead | regWrite | memRead | memWrite
  deriving DecidableEq, Repr

/-- The device's steps: long-form instructions, strand parcels and events. Numbers of warps, groups,
launches, requests and cores are those of the machine state. -/
inductive Instr where
  -- control transfers and system
  | nop (h : Hd)
  | rep (str : BitVec 4) (n : BitVec 8)
  | bra (h : Hd) (target join : BitVec 20)
  | jmp (h : Hd) (ovl : Byte) (off : BitVec 16)
  | jmpi (h : Hd) (a : GReg)
  | call (h : Hd) (ovl : Byte) (off : BitVec 16)
  | calli (h : Hd) (a : GReg)
  | ret (h : Hd)
  | exit (h : Hd)
  | trap (h : Hd) (code : BitVec 24)
  | wsync (h : Hd) (a : GReg)
  | yield (h : Hd)
  | bkpt (h : Hd) (code : BitVec 24)
  | eret
  -- segment control
  | strand (h : Hd) (k : AccNum) (ovl : Byte) (off : BitVec 16)
  | waits (h : Hd) (m : Byte)
  | squash (h : Hd) (m : Byte)
  -- predicates and selection
  | icmp (h : Hd) (m : MByte) (cond : BitVec 3) (d : PNum) (a b : GReg)
  | icmpi (h : Hd) (cond : BitVec 3) (sg : BitVec 2) (d : PNum) (a : GReg) (imm : BitVec 24)
  | fcmp (h : Hd) (f : FByte) (cond : BitVec 3) (d : PNum) (a b : GReg)
  | dcmp (h : Hd) (f : FByte) (cond : BitVec 3) (d : PNum) (a b : GReg)
  | plop (h : Hd) (d : PNum) (a : PSrc) (b c : PNum) (lut : Byte)
  | p2g (h : Hd) (d : GReg)
  | g2p (h : Hd) (a : GReg) (mask : BitVec 12)
  | sel (h : Hd) (m : MByte) (d a b : GReg) (p : PSrc)
  -- integer arithmetic
  | iadd (h : Hd) (m : MByte) (d a b : GReg)
  | iaddi (h : Hd) (d a : GReg) (imm : BitVec 24)
  | isub (h : Hd) (m : MByte) (d a b : GReg)
  | imul (h : Hd) (m : MByte) (d a b : GReg)
  | imulh (h : Hd) (m : MByte) (d a b : GReg)
  | imad (h : Hd) (m : MByte) (d a b c : GReg)
  | imadw (h : Hd) (m : MByte) (d a b c : GReg)
  | idiv (h : Hd) (m : MByte) (d a b : GReg)
  | irem (h : Hd) (m : MByte) (d a b : GReg)
  | imin (h : Hd) (m : MByte) (d a b : GReg)
  | imax (h : Hd) (m : MByte) (d a b : GReg)
  | iabs (h : Hd) (m : MByte) (d a : GReg)
  | iaddx (h : Hd) (d a b : GReg) (p : PNum)
  | iadd64 (h : Hd) (m : MByte) (d a b : GReg)
  | lea (h : Hd) (sg : Bool) (sh : BitVec 3) (d a b : GReg)
  | isubx (h : Hd) (d a b : GReg) (p : PNum)
  -- logic, shifts and bit fields
  | and (h : Hd) (m : MByte) (inv : Bool) (d a b : GReg)
  | or (h : Hd) (m : MByte) (inv : Bool) (d a b : GReg)
  | xor (h : Hd) (m : MByte) (inv : Bool) (d a b : GReg)
  | lopi (h : Hd) (op : BitVec 2) (d a : GReg) (imm : BitVec 24)
  | lsl (h : Hd) (m : MByte) (d a b : GReg)
  | lsr (h : Hd) (m : MByte) (d a b : GReg)
  | asr (h : Hd) (m : MByte) (d a b : GReg)
  | rot (h : Hd) (m : MByte) (d a b : GReg)
  | shi (h : Hd) (op : BitVec 2) (d a : GReg) (n : BitVec 5)
  | bfe (h : Hd) (m : MByte) (d a b : GReg)
  | bfi (h : Hd) (m : MByte) (d a b c : GReg)
  | popc (h : Hd) (m : MByte) (d a : GReg)
  | clz (h : Hd) (m : MByte) (d a : GReg)
  | ffs (h : Hd) (m : MByte) (d a : GReg)
  | brev (h : Hd) (m : MByte) (d a : GReg)
  -- moves and special registers
  | mov (h : Hd) (m : MByte) (d a : GReg)
  | movi (h : Hd) (d : GReg) (imm : BitVec 32)
  | movs (h : Hd) (idx : Byte) (d : GReg)
  | sets (h : Hd) (a : GReg)
  -- cross-lane exchange
  | shfl (h : Hd) (m : MByte) (mode : BitVec 2) (d a b : GReg)
  | vote (h : Hd) (mode : BitVec 2) (d : GReg) (a : PSrc)
  | mbcnt (h : Hd) (add : Bool) (d a b : GReg)
  | matchLanes (h : Hd) (ty : BitVec 2) (d a : GReg)
  | redux (h : Hd) (m : MByte) (op : BitVec 3) (d a : GReg)
  | fredux (h : Hd) (op : BitVec 2) (f64 fz : Bool) (d a : GReg)
  | rdlane (h : Hd) (first w64 : Bool) (d a b : GReg)
  -- f32 arithmetic and special functions
  | fadd (h : Hd) (f : FByte) (d a b : GReg)
  | fsub (h : Hd) (f : FByte) (d a b : GReg)
  | fmul (h : Hd) (f : FByte) (d a b : GReg)
  | ffma (h : Hd) (f : FByte) (d a b c : GReg)
  | fmin (h : Hd) (f : FByte) (d a b : GReg)
  | fmax (h : Hd) (f : FByte) (d a b : GReg)
  | fdiv (h : Hd) (f : FByte) (d a b : GReg)
  | fsqrt (h : Hd) (f : FByte) (d a : GReg)
  | frcp (h : Hd) (f : FByte) (d a : GReg)
  | frsq (h : Hd) (f : FByte) (d a : GReg)
  | fexp2 (h : Hd) (f : FByte) (d a b c : GReg)
  | flog2 (h : Hd) (f : FByte) (d a : GReg)
  | fsin (h : Hd) (f : FByte) (d a : GReg)
  | fcos (h : Hd) (f : FByte) (d a : GReg)
  | frnd (h : Hd) (f : FByte) (x : Bool) (d a : GReg)
  | fclass (h : Hd) (f64 : Bool) (d a : GReg)
  -- f64 arithmetic
  | dadd (h : Hd) (f : FByte) (d a b : GReg)
  | dmul (h : Hd) (f : FByte) (d a b : GReg)
  | dfma (h : Hd) (f : FByte) (d a b c : GReg)
  | ddiv (h : Hd) (f : FByte) (d a b : GReg)
  | dsqrt (h : Hd) (f : FByte) (d a : GReg)
  | dminmax (h : Hd) (f : FByte) (max : Bool) (d a b : GReg)
  -- packed arithmetic and conversions
  | pkfma (h : Hd) (f : FByte) (bf : Bool) (d a b c : GReg)
  | pkadd (h : Hd) (f : FByte) (bf : Bool) (d a b : GReg)
  | pkmul (h : Hd) (f : FByte) (bf : Bool) (d a b : GReg)
  | cvt (h : Hd) (code : BitVec 5) (sat fz : Bool) (rm slot : BitVec 3) (d a : GReg)
  | qnt (h : Hd) (slot : BitVec 3) (d a b : GReg)
  | dqnt (h : Hd) (slot : BitVec 3) (d a : GReg)
  | scaleinit (h : Hd) (slot : BitVec 3) (d a : GReg)
  -- memory
  | ld (h : Hd) (m : AccMod) (d a : GReg) (off : BitVec 16)
  | st (h : Hd) (m : AccMod) (d a : GReg) (off : BitVec 16)
  | ldc (h : Hd) (m : AccMod) (d a : GReg) (off : BitVec 16)
  | atom (h : Hd) (m : AtomMod) (a b : GReg)
  | atomr (h : Hd) (m : AtomMod) (d a b c : GReg)
  | lr (h : Hd) (m : AtomMod) (d a : GReg)
  | sc (h : Hd) (m : AtomMod) (d : PNum) (a b : GReg)
  | cstore (h : Hd) (w64 : Bool) (ord : BitVec 2) (scope : BitVec 3) (a b : GReg) (ps : PNum)
  | cstoreNf (h : Hd) (w64 : Bool) (ord : BitVec 2) (scope : BitVec 3) (d a b : GReg) (ps pf : PNum)
  | tload (h : Hd) (scope : BitVec 3) (d a b : GReg)
  | tstore (h : Hd) (scope : BitVec 3) (d a b : GReg)
  | fence (h : Hd) (kind : BitVec 2) (scope : BitVec 3)
  | mon (h : Hd) (a : GReg)
  | mwait (h : Hd) (d : PNum) (a : GReg)
  | prefCnt (h : Hd) (a b : GReg)
  | prefCl (h : Hd) (a b c : GReg)
  | subs (h : Hd) (fmt : BitVec 2) (a b c : GReg)
  | upgr (h : Hd) (fmt : BitVec 2) (a b c : GReg)
  | copy (h : Hd) (dir : BitVec 2) (scope : BitVec 3) (d a b : GReg)
  | gath (h : Hd) (scope : BitVec 3) (d a b c : GReg)
  | pxfer (h : Hd) (get : Bool) (d a b : GReg)
  | waitc (h : Hd) (cls : BitVec 2) (n : BitVec 6)
  | bankm (h : Hd) (mode : BitVec 2) (a : GReg)
  | fpush (h : Hd) (w64 : Bool) (j : Byte) (a : GReg)
  | fpop (h : Hd) (w64 : Bool) (d : GReg) (j : Byte)
  | ovld (h : Hd) (a : GReg)
  | lds (h : Hd) (m : AccMod) (d a : GReg) (off : BitVec 16)
  | unsub (h : Hd) (a b c : GReg)
  -- matrix, pair and stack side
  | mma (h : Hd) (k : AccNum) (a b : GReg) (slot : BitVec 3)
  | mmap (h : Hd) (k : AccNum) (a b : GReg) (slot : BitVec 3)
  | smv (h : Hd) (k : AccNum) (a b c : GReg) (slot : BitVec 3)
  | aclr (h : Hd) (k : AccNum)
  | ald (h : Hd) (k : AccNum) (glob : Bool) (scope : BitVec 3) (a b : GReg)
  | ast (h : Hd) (k : AccNum) (glob : Bool) (scope : BitVec 3) (a b : GReg)
  | batonTake (h : Hd)
  | batonPass (h : Hd) (a : GReg)
  | batonPassRing (h : Hd)
  | batonRing (h : Hd) (a : GReg)
  | abind (h : Hd) (k : AccNum) (kind : BitVec 2)
  | afree (h : Hd) (k : AccNum)
  -- synchronisation, launches and system registers
  | bar (h : Hd) (n : BitVec 4)
  | bara (h : Hd) (n : BitVec 4)
  | barw (h : Hd) (n : BitVec 4)
  | phase (h : Hd)
  | launch (h : Hd) (a : GReg)
  | lwait (h : Hd) (a b : GReg)
  | graph (h : Hd) (d : PNum) (a : GReg)
  | sbnd (h : Hd) (a : GReg)
  | traprd (h : Hd) (w64 : Bool) (d : GReg) (off : Byte)
  | sysr (h : Hd) (idx : Byte) (d : GReg)
  | sysw (h : Hd) (idx : Byte) (a : GReg)
  -- strand parcels
  | anop
  | aend
  | arep (n : BitVec 6)
  | amov (m : PMod) (w : BitVec 3)
  | amovi (hi keep : Bool) (imm : BitVec 16)
  | movc (m : PMod) (w : BitVec 3)
  | axch (m : PMod)
  | aput (o : BitVec 2)
  | afadd (m : PMod) (w : BitVec 3)
  | afsub (m : PMod) (w : BitVec 3)
  | afrsub (m : PMod) (w : BitVec 3)
  | afmul (m : PMod) (w : BitVec 3)
  | afmac (m : PMod) (w : BitVec 3)
  | afmsc (m : PMod) (w : BitVec 3)
  | afmin (m : PMod) (w : BitVec 3)
  | afmax (m : PMod) (w : BitVec 3)
  | afabs (m : PMod)
  | afrcp (m : PMod)
  | afrsq (m : PMod)
  | afdiv (m : PMod) (w : BitVec 3)
  | aexp2 (m : PMod) (w : BitVec 3)
  | alog2 (m : PMod)
  | aiadd (m : PMod) (w : BitVec 3)
  | aisub (m : PMod) (w : BitVec 3)
  | aimul (m : PMod) (w : BitVec 3)
  | aimulh (m : PMod) (w : BitVec 3)
  | aand (m : PMod) (w : BitVec 3)
  | aor (m : PMod) (w : BitVec 3)
  | axor (m : PMod) (w : BitVec 3)
  | ashl (sg : Bool) (cnt : BitVec 5) (w : BitVec 3)
  | ashr (sg : Bool) (cnt : BitVec 5) (w : BitVec 3)
  | acmp (c : Bool) (ty : BitVec 2) (cond : BitVec 3) (w : BitVec 3)
  | asel (m : PMod) (w : BitVec 3)
  | acvt (code : BitVec 4)
  | ashfl (mode : BitVec 2) (lg : BitVec 3) (w : BitVec 3)
  | ared (op : BitVec 2)
  | aslc (g : BitVec 3) (hi : Bool) (w : BitVec 3)
  | asts (g : BitVec 3) (hi : Bool) (w : BitVec 3)
  -- events of a warp and of its half
  | loadDataArrive (id : Nat)
  | aputDelivery (w r : Nat)
  | handlerTaskResolve (l : Nat)
  | warpSwap (core half out inn : Nat)
  -- events of the launch processor
  | launchRecordCheck (q : QueueRef)
  | groupPlace (l : Nat) (slots : List Nat)
  | staggerRelease (g : Nat)
  | candidateReserve (l : Nat) (cores : List Nat)
  | versionCommit (g : Nat)
  | launchFinish (l : Nat)
  | groupEvict (g : Nat)
  | groupRestore (g : Nat) (slots : List Nat)
  -- events of the engine and the matrix array
  | matxStart (w id : Nat)
  | smvStreamStart (w id : Nat)
  | selfTest (core : Nat) (bad badFollower : Option Nat)
  | engineOpComplete (w : Nat) (cls : BitVec 2)
  | cstoreNfComplete (id : Nat)
  | scAnswer (id : Nat)
  | clauseStart (walk i : Nat)
  | clauseFinish (walk i : Nat)
  | bankSwitchComplete (core bank : Nat)
  -- events of the homes
  | fillServed (id : Nat) (answer : LineData)
  | writeAtHome (id : Nat)
  | joinList (id : Nat)
  | leaveRequest (core line : Nat)
  | upgradeResend (id : Nat)
  -- host, pool and peer links
  | hostMemwr (line : Nat) (mask : BitVec 128) (data : BitVec 1024)
  | birsps (line : Nat) (dirty : Option (BitVec 1024))
  | birspi (line : Nat) (dirty : Option (BitVec 1024))
  | hostOwnershipGrant (line : Nat) (answer : LineData)
  | bisnpinv (pa : Nat)
  | bisnpdata (pa : Nat)
  | bisnpcur (pa : Nat)
  | poolLinkLoss (port : Nat)
  | poolWindowReopen (win : Nat)
  | hostPortDown (port : Nat)
  | peerLinkDown (q : Nat)
  | linkLaneFail (q : Nat)
  -- control window, power, trust and repair
  | tlbiPage (psz : BitVec 4)
  | heldWritePerform (id : Nat)
  | rtailWrite (n : Nat) (v : BitVec 32)
  | regbaseWrite (n : Nat) (v : BitVec 64)
  | controlRegisterWrite (off : BitVec 32) (v : BitVec 64)
  | powerLevelUp (draw : Nat)
  | powerLevelDown (draw : Nat)
  | attestComplete (stateWriteFails : Bool)
  | alarm (sensor : Nat)
  | alarmcfgWrite (v : BitVec 32)
  | notReadyAccess (k : NotReadyKind)
  | uncorrectableError (u : PoisonUnit)
  | coreRepair (core : Nat)
  | l2SliceRepair (die slice : Nat)
  | hbmRowRepair (stack bank row : Nat)
  | overlay0LoadComplete (core slot : Nat)
  | hostWriteAck (id : Nat)
  | poolExclusiveGrant (line : Nat) (answer : LineData)
  | hostPortUp (port : Nat)
  /-- a code word that is no valid long-form instruction (R71, R84, R86) -/
  | reservedOpcode (raw : BitVec 64)
  /-- a parcel that is no valid strand instruction (R85, R128) -/
  | reservedSop (raw : BitVec 16)
  -- events of the warp or the strand named in `State.cur`
  | segmentStart
  | handlerEntry
  | stepNoSegment
  | faultEscalation
  | fairnessSwitch
  | matxRetire
  | graphAnswer
  | monFire
  | mwaitTimeout
  | lwaitWake
  | lwaitPoll
  -- events at the home of the line named in `State.cur`
  | hbmFetchInstall
  | updateAtNode
  | writeAck
  | upgradeInstall
  | observationWindowEnd
  | merge
  | recall
  | hostMemrdSnpdata
  | hostMemrdSnpinv
  | snpdata
  | snpinv
  | snpcur
  | poolWriteAck
  -- events of the device without operands
  | tlbiRoot
  | tlbiAll
  | tlbiReservedOp
  | tlbiComplete
  | attestGo
  | reset
  | correctableError
  deriving DecidableEq, Repr, Inhabited

/-- Who makes the next step (log 2): a spine, a strand, a cluster of a half by its issue choice (R433), or
an event of the device, with the warp, unit and line it is about where the event itself names none. -/
inductive Turn where
  | spine (w : Nat)
  | strand (w k : Nat)
  | cluster (core half k : Nat)
  | event (w k line : Nat) (e : Instr)
  deriving DecidableEq, Repr, Inhabited

end Sys2Proof
end

