-- ==== Sys2Proof/Config.lean ====
section
/-! DEFINITION. What one implementation fixes and the free values of the model: constants without a body, so
that nothing can be proved of the values the spec leaves open (log 5, log 6, log 7). -/

namespace Sys2Proof.Config

/-- Who moves when the agenda names nobody (log 2); applied to the count of free values drawn. -/
opaque freeTurn : Nat → Turn
/-- The clocks that pass before such a turn (log 2). -/
opaque freeTicks : Nat → Nat
/-- A choice the device makes freely, as a number (R331: the lane whose store stays; R429: a die change). -/
opaque freePick : Nat → Nat
/-- A free byte (R485: remote bytes of a PXFER whose link went down). -/
opaque freeByte : Nat → Byte

/-- Whether FRCP and AFRCP deliver the upper of the two f32 values that enclose the exact reciprocal (R138). -/
opaque rcpUp : Word → Bool
/-- The same choice of FRSQ and AFRSQ (R138). -/
opaque rsqUp : Word → Bool
/-- Which of the four f32 values within 2 ulp around the exact result FLOG2 and ALOG2 deliver (R138). -/
opaque log2Pick : Word → Fin 4
/-- The same choice of FEXP2 and AEXP2, by the rounded argument t (R139). -/
opaque exp2Pick : Word → Fin 4
/-- The same choice of FSIN (R243). -/
opaque sinPick : Word → Fin 4
/-- The same choice of FCOS (R243). -/
opaque cosPick : Word → Fin 4

/-- The draw in watts, averaged over the millisecond before a GTIME (R486). -/
opaque draw : Nat → BitVec 12

/-- The measurement of firmware image `n`: MEAS0 to MEAS2 (R487). -/
opaque measurement : Nat → BitVec 512
/-- The measurement of the configuration record that holds these values, as stored: MEAS3 (R487). -/
opaque measurementRecord : List Nat → BitVec 512
/-- Byte `pos` of the one-time signature with index `n` (R489). -/
opaque signatureByte : Nat → Nat → Byte
/-- Serial number of the module (R493). -/
opaque serial : BitVec 64
/-- Identity public key of the module (R493). -/
opaque identityKey : BitVec 512

end Sys2Proof.Config
end

