-- ==== Sys2Proof/Decode.lean ====
section
/-! DEFINITION. Fields of code words and parcels, the registers an instruction names, the legality of
modifiers, the decoder and the encoder (R68 to R86, and the encoding of every entry). -/

namespace Sys2Proof

/-! ## Bit fields -/

/-- The low `w` bits of `x` from bit `lo` up (R115). -/
def bitsAt {n : Nat} (x : BitVec n) (lo w : Nat) : BitVec w := x.extractLsb' lo w

/-- Bit `i` of `x`. -/
def bitAt {n : Nat} (x : BitVec n) (i : Nat) : Bool := x.getLsbD i

/-- One bit from a Bool. -/
def b1 (b : Bool) : BitVec 1 := BitVec.ofBool b

/-! ## The long form -/

/-- The fields of a code word, B, C and FN byte by byte (R68). -/
structure LongWord where
  op : Byte
  gp : PNum
  gn : Bool
  fe : BitVec 3
  d : Byte
  a : Byte
  b : Byte
  c : Byte
  fh : Byte
  fl : Byte
  deriving DecidableEq, Repr

/-- The fields of the 64 bits of a code word (R68). -/
def LongWord.ofBits (x : BitVec 64) : LongWord :=
  { op := bitsAt x 56 8, gp := bitsAt x 52 4, gn := bitAt x 51, fe := bitsAt x 48 3,
    d := bitsAt x 40 8, a := bitsAt x 32 8, b := bitsAt x 24 8, c := bitsAt x 16 8,
    fh := bitsAt x 8 8, fl := bitsAt x 0 8 }

/-- The 64 bits of the fields (R68). -/
def LongWord.toBits (w : LongWord) : BitVec 64 :=
  w.op ++ w.gp ++ b1 w.gn ++ w.fe ++ w.d ++ w.a ++ w.b ++ w.c ++ w.fh ++ w.fl

/-- IMM24, bits 31:8 (R71). -/
def LongWord.imm24 (w : LongWord) : BitVec 24 := w.b ++ w.c ++ w.fh
/-- IMM32, bits 31:0 (R71). -/
def LongWord.imm32 (w : LongWord) : BitVec 32 := w.b ++ w.c ++ w.fh ++ w.fl
/-- OFF16, bits 31:16 (R324). -/
def LongWord.off16 (w : LongWord) : BitVec 16 := w.b ++ w.c
/-- The 16 bits of a code offset, bits 23:8 (R116). -/
def LongWord.codeOff (w : LongWord) : BitVec 16 := w.c ++ w.fh
/-- Bits 39:0, the two offsets of BRA (R72). -/
def LongWord.low40 (w : LongWord) : BitVec 40 := w.a ++ w.b ++ w.c ++ w.fh ++ w.fl

/-- The M-byte of FN[15:8] (R172). -/
def MByte.ofByte (x : Byte) : MByte :=
  { w64 := bitAt x 7, fz := bitAt x 6, rm := bitsAt x 3 3, sat := bitAt x 2, sg := bitsAt x 0 2 }
/-- The byte of an M-byte (R172). -/
def MByte.toByte (m : MByte) : Byte := b1 m.w64 ++ b1 m.fz ++ m.rm ++ b1 m.sat ++ m.sg

/-- The F-byte of FN[15:8] (R234). -/
def FByte.ofByte (x : Byte) : FByte :=
  { na := bitAt x 7, fz := bitAt x 6, rm := bitsAt x 3 3, sat := bitAt x 2, nb := bitAt x 1,
    nc := bitAt x 0 }
/-- The byte of an F-byte (R234). -/
def FByte.toByte (f : FByte) : Byte :=
  b1 f.na ++ b1 f.fz ++ f.rm ++ b1 f.sat ++ b1 f.nb ++ b1 f.nc

/-- The modifiers of an access in FN (R324); none when bit 15 is set. -/
def AccMod.ofFn (hi lo : Byte) : Option AccMod :=
  if bitAt hi 7 then none else
    some { nb := bitAt hi 6, nc := bitAt hi 5, ord := bitsAt hi 3 2, scope := bitsAt hi 0 3,
           space := bitsAt lo 6 2, sg := bitsAt lo 4 2, ty := bitsAt lo 0 4 }
/-- FN[15:8] of the modifiers of an access (R324). -/
def AccMod.hi (m : AccMod) : Byte := 0#1 ++ b1 m.nb ++ b1 m.nc ++ m.ord ++ m.scope
/-- FN[7:0] of the modifiers of an access (R324). -/
def AccMod.lo (m : AccMod) : Byte := m.space ++ m.sg ++ m.ty

/-- The modifiers of an atomic in FN (R333); none when bit 15 or 14 is set. -/
def AtomMod.ofFn (hi lo : Byte) : Option AtomMod :=
  if bitAt hi 7 || bitAt hi 6 then none else
    some { w64 := bitAt hi 5, ord := bitsAt hi 3 2, scope := bitsAt hi 0 3,
           space := bitsAt lo 6 2, sg := bitsAt lo 4 2, aop := bitsAt lo 0 4 }
/-- FN[15:8] of the modifiers of an atomic (R333). -/
def AtomMod.hi (m : AtomMod) : Byte := 0#2 ++ b1 m.w64 ++ m.ord ++ m.scope
/-- FN[7:0] of the modifiers of an atomic (R333). -/
def AtomMod.lo (m : AtomMod) : Byte := m.space ++ m.sg ++ m.aop

/-- A predicate source in a register field: bit 7 negates, bits 6:4 are zero (R186, R188, R202). -/
def PSrc.ofByte (x : Byte) : Option PSrc :=
  if bitsAt x 4 3 = 0#3 then some { neg := bitAt x 7, p := bitsAt x 0 4 } else none
/-- The field of a predicate source. -/
def PSrc.toByte (p : PSrc) : Byte := b1 p.neg ++ 0#3 ++ p.p

/-- A predicate number in a field whose upper nibble is zero (R73). -/
def predField (x : Byte) : Option PNum := if bitsAt x 4 4 = 0#4 then some (bitsAt x 0 4) else none

/-! ## The registers an instruction names -/

/-- What one register field names (R26, R70, R73, R74). -/
inductive Use where
  | none
  | rd (r : GReg)
  | rd2 (r : GReg)
  | wr (r : GReg)
  | wr2 (r : GReg)
  | pr (p : PNum)
  | pw (p : PNum)
  | prw (p : PNum)
  deriving DecidableEq, Repr

/-- What the four fields D, A, B and C name. -/
structure Uses where
  d : Use := .none
  a : Use := .none
  b : Use := .none
  c : Use := .none
  deriving DecidableEq, Repr

/-- A source register, or a pair. -/
def src (pair : Bool) (r : GReg) : Use := if pair then .rd2 r else .rd r
/-- A destination register, or a pair. -/
def dst (pair : Bool) (r : GReg) : Use := if pair then .wr2 r else .wr r

/-- Whether CVT reads a pair (R251). -/
def cvtSrc2 (code : BitVec 5) : Bool := [0x00, 0x0E, 0x10, 0x11, 0x12, 0x13, 0x14, 0x15].contains code.toNat
/-- Whether CVT writes a pair (R251). -/
def cvtDst2 (code : BitVec 5) : Bool := [0x01, 0x0F, 0x10, 0x11, 0x12, 0x13].contains code.toNat

/-- Whether the special register of MOVS is 64 bits wide (R197). -/
def movsWide (idx : Byte) : Bool := idx == 0x0F#8 || idx == 0x10#8
/-- Whether the system register of SYSR and SYSW is 64 bits wide (R477). -/
def sysWide (idx : Byte) : Bool := idx == 0x04#8 || idx == 0x05#8
/-- Whether the type code of an access is b64 (R324). -/
def AccMod.wide (m : AccMod) : Bool := m.ty == 3#4
/-- The address operand of an access: absent under NB, a pair for the global space (R325). -/
def AccMod.base (m : AccMod) (a : GReg) : Use :=
  if m.nb then .none else if m.space == 0#2 then .rd2 a else .rd a
/-- The address operand of an atomic: a pair in the global space, and under W64 in every space (R333); a scratch address is the
word of its first register (DEDUCED, log 53). -/
def AtomMod.base (m : AtomMod) (a : GReg) : Use := if m.space == 0#2 || m.w64 then .rd2 a else .rd a

/-- The registers and predicates named by the fields of an instruction, entry by entry. -/
def Instr.uses : Instr → Uses
  | .jmpi _ a | .calli _ a | .wsync _ a => { a := .rd a }
  | .icmp _ m _ d a b => { d := .pw d, a := src m.w64 a, b := src m.w64 b }
  | .icmpi _ _ _ d a _ => { d := .pw d, a := .rd a }
  | .fcmp _ _ _ d a b => { d := .pw d, a := .rd a, b := .rd b }
  | .dcmp _ _ _ d a b => { d := .pw d, a := .rd2 a, b := .rd2 b }
  | .plop _ d a b c _ => { d := .pw d, a := .pr a.p, b := .pr b, c := .pr c }
  | .p2g _ d => { d := .wr d }
  | .g2p _ a _ => { a := .rd a }
  | .sel _ m d a b p => { d := dst m.w64 d, a := src m.w64 a, b := src m.w64 b, c := .pr p.p }
  | .iadd _ _ d a b | .isub _ _ d a b | .imul _ _ d a b | .imulh _ _ d a b | .idiv _ _ d a b
  | .irem _ _ d a b | .imin _ _ d a b | .imax _ _ d a b | .lsl _ _ d a b | .lsr _ _ d a b
  | .asr _ _ d a b | .rot _ _ d a b | .bfe _ _ d a b => { d := .wr d, a := .rd a, b := .rd b }
  | .iaddi _ d a _ | .lopi _ _ d a _ | .shi _ _ d a _ => { d := .wr d, a := .rd a }
  | .imad _ _ d a b c | .bfi _ _ d a b c => { d := .wr d, a := .rd a, b := .rd b, c := .rd c }
  | .imadw _ _ d a b c => { d := .wr2 d, a := .rd a, b := .rd b, c := .rd2 c }
  | .iabs _ _ d a => { d := .wr d, a := .rd a }
  | .iaddx _ d a b p | .isubx _ d a b p => { d := .wr d, a := .rd a, b := .rd b, c := .prw p }
  | .iadd64 _ _ d a b => { d := .wr2 d, a := .rd2 a, b := .rd2 b }
  | .lea _ _ _ d a b => { d := .wr2 d, a := .rd2 a, b := .rd b }
  | .and _ m _ d a b | .or _ m _ d a b | .xor _ m _ d a b =>
    { d := dst m.w64 d, a := src m.w64 a, b := src m.w64 b }
  | .popc _ m d a | .clz _ m d a | .ffs _ m d a => { d := .wr d, a := src m.w64 a }
  | .brev _ m d a | .mov _ m d a => { d := dst m.w64 d, a := src m.w64 a }
  | .movi _ d _ => { d := .wr d }
  | .movs _ idx d => { d := dst (movsWide idx) d }
  | .sets _ a => { a := .rd a }
  | .shfl _ m _ d a b => { d := dst m.w64 d, a := src m.w64 a, b := .rd b }
  | .vote _ mode d a => { d := if mode == 0#2 then .wr d else .pw (bitsAt d 0 4), a := .pr a.p }
  | .mbcnt _ add d a b => { d := .wr d, a := .rd a, b := if add then .rd b else .none }
  | .matchLanes _ ty d a => { d := .wr d, a := src (bitAt ty 0) a }
  | .redux _ _ _ d a => { d := .wr d, a := .rd a }
  | .fredux _ _ f64 _ d a => { d := dst f64 d, a := src f64 a }
  | .rdlane _ first w64 d a b =>
    { d := dst w64 d, a := src w64 a, b := if first then .none else .rd b }
  | .fadd _ _ d a b | .fsub _ _ d a b | .fmul _ _ d a b | .fmin _ _ d a b | .fmax _ _ d a b
  | .fdiv _ _ d a b | .pkadd _ _ _ d a b | .pkmul _ _ _ d a b =>
    { d := .wr d, a := .rd a, b := .rd b }
  | .ffma _ _ d a b c | .fexp2 _ _ d a b c | .pkfma _ _ _ d a b c =>
    { d := .wr d, a := .rd a, b := .rd b, c := .rd c }
  | .fsqrt _ _ d a | .frcp _ _ d a | .frsq _ _ d a | .flog2 _ _ d a | .fsin _ _ d a
  | .fcos _ _ d a | .frnd _ _ _ d a => { d := .wr d, a := .rd a }
  | .fclass _ f64 d a => { d := .wr d, a := src f64 a }
  | .dadd _ _ d a b | .dmul _ _ d a b | .ddiv _ _ d a b | .dminmax _ _ _ d a b =>
    { d := .wr2 d, a := .rd2 a, b := .rd2 b }
  | .dfma _ _ d a b c => { d := .wr2 d, a := .rd2 a, b := .rd2 b, c := .rd2 c }
  | .dsqrt _ _ d a => { d := .wr2 d, a := .rd2 a }
  | .cvt _ code _ _ _ _ d a => { d := dst (cvtDst2 code) d, a := src (cvtSrc2 code) a }
  | .qnt _ _ d a b => { d := .wr d, a := .rd a, b := .rd b }
  | .dqnt _ _ d a | .scaleinit _ _ d a => { d := .wr d, a := .rd a }
  | .ld _ m d a _ => { d := dst m.wide d, a := m.base a }
  | .st _ m d a _ => { d := src m.wide d, a := m.base a }
  | .ldc _ m d a _ => { d := dst m.wide d, a := if m.nb then .none else .rd a }
  | .lds _ m d a _ => { d := .wr d, a := m.base a }
  | .atom _ m a b => { a := m.base a, b := src m.w64 b }
  | .atomr _ m d a b c =>
    { d := dst m.w64 d, a := m.base a, b := src m.w64 b,
      c := if m.aop == 7#4 then src m.w64 c else .none }
  | .lr _ m d a => { d := dst m.w64 d, a := .rd2 a }
  | .sc _ m d a b => { d := .pw d, a := .rd2 a, b := src m.w64 b }
  | .cstore _ w64 _ _ a b ps => { a := .rd2 a, b := src w64 b, c := .pr ps }
  | .cstoreNf _ w64 _ _ d a b ps _ => { d := .wr d, a := .rd2 a, b := src w64 b, c := .pr ps }
  | .tload _ _ d a b => { d := .rd d, a := .rd2 a, b := .rd b }
  | .tstore _ _ d a b => { d := .rd2 d, a := .rd a, b := .rd b }
  | .mon _ a => { a := .rd2 a }
  | .mwait _ d a => { d := .pw d, a := .rd a }
  | .prefCnt _ a b => { a := .rd2 a, b := .rd b }
  | .prefCl _ a b c => { a := .rd2 a, b := .rd b, c := .rd2 c }
  | .subs _ _ a b c | .upgr _ _ a b c | .unsub _ a b c => { a := .rd2 a, b := .rd b, c := .rd c }
  | .copy _ dir _ d a b =>
    { d := src (dir == 0#2 || dir == 2#2) d, a := src (dir == 0#2 || dir == 1#2) a, b := .rd b }
  | .gath _ _ d a b c => { d := .rd d, a := .rd2 a, b := .rd b, c := .rd c }
  | .pxfer _ _ d a b => { d := .rd2 d, a := .rd2 a, b := .rd b }
  | .bankm _ _ a | .ovld _ a => { a := .rd a }
  | .fpush _ w64 _ a => { a := src w64 a }
  | .fpop _ w64 d _ => { d := dst w64 d }
  | .mma _ _ a b _ | .mmap _ _ a b _ => { a := .rd a, b := .rd b }
  | .smv _ _ a b c _ => { a := .rd a, b := .rd2 b, c := .rd c }
  | .ald _ _ glob _ a b | .ast _ _ glob _ a b => { a := src glob a, b := .rd b }
  | .batonPass _ a => { a := .rd a }
  | .batonRing _ a => { a := .rd2 a }
  | .launch _ a => { a := .rd2 a }
  | .lwait _ a b => { a := .rd2 a, b := .rd2 b }
  | .graph _ d a => { d := .pw d, a := .rd2 a }
  | .sbnd _ a => { a := .rd a }
  | .traprd _ w64 d _ => { d := dst w64 d }
  | .sysr _ idx d => { d := dst (sysWide idx) d }
  | .sysw _ idx a => { a := src (sysWide idx) a }
  | _ => {}

/-- Whether a field is a register source. -/
def Use.isRead : Use → Bool
  | .rd _ | .rd2 _ => true
  | _ => false

/-- The FE bits that govern a source of the instruction: A, B and C, and A also for a source in D (R70, R328). -/
def Uses.feMask (u : Uses) : BitVec 3 :=
  b1 u.c.isRead ++ b1 u.b.isRead ++ b1 (u.a.isRead || u.d.isRead)

/-- The guard and FE of a long-form instruction; REP and ERET have none. -/
def Instr.hd : Instr → Option Hd
  | .nop h | .bra h .. | .jmp h .. | .jmpi h .. | .call h .. | .calli h .. | .ret h | .exit h
  | .trap h .. | .wsync h .. | .yield h | .bkpt h .. | .strand h .. | .waits h .. | .squash h ..
  | .icmp h .. | .icmpi h .. | .fcmp h .. | .dcmp h .. | .plop h .. | .p2g h .. | .g2p h ..
  | .sel h .. | .iadd h .. | .iaddi h .. | .isub h .. | .imul h .. | .imulh h .. | .imad h ..
  | .imadw h .. | .idiv h .. | .irem h .. | .imin h .. | .imax h .. | .iabs h .. | .iaddx h ..
  | .iadd64 h .. | .lea h .. | .isubx h .. | .and h .. | .or h .. | .xor h .. | .lopi h ..
  | .lsl h .. | .lsr h .. | .asr h .. | .rot h .. | .shi h .. | .bfe h .. | .bfi h .. | .popc h ..
  | .clz h .. | .ffs h .. | .brev h .. | .mov h .. | .movi h .. | .movs h .. | .sets h ..
  | .shfl h .. | .vote h .. | .mbcnt h .. | .matchLanes h .. | .redux h .. | .fredux h ..
  | .rdlane h .. | .fadd h .. | .fsub h .. | .fmul h .. | .ffma h .. | .fmin h .. | .fmax h ..
  | .fdiv h .. | .fsqrt h .. | .frcp h .. | .frsq h .. | .fexp2 h .. | .flog2 h .. | .fsin h ..
  | .fcos h .. | .frnd h .. | .fclass h .. | .dadd h .. | .dmul h .. | .dfma h .. | .ddiv h ..
  | .dsqrt h .. | .dminmax h .. | .pkfma h .. | .pkadd h .. | .pkmul h .. | .cvt h .. | .qnt h ..
  | .dqnt h .. | .scaleinit h .. | .ld h .. | .st h .. | .ldc h .. | .atom h .. | .atomr h ..
  | .lr h .. | .sc h .. | .cstore h .. | .cstoreNf h .. | .tload h .. | .tstore h .. | .fence h ..
  | .mon h .. | .mwait h .. | .prefCnt h .. | .prefCl h .. | .subs h .. | .upgr h .. | .copy h ..
  | .gath h .. | .pxfer h .. | .waitc h .. | .bankm h .. | .fpush h .. | .fpop h .. | .ovld h ..
  | .lds h .. | .unsub h .. | .mma h .. | .mmap h .. | .smv h .. | .aclr h .. | .ald h ..
  | .ast h .. | .batonTake h | .batonPass h .. | .batonPassRing h | .batonRing h .. | .abind h ..
  | .afree h .. | .bar h .. | .bara h .. | .barw h .. | .phase h | .launch h .. | .lwait h ..
  | .graph h .. | .sbnd h .. | .traprd h .. | .sysr h .. | .sysw h .. => some h
  | _ => none

/-! ## Legality -/

/-- A predicate number that exists (R69, R73). -/
def PNum.ok (p : PNum) : Bool := p.toNat ≤ 11 || p == 15#4
/-- An even register number (R74). -/
def GReg.even (r : GReg) : Bool := !bitAt r 0

/-- A named register or predicate that exists and is even where a pair is named (R73, R74). -/
def Use.ok : Use → Bool
  | .rd2 r | .wr2 r => GReg.even r
  | .pr p | .pw p | .prw p => PNum.ok p
  | _ => true

/-- Every field of the instruction names what exists. -/
def Uses.ok (u : Uses) : Bool := u.d.ok && u.a.ok && u.b.ok && u.c.ok

/-- The guard exists, and FE is set only for sources that are read (R69, R70). -/
def Hd.ok (h : Hd) (mask : BitVec 3) : Bool := PNum.ok h.gp && h.fe &&& ~~~mask == 0#3

/-- RM is none or one of the four directions (R172, R234). -/
def rmOk (rm : BitVec 3) : Bool := rm.toNat ≤ 4
/-- SG is not 3 (R172). -/
def sgOk (sg : BitVec 2) : Bool := sg != 3#2
/-- The scope code names a scope (R324). -/
def scopeOk (s : BitVec 3) : Bool := s.toNat ≤ 5

/-- An M-byte that the entry allows: W64 only where `w64` says so (R172). -/
def MByte.ok (m : MByte) (w64 : Bool) : Bool := rmOk m.rm && sgOk m.sg && (w64 || !m.w64)
/-- An F-byte that the entry allows: RM and the negations of B and C where the arguments say so (R234). -/
def FByte.ok (f : FByte) (rm b c : Bool) : Bool :=
  rmOk f.rm && (rm || f.rm == 0#3) && (b || !f.nb) && (c || !f.nc)

/-- The modifiers of LD and ST that are no reserved pattern (R324, R325). -/
def AccMod.ok (m : AccMod) : Bool :=
  scopeOk m.scope && m.space != 3#2 && sgOk m.sg && m.ty.toNat ≤ 3 && !(m.space == 0#2 && m.nb)
/-- The modifiers of LDC that are no reserved pattern (R332). -/
def AccMod.ldcOk (m : AccMod) : Bool :=
  !m.nc && m.sg == 0#2 && m.scope == 0#3 && (m.ty == 2#4 || m.ty == 3#4) && m.space.toNat ≤ 1
/-- The modifiers of LDS that are no reserved pattern (R348). -/
def AccMod.ldsOk (m : AccMod) : Bool := m.ok && m.ty == 2#4 && m.space == 0#2

/-- The modifiers of an atomic that are no reserved pattern (R333). -/
def AtomMod.ok (m : AtomMod) (ret : Bool) : Bool :=
  scopeOk m.scope && m.space.toNat ≤ 1 && sgOk m.sg && m.aop.toNat ≤ 10 &&
  (ret || m.aop != 7#4) && !(m.aop == 8#4 && m.sg != 0#2) &&
  !((m.aop == 9#4 || m.aop == 10#4) && m.sg == 2#2)
/-- The modifiers of LR and SC that are no reserved pattern (R333, R335). -/
def AtomMod.lrOk (m : AtomMod) : Bool :=
  scopeOk m.scope && m.space == 0#2 && m.aop == 0#4 && sgOk m.sg

/-- A system register index that the map does not mark reserved (R477). -/
def sysIdxOk (idx : Byte) : Bool := idx.toNat ≤ 0x07 || (0x10 ≤ idx.toNat && idx.toNat ≤ 0x17)

/-- The modifiers that the entry of the instruction allows; the rest of its legality is in the registers
it names and in its guard. -/
def Instr.modsOk : Instr → Bool
  | .icmp _ m cond _ _ _ => m.ok true && cond.toNat ≤ 5
  | .icmpi _ cond sg _ _ _ => cond.toNat ≤ 5 && sgOk sg
  | .fcmp _ f cond _ _ _ | .dcmp _ f cond _ _ _ => f.ok true true false && cond.toNat ≤ 6
  | .sel _ m .. => m.ok true
  | .iadd _ m .. | .isub _ m .. | .imul _ m .. | .imulh _ m .. | .imad _ m .. | .idiv _ m ..
  | .irem _ m .. | .imin _ m .. | .imax _ m .. => m.ok false
  | .iabs _ m .. => m.ok false && m.sg != 1#2
  | .imadw _ m .. | .iadd64 _ m .. => m.ok false
  | .and _ m .. | .or _ m .. | .xor _ m .. | .popc _ m .. | .clz _ m .. | .ffs _ m ..
  | .brev _ m .. | .mov _ m .. | .shfl _ m .. => m.ok true
  | .lsl _ m .. | .lsr _ m .. | .asr _ m .. | .rot _ m .. | .bfe _ m .. | .bfi _ m .. => m.ok false
  | .movs _ idx _ => idx.toNat ≤ 0x13
  | .vote _ mode d _ => mode == 0#2 || bitsAt d 4 4 == 0#4
  | .mbcnt _ add _ _ b => add || b == 0#8
  | .rdlane _ first _ _ _ b => !first || b == 0#8
  | .redux _ m op _ _ => m.ok false && !m.sat && op.toNat ≤ 5
  | .fredux _ op .. => op != 3#2
  | .fadd _ f .. | .fsub _ f .. | .fmul _ f .. | .fmin _ f .. | .fmax _ f .. | .fdiv _ f ..
  | .dadd _ f .. | .dmul _ f .. | .ddiv _ f .. | .dminmax _ f .. | .pkadd _ f .. | .pkmul _ f .. =>
    f.ok true true false
  | .ffma _ f .. | .dfma _ f .. | .pkfma _ f .. => f.ok true true true
  | .fsqrt _ f .. | .dsqrt _ f .. | .frnd _ f .. => f.ok true false false
  | .frcp _ f .. | .frsq _ f .. | .flog2 _ f .. | .fsin _ f .. | .fcos _ f .. => f.ok false false false
  | .fexp2 _ f .. => f.ok false true true
  | .cvt _ code _ _ rm slot _ _ =>
    code.toNat ≤ 0x15 && rmOk rm &&
      (if code == 6#5 || code == 7#5 then rm == 0#3 else slot == 0#3)
  | .ld _ m _ a .. | .st _ m _ a .. => m.ok && (!m.nb || a == 0#8)
  | .ldc _ m _ a .. => m.ldcOk && (!m.nb || a == 0#8)
  | .lds _ m .. => m.ldsOk
  | .atom _ m .. => m.ok false
  | .atomr _ m _ _ _ c => m.ok true && (m.aop == 7#4 || c == 0#8)
  | .lr _ m .. | .sc _ m .. => m.lrOk
  | .cstore _ _ _ scope .. => scopeOk scope
  | .cstoreNf _ _ _ scope _ _ _ _ pf => scopeOk scope && PNum.ok pf
  | .tload _ scope .. | .tstore _ scope .. | .copy _ _ scope .. | .gath _ scope ..
  | .ald _ _ _ scope .. | .ast _ _ _ scope .. => scopeOk scope
  | .fence _ kind scope => kind != 3#2 && scopeOk scope
  | .subs _ fmt .. => fmt != 0#2
  | .traprd _ w64 _ off => off.toNat < 0x80 && off.toNat % (if w64 then 8 else 4) == 0
  | .sysr _ idx _ | .sysw _ idx _ => sysIdxOk idx
  | .arep _ | .anop | .aend => true
  | .asel m w => !m.q && (!m.c || w == 0#3)
  | .amov m w | .aimulh m w | .aiadd m w | .aisub m w | .aimul m w | .aand m w | .aor m w | .axor m w =>
    !m.c || w == 0#3
  | .movc m _ => !m.c
  | .axch m => !m.c && !m.n
  | .afadd m w | .afsub m w | .afrsub m w | .afmul m w | .afmac m w | .afmsc m w | .afmin m w
  | .afmax m w | .afdiv m w => !m.sg && (!m.c || w == 0#3)
  | .afabs m | .afrcp m | .afrsq m | .alog2 m => !m.sg && !m.c
  | .aexp2 m _ => !m.sg && !m.c
  | .ashl _ cnt w | .ashr _ cnt w => cnt == 0#5 || w == 0#3
  | .acmp c ty cond w =>
    ty != 3#2 && cond != 7#3 && !(cond == 6#3 && ty != 0#2) && (!c || w == 0#3)
  | .acvt code => code.toNat ≤ 0xD
  | .ashfl mode lg w => if mode == 3#2 then lg == 0#3 else lg.toNat ≤ 4 && w == 0#3
  | _ => true

/-- Every check that raises ILLEGAL on the word alone (R86): guard, named registers, modifiers. -/
def Instr.legal (i : Instr) : Bool :=
  i.uses.ok && i.modsOk && (match i.hd with | some h => h.ok i.uses.feMask | none => true)

/-! ## The decoder of the long form -/

/-- The guard and FE fields as the word has them; `decodeLong` drops the FE bits that govern nothing. -/
def LongWord.hd (w : LongWord) : Hd := { gp := w.gp, gn := w.gn, fe := w.fe }

/-- `i` when `c` holds. -/
def onlyIf (c : Bool) (i : Instr) : Option Instr := if c then some i else none

/-- FN is zero. -/
def LongWord.fn0 (w : LongWord) : Bool := w.fh == 0#8 && w.fl == 0#8
/-- FN[7:0] is zero. -/
def LongWord.fl0 (w : LongWord) : Bool := w.fl == 0#8
/-- The M-byte of the word. -/
def LongWord.m (w : LongWord) : MByte := MByte.ofByte w.fh
/-- The F-byte of the word. -/
def LongWord.f (w : LongWord) : FByte := FByte.ofByte w.fh
/-- The accumulator number of D[2:0]; D[7:3] must be zero (R116, R256). -/
def LongWord.accOk (w : LongWord) : Bool := bitsAt w.d 3 5 == 0#5
/-- The accumulator number of D[2:0]. -/
def LongWord.acc (w : LongWord) : AccNum := bitsAt w.d 0 3
/-- FN[15:11] is zero, as where FN[10:8] holds a scope or a slot. -/
def LongWord.fh5 (w : LongWord) : Bool := bitsAt w.fh 3 5 == 0#5
/-- FN[10:8], a scope or a slot. -/
def LongWord.fh3 (w : LongWord) : BitVec 3 := bitsAt w.fh 0 3
/-- `m` with W64 cleared, for entries that ignore it (R191). -/
def MByte.narrow (m : MByte) : MByte := { m with w64 := false }

/-- Opcodes 0x00 to 0x0D (R175 to R184, R465 to R468). -/
def decode0 (w : LongWord) : Nat → Option Instr
  | 0x0 => some (.nop w.hd)
  | 0x1 => onlyIf (w.fl0 && w.b == 0#8 && bitsAt w.c 4 4 == 0#4 && w.gp == 15#4 && !w.gn)
      (.rep (bitsAt w.c 0 4) w.fh)
  | 0x2 => some (.bra w.hd (bitsAt w.low40 20 20) (bitsAt w.low40 0 20))
  | 0x3 => onlyIf w.fl0 (.jmp w.hd w.b w.codeOff)
  | 0x4 => onlyIf w.fn0 (.jmpi w.hd w.a)
  | 0x5 => onlyIf w.fl0 (.call w.hd w.b w.codeOff)
  | 0x6 => onlyIf w.fn0 (.calli w.hd w.a)
  | 0x7 => onlyIf w.fn0 (.ret w.hd)
  | 0x8 => onlyIf w.fn0 (.exit w.hd)
  | 0x9 => onlyIf w.fl0 (.trap w.hd w.imm24)
  | 0xA => onlyIf w.fn0 (.wsync w.hd w.a)
  | 0xB => onlyIf w.fn0 (.yield w.hd)
  | 0xC => onlyIf w.fl0 (.bkpt w.hd w.imm24)
  | 0xD => onlyIf (w.fn0 && w.gp == 15#4 && !w.gn) .eret
  | _ => none

/-- Opcodes 0x10 to 0x1F (R116, R120, R185 to R188, R246). -/
def decode1 (w : LongWord) : Nat → Option Instr
  | 0x0 => onlyIf (w.fl0 && w.accOk) (.strand w.hd w.acc w.b w.codeOff)
  | 0x1 => onlyIf (w.fl0 && w.b == 0#8 && w.c == 0#8) (.waits w.hd w.fh)
  | 0x2 => onlyIf (w.fl0 && w.b == 0#8 && w.c == 0#8) (.squash w.hd w.fh)
  | 0x8 => (predField w.d).bind fun d => onlyIf (bitsAt w.fl 3 5 == 0#5)
      (.icmp w.hd w.m (bitsAt w.fl 0 3) d w.a w.b)
  | 0x9 => (predField w.d).bind fun d => onlyIf (bitsAt w.fl 5 3 == 0#3)
      (.icmpi w.hd (bitsAt w.fl 0 3) (bitsAt w.fl 3 2) d w.a w.imm24)
  | 0xA => (predField w.d).bind fun d => onlyIf (bitsAt w.fl 3 5 == 0#5)
      (.fcmp w.hd w.f (bitsAt w.fl 0 3) d w.a w.b)
  | 0xB => (predField w.d).bind fun d => onlyIf (bitsAt w.fl 3 5 == 0#5)
      (.dcmp w.hd w.f (bitsAt w.fl 0 3) d w.a w.b)
  | 0xC => (predField w.d).bind fun d => (PSrc.ofByte w.a).bind fun a => (predField w.b).bind fun b =>
      (predField w.c).bind fun c => onlyIf w.fl0 (.plop w.hd d a b c w.fh)
  | 0xD => onlyIf w.fn0 (.p2g w.hd w.d)
  | 0xE => onlyIf (w.fl0 && w.b == 0#8 && bitsAt w.c 4 4 == 0#4)
      (.g2p w.hd w.a (bitsAt w.c 0 4 ++ w.fh))
  | 0xF => (PSrc.ofByte w.c).bind fun p => onlyIf w.fl0 (.sel w.hd w.m w.d w.a w.b p)
  | _ => none

/-- Opcodes 0x20 to 0x2F (R189 to R193). -/
def decode2 (w : LongWord) : Nat → Option Instr
  | 0x0 => onlyIf w.fl0 (.iadd w.hd w.m w.d w.a w.b)
  | 0x1 => onlyIf w.fl0 (.iaddi w.hd w.d w.a w.imm24)
  | 0x2 => onlyIf w.fl0 (.isub w.hd w.m w.d w.a w.b)
  | 0x3 => onlyIf w.fl0 (.imul w.hd w.m w.d w.a w.b)
  | 0x4 => onlyIf w.fl0 (.imulh w.hd w.m w.d w.a w.b)
  | 0x5 => onlyIf w.fl0 (.imad w.hd w.m w.d w.a w.b w.c)
  | 0x6 => onlyIf w.fl0 (.imadw w.hd w.m.narrow w.d w.a w.b w.c)
  | 0x7 => onlyIf w.fl0 (.idiv w.hd w.m w.d w.a w.b)
  | 0x8 => onlyIf w.fl0 (.irem w.hd w.m w.d w.a w.b)
  | 0x9 => onlyIf w.fl0 (.imin w.hd w.m w.d w.a w.b)
  | 0xA => onlyIf w.fl0 (.imax w.hd w.m w.d w.a w.b)
  | 0xB => onlyIf w.fl0 (.iabs w.hd w.m w.d w.a)
  | 0xC => (predField w.c).bind fun p => onlyIf w.fn0 (.iaddx w.hd w.d w.a w.b p)
  | 0xD => onlyIf w.fl0 (.iadd64 w.hd w.m.narrow w.d w.a w.b)
  | 0xE => onlyIf (w.fl0 && bitsAt w.fh 4 4 == 0#4)
      (.lea w.hd (bitAt w.fh 0) (bitsAt w.fh 1 3) w.d w.a w.b)
  | 0xF => (predField w.c).bind fun p => onlyIf w.fn0 (.isubx w.hd w.d w.a w.b p)
  | _ => none

/-- Opcodes 0x30 to 0x3F (R194 to R196). -/
def decode3 (w : LongWord) : Nat → Option Instr
  | 0x0 => onlyIf (bitsAt w.fl 1 7 == 0#7) (.and w.hd w.m (bitAt w.fl 0) w.d w.a w.b)
  | 0x1 => onlyIf (bitsAt w.fl 1 7 == 0#7) (.or w.hd w.m (bitAt w.fl 0) w.d w.a w.b)
  | 0x2 => onlyIf (bitsAt w.fl 1 7 == 0#7) (.xor w.hd w.m (bitAt w.fl 0) w.d w.a w.b)
  | 0x3 => onlyIf (bitsAt w.fl 2 6 == 0#6) (.lopi w.hd (bitsAt w.fl 0 2) w.d w.a w.imm24)
  | 0x4 => onlyIf w.fl0 (.lsl w.hd w.m w.d w.a w.b)
  | 0x5 => onlyIf w.fl0 (.lsr w.hd w.m w.d w.a w.b)
  | 0x6 => onlyIf w.fl0 (.asr w.hd w.m w.d w.a w.b)
  | 0x7 => onlyIf w.fl0 (.rot w.hd w.m w.d w.a w.b)
  | 0x8 => onlyIf (bitsAt w.fl 2 6 == 0#6 && w.b == 0#8 && w.c == 0#8 && bitsAt w.fh 5 3 == 0#3)
      (.shi w.hd (bitsAt w.fl 0 2) w.d w.a (bitsAt w.fh 0 5))
  | 0x9 => onlyIf w.fl0 (.bfe w.hd w.m w.d w.a w.b)
  | 0xA => onlyIf w.fl0 (.bfi w.hd w.m w.d w.a w.b w.c)
  | 0xB => onlyIf w.fl0 (.popc w.hd w.m w.d w.a)
  | 0xC => onlyIf w.fl0 (.clz w.hd w.m w.d w.a)
  | 0xD => onlyIf w.fl0 (.ffs w.hd w.m w.d w.a)
  | 0xE => onlyIf w.fl0 (.brev w.hd w.m w.d w.a)
  | 0xF => onlyIf w.fl0 (.mov w.hd w.m w.d w.a)
  | _ => none

/-- Opcodes 0x40 to 0x4E (R196 to R206, R250). -/
def decode4 (w : LongWord) : Nat → Option Instr
  | 0x0 => some (.movi w.hd w.d w.imm32)
  | 0x1 => onlyIf (w.fh == 0#8) (.movs w.hd w.fl w.d)
  | 0x2 => onlyIf (w.fh == 0#8 && w.fl == 0x13#8) (.sets w.hd w.a)
  | 0x8 => onlyIf (bitsAt w.fl 2 6 == 0#6) (.shfl w.hd w.m (bitsAt w.fl 0 2) w.d w.a w.b)
  | 0x9 => (PSrc.ofByte w.a).bind fun a => onlyIf (w.fh == 0#8 && bitsAt w.fl 2 6 == 0#6)
      (.vote w.hd (bitsAt w.fl 0 2) w.d a)
  | 0xA => onlyIf (w.fh == 0#8 && bitsAt w.fl 1 7 == 0#7)
      (.mbcnt w.hd (bitAt w.fl 0) w.d w.a (if bitAt w.fl 0 then w.b else 0#8))
  | 0xB => onlyIf (w.fh == 0#8 && bitsAt w.fl 2 6 == 0#6) (.matchLanes w.hd (bitsAt w.fl 0 2) w.d w.a)
  | 0xC => onlyIf (bitsAt w.fl 3 5 == 0#5) (.redux w.hd w.m (bitsAt w.fl 0 3) w.d w.a)
  | 0xD => onlyIf (bitsAt w.fl 5 3 == 0#3 && bitsAt w.fl 2 2 == 0#2 && w.fh &&& 0xBF#8 == 0#8)
      (.fredux w.hd (bitsAt w.fl 0 2) (bitAt w.fl 4) (bitAt w.fh 6) w.d w.a)
  | 0xE => onlyIf (bitsAt w.fl 1 7 == 0#7 && bitsAt w.fh 0 7 == 0#7)
      (.rdlane w.hd (bitAt w.fl 0) (bitAt w.fh 7) w.d w.a (if bitAt w.fl 0 then 0#8 else w.b))
  | _ => none

/-- Opcodes 0x50 to 0x5F (R240 to R245). -/
def decode5 (w : LongWord) : Nat → Option Instr
  | 0x0 => onlyIf w.fl0 (.fadd w.hd w.f w.d w.a w.b)
  | 0x1 => onlyIf w.fl0 (.fsub w.hd w.f w.d w.a w.b)
  | 0x2 => onlyIf w.fl0 (.fmul w.hd w.f w.d w.a w.b)
  | 0x3 => onlyIf w.fl0 (.ffma w.hd w.f w.d w.a w.b w.c)
  | 0x4 => onlyIf w.fl0 (.fmin w.hd w.f w.d w.a w.b)
  | 0x5 => onlyIf w.fl0 (.fmax w.hd w.f w.d w.a w.b)
  | 0x6 => onlyIf w.fl0 (.fdiv w.hd w.f w.d w.a w.b)
  | 0x7 => onlyIf w.fl0 (.fsqrt w.hd w.f w.d w.a)
  | 0x8 => onlyIf w.fl0 (.frcp w.hd w.f w.d w.a)
  | 0x9 => onlyIf w.fl0 (.frsq w.hd w.f w.d w.a)
  | 0xA => onlyIf w.fl0 (.fexp2 w.hd w.f w.d w.a w.b w.c)
  | 0xB => onlyIf w.fl0 (.flog2 w.hd w.f w.d w.a)
  | 0xC => onlyIf w.fl0 (.fsin w.hd w.f w.d w.a)
  | 0xD => onlyIf w.fl0 (.fcos w.hd w.f w.d w.a)
  | 0xE => onlyIf (bitsAt w.fl 1 7 == 0#7) (.frnd w.hd w.f (bitAt w.fl 0) w.d w.a)
  | 0xF => onlyIf (bitsAt w.fl 1 7 == 0#7 && w.fh == 0#8) (.fclass w.hd (bitAt w.fl 0) w.d w.a)
  | _ => none

/-- Opcodes 0x60 to 0x6C (R247 to R255). -/
def decode6 (w : LongWord) : Nat → Option Instr
  | 0x0 => onlyIf w.fl0 (.dadd w.hd w.f w.d w.a w.b)
  | 0x1 => onlyIf w.fl0 (.dmul w.hd w.f w.d w.a w.b)
  | 0x2 => onlyIf w.fl0 (.dfma w.hd w.f w.d w.a w.b w.c)
  | 0x3 => onlyIf w.fl0 (.ddiv w.hd w.f w.d w.a w.b)
  | 0x4 => onlyIf w.fl0 (.dsqrt w.hd w.f w.d w.a)
  | 0x5 => onlyIf (bitsAt w.fl 1 7 == 0#7) (.dminmax w.hd w.f (bitAt w.fl 0) w.d w.a w.b)
  | 0x6 => onlyIf (bitsAt w.fl 1 7 == 0#7) (.pkfma w.hd w.f (bitAt w.fl 0) w.d w.a w.b w.c)
  | 0x7 => onlyIf (bitsAt w.fl 1 7 == 0#7) (.pkadd w.hd w.f (bitAt w.fl 0) w.d w.a w.b)
  | 0x8 => onlyIf (bitsAt w.fl 1 7 == 0#7) (.pkmul w.hd w.f (bitAt w.fl 0) w.d w.a w.b)
  | 0x9 => onlyIf (bitsAt w.fl 5 3 == 0#3)
      (.cvt w.hd (bitsAt w.fl 0 5) (bitAt w.fh 7) (bitAt w.fh 6) (bitsAt w.fh 3 3) (bitsAt w.fh 0 3)
        w.d w.a)
  | 0xA => onlyIf (w.fl0 && w.fh5) (.qnt w.hd w.fh3 w.d w.a w.b)
  | 0xB => onlyIf (w.fl0 && w.fh5) (.dqnt w.hd w.fh3 w.d w.a)
  | 0xC => onlyIf (w.fl0 && w.fh5) (.scaleinit w.hd w.fh3 w.d w.a)
  | _ => none

/-- The base register field of an access, dropped under NB (R324). -/
def LongWord.baseReg (w : LongWord) (m : AccMod) : GReg := if m.nb then 0#8 else w.a

/-- Opcodes 0x70 to 0x7F (R324 to R349). -/
def decode7 (w : LongWord) : Nat → Option Instr
  | 0x0 => (AccMod.ofFn w.fh w.fl).map fun m => .ld w.hd m w.d (w.baseReg m) w.off16
  | 0x1 => (AccMod.ofFn w.fh w.fl).map fun m => .st w.hd m w.d (w.baseReg m) w.off16
  | 0x2 => (AccMod.ofFn w.fh w.fl).map fun m => .ldc w.hd m w.d (w.baseReg m) w.off16
  | 0x3 => (AtomMod.ofFn w.fh w.fl).map fun m => .atom w.hd m w.a w.b
  | 0x4 => (AtomMod.ofFn w.fh w.fl).map fun m =>
      .atomr w.hd m w.d w.a w.b (if m.aop == 7#4 then w.c else 0#8)
  | 0x5 => (AtomMod.ofFn w.fh w.fl).map fun m => .lr w.hd m w.d w.a
  | 0x6 => (predField w.d).bind fun d => (AtomMod.ofFn w.fh w.fl).map fun m => .sc w.hd m d w.a w.b
  | 0x7 =>
      if bitsAt w.fl 2 6 == 0#6 && bitsAt w.fh 5 3 == 0#3 then
        if bitAt w.fl 1 then
          some (.cstoreNf w.hd (bitAt w.fl 0) (bitsAt w.fh 3 2) w.fh3 w.d w.a w.b (bitsAt w.c 0 4)
            (bitsAt w.c 4 4))
        else (predField w.c).map fun ps =>
          .cstore w.hd (bitAt w.fl 0) (bitsAt w.fh 3 2) w.fh3 w.a w.b ps
      else none
  | 0x8 => onlyIf (w.fl0 && w.fh5) (.tload w.hd w.fh3 w.d w.a w.b)
  | 0x9 => onlyIf (w.fl0 && w.fh5) (.tstore w.hd w.fh3 w.d w.a w.b)
  | 0xA => onlyIf (bitsAt w.fl 2 6 == 0#6 && w.fh5) (.fence w.hd (bitsAt w.fl 0 2) w.fh3)
  | 0xB => onlyIf w.fn0 (.mon w.hd w.a)
  | 0xC => (predField w.d).bind fun d => onlyIf w.fn0 (.mwait w.hd d w.a)
  | 0xD =>
      if w.fh == 0#8 && bitsAt w.fl 1 7 == 0#7 then
        some (if bitAt w.fl 0 then .prefCl w.hd w.a w.b w.c else .prefCnt w.hd w.a w.b)
      else none
  | 0xE => onlyIf (w.fh == 0#8 && bitsAt w.fl 2 6 == 0#6) (.subs w.hd (bitsAt w.fl 0 2) w.a w.b w.c)
  | 0xF => onlyIf (w.fh == 0#8 && bitsAt w.fl 2 6 == 0#6) (.upgr w.hd (bitsAt w.fl 0 2) w.a w.b w.c)
  | _ => none

/-- Opcodes 0x80 to 0x89 (R348 to R360). -/
def decode8 (w : LongWord) : Nat → Option Instr
  | 0x0 => onlyIf (bitsAt w.fl 2 6 == 0#6 && w.fh5) (.copy w.hd (bitsAt w.fl 0 2) w.fh3 w.d w.a w.b)
  | 0x1 => onlyIf (w.fl0 && w.fh5) (.gath w.hd w.fh3 w.d w.a w.b w.c)
  | 0x2 => onlyIf (bitsAt w.fl 1 7 == 0#7 && w.fh == 0#8) (.pxfer w.hd (bitAt w.fl 0) w.d w.a w.b)
  | 0x3 => onlyIf (bitsAt w.fl 2 6 == 0#6 && w.b == 0#8 && w.c == 0#8 && bitsAt w.fh 6 2 == 0#2)
      (.waitc w.hd (bitsAt w.fl 0 2) (bitsAt w.fh 0 6))
  | 0x4 => onlyIf (bitsAt w.fl 2 6 == 0#6 && w.fh == 0#8) (.bankm w.hd (bitsAt w.fl 0 2) w.a)
  | 0x5 => onlyIf (bitsAt w.fl 1 7 == 0#7 && w.fh == 0#8)
      (.fpush w.hd (bitAt w.fl 0) w.b w.a)
  | 0x6 => onlyIf (bitsAt w.fl 1 7 == 0#7 && w.fh == 0#8)
      (.fpop w.hd (bitAt w.fl 0) w.d w.b)
  | 0x7 => onlyIf w.fn0 (.ovld w.hd w.a)
  | 0x8 => (AccMod.ofFn w.fh w.fl).map fun m => .lds w.hd m w.d w.a w.off16
  | 0x9 => onlyIf w.fn0 (.unsub w.hd w.a w.b w.c)
  | _ => none

/-- Opcodes 0x90 to 0x98 (R256 to R276). -/
def decode9 (w : LongWord) : Nat → Option Instr
  | 0x0 => onlyIf (w.fl0 && w.fh5 && w.accOk) (.mma w.hd w.acc w.a w.b w.fh3)
  | 0x1 => onlyIf (w.fl0 && w.fh5 && w.accOk) (.mmap w.hd w.acc w.a w.b w.fh3)
  | 0x2 => onlyIf (w.fl0 && w.fh5 && w.accOk) (.smv w.hd w.acc w.a w.b w.c w.fh3)
  | 0x3 => onlyIf (w.fn0 && w.accOk) (.aclr w.hd w.acc)
  | 0x4 => onlyIf (bitsAt w.fl 1 7 == 0#7 && w.fh5 && w.accOk)
      (.ald w.hd w.acc (bitAt w.fl 0) w.fh3 w.a w.b)
  | 0x5 => onlyIf (bitsAt w.fl 1 7 == 0#7 && w.fh5 && w.accOk)
      (.ast w.hd w.acc (bitAt w.fl 0) w.fh3 w.a w.b)
  | 0x6 =>
      if w.fh == 0#8 then
        match w.fl.toNat with
        | 0 => some (.batonTake w.hd)
        | 1 => some (.batonPass w.hd w.a)
        | 2 => some (.batonPassRing w.hd)
        | 3 => some (.batonRing w.hd w.a)
        | _ => none
      else none
  | 0x7 => onlyIf (bitsAt w.fl 2 6 == 0#6 && w.fh == 0#8 && w.accOk)
      (.abind w.hd w.acc (bitsAt w.fl 0 2))
  | 0x8 => onlyIf (w.fn0 && w.accOk) (.afree w.hd w.acc)
  | _ => none

/-- Opcodes 0xA0 to 0xAA (R467, R470 to R476). -/
def decodeA (w : LongWord) : Nat → Option Instr
  | 0x0 => onlyIf (w.fl0 && bitsAt w.fh 4 4 == 0#4) (.bar w.hd (bitsAt w.fh 0 4))
  | 0x1 => onlyIf (w.fl0 && bitsAt w.fh 4 4 == 0#4) (.bara w.hd (bitsAt w.fh 0 4))
  | 0x2 => onlyIf (w.fl0 && bitsAt w.fh 4 4 == 0#4) (.barw w.hd (bitsAt w.fh 0 4))
  | 0x3 => onlyIf w.fn0 (.phase w.hd)
  | 0x4 => onlyIf w.fn0 (.launch w.hd w.a)
  | 0x5 => onlyIf w.fn0 (.lwait w.hd w.a w.b)
  | 0x6 => (predField w.d).bind fun d => onlyIf w.fn0 (.graph w.hd d w.a)
  | 0x7 => onlyIf w.fn0 (.sbnd w.hd w.a)
  | 0x8 => onlyIf (bitsAt w.fl 1 7 == 0#7) (.traprd w.hd (bitAt w.fl 0) w.d w.fh)
  | 0x9 => onlyIf (w.fl0 && w.b == 0#8 && w.c == 0#8) (.sysr w.hd w.fh w.d)
  | 0xA => onlyIf (w.fl0 && w.b == 0#8 && w.c == 0#8) (.sysw w.hd w.fh w.a)
  | _ => none

/-- The instruction the fields spell, before the checks of `Instr.legal` (R84). -/
def LongWord.spell (w : LongWord) : Option Instr :=
  let lo := w.op.toNat % 16
  match w.op.toNat / 16 with
  | 0x0 => decode0 w lo
  | 0x1 => decode1 w lo
  | 0x2 => decode2 w lo
  | 0x3 => decode3 w lo
  | 0x4 => decode4 w lo
  | 0x5 => decode5 w lo
  | 0x6 => decode6 w lo
  | 0x7 => decode7 w lo
  | 0x8 => decode8 w lo
  | 0x9 => decode9 w lo
  | 0xA => decodeA w lo
  | _ => none

/-- The fields with the FE bits cleared that govern no source of the instruction they spell (R70). -/
def LongWord.dropFe (w : LongWord) : LongWord :=
  match w.spell with
  | some i => { w with fe := w.fe &&& i.uses.feMask }
  | none => w

/-- The long-form instruction of a code word, or none where the word raises ILLEGAL (R86). -/
def decodeLong (w : LongWord) : Option Instr :=
  match w.dropFe.spell with
  | some i => if i.legal then some i else none
  | none => none

/-- The instruction the spine issues for a code word: what it decodes to, or the row of reserved words,
which raises ILLEGAL (R83, R86). -/
def decodeWord (x : BitVec 64) : Instr :=
  match decodeLong (LongWord.ofBits x) with
  | some i => i
  | none => .reservedOpcode x

/-! ## The decoder of the short form -/

/-- SOP of a parcel (R75). -/
def sopOf (x : BitVec 16) : Nat := (bitsAt x 9 7).toNat
/-- W of a parcel (R75). -/
def pw (x : BitVec 16) : BitVec 3 := bitsAt x 6 3
/-- M of a parcel (R75). -/
def pm (x : BitVec 16) : BitVec 6 := bitsAt x 0 6
/-- The modifiers of a value parcel (R128). -/
def PMod.ofBits (x : BitVec 16) : PMod :=
  { sg := bitAt x 5, c := bitAt x 4, n := bitAt x 3, q := bitAt x 2 }
/-- The M field of a value parcel (R128). -/
def PMod.toBits (m : PMod) : BitVec 6 := b1 m.sg ++ b1 m.c ++ b1 m.n ++ b1 m.q ++ 0#2
/-- The window of a value parcel, dropped when the source is the carry (R128). -/
def pwc (x : BitVec 16) : BitVec 3 := if bitAt x 4 then 0#3 else pw x

/-- A value parcel: its reserved bits are zero (R128). -/
def valueParcel (x : BitVec 16) (i : Instr) : Option Instr := onlyIf (bitsAt x 0 2 == 0#2) i

/-- SOP 0x00 to 0x0F (R132 to R141). -/
def parcel0 (x ext : BitVec 16) : Nat → Option Instr
  | 0x00 => some .anop
  | 0x01 => some .aend
  | 0x02 => some (.arep (pm x))
  | 0x03 => valueParcel x (.amov (.ofBits x) (pwc x))
  | 0x04 => onlyIf (bitsAt x 2 4 == 0#4) (.amovi (bitAt x 0) (bitAt x 1) ext)
  | 0x05 => valueParcel x (.movc (.ofBits x) (pw x))
  | 0x06 => valueParcel x (.axch (.ofBits x))
  | 0x07 => some (.aput (bitsAt x 6 2))
  | 0x08 => valueParcel x (.afadd (.ofBits x) (pwc x))
  | 0x09 => valueParcel x (.afsub (.ofBits x) (pwc x))
  | 0x0A => valueParcel x (.afrsub (.ofBits x) (pwc x))
  | 0x0B => valueParcel x (.afmul (.ofBits x) (pwc x))
  | 0x0C => valueParcel x (.afmac (.ofBits x) (pwc x))
  | 0x0D => valueParcel x (.afmsc (.ofBits x) (pwc x))
  | 0x0E => valueParcel x (.afmin (.ofBits x) (pwc x))
  | 0x0F => valueParcel x (.afmax (.ofBits x) (pwc x))
  | _ => none

/-- SOP 0x10 to 0x1F (R135 to R143). -/
def parcel1 (x : BitVec 16) : Nat → Option Instr
  | 0x00 => valueParcel x (.afabs (.ofBits x))
  | 0x01 => valueParcel x (.afrcp (.ofBits x))
  | 0x02 => valueParcel x (.afrsq (.ofBits x))
  | 0x03 => valueParcel x (.afdiv (.ofBits x) (pwc x))
  | 0x04 => valueParcel x (.aexp2 (.ofBits x) (pw x))
  | 0x05 => valueParcel x (.alog2 (.ofBits x))
  | 0x06 => valueParcel x (.aiadd (.ofBits x) (pwc x))
  | 0x07 => valueParcel x (.aisub (.ofBits x) (pwc x))
  | 0x08 => valueParcel x (.aimul (.ofBits x) (pwc x))
  | 0x09 => valueParcel x (.aimulh (.ofBits x) (pwc x))
  | 0x0A => valueParcel x (.aand (.ofBits x) (pwc x))
  | 0x0B => valueParcel x (.aor (.ofBits x) (pwc x))
  | 0x0C => valueParcel x (.axor (.ofBits x) (pwc x))
  | 0x0D => some (.ashl (bitAt x 5) (bitsAt x 0 5) (if bitsAt x 0 5 == 0#5 then pw x else 0#3))
  | 0x0E => some (.ashr (bitAt x 5) (bitsAt x 0 5) (if bitsAt x 0 5 == 0#5 then pw x else 0#3))
  | 0x0F => some (.acmp (bitAt x 5) (bitsAt x 3 2) (bitsAt x 0 3) (if bitAt x 5 then 0#3 else pw x))
  | _ => none

/-- SOP 0x20 to 0x25 (R135, R144 to R148). -/
def parcel2 (x : BitVec 16) : Nat → Option Instr
  | 0x00 => valueParcel x (.asel (.ofBits x) (pwc x))
  | 0x01 => onlyIf (bitsAt x 4 2 == 0#2) (.acvt (bitsAt x 0 4))
  | 0x02 => onlyIf (bitAt x 3 == false)
      (.ashfl (bitsAt x 4 2) (bitsAt x 0 3) (if bitsAt x 4 2 == 3#2 then pw x else 0#3))
  | 0x03 => onlyIf (bitsAt x 2 4 == 0#4) (.ared (bitsAt x 0 2))
  | 0x04 => onlyIf (bitsAt x 4 2 == 0#2) (.aslc (bitsAt x 3 1 ++ bitsAt x 0 2) (bitAt x 2) (pw x))
  | 0x05 => onlyIf (bitsAt x 4 2 == 0#2) (.asts (bitsAt x 3 1 ++ bitsAt x 0 2) (bitAt x 2) (pw x))
  | _ => none

/-- The strand instruction of a parcel, with the parcel that follows it for AMOVI; none where the parcel
raises ILLEGAL (R77, R85, R131). -/
def decodeParcel (x ext : BitVec 16) : Option Instr :=
  let i := match sopOf x / 16 with
    | 0 => parcel0 x ext (sopOf x % 16)
    | 1 => parcel1 x (sopOf x % 16)
    | 2 => parcel2 x (sopOf x % 16)
    | _ => none
  match i with
  | some i => if i.legal then some i else none
  | none => none

/-- The instruction a strand issues for a parcel: what it decodes to, or the row of reserved parcels. -/
def decodeShort (x ext : BitVec 16) : Instr :=
  match decodeParcel x ext with
  | some i => i
  | none => .reservedSop x

/-- Whether a parcel takes an extension parcel (R77). -/
def isAmovi (x : BitVec 16) : Bool := sopOf x == 0x04

/-- The instruction the decoder reads from the bits of an opcode-table row: a parcel with the parcel after it
when the row gives 16 or 32 bits, a code word when it gives 64. -/
def decodeTableWord (nbits w : Nat) : Option Instr :=
  if nbits = 64 then decodeLong (LongWord.ofBits (BitVec.ofNat 64 w))
  else if nbits ≤ 32 then
    decodeParcel (BitVec.ofNat 16 w) (BitVec.ofNat 16 (w / 65536))
  else none

/-! ## The encoder -/

/-- A code word from its opcode, guard and the fields of the register form; fields left out are zero. -/
def mkWord (op : Byte) (h : Hd) (d : Byte := 0) (a : Byte := 0) (b : Byte := 0) (c : Byte := 0)
    (fh : Byte := 0) (fl : Byte := 0) : LongWord :=
  { op := op, gp := h.gp, gn := h.gn, fe := h.fe, d := d, a := a, b := b, c := c, fh := fh, fl := fl }

/-- A code word of the IMM24 form (R71). -/
def immWord (op : Byte) (h : Hd) (imm : BitVec 24) (d : Byte := 0) (a : Byte := 0) (fl : Byte := 0) :
    LongWord :=
  mkWord op h d a (bitsAt imm 16 8) (bitsAt imm 8 8) (bitsAt imm 0 8) fl

/-- A code word whose bits 31:24 and 23:8 hold an overlay and an offset (R116). -/
def codeWord (op : Byte) (h : Hd) (ovl : Byte) (off : BitVec 16) (d : Byte := 0) : LongWord :=
  mkWord op h d 0 ovl (bitsAt off 8 8) (bitsAt off 0 8) 0

/-- A code word of the access form (R324). -/
def accWord (op : Byte) (h : Hd) (m : AccMod) (d a : Byte) (off : BitVec 16) : LongWord :=
  mkWord op h d a (bitsAt off 8 8) (bitsAt off 0 8) m.hi m.lo

/-- A four-bit field in the low nibble of a byte. -/
def nib (x : BitVec 4) : Byte := 0#4 ++ x
/-- A three-bit field in the low bits of a byte. -/
def low3 (x : BitVec 3) : Byte := 0#5 ++ x
/-- A two-bit field in the low bits of a byte. -/
def low2 (x : BitVec 2) : Byte := 0#6 ++ x
/-- One bit in bit 0 of a byte. -/
def low1 (x : Bool) : Byte := 0#7 ++ b1 x

/-- The header of REP and ERET: always executed, FE zero (R176, R466). -/
def hdAll : Hd := { gp := 15#4, gn := false, fe := 0#3 }

/-- The code word of a long-form instruction; none for a parcel or an event. Ignored fields are zero (R70). -/
def encodeLong : Instr → Option LongWord
  | .nop h => some (mkWord 0x00 h)
  | .rep str n => some (mkWord 0x01 hdAll 0 0 0 (nib str) n 0)
  | .bra h t j => some (mkWord 0x02 h 0 (bitsAt t 12 8) (bitsAt t 4 8) (bitsAt t 0 4 ++ bitsAt j 16 4)
      (bitsAt j 8 8) (bitsAt j 0 8))
  | .jmp h o f => some (codeWord 0x03 h o f)
  | .jmpi h a => some (mkWord 0x04 h 0 a)
  | .call h o f => some (codeWord 0x05 h o f)
  | .calli h a => some (mkWord 0x06 h 0 a)
  | .ret h => some (mkWord 0x07 h)
  | .exit h => some (mkWord 0x08 h)
  | .trap h code => some (immWord 0x09 h code)
  | .wsync h a => some (mkWord 0x0A h 0 a)
  | .yield h => some (mkWord 0x0B h)
  | .bkpt h code => some (immWord 0x0C h code)
  | .eret => some (mkWord 0x0D hdAll)
  | .strand h k o f => some (codeWord 0x10 h o f (low3 k))
  | .waits h m => some (mkWord 0x11 h 0 0 0 0 m 0)
  | .squash h m => some (mkWord 0x12 h 0 0 0 0 m 0)
  | .icmp h m cond d a b => some (mkWord 0x18 h (nib d) a b 0 m.toByte (low3 cond))
  | .icmpi h cond sg d a imm => some (immWord 0x19 h imm (nib d) a (0#3 ++ sg ++ cond))
  | .fcmp h f cond d a b => some (mkWord 0x1A h (nib d) a b 0 f.toByte (low3 cond))
  | .dcmp h f cond d a b => some (mkWord 0x1B h (nib d) a b 0 f.toByte (low3 cond))
  | .plop h d a b c lut => some (mkWord 0x1C h (nib d) a.toByte (nib b) (nib c) lut 0)
  | .p2g h d => some (mkWord 0x1D h d)
  | .g2p h a mask => some (mkWord 0x1E h 0 a 0 (nib (bitsAt mask 8 4)) (bitsAt mask 0 8) 0)
  | .sel h m d a b p => some (mkWord 0x1F h d a b p.toByte m.toByte 0)
  | .iadd h m d a b => some (mkWord 0x20 h d a b 0 m.toByte 0)
  | .iaddi h d a imm => some (immWord 0x21 h imm d a)
  | .isub h m d a b => some (mkWord 0x22 h d a b 0 m.toByte 0)
  | .imul h m d a b => some (mkWord 0x23 h d a b 0 m.toByte 0)
  | .imulh h m d a b => some (mkWord 0x24 h d a b 0 m.toByte 0)
  | .imad h m d a b c => some (mkWord 0x25 h d a b c m.toByte 0)
  | .imadw h m d a b c => some (mkWord 0x26 h d a b c m.toByte 0)
  | .idiv h m d a b => some (mkWord 0x27 h d a b 0 m.toByte 0)
  | .irem h m d a b => some (mkWord 0x28 h d a b 0 m.toByte 0)
  | .imin h m d a b => some (mkWord 0x29 h d a b 0 m.toByte 0)
  | .imax h m d a b => some (mkWord 0x2A h d a b 0 m.toByte 0)
  | .iabs h m d a => some (mkWord 0x2B h d a 0 0 m.toByte 0)
  | .iaddx h d a b p => some (mkWord 0x2C h d a b (nib p))
  | .iadd64 h m d a b => some (mkWord 0x2D h d a b 0 m.toByte 0)
  | .lea h sg sh d a b => some (mkWord 0x2E h d a b 0 (0#4 ++ sh ++ b1 sg) 0)
  | .isubx h d a b p => some (mkWord 0x2F h d a b (nib p))
  | .and h m inv d a b => some (mkWord 0x30 h d a b 0 m.toByte (low1 inv))
  | .or h m inv d a b => some (mkWord 0x31 h d a b 0 m.toByte (low1 inv))
  | .xor h m inv d a b => some (mkWord 0x32 h d a b 0 m.toByte (low1 inv))
  | .lopi h op d a imm => some (immWord 0x33 h imm d a (low2 op))
  | .lsl h m d a b => some (mkWord 0x34 h d a b 0 m.toByte 0)
  | .lsr h m d a b => some (mkWord 0x35 h d a b 0 m.toByte 0)
  | .asr h m d a b => some (mkWord 0x36 h d a b 0 m.toByte 0)
  | .rot h m d a b => some (mkWord 0x37 h d a b 0 m.toByte 0)
  | .shi h op d a n => some (mkWord 0x38 h d a 0 0 (0#3 ++ n) (low2 op))
  | .bfe h m d a b => some (mkWord 0x39 h d a b 0 m.toByte 0)
  | .bfi h m d a b c => some (mkWord 0x3A h d a b c m.toByte 0)
  | .popc h m d a => some (mkWord 0x3B h d a 0 0 m.toByte 0)
  | .clz h m d a => some (mkWord 0x3C h d a 0 0 m.toByte 0)
  | .ffs h m d a => some (mkWord 0x3D h d a 0 0 m.toByte 0)
  | .brev h m d a => some (mkWord 0x3E h d a 0 0 m.toByte 0)
  | .mov h m d a => some (mkWord 0x3F h d a 0 0 m.toByte 0)
  | .movi h d imm => some (mkWord 0x40 h d 0 (bitsAt imm 24 8) (bitsAt imm 16 8) (bitsAt imm 8 8)
      (bitsAt imm 0 8))
  | .movs h idx d => some (mkWord 0x41 h d 0 0 0 0 idx)
  | .sets h a => some (mkWord 0x42 h 0 a 0 0 0 0x13)
  | .shfl h m mode d a b => some (mkWord 0x48 h d a b 0 m.toByte (low2 mode))
  | .vote h mode d a => some (mkWord 0x49 h d a.toByte 0 0 0 (low2 mode))
  | .mbcnt h add d a b => some (mkWord 0x4A h d a b 0 0 (low1 add))
  | .matchLanes h ty d a => some (mkWord 0x4B h d a 0 0 0 (low2 ty))
  | .redux h m op d a => some (mkWord 0x4C h d a 0 0 m.toByte (low3 op))
  | .fredux h op f64 fz d a =>
    some (mkWord 0x4D h d a 0 0 (0#1 ++ b1 fz ++ 0#6) (0#3 ++ b1 f64 ++ 0#2 ++ op))
  | .rdlane h first w64 d a b => some (mkWord 0x4E h d a b 0 (b1 w64 ++ 0#7) (low1 first))
  | .fadd h f d a b => some (mkWord 0x50 h d a b 0 f.toByte 0)
  | .fsub h f d a b => some (mkWord 0x51 h d a b 0 f.toByte 0)
  | .fmul h f d a b => some (mkWord 0x52 h d a b 0 f.toByte 0)
  | .ffma h f d a b c => some (mkWord 0x53 h d a b c f.toByte 0)
  | .fmin h f d a b => some (mkWord 0x54 h d a b 0 f.toByte 0)
  | .fmax h f d a b => some (mkWord 0x55 h d a b 0 f.toByte 0)
  | .fdiv h f d a b => some (mkWord 0x56 h d a b 0 f.toByte 0)
  | .fsqrt h f d a => some (mkWord 0x57 h d a 0 0 f.toByte 0)
  | .frcp h f d a => some (mkWord 0x58 h d a 0 0 f.toByte 0)
  | .frsq h f d a => some (mkWord 0x59 h d a 0 0 f.toByte 0)
  | .fexp2 h f d a b c => some (mkWord 0x5A h d a b c f.toByte 0)
  | .flog2 h f d a => some (mkWord 0x5B h d a 0 0 f.toByte 0)
  | .fsin h f d a => some (mkWord 0x5C h d a 0 0 f.toByte 0)
  | .fcos h f d a => some (mkWord 0x5D h d a 0 0 f.toByte 0)
  | .frnd h f x d a => some (mkWord 0x5E h d a 0 0 f.toByte (low1 x))
  | .fclass h f64 d a => some (mkWord 0x5F h d a 0 0 0 (low1 f64))
  | .dadd h f d a b => some (mkWord 0x60 h d a b 0 f.toByte 0)
  | .dmul h f d a b => some (mkWord 0x61 h d a b 0 f.toByte 0)
  | .dfma h f d a b c => some (mkWord 0x62 h d a b c f.toByte 0)
  | .ddiv h f d a b => some (mkWord 0x63 h d a b 0 f.toByte 0)
  | .dsqrt h f d a => some (mkWord 0x64 h d a 0 0 f.toByte 0)
  | .dminmax h f mx d a b => some (mkWord 0x65 h d a b 0 f.toByte (low1 mx))
  | .pkfma h f bf d a b c => some (mkWord 0x66 h d a b c f.toByte (low1 bf))
  | .pkadd h f bf d a b => some (mkWord 0x67 h d a b 0 f.toByte (low1 bf))
  | .pkmul h f bf d a b => some (mkWord 0x68 h d a b 0 f.toByte (low1 bf))
  | .cvt h code sat fz rm slot d a =>
    some (mkWord 0x69 h d a 0 0 (b1 sat ++ b1 fz ++ rm ++ slot) (0#3 ++ code))
  | .qnt h slot d a b => some (mkWord 0x6A h d a b 0 (low3 slot) 0)
  | .dqnt h slot d a => some (mkWord 0x6B h d a 0 0 (low3 slot) 0)
  | .scaleinit h slot d a => some (mkWord 0x6C h d a 0 0 (low3 slot) 0)
  | .ld h m d a off => some (accWord 0x70 h m d a off)
  | .st h m d a off => some (accWord 0x71 h m d a off)
  | .ldc h m d a off => some (accWord 0x72 h m d a off)
  | .atom h m a b => some (mkWord 0x73 h 0 a b 0 m.hi m.lo)
  | .atomr h m d a b c => some (mkWord 0x74 h d a b c m.hi m.lo)
  | .lr h m d a => some (mkWord 0x75 h d a 0 0 m.hi m.lo)
  | .sc h m d a b => some (mkWord 0x76 h (nib d) a b 0 m.hi m.lo)
  | .cstore h w64 ord scope a b ps =>
    some (mkWord 0x77 h 0 a b (nib ps) (0#3 ++ ord ++ scope) (0#7 ++ b1 w64))
  | .cstoreNf h w64 ord scope d a b ps pf =>
    some (mkWord 0x77 h d a b (pf ++ ps) (0#3 ++ ord ++ scope) (0#6 ++ 1#1 ++ b1 w64))
  | .tload h scope d a b => some (mkWord 0x78 h d a b 0 (low3 scope) 0)
  | .tstore h scope d a b => some (mkWord 0x79 h d a b 0 (low3 scope) 0)
  | .fence h kind scope => some (mkWord 0x7A h 0 0 0 0 (low3 scope) (low2 kind))
  | .mon h a => some (mkWord 0x7B h 0 a)
  | .mwait h d a => some (mkWord 0x7C h (nib d) a)
  | .prefCnt h a b => some (mkWord 0x7D h 0 a b 0 0 0)
  | .prefCl h a b c => some (mkWord 0x7D h 0 a b c 0 1)
  | .subs h fmt a b c => some (mkWord 0x7E h 0 a b c 0 (low2 fmt))
  | .upgr h fmt a b c => some (mkWord 0x7F h 0 a b c 0 (low2 fmt))
  | .copy h dir scope d a b => some (mkWord 0x80 h d a b 0 (low3 scope) (low2 dir))
  | .gath h scope d a b c => some (mkWord 0x81 h d a b c (low3 scope) 0)
  | .pxfer h get d a b => some (mkWord 0x82 h d a b 0 0 (low1 get))
  | .waitc h cls n => some (mkWord 0x83 h 0 0 0 0 (0#2 ++ n) (low2 cls))
  | .bankm h mode a => some (mkWord 0x84 h 0 a 0 0 0 (low2 mode))
  | .fpush h w64 j a => some (mkWord 0x85 h 0 a j 0 0 (low1 w64))
  | .fpop h w64 d j => some (mkWord 0x86 h d 0 j 0 0 (low1 w64))
  | .ovld h a => some (mkWord 0x87 h 0 a)
  | .lds h m d a off => some (accWord 0x88 h m d a off)
  | .unsub h a b c => some (mkWord 0x89 h 0 a b c)
  | .mma h k a b slot => some (mkWord 0x90 h (low3 k) a b 0 (low3 slot) 0)
  | .mmap h k a b slot => some (mkWord 0x91 h (low3 k) a b 0 (low3 slot) 0)
  | .smv h k a b c slot => some (mkWord 0x92 h (low3 k) a b c (low3 slot) 0)
  | .aclr h k => some (mkWord 0x93 h (low3 k))
  | .ald h k glob scope a b => some (mkWord 0x94 h (low3 k) a b 0 (low3 scope) (low1 glob))
  | .ast h k glob scope a b => some (mkWord 0x95 h (low3 k) a b 0 (low3 scope) (low1 glob))
  | .batonTake h => some (mkWord 0x96 h)
  | .batonPass h a => some (mkWord 0x96 h 0 a 0 0 0 1)
  | .batonPassRing h => some (mkWord 0x96 h 0 0 0 0 0 2)
  | .batonRing h a => some (mkWord 0x96 h 0 a 0 0 0 3)
  | .abind h k kind => some (mkWord 0x97 h (low3 k) 0 0 0 0 (low2 kind))
  | .afree h k => some (mkWord 0x98 h (low3 k))
  | .bar h n => some (mkWord 0xA0 h 0 0 0 0 (nib n) 0)
  | .bara h n => some (mkWord 0xA1 h 0 0 0 0 (nib n) 0)
  | .barw h n => some (mkWord 0xA2 h 0 0 0 0 (nib n) 0)
  | .phase h => some (mkWord 0xA3 h)
  | .launch h a => some (mkWord 0xA4 h 0 a)
  | .lwait h a b => some (mkWord 0xA5 h 0 a b)
  | .graph h d a => some (mkWord 0xA6 h (nib d) a)
  | .sbnd h a => some (mkWord 0xA7 h 0 a)
  | .traprd h w64 d off => some (mkWord 0xA8 h d 0 0 0 off (low1 w64))
  | .sysr h idx d => some (mkWord 0xA9 h d 0 0 0 idx 0)
  | .sysw h idx a => some (mkWord 0xAA h 0 a 0 0 idx 0)
  | _ => none

/-- A parcel from SOP, W and M (R75). -/
def mkParcel (sop : BitVec 7) (w : BitVec 3) (m : BitVec 6) : BitVec 16 := sop ++ w ++ m

/-- The parcels of a strand instruction: one, or two for AMOVI (R77); none for other rows. -/
def encodeParcels : Instr → List (BitVec 16)
  | .anop => [mkParcel 0x00 0 0]
  | .aend => [mkParcel 0x01 0 0]
  | .arep n => [mkParcel 0x02 0 n]
  | .amov m w => [mkParcel 0x03 w m.toBits]
  | .amovi hi keep imm => [mkParcel 0x04 0 (0#4 ++ b1 keep ++ b1 hi), imm]
  | .movc m w => [mkParcel 0x05 w m.toBits]
  | .axch m => [mkParcel 0x06 0 m.toBits]
  | .aput o => [mkParcel 0x07 (0#1 ++ o) 0]
  | .afadd m w => [mkParcel 0x08 w m.toBits]
  | .afsub m w => [mkParcel 0x09 w m.toBits]
  | .afrsub m w => [mkParcel 0x0A w m.toBits]
  | .afmul m w => [mkParcel 0x0B w m.toBits]
  | .afmac m w => [mkParcel 0x0C w m.toBits]
  | .afmsc m w => [mkParcel 0x0D w m.toBits]
  | .afmin m w => [mkParcel 0x0E w m.toBits]
  | .afmax m w => [mkParcel 0x0F w m.toBits]
  | .afabs m => [mkParcel 0x10 0 m.toBits]
  | .afrcp m => [mkParcel 0x11 0 m.toBits]
  | .afrsq m => [mkParcel 0x12 0 m.toBits]
  | .afdiv m w => [mkParcel 0x13 w m.toBits]
  | .aexp2 m w => [mkParcel 0x14 w m.toBits]
  | .alog2 m => [mkParcel 0x15 0 m.toBits]
  | .aiadd m w => [mkParcel 0x16 w m.toBits]
  | .aisub m w => [mkParcel 0x17 w m.toBits]
  | .aimul m w => [mkParcel 0x18 w m.toBits]
  | .aimulh m w => [mkParcel 0x19 w m.toBits]
  | .aand m w => [mkParcel 0x1A w m.toBits]
  | .aor m w => [mkParcel 0x1B w m.toBits]
  | .axor m w => [mkParcel 0x1C w m.toBits]
  | .ashl sg cnt w => [mkParcel 0x1D w (b1 sg ++ cnt)]
  | .ashr sg cnt w => [mkParcel 0x1E w (b1 sg ++ cnt)]
  | .acmp c ty cond w => [mkParcel 0x1F w (b1 c ++ ty ++ cond)]
  | .asel m w => [mkParcel 0x20 w m.toBits]
  | .acvt code => [mkParcel 0x21 0 (0#2 ++ code)]
  | .ashfl mode lg w => [mkParcel 0x22 w (mode ++ 0#1 ++ lg)]
  | .ared op => [mkParcel 0x23 0 (0#4 ++ op)]
  | .aslc g hi w => [mkParcel 0x24 w (0#2 ++ bitsAt g 2 1 ++ b1 hi ++ bitsAt g 0 2)]
  | .asts g hi w => [mkParcel 0x25 w (0#2 ++ bitsAt g 2 1 ++ b1 hi ++ bitsAt g 0 2)]
  | _ => []

end Sys2Proof
end

