-- ==== Sys2Proof/WellFormed.lean ====
section
/-! DEFINITION. Well-formed instructions: those whose encoding the device accepts (R86). The checks are those of
`Instr.legal`, which the decoder makes. -/

namespace Sys2Proof

/-- The instruction is one that a code word or a parcel can spell and that raises no ILLEGAL by its encoding
alone: guard, predicates, pairs and modifiers (R69 to R74, R86); an event is always well formed. -/
def Instr.wf (i : Instr) : Bool := i.legal

/-- `Instr.wf` as a proposition. -/
abbrev Instr.WellFormed (i : Instr) : Prop := i.wf = true

end Sys2Proof
end

