-- ==== Sys2Proof/Machine/State.lean ====
section
/-! DEFINITION. The state of the device as plain data, the reasons a step can stop, and the state after reset.
INVENTORY.md lists each field with the rule that names it and its reset value. -/

namespace Sys2Proof.Machine

/-- Why the machine stops. -/
inductive Fault where
  /-- Raised by the spine's turn of a warp whose save area a program has written while the warp was in no handler: the spec
  makes the warp's control flow undefined and gives no effect (R168; log 19). Safe: the hardware may go on. -/
  | controlFlowUndefined
  deriving DecidableEq, Repr

/-- Why an instruction has no meaning. -/
inductive Refusal where
  /-- Raised by an arm of `exec` whose instruction is not modelled. Safe: nothing follows from it. -/
  | notModelled (mnemonic : String)
  deriving DecidableEq, Repr

/-! ## A warp -/

/-- A general register of a warp: its lanes, the poisoned lanes and the presence bit (R26, R38, R453). -/
structure Reg where
  val : Lanes Word
  poison : Mask
  full : Bool
  deriving DecidableEq, Repr

/-- A predicate of a warp: its lanes, the poisoned lanes, and whether its value has been written (R336, R474). -/
structure PReg where
  val : Mask
  poison : Mask
  ready : Bool
  deriving DecidableEq, Repr

/-- A window slot of a segment: the register it is filled from, and its value once written (R31, R32). -/
structure Window where
  src : GReg
  ready : Bool
  val : Lanes Word
  poison : Mask
  deriving DecidableEq, Repr

/-- A queued or running segment (R31, R79): its header, mask, windows, the outputs already put, whether it has
started, whether none of its parcels has issued yet (R34), its strand PC, the clock in which its STRAND issued, and
the place of that STRAND in the order of issue (R150, R258). -/
structure Segment where
  base : Word
  hdr : BitVec 128
  mask : Mask
  win : List Window
  puts : BitVec 4
  started : Bool
  fresh : Bool
  pc : Word
  at_ : Nat
  seq : Nat
  deriving DecidableEq, Repr

/-- The kinds of accumulator tile (R261). -/
inductive TileKind where
  | t128 | t64 | t64d | t128p
  deriving DecidableEq, Repr

/-- A tile element: 32 bits, or 64 in a t64d, with its poison mark (R261, R453). -/
structure TElem where
  bits : BitVec 64
  poison : Bool
  deriving DecidableEq, Repr

/-- A bound tile (R261): the elements that are not +0, by row times width plus column; the suspect mark (R278);
and whether an array operation wrote it since the last passing self-test. -/
structure Tile where
  kind : TileKind
  elems : List (Nat × TElem)
  suspect : Bool
  untested : Bool
  deriving DecidableEq, Repr

/-- An element that an ASTS writes: the clock at which it lands in the bound tile, its row and column, the half that a t64d
takes, and the value (R124, R125, R148). -/
structure TilePut where
  due : Nat
  row : Nat
  col : Nat
  hi : Bool
  val : Word
  deriving DecidableEq, Repr

/-- A strand: accumulator, carry, strand predicate with their poisoned lanes, segments oldest first, the
repetitions still to come (R134), the bound tile, the earliest clock of its next issue (R47, R23) and the age of
its next parcel (R433). -/
structure Strand where
  acc : Lanes Word
  carry : Lanes Word
  q : Mask
  accP : Mask
  carryP : Mask
  qP : Mask
  segs : List Segment
  arep : Nat
  tile : Option Tile
  earliest : Nat
  /-- the clocks from which the accumulator, the carry and the strand predicate have every result that was on its way
  (R124, R125) -/
  accAt : Nat
  carryAt : Nat
  qAt : Nat
  /-- the elements that ASTS have written and that have not landed in the bound tile, oldest first (R125, R148) -/
  tilePuts : List TilePut
  age : Nat
  deriving DecidableEq, Repr

/-- An entry of the divergence stack (R161), with the rejoin set of a parked path (R165). -/
structure DEntry where
  pc : Word
  mask : Mask
  join : Word
  path : Bool
  park : Bool
  pid : BitVec 16
  rejoin : Mask
  deriving DecidableEq, Repr

/-- An entry of the call stack (R161, R167). -/
structure CEntry where
  pc : Word
  pid : BitVec 16
  deriving DecidableEq, Repr

/-- A REP in progress: repetitions still to come, the number of the next one, and STR (R176, R178). -/
structure Rep where
  left : Nat
  idx : Nat
  str : BitVec 4
  deriving DecidableEq, Repr

/-- The causes of traps (R434). -/
inductive Cause where
  | illegal | fmtslot | empty | targetMismatch | partialMask | fpexc | idiv0 | ovmiss | align | memfault
  | poison | software | brk | step | rejoinCycle | stackOverflow | versionOverflow | poolRegion | scope
  | segment | accShape | suspectTile
  deriving DecidableEq, Repr

/-- A trap as it was raised (R434, R437): the unit is 0 for the spine and K + 1 for strand aK; `spc` and `xmask`
are those of the trapped path. -/
structure Trap where
  cause : Cause
  unit : Nat
  lmask : Mask
  faddr : DWord
  extra : DWord
  engine : Bool
  rept : Bool
  stepped : Bool
  spc : Word
  xmask : Mask
  pid : BitVec 16
  at_ : Nat
  deriving DecidableEq, Repr

/-- What a trap record holds beside the trap: the strand PCs, the strands' SBASE, and where the warp stood (R440, R441). -/
structure Snap where
  stpc : List Word
  sbase : List Word
  core : Nat
  slot : Nat
  half : Nat
  deriving DecidableEq, Repr

/-- What the spine waits for (R432, R456). -/
inductive Wait where
  | reg (r : Nat)
  /-- the output register of a STRAND, which is no blocking point (R41, R117) -/
  | output (r : Nat)
  | pred (p : Nat)
  | segments
  | access
  | fence
  | bar (n : Nat)
  | mwait
  | lwait
  | launch
  | baton
  | fpop
  | fpush
  | engine
  | phase
  | graph
  | slot
  deriving DecidableEq, Repr

/-- The MON watch as the warp knows it (R343, R344). -/
inductive WatchSt where
  | none | armed | fired | lost
  deriving DecidableEq, Repr

/-- A put whose broadcast is on its way (R43): register, accumulator of the segment, and the clock of its delivery. -/
structure Bcast where
  r : GReg
  k : Nat
  due : Nat
  deriving DecidableEq, Repr

/-- What a write held under WB waits for (R322): the invalidation that follows the switch of its leaf to WB 0 has not
begun, is in progress, or has completed. -/
inductive HoldSt where
  | waiting | covered | over
  deriving DecidableEq, Repr

/-- Where a run of bytes of an engine operation lies: at a physical address; in a page that is WB, whose leaf named a
physical address, so that what is written to it is held and translated anew (R322); or in the scratch of a core of the
group. -/
inductive Place where
  | phys (pa : Nat)
  | virt (pa : Nat) (wb : HoldSt)
  | scr (pos off : Nat)
  deriving DecidableEq, Repr

/-- A run of bytes with its length, the virtual address at which it was named, whether its page counts accesses
(R319), and the address of the leaf whose D bit a write through it sets (R315). -/
structure Run where
  place : Place
  len : Nat
  va : Nat
  acc : Bool
  pte : Option Nat
  /-- its page has STACKL (R315) -/
  through : Bool
  deriving DecidableEq, Repr

/-- What an engine operation does once the writes that it has made are performed: it completes, it fails, or a TSTORE.all
goes on with its data and then with its version word, whose value it found (R340, R485). -/
inductive EngNext where
  | done
  | fail (code : Nat) (faddr : DWord)
  | data (ver src dst : List Run) (v : Nat)
  | version (ver : List Run) (v : Nat)
  deriving DecidableEq, Repr

/-- What an outstanding engine operation has still to do (R304, R339 to R341, R351 to R353, R360). A TLOAD holds the value of
the version word that began its pass, and whether it has copied the data since (R341); `loaded` waits for the load of an
overlay that another operation has begun. -/
inductive EngWork where
  | copy (src dst : List Run)
  | tload (va : DWord) (ver src dst : List Run) (passes : Nat) (pass : Option (Nat × Bool))
  | tstore (ver src dst : List Run)
  | writing (ids : List Nat) (next : EngNext)
  | pref (lines : List Nat) (clause : Option Run)
  | pxfer (get : Bool) (va : DWord) (link : Nat) (near far : List Run)
  | ovld (core slot : Nat)
  | loaded (core slot : Nat)
  | none
  deriving DecidableEq, Repr

/-- An outstanding engine operation of a warp: class 0 COPY, 1 GATH, 3 PEER, 4 for a PREF that reports on a clause
(R305, R345). -/
structure EngOp where
  id : Nat
  cls : Nat
  scope : BitVec 3
  work : EngWork
  /-- the virtual ranges that it translated at its issue: address and length (R306) -/
  pages : List (Nat × Nat)
  deriving DecidableEq, Repr

/-- What a tile instruction that waits under R258 does (R263 to R266, R269, R272, R273); ABIND and AFREE are no MATX
operations (R259). -/
inductive MatxWork where
  | aclr
  | ald (src : List (List Run)) (glob : Bool)
  | ast (dst : List (List Run)) (glob : Bool)
  | mma (pair : Bool) (a b : Nat) (slot : DWord)
  | smv (x : Nat) (w : List Run) (r panels : Nat) (slot : DWord) (stack : Nat)
  | bind (kind : TileKind)
  | free
  deriving DecidableEq, Repr

/-- A tile instruction that has issued and not retired: its accumulator, whether it has started, the clock at which it is finished,
and, once started, the tile it writes and the flags it raises (R258, R259, R230). -/
structure MatxOp where
  id : Nat
  k : Nat
  work : MatxWork
  started : Bool
  streamed : Bool
  due : Nat
  out : Option Tile
  flags : Byte
  scope : BitVec 3
  /-- the writes that an AST has made -/
  sent : Option (List Nat)
  deriving DecidableEq, Repr

/-- A failure of an engine operation that is not yet raised (R355). -/
structure EngFail where
  cls : Nat
  id : Nat
  faddr : DWord
  extra : DWord
  deriving DecidableEq, Repr

/-- A GRAPH that the launch processor has not answered (R474): header address, destination, lanes; the atomic step on the
header's STATUS once it has been sent, and whether that step found STATUS even and so began the walk. -/
structure GraphReq where
  hdr : DWord
  d : PNum
  lanes : Mask
  sent : Option Nat
  won : Option Bool
  deriving DecidableEq, Repr

/-- A waiting MWAIT: its limit in nanoseconds, 0 for none, and GTIME at its issue (R344). -/
structure MwaitReq where
  limit : Nat
  start : Nat
  deriving DecidableEq, Repr

/-- A held warp (R443): the address of its fault-ring entry, and the resolution once it is known (R449). -/
structure Held where
  entry : Nat
  resolve : Option Nat
  deriving DecidableEq, Repr

/-- A warp (R24 to R27, R37). -/
structure Warp where
  group : Nat
  index : Nat
  core : Nat
  pos : Nat
  loc : Nat
  half : Nat
  slot : Nat
  area : Nat
  exited : Bool
  active : Bool
  /-- one more than the clock at which a warp outside the active set became ready; 0 while it is not (R432) -/
  readySince : Nat
  regs : List Reg
  preds : Preds PReg
  pc : Word
  mask : Mask
  join : Word
  pid : BitVec 16
  /-- divergence stack, newest entry first -/
  dstack : List DEntry
  /-- call stack, newest entry first -/
  cstack : List CEntry
  /-- a save area read back at ERET that breaks its limits (R168) -/
  badArea : Bool
  /-- a strand PC written back that names no parcel of the running segment (R440) -/
  badStpc : Byte
  rep : Option Rep
  repAside : Option Rep
  fairCount : Nat
  lrCount : Option Nat
  /-- joins and WSYNC releases of the warp, newest first: the number of the first access after it, and its lanes
  (R159, R165, R363) -/
  syncs : List (Nat × Mask)
  /-- lanes that have exited under a JOIN entry that is still on the stack, by the entry's path number (R159) -/
  exits : List (BitVec 16 × Mask)
  mode : Word
  /-- the value that a SETS gives MODE, and the clock in which it issued (R174) -/
  modeDue : Option (Nat × Word)
  fpfl : Word
  flagQ : List (Nat × Byte)
  /-- results on their way: a register, or 256 more than a predicate, and the clock from which it is there (R174, R239) -/
  board : List (Nat × Nat)
  modw : Word
  trapBase : Word
  tableBase : DWord
  dstkBase : DWord
  stepCtl : Word
  /-- the step that the last ERET armed has not been taken yet (R452) -/
  stepArmed : Bool
  handler : Bool
  trap : Option Trap
  /-- the trap whose record opened the handler, with what else that record holds (R442) -/
  opened : Option (Trap × Snap)
  held : Option Held
  escalating : Bool
  phase : Word
  wissue : Word
  wparcel : Word
  wevict : Word
  wswap : Word
  strands : Accs Strand
  bcasts : List Bcast
  eng : List EngOp
  matx : List MatxOp
  fails : List EngFail
  wait : Option Wait
  /-- the PC of the waiting instruction, once it has done its first part: a BAR that has arrived (R470), a PHASE that
  has counted (R472); and the same set aside while a handler runs -/
  begun : Option Word
  begunAside : Option Word
  watch : WatchSt
  mwait : Option MwaitReq
  lwaitAt : Nat
  /-- the counter and the target of a waiting LWAIT (R409) -/
  lwaitFor : Option (Nat × Nat)
  graph : Option GraphReq
  barPhase : List (Option Nat)
  /-- for each lane the number from which an LR takes a reservation: an earlier one that is still on its way takes none
  (R335, R337) -/
  resvFrom : List Nat
  /-- reads that must be performed before a later access issues: acquires, and what a FENCE.acq covers (R342, R367) -/
  acqIds : List Nat
  /-- lines that loads have read while a write was on its way down their list or a commit held them, with the number of that
  write; and those that a later access waits for, because the load was an acquire or a FENCE.acq covers it (R369, R373) -/
  early : List (Nat × Nat)
  acqEarly : List (Nat × Nat)
  /-- a write of the warp to a pool window was lost with the window, and no release has reported it: its address and the
  port (R376, R403) -/
  lostWrite : Option (Nat × Nat)
  resumeAt : Nat
  /-- no spine instruction has issued since the last ERET, so that the PC is one that was read back (R440) -/
  resumed : Bool
  age : Nat
  flowLost : Bool
  deriving DecidableEq, Repr

/-! ## Groups, launches and sentences -/

/-- A group barrier (R469). -/
structure Bar where
  phase : Nat
  arrived : List Nat
  /-- for each warp that has arrived in this phase, the number that its next access would have had (R471) -/
  since : List (Nat × Nat) := []
  /-- the same of the phase that has completed last -/
  before : List (Nat × Nat) := []
  deriving DecidableEq, Repr

/-- A line of a group's version: the bytes written, their values, and the leaves whose D bits the commit sets
(R315, R373). -/
structure VerLine where
  data : LineData
  written : BitVec 128
  ptes : List Nat
  deriving DecidableEq, Repr

/-- Modes of a bank (R297). -/
inductive BankMode where
  | off | cache | scratch | fifo | hold
  deriving DecidableEq, Repr

/-- An entry of a FIFO bank: 32 bytes with the poison marks of its words (R297, R453). -/
structure FifoEntry where
  bits : BitVec 256
  poison : Byte
  deriving DecidableEq, Repr

/-- A group bank saved with an evicted group (R301). -/
structure SavedBank where
  pos : Nat
  j : Nat
  mode : BankMode
  fifo : List FifoEntry
  deriving DecidableEq, Repr

/-- Where a part of an evicted group's image lies: in the register file or a bank of a neighbouring core, or in an HBM
save area (R445, R459). -/
inductive ImagePart where
  | rf (core bytes : Nat)
  | bank (core bank : Nat)
  | hbm (base bytes : Nat)
  deriving DecidableEq, Repr

/-- Where a group stands between placement and retirement; `leaving` is resident with its units stopped, while what is outstanding
completes for its eviction (R457). -/
inductive GroupPhase where
  | resident | leaving | killed | evicted | waiting | retired
  deriving DecidableEq, Repr

/-- A group (R51 to R56). Scratch bytes are keyed by core position times 2^20 plus offset (R291); `since` is GTIME at its
last placement or restore (R421). -/
structure GroupSt where
  launch : Nat
  lin : Nat
  gx : Nat
  gy : Nat
  gz : Nat
  cores : List Nat
  warps : List Nat
  scratch : List (Nat × Byte)
  scratchP : List (Nat × Bool)
  granUsed : List Nat
  rings : List (BitVec 64)
  bars : List Bar
  version : List (Nat × VerLine)
  tries : Nat
  subs : List (Nat × Nat)
  rank : Nat
  staggered : Bool
  phase : GroupPhase
  age : Nat
  since : Nat
  saved : List SavedBank
  image : List ImagePart
  /-- the clock at which a wake condition of the evicted group came to hold (R411, R460) -/
  woken : Option Nat
  /-- GTIME since which the group has waited for its cores (R425) -/
  waitFrom : Nat
  /-- the lines of the version are held at their homes (R373) -/
  committing : Bool
  /-- the translation root that the launch processor read at placement or restore (R419) -/
  root : Nat
  /-- reservations kept with the version: warp, lane, line (R497) -/
  vresv : List (Nat × Nat × Nat)
  deriving DecidableEq, Repr

/-- Where a launch stands. -/
inductive LaunchPhase where
  | checked | rejected | accepted | discarded | finished
  deriving DecidableEq, Repr

/-- What a launch serves as a handler task: the faulting warp and its fault-ring entry (R448). -/
structure TaskFor where
  warp : Nat
  entry : Nat
  deriving DecidableEq, Repr

/-- A launch whose record has been checked (R57, R415, R417): its record, regions, constant image and progress, and
the queue entry that it holds until it is accepted. -/
structure LaunchSt where
  record : BitVec 2048
  region : Nat
  submitter : Nat
  image : List (Nat × Byte)
  next : Nat
  dies : List Nat
  step : Word
  t0 : Option Nat
  age : Nat
  phase : LaunchPhase
  clause : Option (Nat × Nat)
  task : Option TaskFor
  placed : Nat
  queue : Option QueueRef
  withdrawn : List Nat
  /-- GTIME since which the launch has waited for its cores (R425) -/
  waitFrom : Nat
  deriving DecidableEq, Repr

/-- A clause of a sentence that is being walked (R310). -/
inductive ClauseSt where
  | idle | running (launch : Option Nat) | writing (ids : List Nat) (scope : BitVec 3) | finished
  deriving DecidableEq, Repr

/-- A sentence that is being walked (R308, R310). -/
structure Walk where
  hdr : DWord
  root : Nat
  region : Nat
  clauses : List ClauseSt
  failed : Bool
  ended : Bool
  deriving DecidableEq, Repr

/-- A launch record waiting in a core's pending-launch queue, with the region of the warp whose LAUNCH queued it
(R406, R407, R498), and that LAUNCH's place in the warp's order of accesses (R368). -/
structure QEntry where
  record : BitVec 2048
  region : Nat
  age : Nat
  warp : Nat
  id : Nat
  deriving DecidableEq, Repr

/-! ## A core -/

/-- A bank of a core's SRAM (R297, R298, R300); `pending` holds the mode switches it has still to make. -/
structure Bank where
  mode : BankMode
  owner : Option (Nat × Nat)
  fifo : List FifoEntry
  pending : List BankMode
  deriving DecidableEq, Repr

/-- Formats of a copy (R384). -/
inductive Fmt where
  | full | bf16 | e4m3 | e5m2
  deriving DecidableEq, Repr

/-- Where a line tag stands (R384). -/
inductive Pst where
  | listed | privatised | leaving | detached
  deriving DecidableEq, Repr

/-- A line of an L1 (R384): under FULL the line's bytes, under a narrow format one code a word (R392); the granted
and the written bytes of a privatised copy (R395). -/
structure L1Line where
  line : Nat
  /-- the bank whose way it takes, and the 32-byte sectors that have been filled (R299) -/
  bank : Nat
  sectors : BitVec 4
  fmt : Fmt
  pst : Pst
  data : LineData
  granted : BitVec 128
  written : BitVec 128
  deriving DecidableEq, Repr

/-- A cached translation (R317): the page, its leaf, and where the leaf stands. -/
structure TlbEnt where
  root : Nat
  base : Nat
  size : Nat
  pte : DWord
  ptr : Nat
  deriving DecidableEq, Repr

/-- An upper-level entry in a die's walk cache (R317). -/
structure WalkEnt where
  root : Nat
  level : Nat
  pfx : Nat
  pte : DWord
  deriving DecidableEq, Repr

/-- A code-store slot (R3, R106, R360): binary, overlay, loaded words, whether the load is still under way. -/
structure Overlay where
  binary : Nat
  num : Nat
  code : List (BitVec 64)
  loading : Bool
  used : Nat
  deriving DecidableEq, Repr

/-- The matrix array of a core (R269, R277): until when it is busy, operations since the last test, whether a test
is due, fenced sub-arrays and the exclusion from pairing. -/
structure ArraySt where
  busy : Nat
  count : Nat
  testDue : Bool
  fenced : List Nat
  excluded : Bool
  deriving DecidableEq, Repr

/-- What a candidate of the launch processor is (R411, R424): the next group of a launch, a discarded group that is to run again,
or an evicted group. -/
inductive CandKind where
  | next (l : Nat)
  | again (g : Nat)
  | back (g : Nat)
  deriving DecidableEq, Repr

/-- A core (R2, R3). `reserved` names the candidate it is kept for (R425); `last` holds, for each half and cluster, the unit chosen last (R433). -/
structure CoreSt where
  banks : List Bank
  l1 : List L1Line
  tlb : List TlbEnt
  consts : List ((Nat × Nat) × (Word × Bool))
  overlays : List (Option Overlay)
  queue : List QEntry
  baton : Option Nat
  batonQ : List Nat
  array : ArraySt
  stcfg : Word
  missmerge : Word
  gran : Nat
  followerOf : Option Nat
  reserved : Option CandKind
  disabled : Bool
  /-- a repair has asked for the core's groups to leave (R494) -/
  failing : Bool
  /-- bytes of its register file that hold images of other cores' groups (R459) -/
  imageBytes : Nat
  last : List Nat
  /-- for each half and cluster one more than the clock of its last issue; 0 before the first (R2, R433) -/
  issuedAt : List Nat
  swapAt : List Nat
  deriving DecidableEq, Repr

/-! ## Requests and homes -/

/-- What an outstanding load is (R38, R495). -/
inductive LoadKind where
  | ld | ldc | lds | lr | atomr | traprd | fpop
  deriving DecidableEq, Repr

/-- The bytes of one lane of a load at one place: lane, offset in the value, length, address, and the value once
the load is performed there. -/
structure LPiece where
  lane : Nat
  off : Nat
  len : Nat
  va : Nat
  pa : Nat
  got : Bool
  val : BitVec 64
  poison : Bool
  deriving DecidableEq, Repr

/-- An outstanding load (R17, R302, R330). -/
structure Load where
  id : Nat
  warp : Nat
  core : Nat
  kind : LoadKind
  acq : Bool
  scope : BitVec 3
  d : GReg
  wide : Bool
  bytes : Nat
  sext : Bool
  lanes : Mask
  pieces : List LPiece
  at_ : Nat
  deriving DecidableEq, Repr

/-- A request for a line at its home (R302, R303): a miss-status entry with the loads that joined it, or an
uncached read; and the warps that have stored to the line since it was opened. -/
structure Fill where
  id : Nat
  core : Nat
  line : Nat
  at_ : Nat
  loads : List Nat
  alloc : Bool
  joinable : Bool
  barred : List Nat
  deriving DecidableEq, Repr

/-- A core that is to join a line's list (R385). -/
structure Join where
  id : Nat
  core : Nat
  line : Nat
  fmt : Fmt
  /-- the sectors that its fill brings (R299, R303) -/
  sectors : BitVec 4
  deriving DecidableEq, Repr

/-- What the device sends on a host port or a pool port about lines of the port's window, which are numbered by their
address on the link (R399, R401, R481). -/
inductive LinkMsg where
  | birspI (pa : Nat)
  | birspS (pa : Nat)
  | birspE (pa : Nat)
  | rspIHitI (line : Nat)
  | rspSHitSE (line : Nat)
  | rspIHitSE (line : Nat)
  | rspVHitV (line : Nat)
  | rspSFwdM (line : Nat) (data : LineData)
  | rspIFwdM (line : Nat) (data : LineData)
  | rspVFwdV (line : Nat) (data : LineData)
  | fwdOwned (line : Nat) (data : LineData)
  | rdShared (line : Nat)
  | rdOwn (line : Nat)
  | cleanEvict (line : Nat)
  | dirtyEvict (line : Nat) (data : LineData)
  | memRd (line : Nat) (excl : Bool)
  | memWr (line : Nat) (data : LineData) (mask : BitVec 128)
  | memClnEvct (line : Nat)
  deriving DecidableEq, Repr

/-- What the device sends on its links and the interrupts it raises (R321, R389, R398, R408); lines of device HBM are numbered
by their physical address. -/
inductive Msg where
  | host (port : Nat) (m : LinkMsg)
  | pool (port : Nat) (m : LinkMsg)
  | bisnpInv (line : Nat)
  | bisnpData (line : Nat)
  | peerPut (link pa : Nat) (bytes : List Byte)
  | peerGet (link pa len : Nat)
  | readData (line : Nat) (data : LineData)
  | registerRead (v : Word)
  | irqNotify
  | irqFault
  deriving DecidableEq, Repr

/-- What a write of the device's own does to a line: puts its bytes, sets bits of them, adds to an n-byte number, subtracts
1 from a 16-bit number that is not 0, exchanges a version word that holds an expected value for the next one, on
behalf of an engine operation, or sets the STATUS of a task graph to 1 if it is even, on behalf of the GRAPH of a warp
(R311, R315, R340, R408, R474). -/
inductive DevOp where
  | put
  | set
  | inc (off n v : Nat)
  | dec (off : Nat)
  | cas (op off v : Nat)
  | claim (warp off : Nat)
  deriving DecidableEq, Repr

/-- What a write does at its home (R388). -/
inductive WKind where
  | store
  | atom (aop : BitVec 4) (w64 sg : Bool) (off : Nat) (b c : DWord) (lane : Nat) (ret : Option Nat)
  | sc (sc lane : Nat)
  | engine
  | dev (op : DevOp)
  | merge
  | commit
  | host
  deriving DecidableEq, Repr

/-- How far a write has come: to be applied, waiting for the ownership that its home has asked for, in propagation,
applied and to be acknowledged by a remote agent, or held under WB (R322, R371, R375, R376, R399, R401). -/
inductive WPhase where
  | pending | asked | propagating | remote | held
  deriving DecidableEq, Repr

/-- An outstanding write (R302, R388): the bytes of one line with the poison marks that come with them; whether it
writes through to its stack (R315), and the leaf whose D bit it sets. -/
structure Write where
  id : Nat
  warp : Option Nat
  core : Option Nat
  lanes : Mask
  /-- the lanes whose later accesses to its bytes wait for it (R283, R364) -/
  seen : Mask
  line : Nat
  va : Nat
  kind : WKind
  data : LineData
  mask : BitVec 128
  rel : Bool
  scope : BitVec 3
  phase : WPhase
  nf : Option Nat
  through : Bool
  /-- the leaves whose D bit it sets: one for each page through which its instruction named the line (R315) -/
  ptes : List Nat
  /-- the add of a completion counter: of which launch, or none for that of a walk (R408) -/
  counter : Option (Option Nat)
  /-- what a write in phase held waits for (R322) -/
  wb : HoldSt
  /-- the number of its request: that of the first write of its instruction (R302) -/
  req : Nat
  /-- the root and the region under which a write of the launch processor is translated anew -/
  root : Nat
  region : Nat
  /-- what the device sends once this write, and every other with the same number, is complete -/
  note : Option (Nat × Msg)
  deriving DecidableEq, Repr

/-- An SC whose home has not answered (R336). -/
structure ScReq where
  id : Nat
  warp : Nat
  d : PNum
  lanes : Mask
  ok : Mask
  deriving DecidableEq, Repr

/-- A CSTORE.nf that has not completed (R282). -/
structure NfReq where
  id : Nat
  warp : Nat
  d : GReg
  pf : PNum
  lanes : Mask
  count : Nat
  complete : Bool
  deriving DecidableEq, Repr

/-- An UPGR whose resend is under way or waits (R393). -/
structure Upg where
  id : Nat
  core : Nat
  line : Nat
  fmt : Fmt
  sent : Bool
  deriving DecidableEq, Repr

/-- Link states of a line (R399, R401); HBM lines are held in M. -/
inductive Moesi where
  | m | o | e | s | i
  deriving DecidableEq, Repr

/-- What the host holds of a line of device HBM (R383). -/
inductive HostSt where
  | hi | hs | he
  deriving DecidableEq, Repr

/-- A node of a sharer list (R383, R384); the host node stands apart, at the head. -/
structure Node where
  core : Nat
  fmt : Fmt
  deriving DecidableEq, Repr

/-- A write, or an upgrade resend, on its way down the list (R388, R393): the write, the words of A, the nodes
still to be reached, and whether the host node is among them. -/
structure Flow where
  write : Nat
  words : Mask
  hostLeft : Bool
  hostAsked : Bool
  nodes : List Node
  upgrade : Option Nat
  deriving DecidableEq, Repr

/-- The observation record of a line (R394): bytes written and read by each core in this window, consecutive
disjoint windows, bytes written in them, whether something bars a grant, and when the window began. -/
structure Obs where
  wr : List (Nat × BitVec 128)
  rd : List (Nat × BitVec 128)
  streak : Nat
  union : List (Nat × BitVec 128)
  barred : Bool
  start : Nat
  deriving DecidableEq, Repr

/-- A line held at its home (R383). -/
structure L2Line where
  data : LineData
  dirty : Bool
  /-- the line belongs to a page with STACKL, so that it is never held dirty (R315) -/
  through : Bool
  st : Moesi
  host : HostSt
  priv : Bool
  busy : Bool
  nodes : List Node
  prop : Option Flow
  obs : Obs
  deriving DecidableEq, Repr

/-- A watch at a home: the warp it belongs to, whether LWAIT placed it, its line, and whether it was hit
(R343, R405, R409). -/
structure Watch where
  warp : Nat
  lwait : Bool
  line : Nat
  hit : Bool
  deriving DecidableEq, Repr

/-! ## The module -/

/-- The configuration record in flash and the repair map (R488): what bring-up reads. The maps have a bit for each core, and one
for each of the four spares of each die. -/
structure Flash where
  enabledCores : BitVec 256
  spareCores : BitVec 16
  signatureOk : Bool
  contentsOk : Bool
  repairOk : Bool
  stcfg : Option Word
  pwrcap : Option Word
  alarmcfg : Word
  ownedSharing : Bool
  sigIndex : Nat
  keyErased : Bool
  deriving DecidableEq, Repr

/-- States of the module (R492). -/
inductive ModState where
  | reset | measure | config | ready | locked | failed
  deriving DecidableEq, Repr

/-- A host port (R398 to R400, R482). -/
structure HostPort where
  up : Bool
  hdmdb : Bool
  cache : Bool
  owned : Bool
  deriving DecidableEq, Repr

/-- A pool window (R483, R484). -/
structure PoolWin where
  base : BitVec 64
  size : BitVec 16
  grant : Bool
  err : Bool
  lost : Bool
  regions : List Nat
  many : Bool
  deriving DecidableEq, Repr

/-- A region entry of the control window (R422), and the clock at which each pending record became so, by its index
(R423). -/
structure RegionEnt where
  base : BitVec 64
  tail : BitVec 32
  ages : List (Nat × Nat)
  deriving DecidableEq, Repr

/-- The registers of the control window and the module's condition. -/
structure Ctl where
  tlbiva : BitVec 64
  tlbiroot : BitVec 64
  tlbictl : BitVec 32
  tlbiBusy : Bool
  tlbiErr : Bool
  /-- accesses issued before this number must be performed before BUSY clears (R318) -/
  tlbiFence : Nat
  /-- the pages, by root and first address, whose leaf a translation still names as WB though it was WB 0 when the
  invalidation in progress began (R322) -/
  tlbiFreed : List (Nat × Nat)
  nqbase : BitVec 64
  nqsize : BitVec 32
  nqhead : BitVec 32
  nqtail : BitVec 32
  nqovf : Bool
  nqseq : BitVec 32
  acthr : BitVec 32
  ppbase : BitVec 64
  pparea : BitVec 32
  ppcount : BitVec 32
  areas : List Nat
  pwins : List PoolWin
  regions : List (Nat × RegionEnt)
  /-- entries written to each fault ring, by its SAVEBASE (R444) -/
  ringSeq : List (Nat × Nat)
  pwrcap : BitVec 32
  level : Nat
  /-- the draw averaged over the last millisecond that PWRST shows (R486) -/
  draw : BitVec 12
  withdrawAsked : List Nat
  attnonce : BitVec 256
  attbuf : List Byte
  atterr : Nat
  attbusy : Bool
  attlatched : BitVec 256
  /-- the index of the signature that is being computed (R490) -/
  attindex : Nat
  alarmst : BitVec 32
  alarmcfg : BitVec 32
  modst : ModState
  cfgerr : Nat
  nrcnt : BitVec 32
  meas : List (BitVec 512)
  flash : Flash
  hostPorts : List HostPort
  poolUp : List Bool
  peerUp : List Bool
  /-- lanes that have failed: of the 12 peer links, the 2 host ports and the 4 pool ports (R485, R494) -/
  lanesLost : List Nat
  deriving DecidableEq, Repr

/-- The warp, the unit (0 spine, K + 1 strand aK) and the line that the step being executed is about. -/
structure Cur where
  warp : Nat
  unit : Nat
  line : Nat
  deriving DecidableEq, Repr

/-- The units of a cluster that an instruction holds for several clocks (R126, R174, R239). -/
inductive FUnit where
  | special | fp64 | divider
  deriving DecidableEq, Repr

/-- A unit of a cluster that is held up to a clock (R126, R239). -/
structure UnitHold where
  core : Nat
  half : Nat
  cluster : Nat
  kind : FUnit
  until_ : Nat
  deriving DecidableEq, Repr

/-- The device. -/
structure State where
  agenda : List (Nat × Turn)
  cur : Cur
  free : Nat
  clock : Nat
  gtime : Nat
  gfrac : Nat
  nextId : Nat
  mem : List Host.Cell
  memP : List (Nat × Bool)
  l2 : List (Nat × L2Line)
  /-- the detached nodes of lines that their homes do not hold (R398, R404) -/
  apart : List (Nat × List Node)
  cores : List CoreSt
  l2tlb : List (List TlbEnt)
  walkCache : List (List WalkEnt)
  warps : List Warp
  groups : List GroupSt
  launches : List LaunchSt
  walks : List Walk
  loads : List Load
  fills : List Fill
  joins : List Join
  writes : List Write
  /-- the region control blocks that the launch processor has read, by their addresses, as they then stood (R419) -/
  blocks : List (Nat × BitVec 1024)
  scs : List ScReq
  nfs : List NfReq
  upgs : List Upg
  resv : List (Nat × Nat × Nat)
  holds : List UnitHold
  watches : List Watch
  stackFree : List Nat
  smvQ : List (Nat × Nat × Nat)
  stopped : List Nat
  accCnt : List (Nat × Nat)
  subupd : Word
  subskip : Word
  bifp : Word
  correctable : Nat
  outbox : List Msg
  mgmtLog : List Nat
  repaired : List (Nat × Nat)
  ctl : Ctl
  deriving DecidableEq, Repr

/-! ## Values at group start and at reset -/

/-- A full register holding zero (R27). -/
def Reg.zero : Reg := { val := Lanes.all 0, poison := 0, full := true }
/-- A false predicate (R27). -/
def PReg.clear : PReg := { val := 0, poison := 0, ready := true }
/-- A strand with nothing in it (R27). -/
def Strand.clear : Strand :=
  { acc := Lanes.all 0, carry := Lanes.all 0, q := 0, accP := 0, carryP := 0, qP := 0, segs := [],
    arep := 0, tile := none, earliest := 0, accAt := 0, carryAt := 0, qAt := 0, tilePuts := [], age := 0 }

/-- A warp with `n` registers in the state of R27, not placed. -/
def Warp.start (n : Nat) : Warp :=
  { group := 0, index := 0, core := 0, pos := 0, loc := 0, half := 0, slot := 0, area := 0,
    exited := false, active := false, readySince := 0,
    regs := List.replicate n Reg.zero, preds := Preds.tab fun _ => PReg.clear,
    pc := 0, mask := BitVec.allOnes 32, join := 0xFFFFFFFF, pid := 0, dstack := [], cstack := [],
    badArea := false, badStpc := 0, rep := none, repAside := none, fairCount := 0, lrCount := none,
    syncs := [], exits := [], mode := 0, modeDue := none, fpfl := 0, flagQ := [], board := [], modw := 0, trapBase := 0xFFFFFFFF, tableBase := 0, dstkBase := 0,
    stepCtl := 0, stepArmed := false, handler := false, trap := none, opened := none, held := none,
    escalating := false, phase := 0, wissue := 0, wparcel := 0, wevict := 0, wswap := 0,
    strands := Accs.tab fun _ => Strand.clear, bcasts := [], eng := [], matx := [], fails := [],
    wait := none, begun := none, begunAside := none, watch := .none, mwait := none, lwaitAt := 0, lwaitFor := none, graph := none,
    barPhase := List.replicate 16 none, resvFrom := List.replicate 32 0, acqIds := [], early := [], acqEarly := [], lostWrite := none, resumeAt := 0, resumed := false, age := 0, flowLost := false }

/-- A bank in CACHE mode with no owner (R298). -/
def Bank.cache : Bank := { mode := .cache, owner := none, fifo := [], pending := [] }

/-- A core at reset. -/
def CoreSt.start : CoreSt :=
  { banks := List.replicate 32 Bank.cache, l1 := [], tlb := [], consts := [],
    overlays := List.replicate 4 none, queue := [], baton := none, batonQ := [],
    array := { busy := 0, count := 0, testDue := false, fenced := [], excluded := false },
    stcfg := 1024, missmerge := 0, gran := 0, followerOf := none, reserved := none, disabled := false,
    failing := false, imageBytes := 0, last := List.replicate 16 0, issuedAt := List.replicate 16 0, swapAt := [0, 0] }

/-- A pool window at reset (R483). -/
def PoolWin.start : PoolWin :=
  { base := 0, size := 0, grant := false, err := false, lost := false, regions := [], many := false }

/-- The control window at reset; values the spec does not give are named in log 4. -/
def Ctl.start : Ctl :=
  { tlbiva := 0, tlbiroot := 0, tlbictl := 0, tlbiBusy := false, tlbiErr := false, tlbiFence := 0, tlbiFreed := [],
    nqbase := 0, nqsize := 0, nqhead := 0, nqtail := 0, nqovf := false, nqseq := 0, acthr := 256,
    ppbase := 0, pparea := 2, ppcount := 0, areas := [], pwins := List.replicate 32 PoolWin.start,
    regions := [], ringSeq := [], pwrcap := 3000, level := 0, draw := 0, withdrawAsked := [], attnonce := 0, attbuf := [],
    atterr := 0, attbusy := false, attlatched := 0, attindex := 0, alarmst := 0, alarmcfg := 0, modst := .reset,
    cfgerr := 0, nrcnt := 0, meas := List.replicate 4 0,
    flash := { enabledCores := BitVec.allOnes 256, spareCores := BitVec.allOnes 16, signatureOk := true, contentsOk := true, repairOk := true, stcfg := none, pwrcap := none,
               alarmcfg := 0, ownedSharing := false, sigIndex := 0, keyErased := false },
    hostPorts := List.replicate 2 { up := true, hdmdb := false, cache := false, owned := false },
    poolUp := List.replicate 4 false, peerUp := List.replicate 12 false,
    lanesLost := List.replicate 18 0 }

/-- The device at reset: nothing placed, nothing held, memory with nothing listed, MODSTAT RESET (R492); the agenda
names the bring-up that RESET begins (log 2). -/
def State.reset : State :=
  { agenda := [(0, .event 0 0 0 .reset)], cur := { warp := 0, unit := 0, line := 0 }, free := 0, clock := 0,
    gtime := 0, gfrac := 0, nextId := 1, mem := [], memP := [], l2 := [], apart := [],
    cores := List.replicate 256 CoreSt.start, l2tlb := List.replicate 4 [],
    walkCache := List.replicate 4 [], warps := [], groups := [], launches := [], walks := [],
    loads := [], fills := [], joins := [], writes := [], blocks := [], scs := [], nfs := [], upgs := [], resv := [], holds := [],
    watches := [], stackFree := List.replicate 12 0, smvQ := [], stopped := [], accCnt := [], subupd := 0,
    subskip := 0, bifp := 0, correctable := 0, outbox := [], mgmtLog := [], repaired := [],
    ctl := Ctl.start }

end Sys2Proof.Machine
end

