-- ==== Sys2Proof/Machine/Mem.lean ====
section
/-! DEFINITION. Sparse maps in canonical form, the bytes of a line, and raw physical memory (R290, R329, R330). -/

namespace Sys2Proof.Machine

/-! ## Sparse maps: keys strictly rising -/

/-- The value stored at key `k`. -/
def alFind {α : Type} (k : Nat) : List (Nat × α) → Option α
  | [] => none
  | (j, v) :: m => if j = k then some v else if k < j then none else alFind k m

/-- The map with `v` at `k`. -/
def alPut {α : Type} (k : Nat) (v : α) : List (Nat × α) → List (Nat × α)
  | [] => [(k, v)]
  | (j, u) :: m => if j = k then (k, v) :: m else if k < j then (k, v) :: (j, u) :: m
      else (j, u) :: alPut k v m

/-- The map without key `k`. -/
def alDel {α : Type} (k : Nat) : List (Nat × α) → List (Nat × α)
  | [] => []
  | (j, u) :: m => if j = k then m else if k < j then (j, u) :: m else (j, u) :: alDel k m

/-- The value at `k`, or the value `d` of an unlisted key. -/
def alGet {α : Type} (d : α) (k : Nat) (m : List (Nat × α)) : α := (alFind k m).getD d

/-- The map with `v` at `k`, listing nothing that equals `d`. -/
def alSet {α : Type} [DecidableEq α] (d : α) (k : Nat) (v : α) (m : List (Nat × α)) : List (Nat × α) :=
  if v = d then alDel k m else alPut k v m

/-- The canonical form of a sparse map with default `d`: keys strictly rising, no entry equal to `d`. -/
abbrev Sparse.wf {α : Type} (d : α) (m : List (Nat × α)) : Prop :=
  m.Pairwise (fun x y => x.1 < y.1) ∧ ∀ x ∈ m, x.2 ≠ d

/-- The canonical form of memory: an unlisted byte reads zero (log 1). -/
abbrev Memory.wf (m : List Host.Cell) : Prop := Sparse.wf (0 : Byte) m

/-! ## Lines -/

/-- A line of zeros without poison. -/
def LineData.zero : LineData := { bits := 0, poison := 0 }

/-- A line whose every word is poisoned (R403, R482). -/
def LineData.poisoned : LineData := { bits := 0, poison := BitVec.allOnes 32 }

/-- Byte `off` of a line. -/
def lineByte (x : BitVec 1024) (off : Nat) : Byte := x.extractLsb' (8 * off) 8

/-- Word `i` of a line, little-endian (R68, R330). -/
def lineWord (x : BitVec 1024) (i : Nat) : Word := x.extractLsb' (32 * i) 32

/-- The `n` bytes from `off`, little-endian, zero-extended (R330). -/
def lineRead (x : BitVec 1024) (off n : Nat) : BitVec 64 :=
  (x >>> (8 * off)).setWidth 64 &&& ((1#64 <<< (8 * n)) - 1#64)

/-- The byte mask of `n` bytes from `off`. -/
def byteRun (off n : Nat) : BitVec 128 := ((1#128 <<< n) - 1#128) <<< off

/-- The bits of the bytes of a mask. -/
def byteBits (m : BitVec 128) : BitVec 1024 :=
  (List.range 128).foldl (fun acc i => if m.getLsbD i then acc ||| (0xFF#1024 <<< (8 * i)) else acc) 0

/-- The words of a line that hold a byte of the mask (R388). -/
def wordsOf (m : BitVec 128) : Mask :=
  maskOf fun i => (m >>> (4 * i)).extractLsb' 0 4 != 0#4

/-- The words of a line whose four bytes are all in the mask. -/
def wholeWords (m : BitVec 128) : Mask :=
  maskOf fun i => (m >>> (4 * i)).extractLsb' 0 4 == 0xF#4

/-- The 32-byte sectors of a line that hold a byte of the mask (R299, R302). -/
def sectorsOf (m : BitVec 128) : BitVec 4 :=
  (List.range 4).foldl (fun acc i => if (m >>> (32 * i)).extractLsb' 0 32 != 0#32 then acc ||| (1#4 <<< i) else acc) 0

/-- A line after a write of the bytes of `m` from `new`: a word that takes a byte of poisoned data is poisoned, a
word written whole with clean data is clean, any other word keeps its mark (R329, R454). -/
def lineWrite (old new : LineData) (m : BitVec 128) : LineData :=
  let bm := byteBits m
  { bits := (old.bits &&& ~~~bm) ||| (new.bits &&& bm),
    poison := (old.poison &&& ~~~(wholeWords m)) ||| (new.poison &&& wordsOf m) }

/-- A line holding the low `n` bytes of `v` from `off`, the rest zero; `p` poisons the words they touch. -/
def lineOf (off n : Nat) (v : BitVec 64) (p : Bool) : LineData :=
  { bits := ((v &&& ((1#64 <<< (8 * n)) - 1#64)).setWidth 1024) <<< (8 * off),
    poison := if p then wordsOf (byteRun off n) else 0 }

/-! ## Physical memory -/

/-- The line that holds a physical address. -/
def lineNo (pa : Nat) : Nat := pa / 128

/-- The bytes that memory holds for a line (log 1). -/
def memLine (mem : List Host.Cell) (memP : List (Nat × Bool)) (line : Nat) : LineData :=
  { bits := (List.range 128).foldl
      (fun acc i => acc ||| ((alGet (0 : Byte) (128 * line + i) mem).setWidth 1024 <<< (8 * i))) 0,
    poison := maskOf fun i => alGet false (32 * line + i) memP }

/-- Memory with the bytes of a line stored. -/
def memPutLine (mem : List Host.Cell) (line : Nat) (d : LineData) : List Host.Cell :=
  (List.range 128).foldl (fun m i => alSet (0 : Byte) (128 * line + i) (lineByte d.bits i) m) mem

/-- The poison marks of memory with those of a line stored. -/
def memPutPoison (memP : List (Nat × Bool)) (line : Nat) (d : LineData) : List (Nat × Bool) :=
  (List.range 32).foldl (fun m i => alSet false (32 * line + i) (d.poison.getLsbD i) m) memP

end Sys2Proof.Machine
end

