-- ==== Sys2Proof/Machine/Access.lean ====
section
/-! DEFINITION. Reading and changing one part of the state: warps, strands, cores, groups, launches, and the
fields of launch records. -/

namespace Sys2Proof.Machine

/-! ## Parts of the state -/

/-- Element `i`, or `d` where there is none. -/
def nth {α : Type} (d : α) (l : List α) (i : Nat) : α := (l[i]?).getD d

/-- The warp with number `w`; a warp in the state of R27 for a number that is no warp. -/
def State.warp (s : State) (w : Nat) : Warp := nth (Warp.start 0) s.warps w
/-- The state with warp `w` changed by `f`. -/
def State.modWarp (s : State) (w : Nat) (f : Warp → Warp) : State := { s with warps := s.warps.modify w f }
/-- Strand `k` of a warp. -/
def Warp.strand (v : Warp) (k : Nat) : Strand := v.strands.at' Strand.clear k
/-- The warp with strand `k` changed by `f`. -/
def Warp.modStrand (v : Warp) (k : Nat) (f : Strand → Strand) : Warp :=
  { v with strands := Accs.tab fun j => if j = k then f (v.strand j) else v.strand j }
/-- The strands of a warp, a0 first. -/
def Warp.strandList (v : Warp) : List Strand := (List.range 8).map v.strand
/-- The state with strand `k` of warp `w` changed by `f`. -/
def State.modStrand (s : State) (w k : Nat) (f : Strand → Strand) : State :=
  s.modWarp w fun v => v.modStrand k f

/-- Core `c`. -/
def State.core (s : State) (c : Nat) : CoreSt := nth CoreSt.start s.cores c
/-- The state with core `c` changed by `f`. -/
def State.modCore (s : State) (c : Nat) (f : CoreSt → CoreSt) : State := { s with cores := s.cores.modify c f }

/-- A group that holds nothing. -/
def GroupSt.none : GroupSt :=
  { launch := 0, lin := 0, gx := 0, gy := 0, gz := 0, cores := [], warps := [], scratch := [], scratchP := [],
    granUsed := [], rings := [], bars := [], version := [], tries := 0, subs := [], rank := 0,
    staggered := false, phase := .retired, age := 0, since := 0, saved := [], image := [], woken := .none, waitFrom := 0, committing := false,
    root := 0, vresv := [] }
/-- Group `g`. -/
def State.group (s : State) (g : Nat) : GroupSt := nth GroupSt.none s.groups g
/-- The state with group `g` changed by `f`. -/
def State.modGroup (s : State) (g : Nat) (f : GroupSt → GroupSt) : State :=
  { s with groups := s.groups.modify g f }

/-- A launch that runs nothing. -/
def LaunchSt.none : LaunchSt :=
  { record := 0, region := 0, submitter := 0, image := [], next := 0, dies := [], step := 0, t0 := .none,
    age := 0, phase := .finished, clause := .none, task := .none, placed := 0, queue := .none, withdrawn := [], waitFrom := 0 }
/-- Launch `l`. -/
def State.launch (s : State) (l : Nat) : LaunchSt := nth LaunchSt.none s.launches l
/-- The state with launch `l` changed by `f`. -/
def State.modLaunch (s : State) (l : Nat) (f : LaunchSt → LaunchSt) : State :=
  { s with launches := s.launches.modify l f }

/-- The state with the control window changed by `f`. -/
def State.modCtl (s : State) (f : Ctl → Ctl) : State := { s with ctl := f s.ctl }
/-- The state with a message sent. -/
def State.send (s : State) (m : Msg) : State := { s with outbox := s.outbox ++ [m] }

/-- A fresh request number. -/
def State.fresh (s : State) : Nat × State := (s.nextId, { s with nextId := s.nextId + 1 })
/-- The next free value's number (log 5). -/
def State.draw (s : State) : Nat × State := (s.free, { s with free := s.free + 1 })

/-- The warp whose instruction is being executed. -/
def State.me (s : State) : Warp := s.warp s.cur.warp
/-- The state with that warp changed by `f`. -/
def State.modMe (s : State) (f : Warp → Warp) : State := s.modWarp s.cur.warp f
/-- The accumulator number of the strand that is executing. -/
def State.k (s : State) : Nat := s.cur.unit - 1
/-- The group of the warp that is executing. -/
def State.myGroup (s : State) : GroupSt := s.group s.me.group
/-- The launch of the warp that is executing. -/
def State.myLaunch (s : State) : LaunchSt := s.launch s.myGroup.launch

/-! ## Registers of a warp -/

/-- Register `r` of a warp. -/
def Warp.reg (v : Warp) (r : Nat) : Reg := nth Reg.zero v.regs r
/-- The warp with register `r` changed by `f`; a number beyond the allocation changes nothing. -/
def Warp.modReg (v : Warp) (r : Nat) (f : Reg → Reg) : Warp := { v with regs := v.regs.modify r f }
/-- Lane `l` of register `r`. -/
def Warp.lane (v : Warp) (r : GReg) (l : Nat) : Word := (v.reg r.toNat).val.at' l
/-- Lane `l` of the pair at `r` (R74). -/
def Warp.lane2 (v : Warp) (r : GReg) (l : Nat) : DWord :=
  (v.reg (r.toNat + 1)).val.at' l ++ (v.reg r.toNat).val.at' l
/-- Predicate p0 to p11 by its number. -/
def Warp.predAt (v : Warp) (p : Nat) : PReg := v.preds.at' PReg.clear p
/-- The warp with predicate `p` changed by `f`; a number that is no predicate changes nothing. -/
def Warp.modPred (v : Warp) (p : Nat) (f : PReg → PReg) : Warp :=
  { v with preds := Preds.tab fun j => if j = p then f (v.predAt j) else v.predAt j }
/-- Predicate `p` of a warp; pt is true in every lane (R69). -/
def Warp.pred (v : Warp) (p : PNum) : PReg :=
  if p == 15#4 then { val := BitVec.allOnes 32, poison := 0, ready := true } else v.predAt p.toNat

/-- A register after a write of the lanes of `m`, which clears their poison (R454). -/
def Reg.write (r : Reg) (m : Mask) (f : Nat → Word) : Reg :=
  { r with val := Lanes.tab fun l => if m.getLsbD l then f l else r.val.at' l, poison := r.poison &&& ~~~m }

/-- The warp with `f` written to register `d` in the lanes of `m`. -/
def Warp.setReg (v : Warp) (d : GReg) (m : Mask) (f : Nat → Word) : Warp :=
  v.modReg d.toNat fun r => r.write m f
/-- The warp with `f` written to the pair `d` in the lanes of `m` (R74). -/
def Warp.setReg2 (v : Warp) (d : GReg) (m : Mask) (f : Nat → DWord) : Warp :=
  (v.modReg d.toNat fun r => r.write m fun l => (f l).setWidth 32).modReg (d.toNat + 1)
    fun r => r.write m fun l => (f l >>> 32).setWidth 32
/-- The warp with predicate `p` set to `f` in the lanes of `m`; pt discards it (R73). -/
def Warp.setPred (v : Warp) (p : PNum) (m : Mask) (f : Nat → Bool) : Warp :=
  if p == 15#4 then v else
    v.modPred p.toNat fun q => { q with val := (q.val &&& ~~~m) ||| (maskOf f &&& m), poison := q.poison &&& ~~~m }

/-! ## Launch records (R415) -/

/-- The `n` bytes of a record from `off`, as a number. -/
def recField (r : BitVec 2048) (off n : Nat) : Nat := (r.toNat >>> (8 * off)) % 2 ^ (8 * n)

/-- The fields of a launch record. -/
def LaunchSt.f (l : LaunchSt) (off n : Nat) : Nat := recField l.record off n
/-- ENTRY, bits 31:0. -/
def LaunchSt.entry (l : LaunchSt) : Word := BitVec.ofNat 32 (l.f 0x00 4)
/-- GRIDX, GRIDY and GRIDZ. -/
def LaunchSt.grid (l : LaunchSt) (i : Nat) : Nat := l.f (0x08 + 4 * i) 4
/-- X, Y and Z of a group. -/
def LaunchSt.dim (l : LaunchSt) (i : Nat) : Nat := l.f (0x14 + 4 * i) 4
/-- Threads of a group (R51). -/
def LaunchSt.threads (l : LaunchSt) : Nat := l.dim 0 * l.dim 1 * l.dim 2
/-- Warps of a group. -/
def LaunchSt.warpCount (l : LaunchSt) : Nat := l.threads / 32
/-- Registers per lane. -/
def LaunchSt.nregs (l : LaunchSt) : Nat := l.f 0x20 2
/-- Scratch bytes per core (R291). -/
def LaunchSt.scratchBytes (l : LaunchSt) : Nat := 1024 * l.f 0x22 2
/-- Banks per core (R292). -/
def LaunchSt.nb (l : LaunchSt) : Nat := (l.scratchBytes + 32767) / 32768
/-- Accumulator granules per core. -/
def LaunchSt.gran (l : LaunchSt) : Nat := l.f 0x24 2
/-- FLAGS. -/
def LaunchSt.flags (l : LaunchSt) : BitVec 16 := BitVec.ofNat 16 (l.f 0x26 2)
/-- VERSIONED. -/
def LaunchSt.versioned (l : LaunchSt) : Bool := bitAt l.flags 0
/-- PAIR. -/
def LaunchSt.pair (l : LaunchSt) : Bool := bitAt l.flags 1
/-- SPAN. -/
def LaunchSt.span (l : LaunchSt) : Bool := bitAt l.flags 2
/-- PIN (R377). -/
def LaunchSt.pin (l : LaunchSt) : Bool := bitAt l.flags 3
/-- Completion counter, 0 for none (R408). -/
def LaunchSt.cmpl (l : LaunchSt) : Nat := l.f 0x30 8
/-- OVTAB: two launches with one OVTAB run one binary (R415). -/
def LaunchSt.ovtab (l : LaunchSt) : Nat := l.f 0xA8 8
/-- Format slot `n` (R226). -/
def LaunchSt.slot (l : LaunchSt) (n : Nat) : DWord := BitVec.ofNat 64 (l.f (0x50 + 8 * n) 8)
/-- Groups of the grid. -/
def LaunchSt.total (l : LaunchSt) : Nat := l.grid 0 * l.grid 1 * l.grid 2
/-- LEAD (R430). -/
def LaunchSt.lead (l : LaunchSt) : Nat := l.f 0x4A 2
/-- STAGGER (R427). -/
def LaunchSt.stagger (l : LaunchSt) : Nat := l.f 0x48 2
/-- DMIN under its substitution (R415). -/
def LaunchSt.dmin (l : LaunchSt) : Nat := if l.f 0x4C 1 = 0 then 1 else l.f 0x4C 1
/-- DMAX under its substitution (R415). -/
def LaunchSt.dmax (l : LaunchSt) : Nat := if l.f 0x4D 1 = 0 then 4 else l.f 0x4D 1

/-- Whether the group of the executing warp is versioned. -/
def State.versioned (s : State) : Bool := s.myLaunch.versioned

/-- The die of a core (R197). -/
def dieOf (core : Nat) : Nat := core / 64

/-! ## Repairs (R488, R494) -/

/-- Whether a die has a spare core left: one of its usable spares, which the configuration record names. -/
def State.sparesLeft (s : State) (die : Nat) : Bool :=
  (s.repaired.filter fun x => x.1 == 0 && dieOf x.2 == die).length <
    ((List.range 4).filter fun i => bitAt s.ctl.flash.spareCores (4 * die + i)).length
/-- A repair is entered in the repair map and logged: kind 0 a core that a spare replaces, 1 a core that is disabled, 2 a
slice, 3 a row of HBM, 4 a lane of a link. -/
def State.logRepair (s : State) (kind what : Nat) : State :=
  { s with repaired := s.repaired ++ [(kind, what)], mgmtLog := s.mgmtLog ++ [8192 + 8 * what + kind] }

/-! ## Codes of scopes (R324) -/

/-- Whether a scope is .die or wider. -/
def atDie (scope : BitVec 3) : Bool := 2 ≤ scope.toNat
/-- ORD that acquires. -/
def acquires (ord : BitVec 2) : Bool := bitAt ord 0
/-- ORD that releases. -/
def releases (ord : BitVec 2) : Bool := bitAt ord 1

end Sys2Proof.Machine
end

