-- ==== Sys2Proof/Machine/Float.lean ====
section
/-! DEFINITION. Numbers to the last bit: formats, exact values, rounding, IEEE arithmetic, the narrow formats and
block scales (R213 to R223, R233, R136, R137, R143, R145, R252). -/

namespace Sys2Proof.Machine

/-! ## Flags (R224) -/

/-- Invalid. -/
def flIV : Byte := 0x01
/-- Divide-by-zero. -/
def flDZ : Byte := 0x02
/-- Overflow. -/
def flOF : Byte := 0x04
/-- Underflow. -/
def flUF : Byte := 0x08
/-- Inexact. -/
def flNX : Byte := 0x10
/-- A value was saturated. -/
def flSAT : Byte := 0x20
/-- SCALEINIT met an all-zero block. -/
def flZBLK : Byte := 0x40
/-- A quantisation met the zero scale. -/
def flZSCL : Byte := 0x80

/-! ## Exact values -/

/-- A value: a NaN, signalling or quiet, an infinity, or `m * 2 ^ e` with its sign. -/
inductive FP where
  | nan (sig : Bool)
  | inf (neg : Bool)
  | fin (neg : Bool) (m : Nat) (e : Int)
  deriving DecidableEq, Repr

/-- A binary format: exponent and fraction bits (R213). -/
structure BinFmt where
  eb : Nat
  mb : Nat
  deriving DecidableEq, Repr

def f64F : BinFmt := { eb := 11, mb := 52 }
def f32F : BinFmt := { eb := 8, mb := 23 }
def f16F : BinFmt := { eb := 5, mb := 10 }
def bf16F : BinFmt := { eb := 8, mb := 7 }

/-- Bits of the format. -/
def BinFmt.width (f : BinFmt) : Nat := 1 + f.eb + f.mb
/-- Exponent bias. -/
def BinFmt.bias (f : BinFmt) : Nat := 2 ^ (f.eb - 1) - 1
/-- Exponent of the unit of a subnormal. -/
def BinFmt.qmin (f : BinFmt) : Int := 1 - (f.bias : Int) - f.mb
/-- The code of +inf. -/
def BinFmt.infCode (f : BinFmt) : Nat := (2 ^ f.eb - 1) * 2 ^ f.mb
/-- The code of the canonical NaN (R213). -/
def BinFmt.nanCode (f : BinFmt) : Nat := f.infCode + 2 ^ (f.mb - 1)
/-- The sign bit. -/
def BinFmt.signBit (f : BinFmt) : Nat := 2 ^ (f.eb + f.mb)

/-- The value of a code (R213). -/
def BinFmt.val (f : BinFmt) (x : Nat) : FP :=
  let neg := x / f.signBit % 2 == 1
  let ex := x / 2 ^ f.mb % 2 ^ f.eb
  let fr := x % 2 ^ f.mb
  if ex = 2 ^ f.eb - 1 then
    if fr = 0 then .inf neg else .nan (fr / 2 ^ (f.mb - 1) == 0)
  else if ex = 0 then .fin neg fr f.qmin
  else .fin neg (2 ^ f.mb + fr) (f.qmin + (ex - 1 : Nat))

/-- A code with a sign. -/
def BinFmt.signed (f : BinFmt) (neg : Bool) (c : Nat) : Nat := if neg then f.signBit + c else c

/-- Whether a value is zero. -/
def FP.isZero : FP → Bool
  | .fin _ 0 _ => true
  | _ => false
/-- Whether a value is a NaN. -/
def FP.isNan : FP → Bool
  | .nan _ => true
  | _ => false
/-- Whether a value is a signalling NaN. -/
def FP.isSig : FP → Bool
  | .nan true => true
  | _ => false
/-- The sign of a value that is no NaN. -/
def FP.isNeg : FP → Bool
  | .inf n => n
  | .fin n _ _ => n
  | .nan _ => false
/-- The value with its sign flipped (R236). -/
def FP.negate : FP → FP
  | .inf n => .inf (!n)
  | .fin n m e => .fin (!n) m e
  | .nan b => .nan b

/-! ## Rounding -/

/-- Directions of rounding (R15, R219). -/
inductive Rnd where
  | rne | rz | ru | rd | rna
  deriving DecidableEq, Repr

/-- MODE.RND (R15). -/
def modeRnd (mode : Word) : Rnd :=
  match (bitsAt mode 0 2).toNat with
  | 0 => .rne
  | 1 => .rz
  | 2 => .ru
  | _ => .rd

/-- Bits of a number: 0 for 0. -/
def bitLen (m : Nat) : Nat := if m = 0 then 0 else Nat.log2 m + 1

/-- `m / 2 ^ k` rounded to an integer in a direction, with whether it was exact. -/
def roundShift (rnd : Rnd) (neg : Bool) (m k : Nat) : Nat × Bool :=
  let q := m / 2 ^ k
  let r := m % 2 ^ k
  let up := match rnd with
    | .rne => 2 * r > 2 ^ k || (2 * r == 2 ^ k && q % 2 == 1)
    | .rna => 2 * r ≥ 2 ^ k && r != 0
    | .rz => false
    | .ru => !neg && r != 0
    | .rd => neg && r != 0
  (if up then q + 1 else q, r == 0)

/-- `m * 2 ^ e` in units of `2 ^ q`, rounded, with whether it was exact. -/
def roundAt (rnd : Rnd) (neg : Bool) (m : Nat) (e q : Int) : Nat × Bool :=
  if q ≤ e then (m * 2 ^ (e - q).toNat, true) else roundShift rnd neg m (q - e).toNat

/-- The magnitude code of `m * 2 ^ e` in a format without an upper exponent limit, whether it is exact, and
whether the value is tiny: below the smallest normal when rounded with an unbounded exponent (R213). -/
def roundMag (mb : Nat) (qmin : Int) (rnd : Rnd) (neg : Bool) (m : Nat) (e : Int) : Nat × Bool × Bool :=
  if m = 0 then (0, true, false) else
    let qn : Int := e + (bitLen m : Int) - 1 - mb
    let q := max qn qmin
    let (r, exact) := roundAt rnd neg m e q
    let (rn, _) := roundAt rnd neg m e qn
    let tiny := qn + (bitLen rn : Int) ≤ qmin + mb
    ((q - qmin).toNat * 2 ^ mb + r, exact, tiny)

/-- A result: a code and the flags it raises. -/
structure FRes where
  code : Nat
  fl : Byte
  deriving DecidableEq, Repr

/-- How a result is delivered: direction, saturation (R237) and flushing (R236). -/
structure RndCtl where
  rnd : Rnd
  sat : Bool
  ftz : Bool
  deriving DecidableEq, Repr

/-- The infinity or the largest finite value that an overflow gives (IEEE 754). -/
def overflowCode (f : BinFmt) (rnd : Rnd) (neg : Bool) : Nat :=
  match rnd with
  | .rz => f.infCode - 1
  | .ru => if neg then f.infCode - 1 else f.infCode
  | .rd => if neg then f.infCode else f.infCode - 1
  | _ => f.infCode

/-- A finite non-zero exact value rounded to an IEEE format: OF, UF and NX as R213, saturation as R237, flushing of
a subnormal result as R236. -/
def BinFmt.round (f : BinFmt) (c : RndCtl) (neg : Bool) (m : Nat) (e : Int) : FRes :=
  let (code, exact, tiny) := roundMag f.mb f.qmin c.rnd neg m e
  if code ≥ f.infCode then
    if c.sat then { code := f.signed neg (f.infCode - 1), fl := flSAT ||| flNX }
    else { code := f.signed neg (overflowCode f c.rnd neg), fl := flOF ||| flNX }
  else if c.ftz && code != 0 && code < 2 ^ f.mb then { code := f.signed neg 0, fl := flUF ||| flNX }
  else
    { code := f.signed neg code,
      fl := (if exact then 0 else flNX) ||| (if tiny && !exact then flUF else 0) }

/-- The canonical NaN of a format, with IV when `iv`. -/
def BinFmt.nanRes (f : BinFmt) (iv : Bool) : FRes := { code := f.nanCode, fl := if iv then flIV else 0 }

/-- A value delivered in a format: zero, infinity and NaN as they are. -/
def BinFmt.deliver (f : BinFmt) (c : RndCtl) : FP → FRes
  | .nan s => f.nanRes s
  | .inf n => { code := f.signed n f.infCode, fl := 0 }
  | .fin n m e => if m = 0 then { code := f.signed n 0, fl := 0 } else f.round c n m e

/-! ## Exact operations -/

/-- The signed integer of a finite value in units of `2 ^ q`, for `q` not above its exponent. -/
def scaled (neg : Bool) (m : Nat) (e q : Int) : Int :=
  let v : Int := (m * 2 ^ (e - q).toNat : Nat)
  if neg then -v else v

/-- A finite value from a signed integer in units of `2 ^ q`; a zero takes the sign given. -/
def finOf (x : Int) (q : Int) (zeroNeg : Bool) : FP :=
  if x = 0 then .fin zeroNeg 0 q else .fin (x < 0) x.natAbs q

/-- Whether an invalid addition or NaN operand makes the sum a NaN, with IV. -/
def nanOf2 (a b : FP) : Option Bool := if a.isNan || b.isNan then some (a.isSig || b.isSig) else none

/-- The exact sum of two values, or a NaN with IV for inf - inf; an exact zero sum of opposite signs is +0, or −0
under RD (R136). The Bool is IV. -/
def exactAdd (rnd : Rnd) (a b : FP) : FP × Bool :=
  match nanOf2 a b with
  | some s => (.nan false, s)
  | none =>
    match a, b with
    | .inf x, .inf y => if x = y then (.inf x, false) else (.nan false, true)
    | .inf x, _ => (.inf x, false)
    | _, .inf y => (.inf y, false)
    | .fin na ma ea, .fin nb mb eb =>
      let q := min ea eb
      let zneg := if ma = 0 && mb = 0 && na = nb then na else rnd == .rd
      (finOf (scaled na ma ea q + scaled nb mb eb q) q zneg, false)
    | _, _ => (.nan false, false)

/-- The exact product of two values, or a NaN with IV for 0 times inf (R136). The Bool is IV. -/
def exactMul (a b : FP) : FP × Bool :=
  match nanOf2 a b with
  | some s => (.nan false, s)
  | none =>
    match a, b with
    | .fin na ma ea, .fin nb mb eb => (.fin (na != nb) (ma * mb) (ea + eb), false)
    | x, y => if x.isZero || y.isZero then (.nan false, true) else (.inf (x.isNeg != y.isNeg), false)

/-- `f.deliver` with IV added. -/
def withIV (r : FRes) (iv : Bool) : FRes := if iv then { r with fl := r.fl ||| flIV } else r

/-- Addition, one rounding (R136). -/
def BinFmt.add (f : BinFmt) (c : RndCtl) (a b : FP) : FRes :=
  let (x, iv) := exactAdd c.rnd a b
  withIV (f.deliver c x) iv

/-- Multiplication, one rounding (R136). -/
def BinFmt.mul (f : BinFmt) (c : RndCtl) (a b : FP) : FRes :=
  let (x, iv) := exactMul a b
  withIV (f.deliver c x) iv

/-- `a * b + c`, one rounding; 0 times inf raises IV whatever the addend (R136). -/
def BinFmt.fma (f : BinFmt) (k : RndCtl) (a b c : FP) : FRes :=
  let (p, iv1) := exactMul a b
  let (x, iv2) := exactAdd k.rnd p c
  withIV (f.deliver k x) (iv1 || iv2)

/-- A quotient of finite values with enough bits and a sticky bit for one correct rounding. -/
def quotient (f : BinFmt) (ma : Nat) (ea : Int) (mb : Nat) (eb : Int) : Nat × Int :=
  let sh := bitLen mb + f.mb + 4
  let n := ma * 2 ^ sh
  (2 * (n / mb) + (if n % mb = 0 then 0 else 1), ea - eb - sh - 1)

/-- Division, correctly rounded (R136). -/
def BinFmt.div (f : BinFmt) (c : RndCtl) (a b : FP) : FRes :=
  match nanOf2 a b with
  | some s => f.nanRes s
  | none =>
    let neg := a.isNeg != b.isNeg
    match a, b with
    | .inf _, .inf _ => f.nanRes true
    | .inf _, _ => { code := f.signed neg f.infCode, fl := 0 }
    | _, .inf _ => { code := f.signed neg 0, fl := 0 }
    | .fin _ ma ea, .fin _ mb eb =>
      if mb = 0 then
        if ma = 0 then f.nanRes true else { code := f.signed neg f.infCode, fl := flDZ }
      else if ma = 0 then { code := f.signed neg 0, fl := 0 }
      else
        let (m, e) := quotient f ma ea mb eb
        f.round c neg m e
    | _, _ => f.nanRes false

/-- The integer square root by bits: the largest `r` below `2 ^ k` with `r * r ≤ n`, from `r`. -/
def isqrtGo (n : Nat) : Nat → Nat → Nat
  | 0, r => r
  | k + 1, r => if (r + 2 ^ k) * (r + 2 ^ k) ≤ n then isqrtGo n k (r + 2 ^ k) else isqrtGo n k r

/-- The integer square root of a number. -/
def isqrt (n : Nat) : Nat := isqrtGo n (bitLen n / 2 + 1) 0

/-- The square root of a positive value with enough bits and a sticky bit. -/
def rootOf (f : BinFmt) (m : Nat) (e : Int) : Nat × Int :=
  let sh := 2 * f.mb + 8 + (if (e - 2 * f.mb - 8) % 2 = 0 then 0 else 1)
  let n := m * 2 ^ sh
  let r := isqrt n
  (2 * r + (if r * r = n then 0 else 1), (e - sh) / 2 - 1)

/-- Square root, correctly rounded (R241). -/
def BinFmt.sqrt (f : BinFmt) (c : RndCtl) (a : FP) : FRes :=
  match a with
  | .nan s => f.nanRes s
  | .inf n => if n then f.nanRes true else { code := f.infCode, fl := 0 }
  | .fin n m e =>
    if m = 0 then { code := f.signed n 0, fl := 0 }
    else if n then f.nanRes true
    else
      let (r, q) := rootOf f m e
      f.round c false r q

/-! ## Comparisons -/

/-- Whether `a < b`, for values that are no NaN; −0 equals +0. -/
def FP.lt (a b : FP) : Bool :=
  match a, b with
  | .inf x, .inf y => x && !y
  | .inf x, _ => x
  | _, .inf y => !y
  | .fin na ma ea, .fin nb mb eb =>
    let q := min ea eb
    decide (scaled na ma ea q < scaled nb mb eb q)
  | _, _ => false

/-- Whether two values that are no NaN are equal; −0 equals +0 (R143). -/
def FP.eq (a b : FP) : Bool := !a.isNan && !b.isNan && !a.lt b && !b.lt a

/-- minimumNumber and maximumNumber (R137): a NaN gives the other operand, two NaNs the canonical NaN, −0 is less
than +0, and a signalling NaN raises IV. `x` and `y` are the codes of the operands. -/
def BinFmt.minMax (f : BinFmt) (mx : Bool) (x y : Nat) (a b : FP) : FRes :=
  let fl : Byte := if a.isSig || b.isSig then flIV else 0
  if a.isNan && b.isNan then { code := f.nanCode, fl := fl }
  else if a.isNan then { code := y, fl := fl }
  else if b.isNan then { code := x, fl := fl }
  else
    let less := a.lt b || (a.isZero && b.isZero && a.isNeg && !b.isNeg)
    { code := if less != mx then x else y, fl := fl }

/-- A floating compare with its flag: eq, ne, lt, le, gt, ge, un (R143, R246). -/
def fpCompare (cond : BitVec 3) (a b : FP) : Bool × Byte :=
  let un := a.isNan || b.isNan
  let sig := a.isSig || b.isSig
  let r := match cond.toNat with
    | 0 => a.eq b
    | 1 => !(a.eq b)
    | 2 => !un && a.lt b
    | 3 => !un && !(b.lt a)
    | 4 => !un && b.lt a
    | 5 => !un && !(a.lt b)
    | _ => un
  let ordered := 2 ≤ cond.toNat && cond.toNat ≤ 5
  (r, if sig || (ordered && un) then flIV else 0)

/-- An integer compare: eq, ne, lt, le, gt, ge (R185). -/
def intCompare (cond : BitVec 3) (a b : Int) : Bool :=
  match cond.toNat with
  | 0 => a == b
  | 1 => a != b
  | 2 => decide (a < b)
  | 3 => decide (a ≤ b)
  | 4 => decide (a > b)
  | _ => decide (a ≥ b)

/-! ## Integers -/

/-- A value rounded to an integer, with whether it was exact. -/
def toInt (rnd : Rnd) (neg : Bool) (m : Nat) (e : Int) : Int × Bool :=
  let (r, exact) := roundAt rnd neg m e 0
  (if neg then -(r : Int) else r, exact)

/-- Least and greatest value of an integer type of `n` bits. -/
def intRange (sg : Bool) (n : Nat) : Int × Int :=
  if sg then (-(2 ^ (n - 1) : Nat), (2 ^ (n - 1) : Nat) - 1) else (0, (2 ^ n : Nat) - 1)

/-- `x` as the code of an integer of `n` bits, modulo 2^n. -/
def intCode (n : Nat) (x : Int) : Nat := (x % (2 ^ n : Nat)).toNat

/-- Conversion to an integer of `n` bits (R145, R252): a NaN gives 0, a value out of range the nearest bound, both
with IV, or with SAT when `sat`. -/
def fpToInt (rnd : Rnd) (sat : Bool) (sg : Bool) (n : Nat) (a : FP) : FRes :=
  let bad : Byte := if sat then flSAT else flIV
  let (lo, hi) := intRange sg n
  match a with
  | .nan _ => { code := 0, fl := bad }
  | .inf neg => { code := intCode n (if neg then lo else hi), fl := bad }
  | .fin neg m e =>
    let (x, exact) := toInt rnd neg m e
    if x < lo then { code := intCode n lo, fl := bad }
    else if x > hi then { code := intCode n hi, fl := bad }
    else { code := intCode n x, fl := if exact then 0 else flNX }

/-- The exact value of an integer. -/
def fpOfInt (x : Int) : FP := .fin (x < 0) x.natAbs 0

/-- Rounding to an integral value of the format, keeping the sign (R244). -/
def BinFmt.roundInt (f : BinFmt) (rnd : Rnd) (exactFlag : Bool) (a : FP) : FRes :=
  match a with
  | .nan s => f.nanRes s
  | .inf n => { code := f.signed n f.infCode, fl := 0 }
  | .fin n m e =>
    let (r, exact) := roundAt rnd n m e 0
    let y := f.deliver { rnd := .rne, sat := false, ftz := false } (.fin n r 0)
    { y with fl := if exactFlag && !exact then flNX else 0 }

/-! ## The narrow formats -/

/-- The narrow formats of codes (R215 to R217). -/
inductive Narrow where
  | e4m3 | e5m2 | e2m1
  deriving DecidableEq, Repr

/-- Fraction bits. -/
def Narrow.mb : Narrow → Nat
  | .e4m3 => 3
  | .e5m2 => 2
  | .e2m1 => 1
/-- Exponent of the unit of a subnormal. -/
def Narrow.qmin : Narrow → Int
  | .e4m3 => -9
  | .e5m2 => -16
  | .e2m1 => -1
/-- The code of the largest finite value. -/
def Narrow.maxCode : Narrow → Nat
  | .e4m3 => 0x7E
  | .e5m2 => 0x7B
  | .e2m1 => 0x7
/-- The sign bit of a code. -/
def Narrow.signBit : Narrow → Nat
  | .e2m1 => 8
  | _ => 128
/-- The code of a NaN that the device writes; e2m1 has none. -/
def Narrow.nanCode : Narrow → Nat
  | .e4m3 => 0x7F
  | .e5m2 => 0x7E
  | .e2m1 => 0
/-- The largest finite value (R223): 448, 57344 or 6. -/
def Narrow.maxVal : Narrow → Nat
  | .e4m3 => 448
  | .e5m2 => 57344
  | .e2m1 => 6

/-- The value of a narrow code (R215 to R217); every NaN code reads as a quiet NaN. -/
def Narrow.val (f : Narrow) (x : Nat) : FP :=
  let neg := x / f.signBit % 2 == 1
  let c := x % f.signBit
  let ex := c / 2 ^ f.mb
  let fr := c % 2 ^ f.mb
  if f = .e4m3 ∧ c = 0x7F then .nan false
  else if f = .e5m2 ∧ ex = 31 then if fr = 0 then .inf neg else .nan false
  else if ex = 0 then .fin neg fr f.qmin
  else .fin neg (2 ^ f.mb + fr) (f.qmin + (ex - 1 : Nat))

/-- A narrow code with a sign. -/
def Narrow.signed (f : Narrow) (neg : Bool) (c : Nat) : Nat := if neg then f.signBit + c else c

/-- Conversion of an exact value to a narrow format (R220). -/
def Narrow.conv (f : Narrow) (rnd : Rnd) (sati : Bool) (x : FP) : FRes :=
  match x with
  | .nan _ => { code := f.nanCode, fl := 0 }
  | .inf n =>
    if f = .e5m2 then { code := f.signed n 0x7C, fl := 0 }
    else { code := f.signed n f.maxCode, fl := flSAT ||| flNX }
  | .fin n m e =>
    let (c, exact, _) := roundMag f.mb f.qmin rnd n m e
    if c > f.maxCode then
      if f = .e5m2 && sati then { code := f.signed n 0x7C, fl := flOF ||| flNX }
      else { code := f.signed n f.maxCode, fl := flSAT ||| flNX }
    else { code := f.signed n c, fl := if exact then 0 else flNX }

/-! ## Block scales -/

/-- The value of an e3m5 scale; none for the NaN scale 0xFF (R218). -/
def scaleVal (s : Nat) : Option (Nat × Int) :=
  if s = 0xFF then none
  else if s / 32 = 0 then some (s % 32, -7) else some (32 + s % 32, (s / 32 : Nat) - 8)

/-- expand(code, scale) of a value already read from its code (R221). The Bool is IV. -/
def expandVal (v : FP) (scale : Nat) : FP × Bool :=
  match scaleVal scale with
  | none => (.nan false, false)
  | some (m, e) =>
    match v with
    | .nan _ => (.nan false, false)
    | .inf n => if m = 0 then (.nan false, true) else (.inf n, false)
    | .fin n mv ev => (.fin n (mv * m) (ev + e), false)

/-- The quotient of a value by a scale that is neither zero nor NaN, with bits to spare and a sticky bit. -/
def scaleQuot (v : FP) (m : Nat) (e : Int) : FP :=
  match v with
  | .fin n mv ev =>
    let t := mv * 2 ^ 64
    .fin n (2 * (t / m) + (if t % m = 0 then 0 else 1)) (ev - e - 65)
  | y => y

/-- The scale of a block with largest magnitude `m * 2 ^ e` for a format with largest value `M`: the smallest
e3m5 value not below it, or none when it exceeds 31 (R223). -/
def blockScale (m : Nat) (e : Int) (mx : Nat) : Option Nat :=
  (List.range 254).map (· + 1) |>.find? fun s =>
    match scaleVal s with
    | some (sm, se) =>
      let q := min e se
      decide (m * 2 ^ (e - q).toNat ≤ sm * mx * 2 ^ (se - q).toNat)
    | none => false

/-! ## Subscription (R233, R348) -/

/-- round_f of a word for a format of a copy: its code, or the word itself for FULL (R233, R388). -/
def roundSub (f : Fmt) (w : Word) : Word :=
  let v := f32F.val w.toNat
  match f with
  | .full => w
  | .bf16 => BitVec.ofNat 32 (bf16F.deliver { rnd := .rne, sat := false, ftz := false } v).code
  | .e4m3 => BitVec.ofNat 32 (Narrow.e4m3.conv .rna false v).code
  | .e5m2 => BitVec.ofNat 32 (Narrow.e5m2.conv .rna false v).code

/-- The f32 value of a value that f32 holds exactly; a NaN gives 0x7FC00000. -/
def exactF32 (v : FP) : Word :=
  BitVec.ofNat 32 (f32F.deliver { rnd := .rne, sat := false, ftz := false } v).code

/-- A code of a copy widened to f32 (R348). -/
def widenSub (f : Fmt) (c : Word) : Word :=
  match f with
  | .full => c
  | .bf16 => exactF32 (bf16F.val c.toNat)
  | .e4m3 => exactF32 (Narrow.e4m3.val c.toNat)
  | .e5m2 => exactF32 (Narrow.e5m2.val c.toNat)

end Sys2Proof.Machine
end

