-- ==== Sys2Proof/Machine/Operands.lean ====
section
/-! DEFINITION. The operand forms: what the fields of an instruction read and write, in which lanes, and how the
values of an operand are formed (R70, R73, R74, R128, R130, R172, R236, R328, R454). -/

namespace Sys2Proof

/-- The registers of a field. -/
def Use.regs : Use → List Nat
  | .rd r | .wr r => [r.toNat]
  | .rd2 r | .wr2 r => [r.toNat, r.toNat + 1]
  | _ => []
/-- The registers that a field reads. -/
def Use.sources : Use → List Nat
  | .rd r => [r.toNat]
  | .rd2 r => [r.toNat, r.toNat + 1]
  | _ => []
/-- The registers that a field writes. -/
def Use.dests : Use → List Nat
  | .wr r => [r.toNat]
  | .wr2 r => [r.toNat, r.toNat + 1]
  | _ => []
/-- The predicates that a field reads. -/
def Use.preds : Use → List PNum
  | .pr p | .prw p => [p]
  | _ => []
/-- The predicates that a field writes. -/
def Use.predDests : Use → List PNum
  | .pw p | .prw p => [p]
  | _ => []

/-- The fields of an instruction in the order A, B, C, D. -/
def Uses.list (u : Uses) : List Use := [u.a, u.b, u.c, u.d]

/-- Whether every register named exists in the warp (R26, R74). -/
def Uses.inRange (u : Uses) (n : Nat) : Bool := u.list.all fun x => x.regs.all fun r => r < n

/-- In which lanes an instruction reads its register operands. -/
inductive OpLanes where
  | each | zero | low | own
  deriving DecidableEq, Repr

/-- The lanes whose operands an instruction consumes: each lane of E, lane 0, the lowest lane of E, or lanes that
its own meaning finds (R201, R206, R257, R281, R339, R464). -/
def Instr.opLanes : Instr → OpLanes
  | .tload .. | .tstore .. | .mon .. | .mwait .. | .prefCnt .. | .prefCl .. | .subs .. | .upgr .. | .unsub ..
  | .copy .. | .gath .. | .pxfer .. | .bankm .. | .ovld .. | .mma .. | .mmap .. | .smv .. | .ald .. | .ast ..
  | .batonPass .. | .batonRing .. | .sbnd .. => .zero
  | .sets .. | .sysw .. | .launch .. | .lwait .. | .graph .. | .cstore .. | .cstoreNf .. => .low
  | .shfl .. | .rdlane .. => .own
  | _ => .each

/-- The fields whose words are consumed in the lanes of `opLanes`: a word that a store or FPUSH moves is not (R329, R454),
and the scales of a QNT are consumed in other lanes than its values (R253). -/
def Instr.consumes (i : Instr) : Uses :=
  let u := i.uses
  match i with
  | .st .. => { u with d := .none }
  | .sc .. => { u with b := .none }
  | .cstore .. => { u with b := .none }
  | .cstoreNf .. => { u with b := .none }
  | .fpush .. => { u with a := .none }
  | .qnt .. => { u with b := .none }
  | _ => u

/-- Whether an instruction is ILLEGAL in the state of its warp: in or out of handler mode (R441, R466, R467, R476). -/
def Instr.barred (i : Instr) (handler : Bool) : Bool :=
  match i with
  | .strand .. | .waits .. => handler
  | .eret | .traprd .. => !handler
  | .sysw _ idx _ => !handler && (idx == 0x03#8 || idx == 0x06#8 || idx == 0x07#8)
  | _ => false

/-- The predicates that an instruction reads or writes. -/
def Instr.predsUsed (i : Instr) : List Nat :=
  let u := i.uses.list
  let named := (u.flatMap fun x => x.preds ++ x.predDests).map fun p => p.toNat
  match i with
  | .p2g .. => List.range 12
  | .g2p _ _ m => (List.range 12).filter fun p => m.getLsbD p
  | .cstoreNf _ _ _ _ _ _ _ _ pf => pf.toNat :: named
  | _ => named

end Sys2Proof
end

