-- ==== Sys2Proof/Machine/Slots.lean ====
section
/-! DEFINITION. Format slots: their fields, the legality table, and the checks that an instruction makes before it
fetches an operand (R226, R227, R257, R273). -/

namespace Sys2Proof

/-! ## Fields (R226) -/

/-- A format slot. -/
abbrev Slot := DWord

def slotA (x : Slot) : Nat := (bitsAt x 0 4).toNat
def slotB (x : Slot) : Nat := (bitsAt x 4 4).toNat
def slotO (x : Slot) : Nat := (bitsAt x 8 4).toNat
/-- BLK as coded. -/
def slotBlk (x : Slot) : Nat := (bitsAt x 12 2).toNat
/-- Elements per block scale: 8, 16 or 32, and 1 for none. -/
def blkLen (x : Slot) : Nat :=
  match slotBlk x with
  | 1 => 8
  | 2 => 16
  | 3 => 32
  | _ => 1
/-- Whether SFMT is e3m5. -/
def slotScaled (x : Slot) : Bool := bitsAt x 14 2 == 1#2
def slotSfmt (x : Slot) : Nat := (bitsAt x 14 2).toNat
def slotBand (x : Slot) : Nat := (bitsAt x 16 2).toNat
/-- Lines per band scale; 0 for none. -/
def bandLen (x : Slot) : Nat :=
  match slotBand x with
  | 1 => 64
  | 2 => 128
  | _ => 0
def slotShape (x : Slot) : Nat := (bitsAt x 23 3).toNat
def slotSati (x : Slot) : Bool := bitAt x 22
/-- RND as coded: 0 rna, 1 rne, 2 rz. -/
def slotRnd (x : Slot) : Nat := (bitsAt x 20 2).toNat

/-! ## Operand blocks (R268) -/

/-- Bits of an element of a format code. -/
def fmtBits (f : Nat) : Nat :=
  match f with
  | 1 | 2 => 16
  | 5 => 4
  | 6 => 64
  | _ => 8
/-- K of a slot's shape. -/
def slotK (x : Slot) : Nat := if slotShape x = 1 then 8 else 64
/-- Rows of a slot's shape. -/
def slotRows (x : Slot) : Nat := if slotShape x = 0 then 128 else 64
/-- Offset of the block scales in a block of `lines` lines. -/
def scalesAt (x : Slot) (f lines : Nat) : Nat := lines * slotK x * fmtBits f / 8
/-- Offset of the band scales. -/
def bandsAt (x : Slot) (f lines : Nat) : Nat :=
  scalesAt x f lines + (if slotScaled x then lines * slotK x / blkLen x else 0)
/-- Bytes of a block: its fields, rounded up to a multiple of 128. -/
def blockBytes (x : Slot) (f lines : Nat) : Nat :=
  let n := bandsAt x f lines + (if bandLen x = 0 then 0 else 2 * ((lines + bandLen x - 1) / bandLen x))
  (n + 127) / 128 * 128

/-! ## Legality (R227) -/

/-- A code of a narrow format: e4m3, e5m2 or e2m1. -/
def isNarrow (f : Nat) : Bool := f == 3 || f == 4 || f == 5

/-- No reserved value in any field. -/
def slotRange (x : Slot) : Bool :=
  bitsAt x 26 38 == 0#38 && slotShape x ≤ 2 && slotRnd x ≤ 2 && bitsAt x 18 2 == 0#2 && slotBand x ≤ 2 &&
    slotSfmt x ≤ 1 && (slotO x == 0 || slotO x == 6 || slotO x == 8) && slotA x ≤ 7 && slotB x ≤ 7

/-- BLK, SFMT and BAND none. -/
def slotPlain (x : Slot) : Bool := slotBlk x == 0 && slotSfmt x == 0 && slotBand x == 0
/-- BLK and SFMT both none, or both present. -/
def scalesAgree (x : Slot) : Bool := (slotBlk x == 0) == (slotSfmt x == 0)
/-- BLK 8 with SFMT e3m5. -/
def scales8 (x : Slot) : Bool := slotBlk x == 1 && slotSfmt x == 1

/-- The rules of matrix use for a pair of formats and a shape. -/
def matrixRules (x : Slot) (a b shape : Nat) : Bool :=
  if (a == 1 && b == 1) || (a == 2 && b == 2) then slotO x == 0 && slotPlain x && (shape == 0 || shape == 2)
  else if a == 7 && b == 7 then slotO x == 8 && slotPlain x && (shape == 0 || shape == 2)
  else if a == 6 && b == 6 then slotO x == 6 && slotPlain x && shape == 1
  else if isNarrow a && isNarrow b then
    slotO x == 0 && (shape == 0 || shape == 2) &&
      (if a == 5 || b == 5 then scales8 x else scalesAgree x) && (slotBand x == 0 || slotSfmt x == 1)
  else false

/-- A slot legal for MMA (R227). -/
def slotMma (x : Slot) : Bool := slotRange x && matrixRules x (slotA x) (slotB x) (slotShape x)
/-- A slot legal for MMAP, which behaves as MMA under SHAPE 0 (R272). -/
def slotMmap (x : Slot) : Bool := slotMma x && slotShape x == 0
/-- A slot legal for SMV: AFMT bf16, BFMT narrow under the narrow-format rules, SHAPE 0 (R273). -/
def slotSmv (x : Slot) : Bool :=
  slotRange x && slotA x == 1 && isNarrow (slotB x) && slotO x == 0 && slotShape x == 0 &&
    (if slotB x == 5 then scales8 x else scalesAgree x) && (slotBand x == 0 || slotSfmt x == 1)
/-- A slot legal for a conversion (R227). -/
def slotConv (x : Slot) : Bool :=
  slotRange x &&
    (if slotA x == 5 then scales8 x
     else if slotA x == 3 || slotA x == 4 then scalesAgree x
     else slotA x == 0 && slotBlk x == 0 && slotSfmt x == 0)
/-- A slot legal for QNT and DQNT (R253, R254). -/
def slotQnt (x : Slot) : Bool := slotConv x && slotA x != 0
/-- A slot legal for SCALEINIT (R255). -/
def slotScale (x : Slot) : Bool := slotQnt x && scales8 x

/-- The slot an instruction names, and the test that the slot must pass. -/
def Instr.slotTest : Instr → Option (BitVec 3 × (Slot → Bool))
  | .cvt _ code _ _ _ slot .. => if code == 6#5 || code == 7#5 then some (slot, slotConv) else none
  | .qnt _ slot .. => some (slot, slotQnt)
  | .dqnt _ slot .. => some (slot, slotQnt)
  | .scaleinit _ slot .. => some (slot, slotScale)
  | .mma _ _ _ _ slot => some (slot, slotMma)
  | .mmap _ _ _ _ slot => some (slot, slotMmap)
  | .smv _ _ _ _ _ slot => some (slot, slotSmv)
  | _ => none

/-- The instructions of opcodes 0x90 to 0x98 (R257). -/
def Instr.isMatrix : Instr → Bool
  | .mma .. | .mmap .. | .smv .. | .aclr .. | .ald .. | .ast .. | .batonTake .. | .batonPass .. | .batonPassRing ..
  | .batonRing .. | .abind .. | .afree .. => true
  | _ => false

end Sys2Proof
end

