-- ==== Sys2Proof/Machine/Home.lean ====
section
/-! DEFINITION. Physical address windows, the homes of lines, the L1s, and reads and writes of the device's own
(R290, R299, R378, R382 to R405, R481, R483). -/

namespace Sys2Proof.Machine

/-! ## Windows of physical addresses (R290, R481, R483) -/

/-- What a physical address names. -/
inductive Frame where
  | hbm
  | host (port : Nat)
  | pool (port win : Nat)
  | peer (q : Nat)
  | none
  deriving DecidableEq, Repr

/-- One past the last byte of local HBM. -/
def hbmTop : Nat := 0x9000000000
/-- Bytes of one stack. -/
def stackBytes : Nat := 0xC00000000

/-- Whether an offset of a pool port's range lies in a window that is granted (R483). -/
def PoolWin.holds (w : PoolWin) (off : Nat) : Bool :=
  let base := (bitsAt w.base 28 20).toNat * 2 ^ 28
  w.grant && base ≤ off && off < base + w.size.toNat * 2 ^ 28

/-- The window that holds a physical address. -/
def State.frame (s : State) (pa : Nat) : Frame :=
  if pa < hbmTop then .hbm
  else if pa < 2 ^ 48 then .none
  else if pa < 2 * 2 ^ 48 then .host (if pa < 2 ^ 48 + 2 ^ 47 then 0 else 1)
  else if pa < 6 * 2 ^ 48 then
    let p := pa / 2 ^ 48 - 2
    match (List.range 8).find? fun i => (nth PoolWin.start s.ctl.pwins (8 * p + i)).holds (pa % 2 ^ 48) with
    | some i => .pool p (8 * p + i)
    | none => .none
  else if pa < 6 * 2 ^ 48 + 12 * 2 ^ 44 then .peer ((pa - 6 * 2 ^ 48) / 2 ^ 44)
  else .none

/-- The number of a line of a host or pool window by its address on the link (R481). -/
def linkLine (line : Nat) : Nat :=
  if 128 * line < 2 * 2 ^ 48 then (128 * line) % 2 ^ 47 / 128 else (128 * line) % 2 ^ 48 / 128
/-- The port of a line of a host or pool window. -/
def linkPort (line : Nat) : Nat :=
  if 128 * line < 2 * 2 ^ 48 then (if 128 * line < 2 ^ 48 + 2 ^ 47 then 0 else 1) else 128 * line / 2 ^ 48 - 2
/-- The state with a message sent about a line of a host or pool window (R481). -/
def State.sendLink (s : State) (line : Nat) (f : Nat → LinkMsg) : State :=
  s.send (if 128 * line < 2 * 2 ^ 48 then .host (linkPort line) (f (linkLine line)) else .pool (linkPort line) (f (linkLine line)))

/-- The home die of a line (R382). -/
def homeDie (line : Nat) : Nat :=
  if 128 * line < hbmTop then 128 * line / stackBytes / 3 else line % 4
/-- The home slice of a line on its die (R382). -/
def homeSlice (line : Nat) : Nat :=
  let f := fun i => line / 2 ^ i % 32
  if 128 * line < hbmTop then (f 0 ^^^ f 5) ^^^ f 10 else f 2 ^^^ f 7

/-- Host port `p`. -/
def State.port (s : State) (p : Nat) : HostPort :=
  nth { up := false, hdmdb := false, cache := false, owned := false } s.ctl.hostPorts p
/-- Whether the device may hold a line in L2 (R398, R399, R401). -/
def State.cacheable (s : State) (line : Nat) : Bool :=
  match s.frame (128 * line) with
  | .hbm | .pool _ _ => true
  | .host p => (s.port p).cache
  | _ => false

/-- Whether the module carries memory traffic (R491, R493). -/
def State.carries (s : State) : Bool := s.ctl.modst == .ready
/-- Whether the home of a line can be reached: memory of the device itself, or memory behind a port while the ports carry
traffic (R491). -/
def State.reaches (s : State) (line : Nat) : Bool := s.frame (128 * line) == .hbm || s.carries

/-! ## Lines at their homes -/

/-- An observation record that begins now (R394). -/
def Obs.fresh (clock : Nat) : Obs :=
  { wr := [], rd := [], streak := 0, union := [], barred := false, start := clock }
/-- A line just installed at its home. -/
def L2Line.fresh (data : LineData) (st : Moesi) (clock : Nat) : L2Line :=
  { data := data, dirty := false, through := false, st := st, host := .hi, priv := false, busy := false, nodes := [],
    prop := none, obs := Obs.fresh clock }

/-- The line as its home holds it. -/
def State.l2At (s : State) (line : Nat) : Option L2Line := alFind line s.l2
/-- The state with a line held at its home. -/
def State.setL2 (s : State) (line : Nat) (x : L2Line) : State := { s with l2 := alPut line x s.l2 }
/-- The state with a held line changed. -/
def State.modL2 (s : State) (line : Nat) (f : L2Line → L2Line) : State :=
  match s.l2At line with
  | some x => s.setL2 line (f x)
  | none => s
/-- The state without a line at its home. -/
def State.dropL2 (s : State) (line : Nat) : State := { s with l2 := alDel line s.l2 }
/-- Physical memory with a line stored. -/
def State.storeMem (s : State) (line : Nat) (d : LineData) : State :=
  { s with mem := memPutLine s.mem line d, memP := memPutPoison s.memP line d }
/-- The bytes of a line in physical memory. -/
def State.memAt (s : State) (line : Nat) : LineData := memLine s.mem s.memP line
/-- The bytes of a line as the device holds them. -/
def State.homeLine (s : State) (line : Nat) : LineData :=
  match s.l2At line with
  | some x => x.data
  | none => s.memAt line
/-- Whether an operation on the line is in progress at its home (R387). -/
def State.lineBusy (s : State) (line : Nat) : Bool :=
  match s.l2At line with
  | some x => x.busy || x.prop.isSome
  | none => false

/-! ## The L1 of a core -/

/-- The tag of a line in an L1. -/
def CoreSt.l1At (c : CoreSt) (line : Nat) : Option L1Line := c.l1.find? fun x => x.line == line
/-- The L1 with the tag of a line changed. -/
def CoreSt.modL1 (c : CoreSt) (line : Nat) (f : L1Line → L1Line) : CoreSt :=
  { c with l1 := c.l1.map fun x => if x.line = line then f x else x }
/-- The L1 without a line. -/
def CoreSt.dropL1 (c : CoreSt) (line : Nat) : CoreSt := { c with l1 := c.l1.filter fun x => x.line != line }
/-- The L1 with a line as its most recently used. -/
def CoreSt.touchL1 (c : CoreSt) (line : Nat) : CoreSt :=
  { c with l1 := (c.l1.filter fun x => x.line == line) ++ (c.l1.filter fun x => x.line != line) }
/-- The banks in CACHE mode, each one way of the L1 (R299). -/
def CoreSt.cacheBanks (c : CoreSt) : List Nat := (List.range c.banks.length).filter fun i => (c.banks[i]?.map fun b => b.mode) == some .cache

/-- A line with word `i` given by `f`. -/
def wordsLine (f : Nat → Word) : BitVec 1024 :=
  laneList.foldl (fun acc i => acc ||| ((f i).setWidth 1024 <<< (32 * i))) 0
/-- The codes that a copy of a format holds of a line (R392). -/
def codeLine (f : Fmt) (d : LineData) : LineData :=
  match f with
  | .full => d
  | _ => { bits := wordsLine fun i => roundSub f (lineWord d.bits i), poison := d.poison }
/-- The bytes of the words of a mask. -/
def wordBytes (m : Mask) : BitVec 128 :=
  (lanesOf m).foldl (fun acc i => acc ||| byteRun (4 * i) 4) 0
/-- Word `i` of a line with its poison mark. -/
def markedWord (d : LineData) (i : Nat) : Word × Bool := (lineWord d.bits i, d.poison.getLsbD i)
/-- Whether a word's code of a format differs between two lines; a poison mark counts as a difference (R388). -/
def codeChanges (f : Fmt) (old new : LineData) (i : Nat) : Bool :=
  markedWord (codeLine f old) i != markedWord (codeLine f new) i

/-- Nodes of the narrow formats (R388). -/
def L2Line.narrow (x : L2Line) : Nat := (x.nodes.filter fun n => n.fmt != .full).length

/-- The granted mask of a core's privatised copy of a line, 0 for none (R395). -/
def State.grantOf (s : State) (core line : Nat) : BitVec 128 :=
  match (s.core core).l1At line with
  | some x => if x.pst = .privatised then x.granted else 0
  | none => 0

/-- A merge: the written bytes of every privatised copy enter the line, and the copies are dropped (R396). -/
def State.mergeLine (s : State) (line : Nat) : State :=
  match s.l2At line with
  | none => s
  | some x =>
    if x.priv then
      let data := x.nodes.foldl (fun d n =>
        match (s.core n.core).l1At line with
        | some l => if l.pst = .privatised then lineWrite d l.data l.written else d
        | none => d) x.data
      let s := x.nodes.foldl (fun t n => t.modCore n.core fun c => c.dropL1 line) s
      s.setL2 line { x with data := data, dirty := true, priv := false, nodes := [], obs := Obs.fresh s.clock }
    else s

/-- What a write to a line does to reservations and watches (R337, R343, R405). -/
def State.noteWrite (s : State) (line : Nat) : State :=
  { s with
    resv := s.resv.filter fun r => r.2.2 != line
    watches := s.watches.map fun w => if w.line = line then { w with hit := true } else w }

/-- A node receives an update (R389). -/
def State.updateNode (s : State) (n : Node) (line : Nat) (words : Mask) (new : LineData) : State :=
  let skip := if n.fmt = .full then s else { s with subskip := s.subskip + 1 }
  match (s.core n.core).l1At line with
  | none => skip
  | some x =>
    if x.pst = .leaving ∨ x.pst = .detached then skip
    else
      let codes := codeLine n.fmt new
      let put := s.modCore n.core fun c => c.modL1 line fun x => { x with data := lineWrite x.data codes (wordBytes words) }
      if n.fmt = .full then put
      else if (lanesOf words).any fun i => markedWord x.data i != markedWord codes i then
        { put with subupd := put.subupd + 1 }
      else skip

/-- Whether a write is sent down the list (R388). -/
def L2Line.sends (x : L2Line) (new : LineData) (words : Mask) : Bool :=
  x.host == .hs || x.nodes.any fun n => (lanesOf words).any fun i => codeChanges n.fmt x.data new i

/-! ## Writes of the device's own (R388; log 11) -/

/-- A line of `v` at `off` as the number of `n` bytes, with the poison of the words of `old` that it touches. -/
def numLine (old : LineData) (off n : Nat) (v : BitVec 64) : LineData :=
  lineOf off n v ((old.poison &&& wordsOf (byteRun off n)) != 0#32)

/-- A line after an operation of the device (R311, R315, R340, R408, R474). -/
def DevOp.line (op : DevOp) (old new : LineData) (m : BitVec 128) : LineData :=
  match op with
  | .put => lineWrite old new m
  | .set => { old with bits := old.bits ||| new.bits }
  | .inc off n v => lineWrite old (numLine old off n (lineRead old.bits off n + BitVec.ofNat 64 v)) (byteRun off n)
  | .dec off =>
    let p := lineRead old.bits off 2
    if p = 0 then old else lineWrite old (numLine old off 2 (p - 1)) (byteRun off 2)
  | .cas _ off v =>
    if lineRead old.bits off 8 = BitVec.ofNat 64 v then lineWrite old (numLine old off 8 (BitVec.ofNat 64 (v + 1))) (byteRun off 8)
    else old
  | .claim _ off => if old.bits.getLsbD (8 * off) then old else lineWrite old (numLine old off 4 1) (byteRun off 4)

/-- A write of the device to bytes of a line. -/
def Write.own (line : Nat) (kind : WKind) (d : LineData) (m : BitVec 128) : Write :=
  { id := 0, warp := none, core := none, lanes := 0, seen := 0, line := line, va := 0, kind := kind, data := d, mask := m,
    rel := false, scope := 3, phase := .pending, nf := none, through := false, ptes := [], counter := none, wb := .waiting, req := 0,
    root := 0, region := 0, note := none }
/-- The state with a write on its way to its home (WRITE_AT_HOME). -/
def State.sendOwn (s : State) (x : Write) : State :=
  { s with writes := s.writes ++ [{ x with id := s.nextId }], nextId := s.nextId + 1 }

/-- Whether a write has still to reach its place: at its home, or in the memory of a host that does not let the device cache
it. -/
def State.unapplied (s : State) (x : Write) : Bool :=
  match x.phase with
  | .pending | .asked | .held => true
  | .propagating => false
  | .remote => match s.frame (128 * x.line) with
    | .host _ => true
    | _ => false

/-- A line with the writes of the device's own that are still on their way to it: what the device itself reads. -/
def State.withOwn (s : State) (line : Nat) (d : LineData) : LineData :=
  s.writes.foldl (fun d x => match x.kind with
    | .dev op => if x.line = line ∧ s.unapplied x then op.line d x.data x.mask else d
    | _ => d) d

/-- The device writes bytes of a line. -/
def State.devWriteLine (s : State) (line : Nat) (d : LineData) (m : BitVec 128) : State :=
  s.sendOwn (Write.own line (.dev .put) d m)

/-- A byte with its poison mark. -/
abbrev MarkedByte := Byte × Bool

/-- Byte `off` of a line with its mark. -/
def markedByte (d : LineData) (off : Nat) : MarkedByte := (lineByte d.bits off, d.poison.getLsbD (off / 4))

/-- The line that holds `b` at `off`. -/
def putByte (d : LineData) (off : Nat) (b : MarkedByte) : LineData :=
  { bits := (d.bits &&& ~~~(0xFF#1024 <<< (8 * off))) ||| (b.1.setWidth 1024 <<< (8 * off)),
    poison := if b.2 then d.poison ||| (1#32 <<< (off / 4)) else d.poison }

/-- Bytes from address `a` on, gathered by line: the line, its bytes and their mask. -/
def byLine (a : Nat) (bs : List MarkedByte) : List (Nat × LineData × BitVec 128) :=
  (bs.foldl (fun (acc : Nat × List (Nat × LineData × BitVec 128)) b =>
    let line := lineNo acc.1
    let off := acc.1 % 128
    let (d, m) := alGet (LineData.zero, 0) line acc.2
    (acc.1 + 1, alPut line (putByte d off b, m ||| byteRun off 1) acc.2)) (a, [])).2

/-- The device writes bytes at a physical address (log 11). -/
def State.devWrite (s : State) (pa : Nat) (bs : List MarkedByte) : State :=
  (byLine pa bs).foldl (fun t x => t.devWriteLine x.1 x.2.1 x.2.2) s
/-- The device writes bytes at a physical address and sends a message once they are all written. -/
def State.devWriteThen (s : State) (pa : Nat) (bs : List MarkedByte) (m : Msg) : State :=
  (byLine pa bs).foldl (fun t x =>
    t.sendOwn { Write.own x.1 (.dev .put) x.2.1 x.2.2 with note := some (s.nextId, m) }) s

/-- The `n` bytes of a number, little-endian, clean. -/
def bytesOf (n : Nat) (v : Nat) : List MarkedByte :=
  (List.range n).map fun i => (BitVec.ofNat 8 (v / 256 ^ i), false)
/-- The number whose little-endian bytes are given. -/
def numOf (bs : List MarkedByte) : Nat := bs.foldr (fun b acc => b.1.toNat + 256 * acc) 0

/-- The bytes of a line as an agent that may read all of it sees them (R396). -/
def State.seenLine (s : State) (line : Nat) : LineData := (s.mergeLine line).homeLine line
/-- The bytes of a line as the device itself reads them, after its own writes. -/
def State.devLine (s : State) (line : Nat) : LineData := s.withOwn line (s.seenLine line)
/-- The device reads bytes at a physical address. -/
def State.devRead (s : State) (pa n : Nat) : List MarkedByte :=
  (List.range n).map fun i => markedByte (s.devLine (lineNo (pa + i))) ((pa + i) % 128)
/-- The device reads a number of at most 8 bytes that lies in one line. -/
def State.devNat (s : State) (pa n : Nat) : Nat :=
  (lineRead (s.devLine (lineNo pa)).bits (pa % 128) n).toNat
/-- The device writes a number of `n` bytes. -/
def State.devPut (s : State) (pa n v : Nat) : State := s.devWrite pa (bytesOf n v)

/-! ## Copies -/

/-- A line enters a way of an L1: the one that holds it, a free one of its set, or else that of the least recently used line,
which leaves (R299, R386). -/
def State.installL1 (s : State) (core line : Nat) (f : Fmt) (sectors : BitVec 4) (d : LineData) : State :=
  let c := s.core core
  let same := c.l1.filter fun x => x.line % 256 == line % 256 && x.pst != .leaving && x.line != line
  let (bank, s) : Option Nat × State := match c.l1At line with
    | some x => (some x.bank, s)
    | none => match c.cacheBanks.find? fun i => same.all fun x => x.bank != i with
      | some i => (some i, s)
      | none => match same.getLast? with
        | none => (none, s)
        | some v =>
          (some v.bank, if v.pst = .privatised then s.mergeLine v.line
            else s.modCore core fun c => c.modL1 v.line fun x => { x with pst := .leaving })
  match bank with
  | none => s
  | some i => s.modCore core fun c =>
    { c.dropL1 line with
      l1 := { line := line, bank := i, sectors := sectors, fmt := f, pst := .listed, data := codeLine f d, granted := 0,
              written := 0 } :: (c.dropL1 line).l1 }

/-- Whether a core's tag of a line is leaving. -/
def State.leaving (s : State) (core line : Nat) : Bool :=
  match (s.core core).l1At line with
  | some x => x.pst == .leaving
  | none => false

/-- A recall takes a line from every copy: privatised copies are merged, FULL nodes and leaving nodes unlinked,
subscribed nodes detached, reservations cleared, those kept with a version too (R404, R405, R497). -/
def State.recallLine (s : State) (line : Nat) : State :=
  let s := s.mergeLine line
  match s.l2At line with
  | none => s
  | some x =>
    let stays := fun (n : Node) => n.fmt != .full && !s.leaving n.core line
    let t := x.nodes.foldl (fun t n => t.modCore n.core fun c =>
      if stays n then c.modL1 line fun y => { y with pst := .detached } else c.dropL1 line) s
    { t.setL2 line { x with nodes := x.nodes.filter stays } with
      resv := t.resv.filter fun r => r.2.2 != line
      groups := t.groups.map fun g => { g with vresv := g.vresv.filter fun r => r.2.2 != line } }

/-- Whether a pool window that holds a line is lost (R403). -/
def State.lineLost (s : State) (line : Nat) : Bool :=
  match s.frame (128 * line) with
  | .pool _ w => (nth PoolWin.start s.ctl.pwins w).lost
  | _ => false

/-- A line leaves its home: it is recalled, and what it holds goes back to memory, but for a line of a lost pool window, which
is never written there; detached nodes stay linked to it (R398, R399, R401, R403, R404). -/
def State.evictLine (s : State) (line : Nat) : State :=
  let s := s.recallLine line
  match s.l2At line with
  | none => s
  | some x =>
    let s := if x.nodes.isEmpty then s else { s with apart := alPut line x.nodes s.apart }
    if s.lineLost line then s.dropL2 line
    else
      let s := if x.dirty then s.storeMem line x.data else s
      (match s.frame (128 * line) with
        | .host _ => s.sendLink line (if x.dirty then (.dirtyEvict · x.data) else .cleanEvict)
        | .pool _ _ => s.sendLink line (if x.dirty then (.memWr · x.data (BitVec.allOnes 128)) else .memClnEvct)
        | _ => s).dropL2 line

/-! ## Room in a slice (R1, R4) -/

/-- Lines that a slice holds: 4 MiB (R1). -/
def sliceCap : Nat := 32768
/-- The lines that the home slice of a line holds. -/
def State.sliceLines (s : State) (line : Nat) : List Nat :=
  (s.l2.map Prod.fst).filter fun k => homeDie k == homeDie line && homeSlice k == homeSlice line
/-- Whether the L2 may evict a line now: no operation is in progress on it, its home can be reached, and the host holds nothing
of it. The spec does not say whether a line of HBM that the host still holds may be evicted; here it is not (DESIGN CHOICE,
log 57). -/
def State.evictable (s : State) (line : Nat) : Bool :=
  match s.l2At line with
  | some x => !s.lineBusy line && s.reaches line && x.host == .hi
  | none => false
/-- Room for a line in its home slice: a full slice evicts a line that the device chooses; none while it can evict none
(R1, R404; log 5). -/
def State.roomFor (s : State) (line : Nat) : Option State :=
  let held := s.sliceLines line
  if held.length < sliceCap then some s
  else match held.filter s.evictable with
    | [] => none
    | l => let (k, s) := s.draw; some (s.evictLine (nth 0 l (Config.freePick k % l.length)))
/-- A line is installed at its home, with the detached nodes that are still linked to it (R383, R398); none while its slice
has no room. -/
def State.install (s : State) (line : Nat) (d : LineData) (st : Moesi) : Option State :=
  (s.roomFor line).map fun s =>
    { s.setL2 line { L2Line.fresh d st s.clock with nodes := alGet [] line s.apart } with apart := alDel line s.apart }

/-! ## Reads of the device's own (R312, R398, R399, R401) -/

/-- A line of free bytes: what a remote agent answers a request that the model does not show (log 5). -/
def State.freeLine (s : State) : LineData × State :=
  let (n, s) := s.draw
  ({ bits := (List.range 128).foldl (fun (acc : BitVec 1024) i =>
      acc ||| ((Config.freeByte (128 * n + i)).setWidth 1024 <<< (8 * i))) 0, poison := 0 }, s)

/-- The device has the host give up a line that it holds exclusive, for a read of the device's own: BISnpData, answered at
once with or without dirty data, which are free and enter as a write, through to its stack (R315, R398; logs 46 and 57). -/
def State.takeBack (s : State) (line : Nat) (x : L2Line) : State :=
  let (n, s) := (s.send (.bisnpData line)).draw
  if Config.freePick n % 2 = 0 then s.setL2 line { x with host := .hs, busy := false }
  else
    let (d, s) := s.freeLine
    ((s.storeMem line d).setL2 line { x with data := d, dirty := false, host := .hs, busy := false }).noteWrite line

/-- The device is about to read a line: privatised copies are merged, a line that the host holds exclusive is taken back, and
one of host or pool memory that no home holds is asked of its owner, whose answer is free, while the ports carry traffic
(R396, R398, R399, R401, R491, R495; log 46). -/
def State.ownRead (s : State) (line : Nat) : State :=
  let s := s.mergeLine line
  match s.l2At line with
  | some x => if x.host = .he && s.carries then s.takeBack line x else s
  | none =>
    if !s.reaches line then s
    else match s.frame (128 * line) with
    | .host p =>
      if !(s.port p).up then s
      else
        let (d, s) := s.freeLine
        let s := s.storeMem line d
        if (s.port p).cache then
          let (n, s) := (s.sendLink line .rdShared).draw
          (s.install line d (if Config.freePick n % 2 = 0 then .s else .e)).getD s
        else s.sendLink line (.memRd · false)
    | .pool _ _ =>
      if s.lineLost line then s
      else
        let (d, s) := s.freeLine
        let s := (s.storeMem line d).sendLink line (.memRd · false)
        (s.install line d .s).getD s
    | _ => s

/-- Adds bytes to what a core is recorded to have done (R394). -/
def addMask (core : Nat) (m : BitVec 128) (l : List (Nat × BitVec 128)) : List (Nat × BitVec 128) :=
  alPut core (alGet 0 core l ||| m) l

/-- Whether masks of different cores share no byte. -/
def sharesNone (l : List (Nat × BitVec 128)) : Bool :=
  l.all fun a => l.all fun b => a.1 == b.1 || (a.2 &&& b.2) == 0#128

/-- Whether an observation window was disjoint (R394). -/
def Obs.disjoint (o : Obs) : Bool :=
  2 ≤ o.wr.length && o.wr.length ≤ 4 && sharesNone o.wr &&
    o.rd.all fun r => o.wr.all fun w => r.1 == w.1 || (r.2 &&& w.2) == 0#128

/-- The masks of two records together. -/
def joinMasks (a b : List (Nat × BitVec 128)) : List (Nat × BitVec 128) := a.foldl (fun l x => addMask x.1 x.2 l) b

/-- Whether a line may be granted privatised copies at all (R394). -/
def State.grantable (s : State) (line : Nat) (x : L2Line) : Bool :=
  s.frame (128 * line) = .hbm && x.host == .hi && !x.through && !x.obs.barred && x.nodes.all fun n => n.fmt == .full

/-- The record of a line once the window that has passed is judged: windows follow one another every 1,024 clocks, and a window in
which nothing was written is not disjoint (R394). -/
def State.judgeObs (s : State) (line : Nat) (x : L2Line) : Obs :=
  let n := (s.clock - x.obs.start) / 1024
  let all := joinMasks x.obs.wr x.obs.union
  let streak := if !x.obs.disjoint || !s.grantable line x then 0 else if sharesNone all then x.obs.streak + 1 else 1
  let streak := if n = 1 || 4 ≤ streak then streak else 0
  { Obs.fresh (x.obs.start + 1024 * n) with
    streak := streak, union := if streak = 0 then [] else if streak = 1 then x.obs.wr else all }
/-- The observation window of a line ends when it is 1,024 clocks old, and another begins (R394). -/
def State.rollObs (s : State) (line : Nat) : State :=
  match s.l2At line with
  | some x => if s.clock < x.obs.start + 1024 || x.priv then s else s.setL2 line { x with obs := s.judgeObs line x }
  | none => s

/-- An access outside READY that is not answered is counted (R493). -/
def State.notReady (s : State) : State := s.modCtl fun c => { c with nrcnt := c.nrcnt + 1 }

/-- A watch placed at a home, in place of the oldest of a full table of 256 (R405). Lost watches are those that
the home no longer holds. -/
def State.addWatch (s : State) (w : Watch) : State :=
  let key := fun line => 32 * homeDie line + homeSlice line
  let own := s.watches.filter fun x => !(x.warp == w.warp && x.lwait == w.lwait)
  let same := own.filter fun x => key x.line == key w.line
  match same with
  | [] => { s with watches := own ++ [w] }
  | old :: _ =>
    if same.length < 256 then { s with watches := own ++ [w] }
    else
      let s := { s with watches := own.filter (· ≠ old) ++ [w] }
      if old.lwait then s
      else s.modWarp old.warp fun v => if v.watch = .armed then { v with watch := .lost } else v
/-- The watch of a warp that is held at a home. -/
def State.watchOf (s : State) (w : Nat) (lwait : Bool) : Option Watch :=
  s.watches.find? fun x => x.warp == w && x.lwait == lwait
/-- The state without that watch. -/
def State.dropWatch (s : State) (w : Nat) (lwait : Bool) : State :=
  { s with watches := s.watches.filter fun x => !(x.warp == w && x.lwait == lwait) }

end Sys2Proof.Machine
end

