-- ==== Sys2Proof/Machine/Translate.lean ====
section
/-! DEFINITION. Region control blocks and translation: the five-level walk, the TLBs, the cause codes,
the access counters (R290, R312 to R317, R319 to R321, R326, R418, R419, R484). -/

namespace Sys2Proof.Machine

/-! ## Region control blocks (R418, R419) -/

/-- A field of the region control block at a physical address, as the launch processor read the block last; a block that it has
never read is read now (R419). -/
def State.regionField (s : State) (region off n : Nat) : Nat :=
  match alFind region s.blocks with
  | some d => (lineRead d off n).toNat
  | none => s.devNat (region + off) n

/-- Whether an address can name a region control block: a multiple of 128 in device HBM (R418, R498). -/
def regionReadable (r : Nat) : Bool := r % 128 == 0 && r + 128 ≤ hbmTop

/-- The launch processor reads a block. -/
def State.readBlock (s : State) (region : Nat) : State :=
  if regionReadable region then
    let s := s.ownRead (lineNo region)
    { s with blocks := alPut region (s.devLine (lineNo region)).bits s.blocks }
  else s
/-- The launch processor reads the chain of blocks of a region: when it accepts a launch, and before each placement and each restore
(R419). -/
def State.readChain : Nat → State → Nat → State
  | 0, s, region => s.readBlock region
  | n + 1, s, region =>
    let s := s.readBlock region
    let parent := s.regionField region 0x00 8
    if parent = 0 then s else State.readChain n s parent
/-- The chain of a region is read, of at most 1,024 blocks. -/
def State.readRegion (s : State) (region : Nat) : State := State.readChain 1024 s region

/-- The block that supplies the fields under an override bit: the nearest block up the chain that sets it, or the
root. -/
def State.effOwner (s : State) (bit : Nat) : Nat → Nat → Nat
  | 0, region => region
  | n + 1, region =>
    let parent := s.regionField region 0x00 8
    if parent = 0 || (s.regionField region 0x08 4).testBit bit then region else s.effOwner bit n parent

/-- The effective value of a field (R419). -/
def State.eff (s : State) (region bit off n : Nat) : Nat := s.regionField (s.effOwner bit 1024 region) off n
/-- A region and its ancestors, nearest first (R420, R447). -/
def State.ancestry (s : State) : Nat → Nat → List Nat
  | 0, region => [region]
  | n + 1, region =>
    let parent := s.regionField region 0x00 8
    if parent = 0 then [region] else region :: s.ancestry n parent
/-- Whether `a` is the region `b` or an ancestor of it. -/
def State.isAncestor (s : State) (a b : Nat) : Bool := (s.ancestry 1024 b).contains a

/-! ## Page-table entries (R313 to R315) -/

/-- The page-size code of an entry. -/
def pteSize (p : DWord) : Nat := (bitsAt p 60 4).toNat
/-- The frame or table address of an entry. -/
def ptePfn (p : DWord) : Nat := 4096 * (bitsAt p 12 40).toNat
def pteAcc (p : DWord) : Bool := bitAt p 59
def ptePool (p : DWord) : Bool := bitAt p 58
def pteStackl (p : DWord) : Bool := bitAt p 57
def pteWb (p : DWord) : Bool := bitAt p 56
def pteD (p : DWord) : Bool := bitAt p 7
def pteA (p : DWord) : Bool := bitAt p 6
def pteL (p : DWord) : Bool := bitAt p 3
def pteW (p : DWord) : Bool := bitAt p 2
def pteR (p : DWord) : Bool := bitAt p 1
def pteV (p : DWord) : Bool := bitAt p 0

/-- Page bytes of a SIZE code at a level (R314); none where the code does not belong to the level. -/
def pageBytes (size level : Nat) : Option Nat :=
  match level, size with
  | 0, 0 => some 0x1000
  | 0, 1 => some 0x4000
  | 0, 2 => some 0x10000
  | 0, 3 => some 0x40000
  | 0, 4 => some 0x100000
  | 1, 5 => some 0x200000
  | 1, 6 => some 0x1000000
  | 1, 7 => some 0x4000000
  | 1, 8 => some 0x10000000
  | 2, 9 => some 0x40000000
  | _, _ => none

/-- Whether an entry at a level is a leaf (R313). -/
def pteLeaf (p : DWord) (level : Nat) : Bool := level == 0 || (pteL p && level ≤ 2)

/-- Whether a valid entry at a level is bad (R315). -/
def pteBad (p : DWord) (level : Nat) : Bool :=
  bitsAt p 52 4 != 0#4 || bitsAt p 8 4 != 0#4 || bitsAt p 4 2 != 0#2 || (pteL p && 3 ≤ level) ||
  (if pteLeaf p level then
    match pageBytes (pteSize p) level with
    | none => true
    | some n => ptePfn p % n != 0
  else pteSize p != 0)

/-! ## The walk (R312, R317) -/

/-- The device sets a bit of an entry in memory, atomically (R315). -/
def State.setPteBit (s : State) (ptr bit : Nat) : State :=
  if (s.devNat ptr 8).testBit bit then s
  else
    let off := ptr % 128 + bit / 8
    s.sendOwn (Write.own (lineNo ptr) (.dev .set) (lineOf off 1 (BitVec.ofNat 64 (2 ^ (bit % 8))) false) (byteRun off 1))

/-- What a walk finds: a leaf, or a cause code with its level. -/
inductive WalkRes where
  | leaf (e : TlbEnt)
  | fail (code level : Nat)
  deriving DecidableEq, Repr

/-- The part of an address that selects an entry at a level and above it. -/
def vaPrefix (va level : Nat) : Nat := va % 2 ^ 57 / 2 ^ (12 + 9 * level)

/-- Whether the walk cache of a die holds the entry that an address selects at a level. -/
def State.walkHeld (s : State) (die : Option Nat) (root va level : Nat) : Bool :=
  match die with
  | some d => (nth [] s.walkCache d).any fun (x : WalkEnt) => x.root == root && x.level == level && x.pfx == vaPrefix va level
  | none => false

/-- The entry of a table, from the walk cache of the die where it holds it. -/
def State.walkEntry (s : State) (die : Option Nat) (root va level table : Nat) : DWord × Bool :=
  let cached := match die with
    | some d => (nth [] s.walkCache d).find? fun (x : WalkEnt) =>
        x.root == root && x.level == level && x.pfx == vaPrefix va level
    | none => none
  match cached with
  | some x => (x.pte, true)
  | none => (BitVec.ofNat 64 (s.devNat (table + 8 * (vaPrefix va level % 512)) 8), false)

/-- The walk from a table at a level down (R312). Every valid entry that it uses has its A bit set (R315). -/
def State.walkGo (s : State) (die : Option Nat) (root va : Nat) : Nat → Nat → WalkRes × State
  | level, table =>
    let ptr := table + 8 * (vaPrefix va level % 512)
    let s := if s.walkHeld die root va level then s else s.ownRead (lineNo ptr)
    let (p, cached) := s.walkEntry die root va level table
    if !pteV p then (.fail 1 level, s)
    else
      let s := if cached then s else s.setPteBit ptr 6
      if pteBad p level then (.fail 3 level, s)
      else if pteLeaf p level then
        let n := (pageBytes (pteSize p) level).getD 4096
        (.leaf { root := root, base := va / n * n, size := n, pte := p, ptr := ptr }, s)
      else
        match level with
        | 0 => (.fail 3 0, s)
        | l + 1 =>
          let s := match die, cached with
            | some d, false => { s with walkCache := s.walkCache.modify d fun w =>
                { root := root, level := l + 1, pfx := vaPrefix va (l + 1), pte := p } :: w }
            | _, _ => s
          s.walkGo die root va l (ptePfn p)

/-- A TLB with an entry added, the oldest dropped beyond the capacity (R317; log 14). -/
def tlbAdd (cap : Nat) (e : TlbEnt) (l : List TlbEnt) : List TlbEnt := (e :: l).take cap

/-- The entry of a TLB that covers an address. -/
def tlbFind (l : List TlbEnt) (root va : Nat) : Option TlbEnt :=
  l.find? fun e => e.root == root && e.base ≤ va && va < e.base + e.size

/-- The leaf for a canonical address: from the core's TLB, its die's TLB, or a walk (R317). The launch processor
has no TLB of its own. -/
def State.lookup (s : State) (core : Option Nat) (root va : Nat) : WalkRes × State :=
  match core with
  | none => s.walkGo none root va 4 root
  | some c =>
    match tlbFind (s.core c).tlb root va with
    | some e => (.leaf e, s)
    | none =>
      let fill := fun (t : State) (e : TlbEnt) => t.modCore c fun x => { x with tlb := tlbAdd 512 e x.tlb }
      match tlbFind (nth [] s.l2tlb (dieOf c)) root va with
      | some e => (.leaf e, fill s e)
      | none =>
        match s.walkGo (some (dieOf c)) root va 4 root with
        | (.leaf e, s) =>
          (.leaf e, fill { s with l2tlb := s.l2tlb.modify (dieOf c) (tlbAdd 16384 e) } e)
        | r => r

/-! ## Translation -/

/-- The result of a translation: an address with its leaf, or the extra field of the MEMFAULT (R316). -/
inductive TRes where
  | ok (pa : Nat) (e : TlbEnt)
  | fault (extra : DWord)
  deriving DecidableEq, Repr

/-- The extra field of R316. -/
def faultCode (code level : Nat) : DWord := BitVec.ofNat 64 (code + 256 * level)

/-- Whether an address is canonical (R290). -/
def canonical (va : Nat) : Bool := va / 2 ^ 56 == 0 || va / 2 ^ 56 == 255

/-- A region has accessed a pool window (R484). -/
def PoolWin.note (w : PoolWin) (region : Nat) : PoolWin :=
  if w.regions.contains region || w.many then w
  else if w.regions.length ≥ 64 then { w with many := true } else { w with regions := region :: w.regions }

/-- The checks of a leaf that was found: permission, the POOL bit, the window (R315, R316, R326). -/
def State.checkLeaf (s : State) (e : TlbEnt) (pa : Nat) (rd wr peer : Bool) : Option DWord :=
  let f := s.frame pa
  let inPool := match f with
    | .pool _ _ => true
    | _ => false
  if rd && !pteR e.pte then some (faultCode 7 0)
  else if wr && !pteW e.pte then some (faultCode 2 0)
  else if ptePool e.pte != inPool then some (faultCode 6 0)
  else match f with
    | .none => some (faultCode 11 0)
    | .peer _ => if peer then none else some (faultCode 11 0)
    | .host p => if (s.port p).up then none else some (faultCode 11 0)
    | _ => none

/-- Translates one address for a read, a write or both (R290, R312 to R317, R326, R481). -/
def State.translate (s : State) (core : Option Nat) (root region va : Nat) (rd wr : Bool) (peer : Bool := false) :
    TRes × State :=
  if !canonical va then (.fault (faultCode 4 0), s)
  else
    match s.lookup core root va with
    | (.fail c l, s) => (.fault (faultCode c l), s)
    | (.leaf e, s) =>
      let pa := ptePfn e.pte + (va - e.base)
      let s := match s.frame pa with
        | .pool _ w => s.modCtl fun c => { c with pwins := c.pwins.modify w fun x => x.note region }
        | _ => s
      match s.checkLeaf e pa rd wr peer with
      | some x => (.fault x, s)
      | none => (.ok pa e, s)

/-- The port of a lost pool window that holds an address (R327). -/
def State.poolLost (s : State) (pa : Nat) : Option Nat :=
  match s.frame pa with
  | .pool p w => if (nth PoolWin.start s.ctl.pwins w).lost then some p else none
  | _ => none

/-! ## Ranges -/

/-- What a write through a leaf with WB waits for: the invalidation in progress follows the switch of the leaf to WB 0, or
none has begun that does (R322). -/
def State.holdFor (s : State) (root : Nat) (e : TlbEnt) : HoldSt :=
  if s.ctl.tlbiBusy && s.ctl.tlbiFreed.contains (root, e.base) then .covered else .waiting

/-- Why a range cannot be accessed. -/
inductive VErr where
  | fault (addr : Nat) (extra : DWord)
  | pool (addr port : Nat)
  deriving DecidableEq, Repr

/-- The parts of a range that lie in one 4 KiB page each. -/
def pageParts : Nat → Nat → Nat → List (Nat × Nat)
  | 0, _, _ => []
  | f + 1, va, n =>
    if n = 0 then []
    else
      let k := min n (4096 - va % 4096)
      (va, k) :: pageParts f (va + k) (n - k)

/-- Parts of a range of `n` bytes. -/
def rangeParts (va n : Nat) : List (Nat × Nat) := pageParts (n / 4096 + 2) va n

/-- The physical address of a run of memory; that of the old frame where its page is WB. -/
def Run.pa (r : Run) : Option Nat :=
  match r.place with
  | .phys pa => some pa
  | .virt pa _ => some pa
  | .scr _ _ => none

/-- Translates a whole range, part by part, to physical runs (R306). Under `hold`, a part to be
written whose page is WB is marked as held (R322). -/
def State.vruns (s : State) (core : Option Nat) (root region va n : Nat) (rd wr : Bool) (peer hold : Bool := false) :
    Except (Nat × DWord) (List Run) × State :=
  (rangeParts va n).foldl (fun (acc : Except (Nat × DWord) (List Run) × State) (p : Nat × Nat) =>
    match acc with
    | (.error e, s) => (.error e, s)
    | (.ok runs, s) =>
      match s.translate core root region (p.1 % 2 ^ 64) rd wr peer with
      | (.fault x, s) => (.error (p.1 % 2 ^ 64, x), s)
      | (.ok pa e, s) =>
        let place := if hold && wr && pteWb e.pte then Place.virt pa (s.holdFor root e) else Place.phys pa
        let r : Run :=
          { place := place, len := p.2, va := p.1 % 2 ^ 64, acc := pteAcc e.pte, pte := if wr then some e.ptr else none,
            through := pteStackl e.pte }
        (.ok (runs ++ [r]), s))
    (.ok [], s)

/-- The first run of a list that lies in a lost pool window, with its port (R327). -/
def State.lostRun (s : State) (runs : List Run) : Option (Run × Nat) :=
  runs.findSome? fun r => (r.pa.bind s.poolLost).map fun p => (r, p)

/-- Translates a whole range and then checks its pool windows (R306, R326, R327). -/
def State.vrange (s : State) (core : Option Nat) (root region va n : Nat) (rd wr : Bool) (peer hold : Bool := false) :
    Except VErr (List Run) × State :=
  match s.vruns core root region va n rd wr peer hold with
  | (.error e, s) => (.error (.fault e.1 e.2), s)
  | (.ok runs, s) => match s.lostRun runs with
    | some x => (.error (.pool x.1.va x.2), s)
    | none => (.ok runs, s)

/-- The bytes of physical runs. -/
def State.readRuns (s : State) (runs : List Run) : List MarkedByte :=
  runs.flatMap fun r => match r.pa with
    | some pa => s.devRead pa r.len
    | none => []

/-- Whether a run covers a byte of a line. -/
def Run.covers (r : Run) (line : Nat) : Bool :=
  match r.pa with
  | some pa => r.len != 0 && lineNo pa ≤ line && line ≤ lineNo (pa + r.len - 1)
  | none => false

/-- The lines that a run of physical bytes touches. -/
def Run.lines (r : Run) : List Nat :=
  match r.pa with
  | some pa => if r.len = 0 then [] else (List.range (lineNo (pa + r.len - 1) - lineNo pa + 1)).map (lineNo pa + ·)
  | none => []
/-- The device is about to read runs. -/
def State.ownRuns (s : State) (runs : List Run) : State := ((runs.flatMap Run.lines).eraseDups).foldl State.ownRead s

/-! ## Host access counters (R319 to R321) -/

/-- The number of entries of the ring of notifications (R320). -/
def Ctl.ringSize (c : Ctl) : Nat := 2 ^ (bitsAt c.nqsize 0 5).toNat
/-- The entries of the ring that the device has still to write, each by the number of its message. -/
def State.unposted (s : State) : List Nat :=
  (s.writes.filterMap fun x => match x.note with
    | some (n, .irqNotify) => some n
    | _ => none).eraseDups

/-- The ring of notifications takes an entry behind those that are still being written, or drops it when the ring is full; TAIL
passes the entry once it is written (R320, R321). `who` is the launch and the core whose request reached the threshold; for one of
the launch processor the entry's LAUNCHID, die and core are free (log 59). -/
def State.notify (s : State) (va pa : Nat) (who : Option (Nat × Nat)) : State :=
  let c := s.ctl
  let log := (bitsAt c.nqsize 0 5).toNat
  if log < 6 || 20 < log then s
  else
    let s := s.modCtl fun c => { c with nqseq := c.nqseq + 1 }
    let n := c.ringSize
    let tail := (c.nqtail.toNat + s.unposted.length) % n
    if (tail + 1) % n = c.nqhead.toNat % n then s.modCtl fun c => { c with nqovf := true }
    else
      let thr := if bitsAt c.acthr 0 16 = 0 then 1 else (bitsAt c.acthr 0 16).toNat
      let ((launch, core), s) : (Nat × Nat) × State := match who with
        | some x => (x, s)
        | none => let (k, s) := s.draw; ((Config.freePick k % 2 ^ 32, Config.freePick k / 2 ^ 32 % 256), s)
      let entry := bytesOf 8 (va / 65536 * 65536) ++ bytesOf 8 (pa / 65536 * 65536) ++ bytesOf 4 launch ++
        bytesOf 1 (dieOf core) ++ bytesOf 1 (core % 64) ++ bytesOf 2 0 ++ bytesOf 4 thr ++ bytesOf 4 s.ctl.nqseq.toNat
      s.devWriteThen (c.nqbase.toNat + 32 * tail) entry .irqNotify

/-- Room for the access counter of a region: when 262,144 others are kept, one that the device chooses is dropped
(R319; log 5). -/
def State.counterRoom (s : State) (region : Nat) : State :=
  if (alFind region s.accCnt).isSome || s.accCnt.length < 262144 then s
  else
    let (k, s) := s.draw
    { s with accCnt := s.accCnt.eraseIdx (Config.freePick k % 262144) }

/-- The access counter of a host region mapped with ACC counts a request that goes to the host port (R319). -/
def State.countFor (s : State) (who : Option (Nat × Nat)) (line va : Nat) (acc : Bool) : State :=
  match s.frame (128 * line) with
  | .host _ =>
    if !acc || (s.l2At line).isSome then s
    else
      let region := 128 * line / 65536
      let s := s.counterRoom region
      let n := alGet 0 region s.accCnt + 1
      let thr := if bitsAt s.ctl.acthr 0 16 = 0 then 1 else (bitsAt s.ctl.acthr 0 16).toNat
      if thr ≤ n then State.notify { s with accCnt := alDel region s.accCnt } va (128 * line) who
      else { s with accCnt := alPut region n s.accCnt }
  | _ => s
/-- The counters count a request of a core for a launch. -/
def State.countAccess (s : State) (core launch line va : Nat) (acc : Bool) : State := s.countFor (some (launch, core)) line va acc
/-- The counters count the requests that runs make, one for each line. -/
def State.countRunsFor (s : State) (who : Option (Nat × Nat)) (runs : List Run) : State :=
  runs.foldl (fun (t : State) r =>
    if r.acc then r.lines.foldl (fun t line => t.countFor who line r.va true) t else t) s
/-- The counters count a request of the launch processor for a line of a run that it writes; a write that is held is counted when it
goes out (R319, R322). -/
def State.countLp (s : State) (r : Run) (line : Nat) : State :=
  match r.place with
  | .phys _ => s.countFor none line r.va r.acc
  | _ => s

/-! ## Memory as the launch processor reads and writes it (R361) -/

/-- The launch processor is about to read runs, which the access counters count. -/
def State.lpRuns (s : State) (runs : List Run) : State := (s.countRunsFor none runs).ownRuns runs
/-- Reads virtual memory for the launch processor (R361). -/
def State.vread (s : State) (root region va n : Nat) : Except VErr (List MarkedByte) × State :=
  match s.vrange none root region va n true false with
  | (.ok runs, s) => (.ok ((s.lpRuns runs).readRuns runs), s.lpRuns runs)
  | (.error e, s) => (.error e, s)

/-- The writes that put bytes at a run, one for each line: `x` says who makes them. A run of a page with WB is held
(R315, R322). -/
def State.putRun (s : State) (x : Write) (r : Run) (bs : List MarkedByte) : State :=
  let put := fun (pa : Nat) (phase : WPhase) (wb : HoldSt) =>
    (byLine pa bs).foldl (fun (t : State) l => t.sendOwn { x with
      line := l.1, va := (r.va / 128 + (l.1 - lineNo pa)) * 128, data := l.2.1, mask := l.2.2, phase := phase, wb := wb,
      through := r.through, ptes := r.pte.toList }) s
  match r.place with
  | .phys pa => put pa .pending .waiting
  | .virt pa wb => put pa .held wb
  | .scr _ _ => s
/-- The writes that put bytes at runs one after another. -/
def State.putRuns (s : State) (x : Write) : List Run → List MarkedByte → State
  | [], _ => s
  | r :: rs, bs => (s.putRun x r (bs.take r.len)).putRuns x rs (bs.drop r.len)

/-- A write of the launch processor under a root and a region. -/
def Write.forLp (root region : Nat) (op : DevOp) : Write :=
  { Write.own 0 (.dev op) LineData.zero 0 with root := root, region := region }
/-- The launch processor puts bytes at runs that it names under a root and a region. -/
def State.writeRuns (s : State) (root region : Nat) (runs : List Run) (bs : List MarkedByte) : State :=
  (runs.foldl (fun t r => r.lines.foldl (fun t line => t.countLp r line) t) s).putRuns (Write.forLp root region .put) runs bs

/-- An operation of the device's own on `n` bytes at a place of a run; on a page with WB it is held (R315, R322). -/
def State.putOp (s : State) (x : Write) (r : Run) (delta n : Nat) (op : Nat → DevOp) : State :=
  let put := fun (pa : Nat) (phase : WPhase) (wb : HoldSt) =>
    s.sendOwn { x with
      line := lineNo pa, va := (r.va + delta) / 128 * 128, kind := .dev (op (pa % 128)), mask := byteRun (pa % 128) n, ptes := r.pte.toList,
      through := r.through, phase := phase, wb := wb }
  match r.place with
  | .phys pa => put (pa + delta) .pending .waiting
  | .virt pa wb => put (pa + delta) .held wb
  | .scr _ _ => s

/-- The launch processor writes virtual memory; none when a byte fails (log 11). -/
def State.vwrite (s : State) (core : Option Nat) (root region va : Nat) (bs : List MarkedByte) :
    Except VErr State × State :=
  match s.vrange core root region va bs.length false true false true with
  | (.ok runs, s) => (.ok (s.writeRuns root region runs bs), s)
  | (.error e, s) => (.error e, s)

/-! ## Memory as a group sees it (R373, R497) -/

/-- A line as the group of a warp sees it: its version's bytes stand over those of memory (R373, R497). -/
def State.viewLine (s : State) (w line : Nat) (d : LineData) : LineData :=
  match alFind line (s.group (s.warp w).group).version with
  | some x => lineWrite d x.data x.written
  | none => d

/-- The bytes from one address to another that lie in a line. -/
def partOfLine (d : LineData) (line lo hi : Nat) : List MarkedByte :=
  let a := max lo (128 * line)
  let b := min hi (128 * (line + 1))
  (List.range (b - a)).map fun i => markedByte d (a - 128 * line + i)

/-- Bytes at a physical address, of lines seen through `f`. -/
def bytesSeen (f : Nat → LineData) (pa n : Nat) : List MarkedByte :=
  if n = 0 then []
  else (List.range (lineNo (pa + n - 1) - lineNo pa + 1)).flatMap fun i => partOfLine (f (lineNo pa + i)) (lineNo pa + i) pa (pa + n)
/-- Bytes at a physical address as the group of a warp sees them. -/
def State.physBytes (s : State) (w pa n : Nat) : List MarkedByte :=
  bytesSeen (fun line => s.viewLine w line (s.seenLine line)) pa n

/-- A line with the stores of a warp that are still on their way to it, and with what the device has written for the warp
(R160, R435). -/
def State.withStores (s : State) (w line : Nat) (d : LineData) : LineData :=
  s.writes.foldl (fun d x =>
    if x.warp = some w ∧ x.line = line ∧ s.unapplied x then (match x.kind with
      | .store => lineWrite d x.data x.mask
      | .dev op => op.line d x.data x.mask
      | _ => d)
    else d) d
/-- Bytes at a physical address as the device reads them for a warp: after the warp's own stores. -/
def State.warpBytes (s : State) (w pa n : Nat) : List MarkedByte :=
  bytesSeen (fun line => s.viewLine w line (s.withStores w line (s.seenLine line))) pa n

/-- The bytes of a line that a run covers. -/
def Run.mask (r : Run) (line : Nat) : BitVec 128 :=
  match r.pa with
  | some pa =>
    let a := max pa (128 * line)
    byteRun (a - 128 * line) (min (pa + r.len) (128 * (line + 1)) - a)
  | none => 0
/-- Bytes that the device writes to memory for a warp stand over the version of its group (R435). -/
def State.uncover (s : State) (w : Nat) (runs : List Run) : State :=
  s.modGroup (s.warp w).group fun g =>
    { g with version := g.version.filterMap fun x =>
        let m := runs.foldl (fun m r => m ||| r.mask x.1) 0
        if x.2.written &&& ~~~m = 0 then none else some (x.1, { x.2 with written := x.2.written &&& ~~~m }) }

end Sys2Proof.Machine
end

