-- ==== Sys2Proof/Machine/Ops.lean ====
section
/-! DEFINITION. The operations that instructions share: waiting, raising a trap, taking it and returning from it,
paths, segments and presence (R19 to R23, R31 to R49, R156 to R168, R434 to R442). -/

namespace Sys2Proof.Machine

/-! ## Code (R81, R82, R106) -/

/-- The binary of a warp: its launch's overlay table (R415). -/
def State.binary (s : State) (w : Nat) : Nat := (s.launch (s.group (s.warp w).group).launch).ovtab
/-- The slot of a core that holds an overlay of a binary, loaded or not. -/
def CoreSt.slotOf (c : CoreSt) (binary num : Nat) : Option Overlay :=
  (c.overlays.filterMap id).find? fun o => o.binary == binary && o.num == num
/-- An overlay that is resident: loaded whole (R82, R360). -/
def State.overlay (s : State) (w num : Nat) : Option Overlay :=
  match (s.core (s.warp w).core).slotOf (s.binary w) num with
  | some o => if o.loading then none else some o
  | none => none
/-- The overlay number of a code address (R81). -/
def ovlOf (a : Word) : Nat := (bitsAt a 24 8).toNat
/-- The byte offset of a code address (R81). -/
def offOf (a : Word) : Nat := (bitsAt a 0 24).toNat
/-- The code word at an address that is a multiple of 8; none beyond the loaded length (R82). -/
def State.code (s : State) (w : Nat) (a : Word) : Option (BitVec 64) :=
  match s.overlay w (ovlOf a) with
  | some o => if offOf a % 8 = 0 then o.code[offOf a / 8]? else none
  | none => none
/-- The parcel at an address that is a multiple of 2 (R76). -/
def State.parcel (s : State) (w : Nat) (a : Word) : Option (BitVec 16) :=
  match s.overlay w (ovlOf a) with
  | some o => (o.code[offOf a / 8]?).map fun x => bitsAt x (16 * (offOf a / 2 % 4)) 16
  | none => none

/-! ## Where a warp belongs -/

/-- The region of a warp's launch. -/
def State.regionOf (s : State) (w : Nat) : Nat := (s.launch (s.group (s.warp w).group).launch).region
/-- The translation root of a warp's group (R312, R419). -/
def State.rootOf (s : State) (w : Nat) : Nat := (s.group (s.warp w).group).root
/-- Lanes that have not exited: those of the current path and of every entry of the divergence stack (R164). -/
def Warp.live (v : Warp) : Mask := v.dstack.foldl (fun m e => m ||| e.mask) v.mask

/-! ## Waiting -/

/-- The spine does not issue; what it waits for is recorded (log 17). -/
def State.block (s : State) (w : Wait) : State := s.modMe fun v => { v with wait := some w }

/-! ## Raising a trap (R19, R20, R434, R439) -/

/-- Lanes of a warp lose the reservations that are still on their way (R335, R337). -/
def Warp.unreserve (v : Warp) (m : Mask) (id : Nat) : Warp :=
  { v with resvFrom := v.resvFrom.mapIdx fun l x => if m.getLsbD l then max x id else x }
/-- The reservations of a warp are cleared (R337). -/
def State.clearResv (s : State) (w : Nat) : State :=
  { (s.modGroup (s.warp w).group fun g => { g with vresv := g.vresv.filter fun r => r.1 != w }) with
    resv := s.resv.filter fun r => r.1 != w }

/-- STEPCTL.EN and the stepped unit (R451). -/
def Warp.stepEn (v : Warp) : Bool := bitAt v.stepCtl 0
def Warp.stepUnit (v : Warp) : Nat :=
  let u := (bitsAt v.stepCtl 4 4).toNat
  if u ≤ 8 then u else 0
/-- Whether SER holds back the units that are not stepped (R451). -/
def Warp.serial (v : Warp) : Bool := bitAt v.stepCtl 1 || v.stepUnit != 0
/-- Whether an armed step keeps every other unit from issuing (R451, R452). -/
def Warp.stepSer (v : Warp) : Bool := v.stepArmed && v.serial

/-- The executing unit of the warp raises a trap: nothing is written, the warp stops, and what the record will hold
is kept (R20, R434). A step that is armed is taken by STEP alone: in the clock of a trap a unit that comes before may still
take it (R439, R452). -/
def State.raise (s : State) (c : Cause) (lanes : Mask) (extra : DWord := 0) (faddr : DWord := 0)
    (engine : Bool := false) : State :=
  (s.modMe fun v =>
    { v with
      trap := some {
        cause := c, unit := s.cur.unit, lmask := lanes, faddr := faddr, extra := extra, engine := engine,
        rept := if s.cur.unit = 0 then v.rep.isSome else (v.strand (s.cur.unit - 1)).arep != 0,
        stepped := v.stepEn, spc := v.pc, xmask := v.mask, pid := v.pid, at_ := s.clock }
      stepArmed := v.stepArmed && c != .step
      resvFrom := List.replicate 32 s.nextId
      wait := none }).clearResv s.cur.warp

/-- ILLEGAL: in a repetition of REP the extra field holds its number (R177, R434). -/
def State.illegal (s : State) (lanes : Mask) : State :=
  s.raise .illegal lanes (match s.me.rep with
    | some r => if s.cur.unit = 0 then BitVec.ofNat 64 r.idx else 0
    | none => 0)

/-! ## Presence and segments (R31 to R49) -/

/-- A window takes the value of its register in all 32 lanes (R31, R32). -/
def Window.take (x : Window) (r : Reg) : Window := { x with ready := true, val := r.val, poison := r.poison }

/-- The windows of the warp that wait on a register take its value (R17, R43, R119). -/
def Warp.feed (v : Warp) (r : Nat) : Warp :=
  { v with strands := Accs.tab fun k =>
      let st := v.strand k
      { st with segs := st.segs.map fun g =>
          { g with win := g.win.map fun x => if !x.ready && x.src.toNat == r then x.take (v.reg r) else x } } }

/-- A register becomes full, and every window pending on it is written (R17, R38). -/
def Warp.fill (v : Warp) (r : Nat) : Warp := (v.modReg r fun x => { x with full := true }).feed r

/-- A register becomes empty (R38). -/
def Warp.empty (v : Warp) (r : Nat) : Warp := v.modReg r fun x => { x with full := false }

/-- Header fields (R79). -/
def segIn (h : BitVec 128) (i : Nat) : GReg := bitsAt h (8 * i) 8
def segInv (h : BitVec 128) (i : Nat) : Bool := bitAt h (64 + i)
def segOut (h : BitVec 128) (i : Nat) : GReg := bitsAt h (72 + 8 * i) 8
def segOutv (h : BitVec 128) (i : Nat) : Bool := bitAt h (104 + i)
def segLen (h : BitVec 128) : Nat := (bitsAt h 108 12).toNat
def segKind (h : BitVec 128) : Nat := (bitsAt h 120 4).toNat
def segWfe (h : BitVec 128) : Bool := bitAt h 124
def segRsv (h : BitVec 128) : Bool := bitsAt h 125 3 != 0#3

/-- The valid outputs of a segment that it has not put. -/
def Segment.unput (g : Segment) : List GReg :=
  (List.range 4).filterMap fun i => if segOutv g.hdr i && !bitAt g.puts i then some (segOut g.hdr i) else none

/-- A segment ends or is cancelled: its outputs that were not put become full (R36, R49, R119). -/
def Warp.endSegment (v : Warp) (g : Segment) : Warp := g.unput.foldl (fun u r => u.fill r.toNat) v

/-- Every queued and running segment of strand `k` is cancelled (R49). -/
def Warp.squash (v : Warp) (k : Nat) : Warp :=
  (v.strand k).segs.foldl (fun u g => u.endSegment g)
    (v.modStrand k fun st => { st with segs := [], arep := 0 })

/-- Every segment of the accumulators of a mask is cancelled (R49). -/
def Warp.squashMask (v : Warp) (m : Byte) : Warp :=
  (List.range 8).foldl (fun u k => if bitAt m k then u.squash k else u) v

/-- Whether every segment of the accumulators of a mask has ended and their broadcasts are delivered (R48). -/
def Warp.segmentsDone (v : Warp) (m : Byte) : Bool :=
  (List.range 8).all (fun k => !bitAt m k || (v.strand k).segs.isEmpty) && v.bcasts.all fun b => !bitAt m b.k

/-! ## Paths (R156 to R166) -/

/-- What follows the current path. -/
inductive PathEnd where
  | next (e : DEntry) (rest : List DEntry)
  | cycle (e : DEntry) (rest : List DEntry)
  | exited
  deriving DecidableEq, Repr

/-- The stack without its last entry that satisfies `p`, and that entry; the newest entry comes first. -/
def takeLast (p : DEntry → Bool) : List DEntry → Option (DEntry × List DEntry)
  | [] => none
  | e :: l =>
    match takeLast p l with
    | some (x, r) => some (x, e :: r)
    | none => if p e then some (e, l) else none

/-- The stack without its first entry that satisfies `p`, and that entry. -/
def takeFirst (p : DEntry → Bool) : List DEntry → Option (DEntry × List DEntry)
  | [] => none
  | e :: l => if p e then some (e, l) else
    match takeFirst p l with
    | some (x, r) => some (x, e :: r)
    | none => none

/-- An unparked PATH entry. -/
def DEntry.open (e : DEntry) : Bool := e.path && !e.park

/-- The path that follows when the current one ends (R158). R158 speaks of an empty stack only once no lane is left; a
path that ends at its join with an empty stack while it has lanes, which needs a handler that has rewritten the area,
lets the warp exit (DESIGN CHOICE, log 48). -/
def endOf : List DEntry → PathEnd
  | [] => .exited
  | e :: l =>
    if !e.path && e.mask == 0#32 then endOf l
    else if !e.path || !e.park then .next e l
    else match takeLast DEntry.open (e :: l) with
      | some (x, r) => .next x r
      | none => match takeFirst (fun x => x.path && x.park) (e :: l) with
        | some (x, r) => .cycle x r
        | none => .exited

/-- The current path has changed: the fairness count restarts, outside handler mode (R162). An LR that was issued before the
change delays no switch of the path that is current now: R163 does not say whether an LR of a path before it was split, or
of its lanes on a child path, does so once the path is current again at its JOIN (DESIGN CHOICE, log 54). -/
def Warp.newPath (v : Warp) : Warp := if v.handler then v else { v with fairCount := 0, lrCount := none }
/-- An entry becomes the current path (R158, R162). -/
def Warp.follow (v : Warp) (e : DEntry) (rest : List DEntry) : Warp :=
  { v with pc := e.pc, mask := e.mask, join := e.join, pid := e.pid, dstack := rest }.newPath

/-- The lanes of every parked path. -/
def parkedLanes (l : List DEntry) : Mask := l.foldl (fun m e => if e.path && e.park then m ||| e.mask else m) 0

/-- From the next access on, the accesses of a set of lanes are ordered behind all that these lanes have issued: at a
join or at the release of a WSYNC (R159, R165, R363). -/
def Warp.sync (v : Warp) (id : Nat) (m : Mask) : Warp := { v with syncs := (id, m) :: v.syncs }

/-- The syncs, newest first, that lie before an access with number `id` of the lanes of a mask, each with the lanes it
joins to those reached before it. -/
def syncsBefore (id : Nat) : List (Nat × Mask) → Mask → List (Nat × Mask)
  | [], _ => []
  | (n, ms) :: l, m =>
    if n ≤ id && (ms &&& m) != 0#32 then (n, ms) :: syncsBefore id l (m ||| ms) else syncsBefore id l m

/-- The lanes whose access with number `a` comes before an access with number `id` of the lanes `m`: those lanes
themselves, and the lanes that a join or a WSYNC release between the two orders (R159, R165, R363). -/
def Warp.lanesBefore (v : Warp) (a id : Nat) (m : Mask) : Mask :=
  (syncsBefore id v.syncs m).foldl (fun x y => if a < y.1 then x ||| y.2 else x) m
/-- Those of them that a join or a WSYNC release orders. -/
def Warp.syncedBefore (v : Warp) (a id : Nat) (m : Mask) : Mask :=
  (syncsBefore id v.syncs m).foldl (fun x y => if a < y.1 then x ||| y.2 else x) 0

/-- The lanes that have exited under the JOIN entries of a list of paths (R159). -/
def Warp.exitedUnder (v : Warp) (ps : List (BitVec 16)) : Mask :=
  v.exits.foldl (fun m x => if ps.contains x.1 then m ||| x.2 else m) 0

/-- The numbers of the paths whose JOIN entries, empty of lanes, R158 discards on its way down the stack. -/
def emptyJoins (l : List DEntry) : List (BitVec 16) :=
  (l.takeWhile fun e => !e.path && e.mask == 0#32).map fun e => e.pid

/-- The current path ends and the spine continues as R158 says; REJOIN_CYCLE is raised when only parked paths are
left (R166). A JOIN entry that becomes the current path orders the accesses of its lanes, and of the lanes that have exited
on the paths that it joins (R159), and one that is discarded takes its call entries with it (R183). A warp with no lane left
has exited. -/
def State.endPath (s : State) : State :=
  match endOf s.me.dstack with
  | .next e r => s.modMe fun v =>
    let gone := emptyJoins v.dstack
    let joined := if e.path then gone else e.pid :: gone
    let u := { v with cstack := v.cstack.filter fun c => !gone.contains c.pid
                      exits := v.exits.filter fun x => !joined.contains x.1 }.follow e r
    if e.path then u else u.sync s.nextId (e.mask ||| v.exitedUnder [e.pid])
  | .cycle e r =>
    let all := e.mask ||| parkedLanes r
    (s.modMe fun v => v.follow e r).raise .rejoinCycle e.mask (all ++ e.rejoin)
  | .exited => s.modMe fun v => { v with mask := 0, dstack := [], exited := true }

/-- Whether the path numbered `p` holds a call entry (R158, R167). -/
def Warp.holdsCall (v : Warp) : Bool := v.cstack.any fun c => c.pid == v.pid

/-- Whether the current path ends before its next instruction (R158). Where the body of a REP stands at the join address,
R158 ends the path there and R176 issues the body n times, and neither yields to the other: the model runs every
repetition, and the path passes its join (DESIGN CHOICE, log 48). -/
def Warp.atJoin (v : Warp) : Bool := v.pc == v.join && !v.holdsCall && v.rep.isNone

/-- The path numbers in use (R157). -/
def Warp.pids (v : Warp) : List Nat :=
  v.pid.toNat :: (v.dstack.map fun e => e.pid.toNat) ++ (v.cstack.map fun c => c.pid.toNat)
/-- The lowest number from 1 up that is not in a list, searched among `n` numbers. -/
def lowestFree (used : List Nat) : Nat → Nat → Nat
  | 0, k => k
  | n + 1, k => if used.contains k then lowestFree used n (k + 1) else k
/-- The lowest path number that is free (R157). -/
def freePid (used : List Nat) : Nat := lowestFree used 65535 1

/-- Whether an LR of the current path still delays a switch (R163). -/
def Warp.lrHolds (v : Warp) : Bool :=
  match v.lrCount with
  | some n => n < 32
  | none => false
/-- Whether the fairness timer switches paths before the next instruction (R162, R163, R178). -/
def Warp.switchDue (v : Warp) : Bool :=
  2048 ≤ v.fairCount && v.dstack.any DEntry.open && v.rep.isNone && !v.lrHolds && !v.handler

/-- The fairness switch: the deepest unparked path runs, and the current one is set aside with its reservations
cleared (R162, R163). -/
def State.switchPath (s : State) : State :=
  match takeLast DEntry.open s.me.dstack with
  | none => s
  | some (e, r) =>
    let m := s.me.mask
    let w := s.cur.warp
    let s1 := s.modMe fun v => (v.unreserve m s.nextId).follow e
      ({ pc := v.pc, mask := v.mask, join := v.join, path := true, park := false, pid := v.pid, rejoin := 0 } :: r)
    { (s1.modGroup s1.me.group fun g => { g with vresv := g.vresv.filter fun x => !(x.1 == w && m.getLsbD x.2.1) }) with
      resv := s1.resv.filter fun x => !(x.1 == w && m.getLsbD x.2.1) }

/-! ## The save area and the trap record (R160, R161, R435 to R437) -/

/-- The 16 bytes of a divergence entry. -/
def entryBytes (e : DEntry) : List MarkedByte :=
  bytesOf 4 e.pc.toNat ++ bytesOf 4 e.mask.toNat ++ bytesOf 4 e.join.toNat ++
    bytesOf 4 (e.pid.toNat + (if e.park then 2 ^ 30 else 0) + (if e.path then 2 ^ 31 else 0))
/-- The 16 bytes of a call entry. -/
def callBytes (c : CEntry) : List MarkedByte := bytesOf 4 c.pc.toNat ++ bytesOf 8 0 ++ bytesOf 4 c.pid.toNat

/-- The rejoin word of a lane: the set of the parked path that holds it, or that of the WSYNC at which
REJOIN_CYCLE was raised (R160, R166). -/
def Warp.rejoinWord (v : Warp) (cycle : Option Mask) (l : Nat) : Mask :=
  match v.dstack.find? fun e => e.path && e.park && e.mask.getLsbD l with
  | some e => e.rejoin
  | none => if v.mask.getLsbD l then cycle.getD 0 else 0

/-- The parts of the save area that the device writes at a trap: offset and bytes (R160, R168). -/
def Warp.saveParts (v : Warp) (cycle : Option Mask) : List (Nat × List MarkedByte) :=
  [(0, bytesOf 4 v.mask.toNat ++ bytesOf 4 v.join.toNat ++ bytesOf 4 v.pid.toNat ++
      bytesOf 4 v.dstack.length ++ bytesOf 4 v.cstack.length ++ bytesOf 44 0),
   (0x40, v.dstack.reverse.flatMap entryBytes),
   (0x4040, v.cstack.reverse.flatMap callBytes),
   (0x14040, laneList.flatMap fun l => bytesOf 4 (v.rejoinWord cycle l).toNat)]

/-- The code of a cause (R434). -/
def Cause.code : Cause → Nat
  | .illegal => 0x01
  | .fmtslot => 0x02
  | .empty => 0x03
  | .targetMismatch => 0x04
  | .partialMask => 0x05
  | .fpexc => 0x06
  | .idiv0 => 0x07
  | .ovmiss => 0x08
  | .align => 0x09
  | .memfault => 0x0A
  | .poison => 0x0B
  | .software => 0x0C
  | .brk => 0x0D
  | .step => 0x0E
  | .rejoinCycle => 0x0F
  | .stackOverflow => 0x10
  | .versionOverflow => 0x11
  | .poolRegion => 0x12
  | .scope => 0x13
  | .segment => 0x14
  | .accShape => 0x15
  | .suspectTile => 0x16

/-- CAUSEW (R437). -/
def Trap.causew (t : Trap) (nested : Option Cause) : Nat :=
  t.cause.code + 2 ^ 8 * t.unit + (if t.engine then 2 ^ 16 else 0) + (if t.rept then 2 ^ 17 else 0) +
    (if t.stepped then 2 ^ 18 else 0) +
    (match nested with
      | some c => 2 ^ 19 + 2 ^ 24 * c.code
      | none => 0)

/-- The strand PCs and segment bases of a warp; 0xFFFFFFFF where no segment is live (R21). A segment that is queued and
has not started yet counts as live: R21 and R440 speak of live segments and do not say whether one that has not started
is (DEDUCED, log 23). -/
def Warp.stpc (v : Warp) (k : Nat) : Word :=
  match (v.strand k).segs with
  | g :: _ => g.pc
  | [] => 0xFFFFFFFF
/-- The segment base that stands beside a strand PC (R21). -/
def Warp.sbase (v : Warp) (k : Nat) : Word :=
  match (v.strand k).segs with
  | g :: _ => g.base
  | [] => 0xFFFFFFFF

/-- What a record shows of a warp beside its trap (R436). -/
def Warp.snap (v : Warp) : Snap :=
  { stpc := (List.range 8).map v.stpc, sbase := (List.range 8).map v.sbase, core := v.core, slot := v.slot, half := v.half }

/-- The 128 bytes of a trap record (R436). -/
def State.record (s : State) (w : Nat) (t : Trap) (x : Snap) (nested : Option Cause) : List MarkedByte :=
  let v := s.warp w
  let g := s.group v.group
  bytesOf 4 (t.causew nested) ++ bytesOf 4 t.lmask.toNat ++ bytesOf 4 t.spc.toNat ++ bytesOf 4 t.xmask.toNat ++
    x.stpc.flatMap (fun x => bytesOf 4 x.toNat) ++ x.sbase.flatMap (fun x => bytesOf 4 x.toNat) ++
    bytesOf 8 t.faddr.toNat ++ bytesOf 8 t.extra.toNat ++ bytesOf 4 g.launch ++ bytesOf 4 g.gx ++
    bytesOf 2 v.index ++ bytesOf 1 x.core ++ bytesOf 1 (dieOf x.core) ++ bytesOf 1 x.slot ++ bytesOf 1 x.half ++
    bytesOf 2 t.pid.toNat ++ bytesOf 2 g.gy ++ bytesOf 2 g.gz ++ bytesOf 12 0

/-- Where the record stands. -/
def Warp.recordAt (v : Warp) : Nat := v.dstkBase.toNat + 0x14100

/-- A write that the device makes for a warp, which the warp's later accesses see (R435). -/
def Write.forWarp (w core : Nat) : Write :=
  { Write.own 0 (.dev .put) LineData.zero 0 with
    warp := some w, core := some core, lanes := BitVec.allOnes 32, seen := BitVec.allOnes 32 }

/-- Writes several parts at offsets from a virtual base; the first failure stops it. -/
def State.vwriteParts (s : State) (w base : Nat) : List (Nat × List MarkedByte) → Except VErr State × State
  | [] => (.ok s, s)
  | (off, bs) :: l =>
    match s.vrange (some (s.warp w).core) (s.rootOf w) (s.regionOf w) (base + off) bs.length false true with
    | (.ok runs, s) => ((s.putRuns (Write.forWarp w (s.warp w).core) runs bs).uncover w runs).vwriteParts w base l
    | (.error e, s) => (.error e, s)

/-! ## Taking a trap and returning from it -/

/-- A trap as its record shows it: the spine PC, mask and path are those at which the spine has stopped (R20). -/
def Trap.seen (t : Trap) (v : Warp) : Trap := { t with spc := v.pc, xmask := v.mask, pid := v.pid }

/-- The device takes the pending trap of a warp: it writes the save area and the record, sets the REP count aside
and starts the handler at TRAPBASE in handler mode. Outside a handler the content of the area is undefined (R168): the
model keeps the bytes that were last written there and returns them to loads (DESIGN CHOICE, log 49). A warp whose spine
waits in BATON.take keeps its place among the waiting warps while its handler runs or it is held, and may be given the
baton meanwhile: the spec does not say whether it still waits (DESIGN CHOICE, log 23). A record that cannot be written
escalates the warp as MEMFAULT. The handler's first instruction comes next in this clock
(R20, R168, R178, R433, R435, R438, R478). -/
def State.takeTrap (s : State) (w : Nat) (t : Trap) : State :=
  let v := s.warp w
  let t := t.seen v
  let cycle := if t.cause = .rejoinCycle then some (t.extra.setWidth 32) else none
  let parts := v.saveParts cycle ++ [(0x14100, s.record w t v.snap none)]
  match s.vwriteParts w v.dstkBase.toNat parts with
  | (.error e, s) =>
    let (a, x) := match e with
      | .fault a x => (a, x)
      | .pool a p => (a, BitVec.ofNat 64 p)
    s.modWarp w fun v => { v with
      escalating := true, trap := some { t with cause := .memfault, faddr := BitVec.ofNat 64 a, extra := x } }
  | (.ok s, _) =>
    s.modWarp w fun v => { v with
      trap := none, opened := some (t, v.snap), handler := true, stepArmed := false, age := s.clock, pc := v.trapBase, repAside := v.rep, rep := none,
      begunAside := v.begun, begun := none, wait := none, mwait := none, badStpc := 0, resumeAt := s.clock }

/-- Whether HANDLER_ENTRY is due for a warp: ten clocks after the trap (R20), outside handler mode, with a handler. -/
def State.entryDue (s : State) (w : Nat) (t : Trap) : Bool :=
  let v := s.warp w
  !v.handler && v.trapBase != 0xFFFFFFFF && !v.escalating && v.held.isNone && t.at_ + 10 ≤ s.clock

/-- Reads a number in the virtual memory of a warp, as its group sees it (R435, R440). -/
def State.vnat (s : State) (w va n : Nat) : Except VErr Nat × State :=
  match s.vrange (some (s.warp w).core) (s.rootOf w) (s.regionOf w) va n true false with
  | (.ok runs, s) =>
    let s := s.ownRuns runs
    (.ok (numOf (runs.flatMap fun r => match r.pa with
      | some pa => s.warpBytes w pa r.len
      | none => [])), s)
  | (.error e, s) => (.error e, s)

/-- Reads bytes in the virtual memory of a warp, as one number. -/
def State.vbytes (s : State) (w va n : Nat) : Except VErr Nat := (s.vnat w va n).1

/-- A 32-bit word of a number read from memory. -/
def wordAt (x i : Nat) : Word := BitVec.ofNat 32 (x / 2 ^ (32 * i))

/-- A divergence entry read back; its rejoin set is the word of its lowest lane when it is parked (R161, R168). -/
def readEntry (x i : Nat) (rejoin : Nat → Mask) : DEntry :=
  let f := wordAt x (4 * i + 3)
  let m := wordAt x (4 * i + 1)
  { pc := wordAt x (4 * i), mask := m, join := wordAt x (4 * i + 2), path := bitAt f 31, park := bitAt f 30,
    pid := bitsAt f 0 16, rejoin := if bitAt f 31 && bitAt f 30 then rejoin (lowest m) else 0 }

/-- What ERET reads: the stacks and the current path of the save area, SPC and the strand PCs of the record; none
when a byte cannot be read (R160, R168, R440). -/
structure Reload where
  mask : Mask
  join : Word
  pid : BitVec 16
  dstack : List DEntry
  cstack : List CEntry
  bad : Bool
  spc : Word
  stpc : List Word
  deriving DecidableEq, Repr

/-- Reads the save area and the record of a warp (R168, R440). -/
def State.readArea (s : State) (w : Nat) : Except VErr Reload :=
  let base := (s.warp w).dstkBase.toNat
  match s.vbytes w base 0x14, s.vbytes w (base + 0x14040) 128, s.vbytes w (base + 0x14100) 0x30 with
  | .ok h, .ok rj, .ok rec =>
    let nd := (wordAt h 3).toNat
    let nc := (wordAt h 4).toNat
    let bad := nd > 1024 || nc > 4096
    let nd := min nd 1024
    let nc := min nc 4096
    match s.vbytes w (base + 0x40) (16 * nd), s.vbytes w (base + 0x4040) (16 * nc) with
    | .ok ds, .ok cs =>
      let d := ((List.range nd).map fun i => readEntry ds i fun l => wordAt rj l).reverse
      let c := ((List.range nc).map fun i =>
        { pc := wordAt cs (4 * i), pid := bitsAt (wordAt cs (4 * i + 3)) 0 16 : CEntry }).reverse
      .ok {
        mask := wordAt h 0, join := wordAt h 1, pid := bitsAt (wordAt h 2) 0 16, dstack := d, cstack := c,
        bad := bad || d.any fun e => e.path && e.mask == 0#32
        spc := wordAt rec 2, stpc := (List.range 8).map fun k => wordAt rec (4 + k) }
    | .error e, _ => .error e
    | _, .error e => .error e
  | .error e, _, _ => .error e
  | _, .error e, _ => .error e
  | _, _, .error e => .error e

/-- Whether a strand PC names a parcel of a segment (R440). -/
def Segment.holds (g : Segment) (pc : Word) : Bool :=
  let first := g.base.toNat + 16
  first ≤ pc.toNat && pc.toNat < first + 2 * segLen g.hdr && pc.toNat % 2 == 0

/-- A strand takes back its PC: 0xFFFFFFFF cancels its segments, another PC than recorded drops its AREP count, and
one that names no parcel of its segment is marked (R440). -/
def Warp.restoreStrand (v : Warp) (k : Nat) (old new : Word) : Warp :=
  match (v.strand k).segs with
  | [] => v
  | g :: r =>
    if new = 0xFFFFFFFF then v.squash k
    else
      let v := v.modStrand k fun st =>
        { st with segs := { g with pc := new } :: r, arep := if new = old then st.arep else 0 }
      if g.holds new then v else { v with badStpc := v.badStpc ||| (1#8 <<< k) }

/-- The warp leaves its handler: the current path, the stacks, the PCs and the REP count set aside come back, and
every unit resumes 4 clocks later (R23, R168, R440, R452, R466). Lanes that an EXIT in the handler has removed come back with
the masks of the area: R164 removes them from the warp, R168 reloads the masks, and neither says which of the two holds
(DESIGN CHOICE, log 54). -/
def Warp.resume (v : Warp) (x : Reload) (t : Trap) (stpcs : List Word) (clock : Nat) : Warp :=
  let u := (List.range 8).foldl (fun u k => u.restoreStrand k (nth 0xFFFFFFFF stpcs k) (nth 0xFFFFFFFF x.stpc k))
    { v with badStpc := 0 }
  { u with
    pc := x.spc, mask := x.mask, join := x.join, pid := x.pid, dstack := x.dstack, cstack := x.cstack,
    badArea := x.bad, rep := if x.spc = t.spc then v.repAside else none, repAside := none,
    begun := if x.spc = t.spc then v.begunAside else none, begunAside := none, handler := false,
    opened := none, trap := none, escalating := false, held := none, wait := none,
    stepArmed := u.stepEn, resumeAt := clock + 4, resumed := true, age := clock + 4 }

/-! ## Issue of a long-form instruction (R69, R70, R73, R86, R114) -/

/-- The poisoned words that an instruction consumes in the lanes of E: the extra field and the lanes (R454). The scales of
a QNT are added in `State.poisonOf`. -/
def Warp.poisoned (v : Warp) (i : Instr) (e : Mask) : List (DWord × Mask) :=
  let m := match i.opLanes with
    | .each => e
    | .zero => if e = 0 then 0 else 1
    | .low => if e = 0 then 0 else 1#32 <<< lowest e
    | .own => 0
  let regs := i.consumes.list.flatMap fun u => u.sources.map fun r => (BitVec.ofNat 64 r, (v.reg r).poison &&& m)
  let preds := i.consumes.list.flatMap fun u => u.preds.map fun p => ((0xFE : DWord), (v.pred p).poison &&& e)
  let all := match i with
    | .p2g .. => (List.range 12).map fun p => ((0xFE : DWord), (v.predAt p).poison &&& e)
    | _ => []
  (regs ++ preds ++ all).filter fun x => x.2 != 0#32

/-- The fields of an instruction under the format slots of its launch: a QNT whose slot has SFMT none does not read B
(R253). -/
def State.usesOf (s : State) (i : Instr) : Uses :=
  match i with
  | .qnt _ n .. => if slotScaled (s.myLaunch.slot n.toNat) then i.uses else { i.uses with b := .none }
  | _ => i.uses

/-- The lowest lane of E in each block of `n` consecutive lanes. -/
def blockHeads (e : Mask) (n : Nat) : Mask := maskOf fun l => e.getLsbD l && ((lanesOf e).find? fun j => j / n == l / n) == some l

/-- As `Warp.poisoned`, with the scales that a QNT takes from B in the lowest lane of each block (R253, R454). -/
def State.poisonOf (s : State) (i : Instr) (e : Mask) : List (DWord × Mask) :=
  s.me.poisoned i e ++ match i with
    | .qnt _ n _ _ b =>
      let slot := s.myLaunch.slot n.toNat
      let m := (s.me.reg b.toNat).poison &&& blockHeads e (blkLen slot)
      if slotScaled slot && m != 0#32 then [(b.setWidth 64, m)] else []
    | _ => []

/-- What the rules that come before every effect decide. -/
inductive Pro where
  | stop (s : State)
  | go (e : Mask)

/-- The active set E (R69). -/
def Warp.activeSet (v : Warp) (h : Option Hd) : Mask :=
  match h with
  | some h =>
    let g := (v.pred h.gp).val
    v.mask &&& (if h.gn then ~~~g else g)
  | none => v.mask

/-- The first field with an empty register, with its FE bit and that register (R39, R40, R328). Of a pair whose odd
register alone is empty it names the odd register: R40 says only 'the register number' (DEDUCED, log 20). -/
def Warp.emptySource (v : Warp) (u : Uses) (fe : BitVec 3) : Option (Bool × Nat) :=
  [(u.a, 0), (u.b, 1), (u.c, 2), (u.d, 0)].findSome? fun x =>
    (x.1.sources.find? fun r => !(v.reg r).full).map fun r => (bitAt fe x.2, r)

/-- A predicate that is still to be written by an SC or a GRAPH (R336, R474). -/
def Warp.pendingPred (v : Warp) (ps : List Nat) : Option Nat :=
  ps.find? fun p => p < 12 && !(v.predAt p).ready

/-- The checks of a matrix instruction's lanes and of a format slot, before any operand is fetched
(R86, R227, R257). -/
def State.early (s : State) (i : Instr) (e : Mask) : Option State :=
  let missing := s.me.live &&& ~~~e
  if i.isMatrix && e == 0#32 then none
  else if i.isMatrix && missing != 0#32 then some (s.raise .partialMask e (missing.setWidth 64))
  else match i.slotTest with
    | some (n, test) => if test (s.myLaunch.slot n.toNat) then none else some (s.raise .fmtslot e (n.setWidth 64))
    | none => none

/-- The guard predicate of an instruction; pt where it has none (R69). -/
def guardOf (i : Instr) : PNum :=
  match i.hd with
  | some h => h.gp
  | none => 15#4

/-- The rules before the effect of a long-form instruction, in this order: a guard that is still to be written,
ILLEGAL, a poisoned guard, PARTIAL_MASK and FMTSLOT where they come before the operands, an empty destination, empty sources, predicates still to be written, poisoned operands
(R40, R41, R69, R86, R114, R454). -/
def State.prologue (s : State) (i : Instr) : Pro :=
  let v := s.me
  let e := v.activeSet i.hd
  let u := s.usesOf i
  let gp := guardOf i
  match v.pendingPred [gp.toNat] with
  | some p => .stop (s.block (.pred p))
  | none =>
    if !i.legal || !u.inRange v.regs.length || i.barred v.handler then .stop (s.illegal e)
    else if v.mask &&& (v.pred gp).poison != 0#32 then
      .stop (s.raise .poison (v.mask &&& (v.pred gp).poison) 0xFE)
    else match s.early i e with
    | some t => .stop t
    | none =>
      match (u.list.flatMap Use.dests).find? fun r => !(v.reg r).full with
      | some r => .stop (s.block (.reg r))
      | none =>
        match v.emptySource u (match i.hd with | some h => h.fe | none => 0#3) with
        | some (true, r) => .stop (s.raise .empty e (BitVec.ofNat 64 r))
        | some (false, r) => .stop (s.block (.reg r))
        | none =>
          match v.pendingPred i.predsUsed with
          | some p => .stop (s.block (.pred p))
          | none =>
            match s.poisonOf i e with
            | x :: _ => .stop (s.raise .poison x.2 x.1)
            | [] => .go e

/-- A long-form instruction issues: the rules of every entry first, then its own effect on E (R114). -/
def State.issue (s : State) (i : Instr) (k : Mask → State → State) : State :=
  match s.prologue i with
  | .stop t => t
  | .go e => k e s

/-! ## After issue -/

/-- The spine moves past an instruction: to the next one, or to the next repetition of a REP body (R176). -/
def Warp.advance (v : Warp) : Warp :=
  match v.rep with
  | none => { v with pc := v.pc + 8 }
  | some r =>
    if r.left ≤ 1 then { v with pc := v.pc + 8, rep := none }
    else { v with rep := some { r with left := r.left - 1, idx := r.idx + 1 } }

/-- The counts of an issued spine instruction (R162, R163, R433, R477). -/
def Warp.counted (v : Warp) (clock : Nat) : Warp :=
  { v with
    wissue := v.wissue + 1
    fairCount := if v.handler then v.fairCount else v.fairCount + 1
    lrCount := v.lrCount.map (· + 1)
    wait := none
    begun := none
    resumed := false
    age := clock + 1 }

/-- The lanes under which a unit runs: the execution mask, or the mask of the strand's segment. -/
def Warp.unitMask (v : Warp) (unit : Nat) : Mask :=
  match unit with
  | 0 => v.mask
  | k + 1 => match (v.strand k).segs with
    | g :: _ => g.mask
    | [] => v.mask

/-- Whether a unit may raise a trap: there is none, or one of this clock by a unit that comes after it (R439). -/
def Warp.trapFree (v : Warp) (clock unit : Nat) : Bool :=
  match v.trap with
  | none => true
  | some t => t.at_ == clock && unit < t.unit
/-- Whether a unit takes the step that an ERET armed when it issues (R439, R452). -/
def Warp.steps (v : Warp) (clock unit : Nat) : Bool :=
  v.stepArmed && v.stepUnit == unit && v.trapFree clock unit && !v.handler
/-- The step that an ERET armed has been taken by the executing unit, in the clock of another unit's trap too where the
executing unit comes before that one (R439, R452). -/
def State.stepped (s : State) : State :=
  if s.me.steps s.clock s.cur.unit then
    s.raise .step (s.me.unitMask s.cur.unit) (BitVec.ofNat 64 s.me.stepUnit)
  else s

end Sys2Proof.Machine
end

