-- ==== Sys2Proof/Machine/Retire.lean ====
section
/-! DEFINITION. What a warp that leaves and a group that retires give back: barriers, baton, banks, subscriptions,
private areas and the usage of regions (R66, R210, R276, R300, R301, R350, R420, R469, R479). -/

namespace Sys2Proof.Machine

/-! ## Barriers (R469) -/

/-- The warps of a group that have not exited. -/
def State.liveWarps (s : State) (g : Nat) : List Nat := (s.group g).warps.filter fun w => !(s.warp w).exited

/-- A barrier whose every live warp has arrived completes its phase. -/
def Bar.settle (live : List Nat) (b : Bar) : Bar :=
  if live ≠ [] ∧ live.all b.arrived.contains then { phase := b.phase + 1, arrived := [], before := b.since } else b

/-- Every barrier of a group that is complete advances. -/
def State.settleBars (s : State) (g : Nat) : State :=
  let live := s.liveWarps g
  s.modGroup g fun x => { x with bars := x.bars.map (Bar.settle live) }

/-! ## The baton (R210, R276) -/

/-- A baton that is freed goes to the warp that has waited longest. -/
def CoreSt.freeBaton (c : CoreSt) : CoreSt :=
  match c.batonQ with
  | w :: r => { c with baton := some w, batonQ := r }
  | [] => { c with baton := none }

/-- A warp gives up the baton and its place among the waiting warps. -/
def CoreSt.leaveBaton (c : CoreSt) (w : Nat) : CoreSt :=
  let c := { c with batonQ := c.batonQ.filter (· ≠ w) }
  if c.baton = some w then c.freeBaton else c

/-! ## The L1 and the banks (R299, R300) -/

/-- A line of an L1 is given up: a privatised copy is merged, any other tag leaves its list (R386, R396). -/
def State.giveUp (s : State) (core : Nat) (x : L1Line) : State :=
  match x.pst with
  | .privatised => s.mergeLine x.line
  | .listed => s.modCore core fun c => c.modL1 x.line fun y => { y with pst := .leaving }
  | .leaving => s
  | .detached =>
    match s.l2At x.line with
    | some y =>
      if y.nodes.any fun n => n.core == core then s.modCore core fun c => c.modL1 x.line fun y => { y with pst := .leaving }
      else s.modCore core fun c => c.dropL1 x.line
    | none =>
      let nodes := (alGet [] x.line s.apart).filter fun n => n.core != core
      ({ s with apart := if nodes.isEmpty then alDel x.line s.apart else alPut x.line nodes s.apart } : State).modCore core
        fun c => c.dropL1 x.line

/-- A CACHE bank is drained: every line of its way is given up (R300). -/
def State.drainBank (s : State) (core bank : Nat) : State :=
  ((s.core core).l1.filter fun x => x.bank == bank).foldl (fun t x => t.giveUp core x) s

/-- A bank enters a mode: its contents are drained, and SCRATCH entered from another mode holds zeros (R300). -/
def Bank.enter (b : Bank) (m : BankMode) : Bank := { b with mode := m, fifo := [] }

/-- The scratch bytes of bank `j` of the core at a position of a group are zeroed (R292, R300). -/
def GroupSt.zeroBank (g : GroupSt) (pos j : Nat) : GroupSt :=
  let lo := pos * 2 ^ 20 + 32768 * j
  { g with
    scratch := g.scratch.filter fun x => !(lo ≤ x.1 && x.1 < lo + 32768)
    scratchP := g.scratchP.filter fun x => !(lo / 4 ≤ x.1 && x.1 < (lo + 32768) / 4) }

/-! ## Subscriptions (R350) -/

/-- Whether a group of a core is subscribed to a line. -/
def State.subscribed (s : State) (core line : Nat) : Bool :=
  s.groups.any fun g => g.subs.contains (core, line)

/-- A group's subscription of a line ends, where it has one; the tag leaves its list when no group of the core remains, but for a FULL
copy, which a plain fill keeps as well (R350, R386). -/
def State.unsubscribe (s : State) (g core line : Nat) : State :=
  let had := (s.group g).subs.contains (core, line)
  let s := s.modGroup g fun x => { x with subs := x.subs.filter (· ≠ (core, line)) }
  if !had || s.subscribed core line then s
  else match (s.core core).l1At line with
    | some x => if x.fmt = .full then s else s.giveUp core x
    | none => s

/-- Every subscription of a group ends. -/
def State.endSubs (s : State) (g : Nat) : State :=
  (s.group g).subs.foldl (fun t x => t.unsubscribe g x.1 x.2) s

/-! ## Usage of regions (R420) -/

/-- Whether a group is resident: one that is about to leave, or that is killed, is so until it has left (R449, R457). -/
def GroupSt.resident (g : GroupSt) : Bool := g.phase == .resident || g.phase == .leaving || g.phase == .killed
/-- The cores that a resident group holds, with the follower of a pair. -/
def State.coresOf (s : State) (g : GroupSt) : List Nat :=
  if (s.launch g.launch).pair then g.cores ++ g.cores.map (· + 1) else g.cores

/-- The groups of a region and of its descendants. -/
def State.groupsOf (s : State) (region : Nat) : List GroupSt :=
  s.groups.filter fun g => s.isAncestor region (s.launch g.launch).region

/-- USEDCORES of a region. -/
def State.usedCores (s : State) (region : Nat) : Nat :=
  (((s.groupsOf region).filter GroupSt.resident).flatMap s.coresOf).eraseDups.length
/-- USEDGRAN of a region. -/
def State.usedGran (s : State) (region : Nat) : Nat :=
  (((s.groupsOf region).filter GroupSt.resident).map fun g =>
    (s.launch g.launch).gran * (s.coresOf g).length).sum
/-- The bytes of an image that lie in HBM. -/
def ImagePart.hbmBytes : ImagePart → Nat
  | .hbm _ n => n
  | _ => 0
/-- USEDSAVE of a region. -/
def State.usedSave (s : State) (region : Nat) : Nat :=
  (((s.groupsOf region).filter fun g => g.phase == .evicted).map fun g => (g.image.map ImagePart.hbmBytes).sum).sum

/-- The device writes the USED fields of a region and its ancestors (R418). -/
def State.writeUsage (s : State) (region : Nat) : State :=
  if region = 0 then s
  else (s.ancestry 1024 region).foldl (fun t r =>
    ((t.devPut (r + 0x50) 2 (t.usedCores r)).devPut (r + 0x52) 2 (t.usedGran r)).devPut (r + 0x58) 8 (t.usedSave r)) s

/-! ## Leaving and retiring -/

/-- The banks of a core that a group owns. -/
def CoreSt.banksOf (c : CoreSt) (g : Nat) : List Nat :=
  (List.range c.banks.length).filter fun i => match c.banks[i]? with
    | some b => (b.owner.map Prod.fst) == some g
    | none => false

/-- A core gives back the banks of a group, the CACHE banks among them drained (R300, R301). -/
def State.freeBanks (s : State) (c g : Nat) : State :=
  ((s.core c).banksOf g).foldl (fun (t : State) i =>
    let b := nth Bank.cache (t.core c).banks i
    let t := if b.mode = .cache then t.drainBank c i else t
    t.modCore c fun k => { k with banks := k.banks.set i { b.enter .cache with owner := none, pending := [] } }) s

/-- The overlays of a core that belong to binaries of a list: the code of the others is gone from it (R107). -/
def CoreSt.keepCode (k : CoreSt) (binaries : List Nat) : CoreSt :=
  { k with overlays := k.overlays.map fun o => o.filter fun x => binaries.contains x.binary }

/-- The group's cores give back its banks, granules, baton and the reservation of a follower, and the code of a binary whose last
resident group it is (R66, R107, R271, R301; log 55). -/
def State.freeCores (s : State) (g : Nat) : State :=
  let x := s.group g
  let l := s.launch x.launch
  x.cores.foldl (fun t c =>
    let t := (t.freeBanks c g).modCore c fun k => x.warps.foldl (fun k w => k.leaveBaton w) { k with gran := k.gran - l.gran }
    let others := (t.groups.zipIdx.filter fun y => y.2 != g && y.1.resident && y.1.cores.contains c).map Prod.fst
    let more := !others.isEmpty
    let t := t.modCore c fun k => k.keepCode (others.map fun y => (t.launch y.launch).ovtab)
    if l.pair then
      t.modCore (c + 1) fun k => { k with followerOf := if more then k.followerOf else none, gran := k.gran - l.gran }
    else t) s

/-- The part of an image on a neighbouring core is given back (R459). -/
def State.freePart (s : State) (p : ImagePart) : State :=
  match p with
  | .rf c n => s.modCore c fun k => { k with imageBytes := k.imageBytes - n }
  | .bank c b => s.modCore c fun k => { k with banks := k.banks.modify b fun x => x.enter .cache }
  | .hbm _ _ => s
/-- The image of an evicted group is freed (R445, R459). -/
def State.freeImage (s : State) (g : Nat) : State :=
  ((s.group g).image.foldl State.freePart s).modGroup g fun x => { x with image := [] }

/-- A group frees what it holds on its cores, or its image. -/
def State.freeGroup (s : State) (g : Nat) : State :=
  let s := ((s.endSubs g).freeCores g).freeImage g
  s.modGroup g fun x => { x with
    scratch := [], scratchP := [], granUsed := [], rings := [], bars := [], saved := [] }

/-- A group retires: it frees its resources, and a version that it holds is committed by VERSION_COMMIT (R66, R373). -/
def State.retireGroup (s : State) (g : Nat) : State :=
  let x := s.group g
  let s := s.freeGroup g
  let s := x.warps.foldl (fun t w => t.modWarp w fun v => { v with active := false }) s
  (s.modGroup g fun x => { x with phase := .retired }).writeUsage (s.launch x.launch).region

/-- A warp leaves its group: it gives up its area, baton, reservations and watches (R66, R210, R479). -/
def State.depart (s : State) (w : Nat) : State :=
  let v := s.warp w
  let s := s.modWarp w fun v =>
    { v with
      exited := true, active := false, mask := 0, dstack := [], cstack := [], handler := false, opened := none,
      trap := none, rep := none, repAside := none, wait := none, begun := none, begunAside := none, held := none,
      escalating := false }
  let s := ((s.clearResv w).dropWatch w true).dropWatch w false
  let s := s.modCtl fun c => { c with areas := c.areas.filter (· ≠ v.area) }
  s.modCore v.core fun c => c.leaveBaton w

/-- A warp leaves, its absence can complete a barrier, and the last warp to leave retires the group
(R66, R285, R469). -/
def State.leave (s : State) (w : Nat) : State :=
  let g := (s.warp w).group
  let s := s.depart w
  if (s.liveWarps g).isEmpty then s.retireGroup g else s.settleBars g

/-- A warp of a killed group leaves as by EXIT: once its engine operations are complete, what they wrote to a version being discarded
(R355, R449). -/
def State.settleKill (s : State) (w : Nat) : State :=
  let v := s.warp w
  if (s.group v.group).phase = .killed ∧ v.exited = false ∧ v.eng = [] ∧ v.matx = [] ∧ v.graph = none then
    (s.modGroup v.group fun x => { x with version := [], vresv := [], committing := false }).leave w
  else s

/-- A warp that the end of its last path has made exit leaves (R158, R164). -/
def State.settleExit (s : State) (w : Nat) : State :=
  if (s.warp w).mask = 0 && (s.warp w).exited then s.leave w else s

end Sys2Proof.Machine
end

