-- ==== Sys2Proof/Machine/Special.lean ====
section
/-! DEFINITION. The special functions: results exact where the spec says exact, and elsewhere an f32 value within
the stated number of ulps, chosen by a free function of the operand (R138, R139, R242, R243; log 6). -/

namespace Sys2Proof.Machine

/-- The f32 operand after flushing (R236). -/
def flushWord (ftz : Bool) (w : Word) : Word := if ftz && bitsAt w 23 8 == 0#8 then w &&& 0x80000000 else w
/-- The f32 operand after negation (R236). -/
def negWord (neg : Bool) (w : Word) : Word := if neg then w ^^^ 0x80000000 else w

/-- An inexact result with magnitude code `r`: overflow, underflow, inexact, saturation and flushing (R236, R237). -/
def deliverApprox (c : RndCtl) (neg : Bool) (r : Nat) : FRes :=
  if r ≥ f32F.infCode then
    if c.sat then { code := f32F.signed neg (f32F.infCode - 1), fl := flSAT ||| flNX }
    else { code := f32F.signed neg f32F.infCode, fl := flOF ||| flNX }
  else if r < 2 ^ 23 then { code := f32F.signed neg (if c.ftz then 0 else r), fl := flUF ||| flNX }
  else { code := f32F.signed neg r, fl := flNX }

/-- One of the two values that enclose an exact result above `r`. -/
def pickOne (r : Nat) (up : Bool) : Nat := if up then r + 1 else r
/-- One of the values within 2 ulp of an exact result above `r`; the upper one only inside the binade. -/
def pickTwo (r : Nat) (i : Fin 4) : Nat := if i = 3 ∧ (r + 1) % 2 ^ 23 = 0 then r + 1 else r + i.val - 1

/-- The magnitude code of a value rounded towards zero in f32. -/
def floorCode (m : Nat) (e : Int) : Nat := (roundMag 23 f32F.qmin .rz false m e).1

/-- Whether a number is a power of two. -/
def isPow2 (m : Nat) : Bool := m == 2 ^ (bitLen m - 1)

/-- FRCP and AFRCP (R138). -/
def rcp (c : RndCtl) (w : Word) : FRes :=
  match f32F.val w.toNat with
  | .nan s => f32F.nanRes s
  | .inf n => { code := f32F.signed n 0, fl := 0 }
  | .fin n m e =>
    if m = 0 then { code := f32F.signed n f32F.infCode, fl := flDZ }
    else if isPow2 m then f32F.round { c with rnd := .rne } n 1 (-e - (bitLen m - 1 : Nat))
    else
      let (q, qe) := quotient f32F 1 0 m e
      deliverApprox c n (pickOne (floorCode q qe) (Config.rcpUp w))

/-- FRSQ and AFRSQ (R138). -/
def rsq (c : RndCtl) (w : Word) : FRes :=
  match f32F.val w.toNat with
  | .nan s => f32F.nanRes s
  | .inf n => if n then f32F.nanRes true else { code := 0, fl := 0 }
  | .fin n m e =>
    if m = 0 then { code := f32F.signed n f32F.infCode, fl := flDZ }
    else if n then f32F.nanRes true
    else
      let (m, e) := if e % 2 = 0 then (m, e) else (2 * m, e - 1)
      let k := bitLen m - 1
      if isPow2 m && k % 2 == 0 then f32F.round { c with rnd := .rne } false 1 (-e / 2 - (k / 2 : Nat))
      else
        let r := isqrt (2 ^ 160 / m)
        deliverApprox c false (pickOne (floorCode (2 * r + 1) (-e / 2 - 81)) (Config.rsqUp w))

/-- The first `n` fraction bits of log2 of `m / 2 ^ 256`, for `m` from 2^256 to 2^257, appended to `acc`. -/
def log2Digits : Nat → Nat → Nat → Nat
  | 0, _, acc => acc
  | n + 1, m, acc =>
    let q := m * m / 2 ^ 256
    if q ≥ 2 ^ 257 then log2Digits n (q / 2) (2 * acc + 1) else log2Digits n q (2 * acc)

/-- FLOG2 and ALOG2 (R138). -/
def log2f (c : RndCtl) (w : Word) : FRes :=
  match f32F.val w.toNat with
  | .nan s => f32F.nanRes s
  | .inf n => if n then f32F.nanRes true else { code := f32F.infCode, fl := 0 }
  | .fin n m e =>
    if m = 0 then { code := f32F.signed true f32F.infCode, fl := flDZ }
    else if n then f32F.nanRes true
    else
      let k := bitLen m - 1
      let x : Int := e + k
      if isPow2 m then f32F.deliver { c with rnd := .rne } (fpOfInt x)
      else
        let v : Int := x * (2 ^ 96 : Nat) + log2Digits 96 (m * 2 ^ (256 - k)) 0
        let mag := if v < 0 then 2 * v.natAbs - 1 else 2 * v.natAbs + 1
        deliverApprox c (v < 0) (pickTwo (floorCode mag (-97)) (Config.log2Pick w))

/-- The integer part of pi times 2^320. -/
def piFix : Nat := 0x3243f6a8885a308d313198a2e03707344a4093822299f31d0082efa98ec4e6c89452821e638d01377
/-- The integer part of the natural logarithm of 2 times 2^320. -/
def ln2Fix : Nat := 0xb17217f7d1cf79abc9e3b39803f2f6af40f343267298b62d8a0d175b8baafa2be7b876206debac98

/-- The sum of the exponential series of `x / 2 ^ 320` from term `k` on, with `n` terms, `t` being term `k`. -/
def expSeries (x : Nat) : Nat → Nat → Nat → Nat
  | 0, _, _ => 0
  | n + 1, k, t => t + expSeries x n (k + 1) (t * x / 2 ^ 320 / (k + 1))

/-- exp2 of the rounded argument `t` (R139). An infinite `t` gives an infinity or 0 with no flag and no saturation, also where finite
operands have overflowed into it: R237 speaks of an infinity from an infinite operand only (DESIGN CHOICE, log 56). -/
def exp2f (c : RndCtl) (t : Word) : FRes :=
  match f32F.val t.toNat with
  | .nan _ => f32F.nanRes false
  | .inf n => if n then { code := 0, fl := 0 } else { code := f32F.infCode, fl := 0 }
  | .fin n m e =>
    let (fl, exact) := if 0 ≤ e then (if n then -((m * 2 ^ e.toNat : Nat) : Int) else (m * 2 ^ e.toNat : Nat), true)
      else (scaled n m 0 0 / (2 ^ (-e).toNat : Nat), m % 2 ^ (-e).toNat == 0)
    if exact && -149 ≤ fl && fl ≤ 127 then f32F.round { c with rnd := .rne } false 1 fl
    else if fl ≥ 128 then deliverApprox c false f32F.infCode
    else if fl < -200 then deliverApprox c false (if Config.exp2Pick t = 0 then 0 else (Config.exp2Pick t).val - 1)
    else
      let frac := ((scaled n m 0 0 - fl * (2 ^ (-e).toNat : Nat)).toNat * 2 ^ 320) / 2 ^ (-e).toNat
      let y := expSeries (frac * ln2Fix / 2 ^ 320) 80 0 (2 ^ 320)
      deliverApprox c false (pickTwo (floorCode (2 * y + 1) (fl - 321)) (Config.exp2Pick t))

/-- The sum of the alternating series of sine (`k = 1`, first term `x`) or cosine (`k = 0`, first term 1): `n`
terms, `t` the next one, `x2` the square, all in units of 2^-320. -/
def trigSeries (x2 : Nat) : Nat → Nat → Nat → Int
  | 0, _, _ => 0
  | n + 1, k, t => t - trigSeries x2 n (k + 2) (t * x2 / 2 ^ 320 / ((k + 1) * (k + 2)))

/-- sin(pi * s) for `s` in [0, 1/2] in units of 2^-320, in units of 2^-320. -/
def sinPi (s : Nat) : Nat :=
  let y := s * piFix / 2 ^ 320
  (trigSeries (y * y / 2 ^ 320) 60 1 y).toNat
/-- cos(pi * s), likewise. -/
def cosPi (s : Nat) : Nat :=
  let y := s * piFix / 2 ^ 320
  (trigSeries (y * y / 2 ^ 320) 60 0 (2 ^ 320)).toNat

/-- FSIN (`sine`) and FCOS (R243). -/
def sinCos (sine : Bool) (c : RndCtl) (w : Word) : FRes :=
  let one : Nat := 0x3F800000
  match f32F.val w.toNat with
  | .nan s => f32F.nanRes s
  | .inf _ => f32F.nanRes true
  | .fin n m e =>
    -- |a| modulo 2 in units of 2^-320; exact, since e ≥ -149
    let x := m * 2 ^ (e + 320).toNat % 2 ^ 321
    let h := x / 2 ^ 319
    let r := x % 2 ^ 319
    if r = 0 then
      -- a multiple of one half: h is 0, 1, 2 or 3 halves modulo 2
      if sine then
        if h % 2 = 0 then { code := f32F.signed n 0, fl := 0 }
        else { code := f32F.signed ((h == 3) != n) one, fl := 0 }
      else if h % 2 = 1 then { code := 0, fl := 0 }
      else { code := f32F.signed (h == 2) one, fl := 0 }
    else
      let s := if h % 2 = 0 then r else 2 ^ 319 - r
      let v := if sine then sinPi s else if h % 2 = 0 then cosPi r else sinPi r
      let neg := if sine then (2 ≤ h) != n else h == 1 || h == 2
      let pick := if sine then Config.sinPick w else Config.cosPick w
      deliverApprox c neg (pickTwo (floorCode (2 * v + 1) (-321)) pick)

end Sys2Proof.Machine
end

