-- ==== Sys2Proof/Machine/Flags.lean ====
section
/-! DEFINITION. Every flag computation: the fallbacks that set MODW, the flags that enter FPFL and when, the traps
of enabled exceptions, and the end of every issue (R19, R87 to R89, R125, R173, R174, R224, R225, R236 to R239). -/

namespace Sys2Proof

/-! ## Fallbacks (R87) -/

/-- The MODW bits of the fallback classes, SAT, FTZ, RND, SIG, SCP, ORD from bit 5 down (R88). -/
def modwBits (ord scp sig rnd ftz sat : Bool) : BitVec 6 := b1 sat ++ b1 ftz ++ b1 rnd ++ b1 sig ++ b1 scp ++ b1 ord

/-- The fallbacks of an M-byte, where SG and SAT have an effect as the arguments say (R172, R173). -/
def MByte.fallback (m : MByte) (sg sat : Bool) : BitVec 6 :=
  modwBits false false (m.sg != 0#2 && !sg) (m.rm != 0#3) m.fz (m.sat && !sat)

/-- The fallbacks of an F-byte, where RM, FZ and SAT have an effect as the arguments say (R234). -/
def FByte.fallback (f : FByte) (rm fz sat : Bool) : BitVec 6 :=
  modwBits false false false (f.rm != 0#3 && !rm) (f.fz && !fz) (f.sat && !sat)

/-- Conversions that are exact (R251). -/
def cvtExact (code : BitVec 5) : Bool := [0x01, 0x04, 0x05, 0x08, 0x09, 0x0F].contains code.toNat
/-- Conversions with no f32 source or result (R251). -/
def cvtNoF32 (code : BitVec 5) : Bool := [0x0E, 0x0F, 0x10, 0x11, 0x12, 0x13].contains code.toNat

/-- The fallbacks of an access: an ordering that does not suit it, a scope above .grp on scratch, a signedness
without effect (R87, R324). -/
def AccMod.fallback (m : AccMod) (badOrd : Bool) (sg : Bool) : BitVec 6 :=
  modwBits badOrd (m.space == 1#2 && m.scope != 0#3) (m.sg != 0#2 && !sg) false false false
def AtomMod.fallback (m : AtomMod) (badOrd : Bool) (sg : Bool) : BitVec 6 :=
  modwBits badOrd (m.space == 1#2 && m.scope != 0#3) (m.sg != 0#2 && !sg) false false false

/-- .rel or .acqrel on an instruction that only reads (R87). -/
def ordBadRead (ord : BitVec 2) : Bool := bitAt ord 1
/-- .acq or .acqrel on an instruction that only writes (R87). -/
def ordBadWrite (ord : BitVec 2) : Bool := bitAt ord 0

/-- The fallback classes that an instruction executes under (R87). -/
def Instr.fallback : Instr → BitVec 6
  | .icmp _ m cond .. => m.fallback (2 ≤ cond.toNat) false
  | .icmpi _ cond sg .. => modwBits false false (cond.toNat < 2 && sg != 0#2) false false false
  | .sel _ m .. | .mov _ m .. | .and _ m .. | .or _ m .. | .xor _ m .. | .lsl _ m .. | .lsr _ m .. | .asr _ m ..
  | .rot _ m .. | .bfi _ m .. | .popc _ m .. | .clz _ m .. | .ffs _ m .. | .brev _ m .. | .shfl _ m .. =>
    m.fallback false false
  | .bfe _ m .. => m.fallback true false
  | .iadd _ m .. | .isub _ m .. | .imul _ m .. | .imad _ m .. | .iadd64 _ m .. => m.fallback m.sat true
  | .imulh _ m .. | .irem _ m .. | .imin _ m .. | .imax _ m .. => m.fallback true false
  | .idiv _ m .. | .imadw _ m .. | .iabs _ m .. => m.fallback true true
  | .redux _ m op .. => m.fallback (op == 1#3 || op == 2#3) true
  | .fadd _ f .. | .fsub _ f .. | .fmul _ f .. | .ffma _ f .. | .fdiv _ f .. => f.fallback true true true
  | .frcp _ f .. | .fexp2 _ f .. => f.fallback true true true
  | .fsqrt _ f .. | .frsq _ f .. | .flog2 _ f .. | .fsin _ f .. | .fcos _ f .. | .frnd _ f .. =>
    f.fallback true true false
  | .fmin _ f .. | .fmax _ f .. | .fcmp _ f .. => f.fallback false true false
  | .dcmp _ f .. | .dminmax _ f .. => f.fallback false false false
  | .dadd _ f .. | .dmul _ f .. | .dfma _ f .. | .ddiv _ f .. => f.fallback true false true
  | .dsqrt _ f .. => f.fallback true false false
  | .pkfma _ f .. | .pkadd _ f .. | .pkmul _ f .. => f.fallback true false true
  | .fredux _ _ f64 fz .. => modwBits false false false false (f64 && fz) false
  | .cvt _ code sat fz rm .. =>
    modwBits false false false (cvtExact code && rm != 0#3) (fz && cvtNoF32 code)
      (sat && (cvtExact code || code == 6#5 || code == 7#5))
  | .ld _ m .. => m.fallback (ordBadRead m.ord) (m.ty.toNat ≤ 1)
  | .lds _ m .. => m.fallback (ordBadRead m.ord) false
  | .ldc _ m .. => modwBits (ordBadRead m.ord) false false false false false
  | .st _ m .. => m.fallback (ordBadWrite m.ord) false
  | .atom _ m .. | .atomr _ m .. =>
    m.fallback false (m.aop == 1#4 || m.aop == 2#4 || m.aop == 9#4 || m.aop == 10#4)
  | .lr _ m .. => m.fallback (ordBadRead m.ord) false
  | .sc _ m .. => m.fallback (ordBadWrite m.ord) false
  | .cstore _ _ ord .. => modwBits (ordBadWrite ord) false false false false false
  | .cstoreNf _ _ ord .. => modwBits (ordBadWrite ord) false false false false false
  | .copy _ dir scope .. => modwBits false ((dir == 1#2 || dir == 3#2) && scope != 0#3) false false false false
  | .gath _ scope .. => modwBits false (scope != 0#3) false false false false
  | .ald _ _ glob scope .. | .ast _ _ glob scope .. =>
    modwBits false (!glob && scope != 0#3) false false false false
  | .amov m _ | .movc m _ | .axch m | .asel m _ | .aiadd m _ | .aisub m _ | .aimul m _ | .aand m _ | .aor m _
  | .axor m _ => modwBits false false m.sg false false false
  | .ashl sg .. => modwBits false false sg false false false
  | _ => 0

/-! ## Latencies (R125, R174, R239, R464) -/

/-- Clocks from issue to the result, as far as a flag or a register depends on them (R125, R174, R239). -/
def Instr.latency : Instr → Nat
  | .imul .. | .imulh .. | .imad .. | .imadw .. | .shfl .. | .vote .. | .mbcnt .. | .matchLanes .. | .rdlane .. => 6
  | .redux .. => 20
  | .idiv .. | .irem .. => 36
  | .fdiv .. | .fsqrt .. => 12
  | .frcp .. | .frsq .. | .fexp2 .. | .flog2 .. | .fsin .. | .fcos .. | .qnt .. | .scaleinit .. => 8
  | .dadd .. | .dmul .. | .dfma .. | .dminmax .. | .dcmp .. => 8
  | .cvt _ code .. => if cvtSrc2 code && code.toNat < 0x14 || cvtDst2 code then 8 else 4
  | .ddiv .. | .dsqrt .. => 40
  | .fredux _ _ f64 .. => if f64 then 32 else 20
  | .aimul .. | .aimulh .. | .aput .. => 6
  | .afrcp .. | .afrsq .. | .aexp2 .. | .alog2 .. | .aslc .. => 8
  | .afdiv .. => 12
  | .ared .. => 20
  | .mwait .. => 1
  | _ => 4

/-- The unit of its cluster that an instruction holds, and for how many clocks (R126, R174, R239). -/
def Instr.unitHeld : Instr → Option (Machine.FUnit × Nat)
  | .frcp .. | .frsq .. | .fexp2 .. | .flog2 .. | .fsin .. | .fcos .. | .afrcp .. | .afrsq .. | .aexp2 .. | .alog2 .. =>
    some (.special, 4)
  | .dadd .. | .dmul .. | .dfma .. | .dminmax .. | .dcmp .. => some (.fp64, 4)
  | .cvt _ code .. => if cvtSrc2 code && code.toNat < 0x14 || cvtDst2 code then some (.fp64, 4) else none
  | .fredux _ _ f64 .. => if f64 then some (.fp64, 4) else none
  | .ddiv .. | .dsqrt .. => some (.fp64, 16)
  | .idiv .. | .irem .. => some (.divider, 8)
  | _ => none

/-- Whether a parcel reads or writes the accumulator, the carry and the strand predicate (R124, R128, R130). -/
def Instr.touches : Instr → Bool × Bool × Bool
  | .anop | .aend | .arep _ => (false, false, false)
  | .amov m _ | .afabs m | .afrcp m | .afrsq m | .alog2 m | .aiadd m _ | .aisub m _ | .aimul m _ | .aimulh m _
  | .aand m _ | .aor m _ | .axor m _ | .afadd m _ | .afsub m _ | .afrsub m _ | .afmul m _ | .afmin m _ | .afmax m _
  | .afdiv m _ => (true, m.c, m.q)
  | .movc m _ => (false, true, m.q)
  | .axch m | .afmac m _ | .afmsc m _ | .aexp2 m _ => (true, true, m.q)
  | .acmp c .. => (true, c, true)
  | .asel m _ => (true, m.c, true)
  | _ => (true, false, false)
/-- Which of them it writes (R125). -/
def Instr.leaves : Instr → Bool × Bool × Bool
  | .anop | .aend | .arep _ | .aput _ | .asts .. => (false, false, false)
  | .movc .. => (false, true, false)
  | .axch _ => (true, true, false)
  | .acmp .. => (false, false, true)
  | _ => (true, false, false)

end Sys2Proof

namespace Sys2Proof.Machine

/-! ## FPFL and FPEXC (R19, R224, R225) -/

/-- Flags that enter FPFL at a clock (R225). -/
def Warp.addFlags (v : Warp) (fl : Byte) (due : Nat) : Warp :=
  if fl = 0 then v else { v with flagQ := v.flagQ ++ [(due, fl)] }

/-- The flags whose exceptions MODE enables, in the layout of FPFL (R15). -/
def enabledFlags (mode : Word) : Byte := 0#3 ++ bitsAt mode 3 5

/-- The OR of the flags of the lanes of a mask. -/
def orFlags (m : Mask) (fl : Nat → Byte) : Byte := (lanesOf m).foldl (fun a l => a ||| fl l) 0

/-- The lanes of a mask that raise an enabled exception (R19). -/
def raisingLanes (mode : Word) (m : Mask) (fl : Nat → Byte) : Mask :=
  maskOf fun l => m.getLsbD l && (fl l &&& enabledFlags mode) != 0#8

/-- The executing instruction raises FPEXC when a lane raises an enabled exception, and otherwise adds the flags of
its lanes to FPFL and has its effect (R19, R225). -/
def State.flagged (s : State) (i : Instr) (m : Mask) (fl : Nat → Byte) (k : State → State) : State :=
  let bad := raisingLanes s.me.mode m fl
  if bad ≠ 0 then s.raise .fpexc bad ((orFlags bad fl &&& 0x1F).setWidth 64)
  else k (s.modMe fun v => v.addFlags (orFlags m fl) (s.clock + i.latency))

/-- As `flagged`, for a reduction, whose flags are those of the combinations of all lanes (R19, R147, R250). -/
def State.flaggedAll (s : State) (i : Instr) (m : Mask) (fl : Byte) (k : State → State) : State :=
  if m ≠ 0 ∧ (fl &&& enabledFlags s.me.mode) ≠ 0 then s.raise .fpexc m ((fl &&& 0x1F).setWidth 64)
  else k (s.modMe fun v => v.addFlags (if m = 0 then 0 else fl) (s.clock + i.latency))

/-! ## The end of an issue -/

/-- The fallback bits of an instruction enter MODW (R89). -/
def Warp.fallBack (v : Warp) (i : Instr) : Warp := { v with modw := v.modw ||| i.fallback.setWidth 32 }

/-- The predicates that an instruction writes: those of its fields, and those of the mask of a G2P. -/
def predsSet (i : Instr) : List Nat :=
  match i with
  | .g2p _ _ m => (List.range 12).filter fun p => m.getLsbD p
  | _ => (i.uses.list.flatMap Use.predDests).map BitVec.toNat
/-- What an instruction has written is on its way to later instructions (R174, R239): its registers, and its predicates
as 256 more than their number, but for those that it has left empty or to be written later. -/
def Warp.post (v : Warp) (i : Instr) (clock : Nat) : Warp :=
  let regs := (i.uses.list.flatMap Use.dests).filter fun r => (v.reg r).full
  let preds := (predsSet i).filter fun p => p < 12 && (v.predAt p).ready
  { v with board := (v.board.filter fun x => clock < x.2) ++
      (regs ++ preds.map (256 + ·)).map fun x => (x, clock + i.latency) }
/-- Whether the result of a register, or of 256 more than a predicate, is on its way. -/
def Warp.onWay (v : Warp) (clock x : Nat) : Bool := v.board.any fun y => y.1 == x && clock < y.2
/-- Whether a result that an instruction with these fields reads or writes is on its way (R39, R174, R239, R433). -/
def Warp.awaits (v : Warp) (u : Uses) (i : Instr) (clock : Nat) : Bool :=
  (u.list.flatMap Use.regs).any (v.onWay clock) || ((guardOf i).toNat :: i.predsUsed).any fun p => v.onWay clock (256 + p)

/-- The cluster of a unit: the home cluster of a spine, and CK for strand aK (R25). -/
def Warp.clusterOf (v : Warp) (unit : Nat) : Nat := if unit = 0 then v.slot % 8 else unit - 1
/-- Whether the unit that an instruction needs is held (R126, R239). -/
def State.unitBusy (s : State) (w unit : Nat) (i : Instr) : Bool :=
  let v := s.warp w
  match i.unitHeld with
  | none => false
  | some (f, _) => s.holds.any fun h =>
    h.core == v.core && h.half == v.half && h.cluster == v.clusterOf unit && h.kind == f && s.clock < h.until_
/-- The unit that the issued instruction needs is held (R126, R239). -/
def State.hold (s : State) (i : Instr) : State :=
  match i.unitHeld with
  | none => s
  | some (f, n) =>
    { s with holds := (s.holds.filter fun h => s.clock < h.until_) ++
        [{ core := s.me.core, half := s.me.half, cluster := s.me.clusterOf s.cur.unit, kind := f, until_ := s.clock + n }] }

/-- The first issue of a launch's group of rank 0 sets the clock from which its later groups are staggered (R427). -/
def State.noteIssue (s : State) : State :=
  if s.myGroup.rank = 0 && s.myLaunch.stagger != 0 && s.myLaunch.t0.isNone then
    s.modLaunch s.myGroup.launch fun l => { l with t0 := some s.clock }
  else s

/-- The spine has issued an instruction that does not transfer control. -/
def State.retire (s : State) (i : Instr) : State :=
  ((s.noteIssue.hold i).modMe fun v => (((v.counted s.clock).fallBack i).advance).post i s.clock).stepped

/-- The spine has issued an instruction that transfers to an address. -/
def State.retireTo (s : State) (i : Instr) (pc : Word) : State :=
  (s.noteIssue.modMe fun v => { (v.counted s.clock).fallBack i with pc := pc }).stepped

/-! ## Results -/

/-- The result `f` goes to register `d` in the lanes of `e`, and the instruction has issued. -/
def State.toReg (s : State) (i : Instr) (d : GReg) (e : Mask) (f : Nat → Word) : State :=
  (s.modMe fun v => v.setReg d e f).retire i
/-- The result `f` goes to the pair `d`. -/
def State.toReg2 (s : State) (i : Instr) (d : GReg) (e : Mask) (f : Nat → DWord) : State :=
  (s.modMe fun v => v.setReg2 d e f).retire i
/-- The result `f` goes to a register, or under `wide` to a pair. -/
def State.toRegs (s : State) (wide : Bool) (i : Instr) (d : GReg) (e : Mask) (f : Nat → DWord) : State :=
  if wide then s.toReg2 i d e f else s.toReg i d e fun l => (f l).setWidth 32
/-- The result `f` goes to predicate `d`. -/
def State.toPred (s : State) (i : Instr) (d : PNum) (e : Mask) (f : Nat → Bool) : State :=
  (s.modMe fun v => v.setPred d e f).retire i
/-- A result with flags goes to register `d` (R19, R225). -/
def State.toRegFl (s : State) (i : Instr) (d : GReg) (e : Mask) (f : Nat → FRes) : State :=
  s.flagged i e (fun l => (f l).fl) fun s => s.toReg i d e fun l => BitVec.ofNat 32 (f l).code
/-- A result with flags goes to the pair `d`. -/
def State.toReg2Fl (s : State) (i : Instr) (d : GReg) (e : Mask) (f : Nat → FRes) : State :=
  s.flagged i e (fun l => (f l).fl) fun s => s.toReg2 i d e fun l => BitVec.ofNat 64 (f l).code
/-- A compare with flags goes to predicate `d`. -/
def State.toPredFl (s : State) (i : Instr) (d : PNum) (e : Mask) (f : Nat → Bool × Byte) : State :=
  s.flagged i e (fun l => (f l).2) fun s => s.toPred i d e fun l => (f l).1

/-- A source in lane `l`: a register, zero-extended, or a pair (R74). -/
def Warp.wide (v : Warp) (pair : Bool) (r : GReg) (l : Nat) : DWord :=
  if pair then v.lane2 r l else (v.lane r l).setWidth 64

/-! ## Roundings of an instruction (R235, R236) -/

/-- MODE.FTZ (R15). -/
def modeFtz (mode : Word) : Bool := bitAt mode 2

/-- The direction of an RM field, or the one given for RM = 0 (R235). -/
def rmRnd (rm : BitVec 3) (dflt : Rnd) : Rnd :=
  match rm.toNat with
  | 1 => .rne
  | 2 => .rz
  | 3 => .ru
  | 4 => .rd
  | _ => dflt

/-- How an f32 instruction delivers (R235 to R237). -/
def fctl (f : FByte) (mode : Word) : RndCtl :=
  { rnd := rmRnd f.rm (modeRnd mode), sat := f.sat, ftz := modeFtz mode || f.fz }
/-- How an f64 or packed instruction delivers (R235, R236). -/
def fctlRne (f : FByte) : RndCtl := { rnd := rmRnd f.rm .rne, sat := f.sat, ftz := false }

/-- An f32 source after negation and flushing (R236). -/
def f32Src (neg ftz : Bool) (w : Word) : FP := f32F.val (flushWord ftz (negWord neg w)).toNat
/-- An f64 source after negation (R236). -/
def f64Src (neg : Bool) (w : DWord) : FP := f64F.val (if neg then w ^^^ 0x8000000000000000 else w).toNat

/-! ## Integer saturation (R173) -/

/-- The value of a word as s32 or n32. -/
def intOf (sg : Bool) {n : Nat} (w : BitVec n) : Int := if sg then w.toInt else w.toNat
/-- Whether an SG field means signed, where 0 means signed ("s", R173). -/
def sgSigned (sg : BitVec 2) : Bool := sg != 1#2
/-- An exact integer as a result of `n` bits: modulo 2^n, or clamped with SAT (R173). -/
def clampInt (sat sg : Bool) (n : Nat) (x : Int) : FRes :=
  let (lo, hi) := intRange sg n
  if sat && x < lo then { code := intCode n lo, fl := flSAT }
  else if sat && hi < x then { code := intCode n hi, fl := flSAT }
  else { code := intCode n x, fl := 0 }

end Sys2Proof.Machine
end

