-- ==== Sys2Proof/Machine/Tiles.lean ====
section
/-! DEFINITION. Accumulator tiles: their shapes, elements and granules (R148, R149, R261, R263, R264, R272). -/

namespace Sys2Proof.Machine

/-! ## Shapes (R261) -/

def TileKind.rows : TileKind → Nat
  | .t128 | .t128p => 128
  | .t64 | .t64d => 64
def TileKind.cols : TileKind → Nat
  | .t128 => 128
  | .t64 | .t64d => 64
  | .t128p => 256
/-- Granules on each core that holds a part of the tile. -/
def TileKind.granules : TileKind → Nat
  | .t128 | .t128p => 4
  | .t64 => 1
  | .t64d => 2
/-- Bytes of an element. -/
def TileKind.bytes : TileKind → Nat
  | .t64d => 8
  | _ => 4
/-- Bytes of a row in memory (R266). -/
def TileKind.rowBytes (t : TileKind) : Nat := t.cols * t.bytes
/-- Column groups of 32 columns. -/
def TileKind.groups (t : TileKind) : Nat := t.cols / 32
/-- The kind that ABIND names (R263). -/
def tileKind (code : BitVec 2) : TileKind :=
  match code.toNat with
  | 0 => .t128
  | 1 => .t64
  | 2 => .t64d
  | _ => .t128p

/-! ## Elements -/

/-- +0 without poison. -/
def TElem.zero : TElem := { bits := 0, poison := false }
/-- A tile of +0, not suspect (R209, R263). -/
def Tile.clear (k : TileKind) : Tile := { kind := k, elems := [], suspect := false, untested := false }
/-- The place of an element in a tile. -/
def Tile.place (t : Tile) (r c : Nat) : Nat := r * t.kind.cols + c
/-- Element (r, c). -/
def Tile.at' (t : Tile) (r c : Nat) : TElem := alGet TElem.zero (t.place r c) t.elems
/-- The tile with element (r, c) written. -/
def Tile.put (t : Tile) (r c : Nat) (e : TElem) : Tile := { t with elems := alSet TElem.zero (t.place r c) e t.elems }
/-- A tile of the kind with every element given by `f`, an element of +0 unlisted. -/
def Tile.fill (t : Tile) (f : Nat → Nat → TElem) : Tile :=
  { t with
    elems := (List.range (t.kind.rows * t.kind.cols)).filterMap fun i =>
      let e := f (i / t.kind.cols) (i % t.kind.cols)
      if e = TElem.zero then none else some (i, e) }

/-- The 32-bit part of an element that a slice names (R148). -/
def TElem.part (e : TElem) (hi : Bool) : Word := if hi then bitsAt e.bits 32 32 else bitsAt e.bits 0 32
/-- The element with that part written; a 32-bit element is then written whole (R148, R454). -/
def TElem.setPart (e : TElem) (wide hi : Bool) (x : Word) : TElem :=
  if wide then { e with bits := if hi then x ++ bitsAt e.bits 0 32 else bitsAt e.bits 32 32 ++ x }
  else { bits := x.setWidth 64, poison := false }

/-- The tile with an element that an ASTS has written (R148, R454). -/
def Tile.land (t : Tile) (p : TilePut) : Tile :=
  t.put p.row p.col ((t.at' p.row p.col).setPart (t.kind == .t64d) p.hi p.val)
/-- The elements that have landed by a clock are in the bound tile (R124, R125, R148). -/
def Strand.land (st : Strand) (clock : Nat) : Strand :=
  { st with
    tile := st.tile.map fun t => (st.tilePuts.filter fun p => p.due ≤ clock).foldl Tile.land t
    tilePuts := st.tilePuts.filter fun p => clock < p.due }

/-! ## Granules (R263, R264, R271) -/

/-- Granules of the group that bound tiles use on the core at a position. -/
def GroupSt.granAt (g : GroupSt) (pos : Nat) : Nat := nth 0 g.granUsed pos
/-- The group with `n` more granules in use at a position. -/
def GroupSt.useGran (g : GroupSt) (pos n : Nat) : GroupSt :=
  { g with granUsed := (g.granUsed ++ List.replicate (pos + 1 - g.granUsed.length) 0).set pos (g.granAt pos + n) }
/-- The group with `n` granules at a position given back. -/
def GroupSt.returnGran (g : GroupSt) (pos n : Nat) : GroupSt :=
  { g with granUsed := g.granUsed.set pos (g.granAt pos - n) }

/-- The tile bound to an accumulator after every tile instruction that has issued: what the checks at issue see
(R33, R259, R262 to R267). What a tile holds is that of the accumulator now: the check for a suspect tile does not look through what
is still outstanding on it, which the spec leaves open (DESIGN CHOICE, log 56). -/
def Warp.bound (v : Warp) (k : Nat) : Option Tile :=
  (v.matx.filter fun o => o.k == k).foldl (fun t o => match o.work with
    | .bind kind => some (Tile.clear kind)
    | .free => none
    | _ => t) (v.strand k).tile

end Sys2Proof.Machine
end

