-- ==== Sys2Proof/Machine/Turn.lean ====
section
/-! DEFINITION. Turns: the clocks, what a spine and a strand fetch, the choice of a cluster, and one turn as a
whole (R23, R77, R78, R82, R106, R131, R158, R162, R168, R176, R177, R198, R433, R439, R440, R451). -/

namespace Sys2Proof.Machine

/-! ## Clocks (R197, R198, R486) -/

/-- The arithmetic clock in MHz at a LEVEL (R486). -/
def clockMHz (level : Nat) : Nat := 850 - 25 * min level 15

/-- A value on its way to MODE is in it from the clock after its write (R16, R174). -/
def Warp.settleMode (v : Warp) (clock : Nat) : Warp :=
  match v.modeDue with
  | some (c, m) => if c < clock then { v with mode := m, modeDue := none } else v
  | none => v

/-- Whether a warp has a value on its way to MODE or to an element of a tile. -/
def Warp.unsettled (v : Warp) : Bool := v.modeDue.isSome || (List.range 8).any fun k => !(v.strand k).tilePuts.isEmpty
/-- What was on its way to MODE and to the elements of tiles is there, where its clock has come (R124, R125, R148, R174). -/
def Warp.settle (v : Warp) (clock : Nat) : Warp :=
  { v.settleMode clock with strands := v.strands.map fun st => st.land clock }

/-- `dt` clocks pass: CLOCK counts them, and GTIME the nanoseconds they take, with the rest kept in parts of a
nanosecond (R198); MODE and the tiles take the values that were on their way (R125, R174), and PWRST shows the draw as it now is
(R486; log 5). -/
def State.tick (s : State) (dt : Nat) : State :=
  let f := clockMHz s.ctl.level
  let n := s.gfrac + 1000 * dt
  { s with
    clock := s.clock + dt, gtime := s.gtime + n / f, gfrac := n % f
    ctl := if dt = 0 then s.ctl else { s.ctl with draw := Config.draw (s.gtime + n / f) }
    warps := if s.warps.any Warp.unsettled then s.warps.map fun v => v.settle (s.clock + dt) else s.warps }

/-! ## What a unit fetches -/

/-- What a turn of a unit does: nothing further, an instruction, or a stop. -/
inductive Fetch where
  | idle (s : State)
  | run (i : Instr) (s : State)
  | stop (f : Fault)
  deriving DecidableEq, Repr

/-- Whether a unit may issue in spite of a trap: in the clock of a trap, a unit that comes before the trapping one
(R439). In the clock of a STEP under SER no other unit issues (R452). -/
def Warp.trapAllows (v : Warp) (clock unit : Nat) : Bool :=
  match v.trap with
  | none => true
  | some t => t.at_ == clock && unit < t.unit && !(t.cause == .step && v.serial)

/-- Whether a cluster has not issued in this clock (R2, R433). -/
def State.clusterFree (s : State) (core half k : Nat) : Bool := nth 0 (s.core core).issuedAt (8 * half + k) ≤ s.clock

/-- Whether a unit of a warp may issue at all; no warp of a group issues while a core of the group loads overlay 0 (R2, R23,
R56, R61, R106, R431, R433, R443, R451). -/
def State.mayIssue (s : State) (w unit : Nat) : Bool :=
  let v := s.warp w
  let g := s.group v.group
  let loading := g.cores.any fun c => match (s.core c).slotOf (s.binary w) 0 with
    | some o => o.loading
    | none => false
  g.phase == .resident && !g.staggered && v.active && !v.exited && v.held.isNone && !v.escalating && !loading &&
    v.resumeAt ≤ s.clock && s.clusterFree v.core v.half (v.clusterOf unit) && v.trapAllows s.clock unit &&
    !(v.stepSer && v.stepUnit != unit && !v.handler)

/-- A unit issues from an overlay, whose code-store slot is then the most recently used (R360). -/
def State.useOverlay (s : State) (w num : Nat) : State :=
  s.modCore (s.warp w).core fun c =>
    { c with overlays := c.overlays.map fun x => x.map fun o =>
        if o.binary = s.binary w ∧ o.num = num then { o with used := s.clock } else o }

/-- A field of a body moved by `i` registers or predicates; none beyond 255 or p11 (R176, R177). -/
def moveField (u : Use) (x : Byte) (i : Nat) : Option Byte :=
  match u with
  | .none => some x
  | .rd _ | .wr _ => if x.toNat + i ≤ 255 then some (x + BitVec.ofNat 8 i) else none
  | .rd2 _ | .wr2 _ => if x.toNat + 2 * i ≤ 255 then some (x + BitVec.ofNat 8 (2 * i)) else none
  | .pr p | .pw p | .prw p => if i = 0 ∨ p.toNat + i ≤ 11 then some (x + BitVec.ofNat 8 i) else none

/-- Repetition `i` of a body whose fields named by `str` move (R176). -/
def repeatedWord (w : LongWord) (str : BitVec 4) (i : Nat) : Option LongWord :=
  let u := match w.dropFe.spell with
    | some b => b.uses
    | none => {}
  let f := fun (b : Bool) (x : Use) (y : Byte) => moveField (if b then x else .none) y i
  match f (bitAt str 0) u.d w.d, f (bitAt str 1) u.a w.a, f (bitAt str 2) u.b w.b, f (bitAt str 3) u.c w.c with
  | some d, some a, some b, some c => some { w with d := d, a := a, b := b, c := c }
  | _, _, _, _ => none

/-- What the spine issues for a code word, in or out of a REP. -/
def decodeAt (rep : Option Rep) (x : BitVec 64) : Instr :=
  match rep with
  | none => decodeWord x
  | some r =>
    match repeatedWord (LongWord.ofBits x) r.str r.idx with
    | some w => decodeWord w.toBits
    | none => .reservedOpcode x

/-- The spine's turn: path ends and switches first, then the checks of the PC, then the code word. The spec leaves these points open
(DESIGN CHOICE, log 54): at its join a path ends, even where a switch is due as well; a PC in an overlay that the core does not hold
raises OVMISS however the spine has come to it, and not after a transfer alone; and the STACK_OVERFLOW for a bad save area, which is
raised before an instruction is fetched, has the execution mask as its lane mask. -/
def State.spineTurn (s0 : State) (w : Nat) : Fetch :=
  let s := { s0 with cur := { s0.cur with warp := w, unit := 0 } }
  let v := s.me
  if !s.mayIssue w 0 then .idle s
  else if v.flowLost then .stop .controlFlowUndefined
  else if v.badArea && !v.handler then .idle (s.raise .stackOverflow v.mask 2)
  else if v.atJoin then .idle (s.endPath.settleExit w)
  else if v.switchDue then .idle s.switchPath
  else if offOf v.pc % 8 ≠ 0 || (v.resumed && 0x10000 ≤ offOf v.pc) then
    .idle (s.raise .align v.mask 0 (v.pc.setWidth 64))
  else if (s.overlay w (ovlOf v.pc)).isNone then .idle (s.raise .ovmiss v.mask (BitVec.ofNat 64 (ovlOf v.pc)))
  else
    match s.code w v.pc with
    | some x =>
      let i := decodeAt v.rep x
      if v.awaits (s.usesOf i) i s.clock || s.unitBusy w 0 i then .idle s else .run i (s.useOverlay w (ovlOf v.pc))
    | none => .idle (s.illegal v.mask)

/-- The index of a parcel of a segment (R78). -/
def Segment.index (g : Segment) : Nat := (g.pc.toNat - g.base.toNat - 16) / 2

/-- Whether strand state that a parcel reads or writes has still to receive a result (R124, R125). -/
def Strand.awaits (st : Strand) (i : Instr) (clock : Nat) : Bool :=
  let (a, c, q) := i.touches
  (a && clock < st.accAt) || (c && clock < st.carryAt) || (q && clock < st.qAt)

/-- A strand's turn. A frozen strand issues nothing (R22). -/
def State.strandTurn (s0 : State) (w k : Nat) : Fetch :=
  let s := { s0 with cur := { s0.cur with warp := w, unit := k + 1 } }
  let v := s.me
  let st := v.strand k
  match st.segs with
  | [] => .idle s
  | g :: _ =>
    if !s.mayIssue w (k + 1) || v.handler || !g.started || s.clock < st.earliest then .idle s
    else if bitAt v.badStpc k || segLen g.hdr ≤ g.index then .idle (s.raise .segment g.mask)
    else
      match s.parcel w g.pc with
      | none => .idle (s.raise .ovmiss g.mask (BitVec.ofNat 64 (ovlOf g.pc)))
      | some x =>
        let i := decodeShort x ((s.parcel w (g.pc + 2)).getD 0)
        if st.awaits i s.clock || s.unitBusy w (k + 1) i then .idle s
        else
          let s := s.useOverlay w (ovlOf g.pc)
          if isAmovi x && segLen g.hdr ≤ g.index + 1 then .idle (s.raise .segment g.mask) else .run i s

/-! ## The choice of a cluster (R433) -/

/-- A unit of a cluster: its warp, the strand or none for the spine, its age and its place in the cyclic order. -/
structure ClusterUnit where
  warp : Nat
  strand : Option Nat
  age : Nat
  place : Nat
  deriving DecidableEq, Repr

/-- The units of cluster `k` of a half of a core. -/
def State.unitsOf (s : State) (core half k : Nat) : List ClusterUnit :=
  (List.range s.warps.length).flatMap fun w =>
    let v := s.warp w
    if v.core = core ∧ v.half = half ∧ v.active then
      (if v.slot % 8 = k then [{ warp := w, strand := none, age := v.age, place := 2 * v.slot : ClusterUnit }] else []) ++
        [{ warp := w, strand := some k, age := (v.strand k).age, place := 2 * v.slot + 1 }]
    else []

/-- Whether a unit comes before another: older, or as old and earlier in the cyclic order after `last`. -/
def unitBefore (last : Nat) (a b : ClusterUnit) : Bool :=
  let d := fun (u : ClusterUnit) => (u.place + 64 - (last + 1)) % 64
  a.age < b.age || (a.age == b.age && d a < d b)

/-- A unit entered in a list that is sorted by `unitBefore`. -/
def insertUnit (last : Nat) (u : ClusterUnit) : List ClusterUnit → List ClusterUnit
  | [] => [u]
  | x :: l => if unitBefore last u x then u :: x :: l else x :: insertUnit last u l

/-- The units of a cluster in the order in which it takes them. -/
def State.unitOrder (s : State) (core half k : Nat) : List ClusterUnit :=
  (s.unitsOf core half k).foldr (insertUnit (nth 0 (s.core core).last (8 * half + k))) []
/-- A unit of a warp as one of its cluster. -/
def State.clusterUnit (s : State) (w : Nat) (strand : Option Nat) : ClusterUnit :=
  let v := s.warp w
  match strand with
  | none => { warp := w, strand := none, age := v.age, place := 2 * v.slot }
  | some k => { warp := w, strand := some k, age := (v.strand k).age, place := 2 * v.slot + 1 }
/-- What the cluster of a unit takes before that unit. -/
def State.unitsAhead (s : State) (u : ClusterUnit) : List ClusterUnit :=
  let v := s.warp u.warp
  (s.unitOrder v.core v.half (v.clusterOf (match u.strand with
    | none => 0
    | some k => k + 1))).takeWhile fun x => !(x.warp == u.warp && x.strand == u.strand)

/-- Whether a turn changed a warp in more than what it waits for: its unit was ready and issued. -/
def issued (s t : State) (w : Nat) : Bool :=
  { s.warp w with wait := none } != { t.warp w with wait := none }

/-! ## One turn -/

/-- What a turn gives. -/
abbrev Out := Host.Outcome State Fault Refusal

/-- What a unit fetches in its turn. -/
def State.fetchUnit (s : State) (u : ClusterUnit) : Fetch :=
  match u.strand with
  | none => s.spineTurn u.warp
  | some k => s.strandTurn u.warp k
/-- A unit has issued: it is the one that its cluster chose last, and the cluster issues no more in this clock (R2, R433). -/
def State.noteChosen (s : State) (u : ClusterUnit) : State :=
  let v := s.warp u.warp
  let at_ := 8 * v.half + v.clusterOf (match u.strand with
    | none => 0
    | some k => k + 1)
  s.modCore v.core fun c => { c with last := c.last.set at_ u.place, issuedAt := c.issuedAt.set at_ (s.clock + 1) }
/-- The state after a unit has run what it fetched in `s`: noted where it issued. -/
def State.credit (s t : State) (u : ClusterUnit) : State := if issued s t u.warp then t.noteChosen u else t

/-- A fetched instruction of a unit is executed by `ex`. -/
def State.runFetch (ex : Instr → State → Out) (s : State) (u : ClusterUnit) : Fetch → Out
  | .idle s => .next s
  | .run i t => match ex i t with
    | .next t => .next (s.credit t u)
    | r => r
  | .stop f => .fault f

/-- The units of a cluster are tried in order; the first that issues, or whose warp goes on otherwise, ends the turn. -/
def State.tryUnits (ex : Instr → State → Out) (s : State) : List ClusterUnit → Out
  | [] => .next s
  | u :: l =>
    match s.runFetch ex u (s.fetchUnit u) with
    | .next t => if issued s t u.warp then .next t else t.tryUnits ex l
    | r => r

/-- Whether a unit would not issue, nor its warp go on, if it were its turn. -/
def State.passes (ex : Instr → State → Out) (s : State) (u : ClusterUnit) : Bool :=
  match s.runFetch ex u (s.fetchUnit u) with
  | .next t => !issued s t u.warp
  | _ => false
/-- The turn of one unit: it runs what it fetches, where no unit that its cluster takes before it is ready (R433). -/
def State.unitTurn (ex : Instr → State → Out) (s : State) (u : ClusterUnit) : Out :=
  if (s.unitsAhead u).all (s.passes ex) then s.runFetch ex u (s.fetchUnit u) else .next s

/-- Whether a row of the table is an event of the device and no instruction. -/
def Instr.isEvent (i : Instr) : Bool :=
  match i with
  | .reservedOpcode _ | .reservedSop _ => false
  | _ => (encodeLong i).isNone && (encodeParcels i).isEmpty

/-- A turn as a whole, with `ex` for what one instruction or event does. -/
def State.turn (ex : Instr → State → Out) (s : State) : Turn → Out
  | .spine w => s.unitTurn ex (s.clusterUnit w none)
  | .strand w k => s.unitTurn ex (s.clusterUnit w (some k))
  | .cluster core half k => s.tryUnits ex (s.unitOrder core half k)
  | .event w k line e =>
    if Instr.isEvent e then ex e { s with cur := { warp := w, unit := k + 1, line := line } } else .next s

/-- The entries of a stack that the device does not keep on chip, bottom first (R160). -/
def offChip {α : Type} (n : Nat) (l : List α) : List α := (l.drop n).reverse
/-- The entries that stand off chip in `new` and not, at the same place, in `old`: their offsets in the save area and their bytes. -/
def spilled {α : Type} [BEq α] (base : Nat) (enc : α → List MarkedByte) (old new : List α) : List (Nat × List MarkedByte) :=
  (new.zipIdx.filter fun x => !(old[x.2]?.any fun y => y == x.1)).map fun x => (base + 16 * x.2, enc x.1)
/-- The parts of the save area that a warp which has run from `v` to `u` writes: the entries below the newest 16 and 8, in a handler
too (R160; log 49). The stacks that an ERET reads back stand there already (R168). -/
def spillParts (v u : Warp) : List (Nat × List MarkedByte) :=
  if u.exited || (v.handler && !u.handler) || (v.dstack == u.dstack && v.cstack == u.cstack) then []
  else spilled 0x40 entryBytes (offChip 16 v.dstack) (offChip 16 u.dstack) ++
    spilled 0x4040 callBytes (offChip 8 v.cstack) (offChip 8 u.cstack)
/-- The device writes the stack entries that have left the chip to the save areas of their warps (R160, R435). An entry that cannot
be written stays with the warp: R478 speaks of the writes of a trap alone (DESIGN CHOICE, log 49). -/
def State.spillStacks (s t : State) : State :=
  (List.range t.warps.length).foldl (fun (u : State) w =>
    match spillParts (s.warp w) (t.warp w) with
    | [] => u
    | l => match u.vwriteParts w (t.warp w).dstkBase.toNat l with
      | (.ok u, _) => u
      | (.error _, u) => u) t

/-- What every turn but RESET leaves as the turn began: the agenda and the clocks. -/
def State.keepClocks (t : Turn) (s0 s : State) : State :=
  match t with
  | .event _ _ _ .reset => s
  | _ => { s with agenda := s0.agenda, clock := s0.clock, gtime := s0.gtime, gfrac := s0.gfrac }

/-- Whose turn it is and after how many clocks: the head of the agenda, or a free choice (log 2); and the state in
which that turn begins, before the clocks pass. -/
def State.nextTurn (s : State) : (Nat × Turn) × State :=
  match s.agenda with
  | x :: l => (x, { s with agenda := l })
  | [] => ((Config.freeTicks s.free, Config.freeTurn s.free), { s with free := s.free + 1 })

/-- The next turn, run with `ex`. -/
def State.runTurn (ex : Instr → State → Out) (s : State) : Out :=
  let ((dt, t), s) := s.nextTurn
  let s := s.tick dt
  match s.turn ex t with
  | .next u => .next (State.keepClocks t s (s.spillStacks u))
  | .fault f => .fault f
  | .refused r => .refused r

/-! ## Placing one instruction (log 2) -/

/-- The words of one instruction of at most 64 bits: a code word, or parcels with zeros after them. -/
def fetchWord (nbits w : Nat) : BitVec 64 := BitVec.ofNat 64 (w % 2 ^ min nbits 64)

/-- A state in which a warp of 16 registers stands at the code word `x`, as the only word of overlay 0, and is the only warp that
its half of core 0 may issue from, in a clock in which no cluster of the core has issued. -/
def State.withCode (s : State) (x : List (BitVec 64)) : State :=
  let n := s.warps.length
  let g := s.groups.length
  let l := s.launches.length
  { s with
    holds := []
    launches := s.launches ++ [{ LaunchSt.none with phase := .accepted }]
    groups := s.groups ++ [{ GroupSt.none with launch := l, cores := [0], warps := [n], phase := .resident }]
    warps := (s.warps.map fun v => if v.core = 0 ∧ v.half = 0 then { v with active := false } else v) ++
      [{ Warp.start 16 with group := g, active := true }]
    cores := s.cores.modify 0 fun c =>
      { c with issuedAt := List.replicate 16 0, overlays := some { binary := 0, num := 0, code := x, loading := false, used := 0 } :: c.overlays.drop 1 } }

/-- A segment of the parcels of one code word on a0, started, with every input w0 to w7 written and o0 valid. -/
def oneSegment (len : Nat) : Segment :=
  { base := 0, hdr := 0#3 ++ 0#1 ++ 2#4 ++ BitVec.ofNat 12 len ++ 15#4 ++ 0x03020100#32 ++ 0xFF#8 ++ 0x0F0E0D0C0B0A0908#64,
    mask := BitVec.allOnes 32,
    win := (List.range 8).map fun i => { src := BitVec.ofNat 8 (8 + i), ready := true, val := Lanes.all 0, poison := 0 },
    puts := 0, started := true, fresh := true, pc := 16, at_ := 0, seq := 0 }

/-- The state in which the next turn fetches and runs one instruction: a code word by the spine of a new warp, or a
parcel (with the parcel after it) by its strand a0 (log 2). -/
def State.placeWord (s : State) (nbits w : Nat) : State :=
  let n := s.warps.length
  let x := fetchWord nbits w
  if nbits = 64 then { s.withCode [x] with agenda := [(0, .spine n)] }
  else
    { (s.withCode [0, 0, x]).modWarp n (fun v => { v with age := 1 }.modStrand 0 fun st =>
        { st with
          segs := [oneSegment 4]
          tile := some { kind := .t128, elems := [], suspect := false, untested := false } }) with
      agenda := [(0, .strand n 0)] }

end Sys2Proof.Machine
end

