-- ==== Sys2Proof/Machine/Scratch.lean ====
section
/-! DEFINITION. Scratch space and the banks of a group: addresses, bytes, FIFO entries
(R291, R292, R297, R298, R300, R329, R357). -/

namespace Sys2Proof.Machine

/-! ## Banks -/

/-- The core of a group at a position (R55). -/
def GroupSt.coreAt (g : GroupSt) (pos : Nat) : Nat := nth 0 g.cores pos

/-- Bank `j` of a group on the core at a position: its index on the core, and the bank (R292, R298). -/
def State.bankAt (s : State) (g pos j : Nat) : Option (Nat × Bank) :=
  let banks := (s.core ((s.group g).coreAt pos)).banks
  match banks.findIdx? fun b => b.owner == some (g, j) with
  | some i => some (i, nth Bank.cache banks i)
  | none => none

/-- Whether every bank that holds bytes `off` to `off + n - 1` of a core's scratch satisfies `p`. -/
def State.banksAll (s : State) (g pos off n : Nat) (p : Bank → Bool) : Bool :=
  n == 0 || (List.range ((off + n - 1) / 32768 - off / 32768 + 1)).all fun i =>
    match s.bankAt g pos (off / 32768 + i) with
    | some (_, b) => p b
    | none => false

/-! ## Addresses (R291) -/

/-- The position and the offset that a scratch address names; none outside the group's space. -/
def State.scratchAddr (s : State) (g : Nat) (a : Word) : Option (Nat × Nat) :=
  let x := s.group g
  let l := s.launch x.launch
  let pos := (bitsAt a 20 5).toNat
  let off := (bitsAt a 0 20).toNat
  if bitsAt a 25 7 == 0#7 && pos < (if l.span then x.cores.length else 1) && off < l.scratchBytes then some (pos, off)
  else none

/-- The place of `n` bytes from a scratch address, when each lies in a bank in SCRATCH mode; a switch that has still
to be made counts as made (R291, R292, R300). -/
def State.scratchRange (s : State) (g : Nat) (a : Word) (n : Nat) : Option (Nat × Nat) :=
  match s.scratchAddr g a with
  | some (pos, off) =>
    if off + n ≤ (s.launch (s.group g).launch).scratchBytes &&
        s.banksAll g pos off n fun b => (b.pending.getLast?.getD b.mode) == .scratch then some (pos, off)
    else none
  | none => none

/-- Whether a bank of the range has a switch to make, so that an access waits (R300). -/
def State.scratchWaits (s : State) (g pos off n : Nat) : Bool :=
  !s.banksAll g pos off n fun b => b.pending.isEmpty

/-! ## Bytes -/

/-- The key of a scratch byte. -/
def scratchKey (pos off : Nat) : Nat := pos * 2 ^ 20 + off
/-- A scratch byte with the mark of its word. -/
def GroupSt.peek (g : GroupSt) (pos off : Nat) : MarkedByte :=
  (alGet (0 : Byte) (scratchKey pos off) g.scratch, alGet false (scratchKey pos off / 4) g.scratchP)
/-- Bytes of scratch. -/
def GroupSt.peekN (g : GroupSt) (pos off n : Nat) : List MarkedByte := (List.range n).map fun i => g.peek pos (off + i)

/-- The marks of the words of scratch after a write of bytes (R329). -/
def markWords (key : Nat) (bs : List MarkedByte) (m : List (Nat × Bool)) : List (Nat × Bool) :=
  (List.range ((key + bs.length + 3) / 4 - key / 4)).foldl (fun m i =>
    let w := key / 4 + i
    let mine := (List.range 4).filterMap fun j => if 4 * w + j < key then none else bs[4 * w + j - key]?
    if mine.any fun b => b.2 then alSet false w true m
    else if mine.length = 4 then alSet false w false m
    else m) m

/-- Scratch with bytes written from an offset on. -/
def GroupSt.poke (g : GroupSt) (pos off : Nat) (bs : List MarkedByte) : GroupSt :=
  let k := scratchKey pos off
  { g with
    scratch := (List.range bs.length).foldl (fun m i => alSet (0 : Byte) (k + i) (nth ((0 : Byte), false) bs i).1 m) g.scratch
    scratchP := markWords k bs g.scratchP }
/-- The state with bytes of a group's scratch written. -/
def State.pokeScratch (s : State) (g pos off : Nat) (bs : List MarkedByte) : State :=
  s.modGroup g fun x => x.poke pos off bs

/-! ## FIFO banks (R297, R357, R358) -/

/-- Entries of a FIFO bank. -/
def fifoCap : Nat := 1024
/-- The FIFO entries that carry words with their marks, eight words to an entry. -/
def toEntries (n : Nat) (f : Nat → Word × Bool) : List FifoEntry :=
  (List.range n).map fun e =>
    (List.range 8).foldl (fun x i =>
      { bits := x.bits ||| ((f (8 * e + i)).1.setWidth 256 <<< (32 * i)),
        poison := x.poison ||| (if (f (8 * e + i)).2 then 1#8 <<< i else 0) }) { bits := 0, poison := 0 }
/-- Word `i` that a list of entries carries. -/
def entryWord (l : List FifoEntry) (i : Nat) : Word × Bool :=
  let x := nth { bits := 0, poison := 0 } l (i / 8)
  (bitsAt x.bits (32 * (i % 8)) 32, bitAt x.poison (i % 8))
/-- The state with a bank of a core changed. -/
def State.modBank (s : State) (core i : Nat) (f : Bank → Bank) : State :=
  s.modCore core fun c => { c with banks := c.banks.modify i f }

/-! ## Bytes that a MATX operation has still to move (R260) -/

/-- The runs that an outstanding MATX operation of a warp at a position has still to read or write. -/
def MatxOp.pending (o : MatxOp) (pos : Nat) : List Run :=
  let scr := fun off n => ({ place := .scr pos off, len := n, va := off, acc := false, pte := none, through := false } : Run)
  match o.work with
  | .aclr | .bind _ | .free => []
  | .ald src _ => if o.started then [] else src.flatten
  | .ast dst _ => dst.flatten
  | .mma pair a b x => if o.started then [] else
      [scr a (blockBytes x (slotA x) (slotRows x)), scr b (blockBytes x (slotB x) (if pair then 256 else slotRows x))]
  | .smv x w r panels _ _ => if o.streamed then [] else scr x (128 * panels * r) :: w

/-- Whether a tile instruction counts as a MATX operation: not ABIND and AFREE (R259). -/
def MatxOp.counted (o : MatxOp) : Bool :=
  match o.work with
  | .bind _ | .free => false
  | _ => true

/-- Whether `n` bytes at a virtual and physical address overlap a run. -/
def Run.meets (r : Run) (va pa n : Nat) : Bool :=
  match r.place with
  | .phys p => p < pa + n && pa < p + r.len
  | .virt p _ => (p < pa + n && pa < p + r.len) || (r.va < va + n && va < r.va + r.len)
  | .scr _ _ => false
/-- Whether `n` scratch bytes overlap a run. -/
def Run.meetsScr (r : Run) (pos off n : Nat) : Bool :=
  match r.place with
  | .scr p o => p == pos && o < off + n && off < o + r.len
  | _ => false

/-- Whether an outstanding MATX operation of the executing warp has still to move one of these bytes. -/
def State.matxMeets (s : State) (va pa n : Nat) : Bool :=
  s.me.matx.any fun o => (o.pending s.me.pos).any fun r => r.meets va pa n
def State.matxMeetsScr (s : State) (pos off n : Nat) : Bool :=
  s.me.matx.any fun o => (o.pending s.me.pos).any fun r => r.meetsScr pos off n

end Sys2Proof.Machine
end

