-- ==== Sys2Proof/Machine/Request.lean ====
section
/-! DEFINITION. Accesses of a warp to global and private memory: addresses, the checks at issue, program order, the
requests that go out, and what is read and written at the homes (R295, R302, R303, R325 to R331, R342, R348,
R363 to R371, R373, R394, R396, R495, R497). -/

namespace Sys2Proof.Machine

/-! ## Lane accesses -/

/-- The bytes of one lane at one place: lane, offset in the value, length and virtual address. -/
structure Acc where
  lane : Nat
  off : Nat
  len : Nat
  va : Nat
  deriving DecidableEq, Repr

/-- An access that has been translated. -/
structure Placed where
  acc : Acc
  pa : Nat
  pte : DWord
  ptr : Nat
  wb : HoldSt
  deriving DecidableEq, Repr

/-- A value of `n` bytes at an address, in parts of at most 4 bytes so that each lies in one memory word. -/
def accParts (lane va n : Nat) : List Acc :=
  if n = 8 then [{ lane := lane, off := 0, len := 4, va := va }, { lane := lane, off := 4, len := 4, va := (va + 4) % 2 ^ 64 }]
  else [{ lane := lane, off := 0, len := n, va := va }]

/-- The global address of byte `o` of a lane's private space (R295). -/
def Warp.privAddr (v : Warp) (l o : Nat) : Nat :=
  (v.dstkBase.toNat + 0x14200 + 128 * (o / 4) + 4 * l + o % 4) % 2 ^ 64
/-- A private value of `n` bytes (R295). -/
def Warp.privParts (v : Warp) (l o n : Nat) : List Acc :=
  if n = 8 then
    [{ lane := l, off := 0, len := 4, va := v.privAddr l o }, { lane := l, off := 4, len := 4, va := v.privAddr l (o + 4) }]
  else [{ lane := l, off := 0, len := n, va := v.privAddr l o }]

/-- The 32-bit address of a lane in scratch, private or constant space (R325). -/
def Warp.addr32 (v : Warp) (nb : Bool) (a : GReg) (off : BitVec 16) (l : Nat) : Word :=
  if nb then off.setWidth 32 else v.lane a l + off.signExtend 32
/-- The 64-bit address of a lane (R325). -/
def Warp.addr64 (v : Warp) (a : GReg) (off : BitVec 16) (l : Nat) : DWord := v.lane2 a l + off.signExtend 64

/-! ## Checks at issue (R326, R327) -/

/-- The lanes of a list of accesses. -/
def accLanes (l : List Acc) : Mask := maskOf fun i => l.any fun a => a.lane == i

/-- The address of the lowest lane of a list. -/
def firstVa (l : List Acc) : DWord :=
  match l.find? fun a => a.lane == lowest (accLanes l) with
  | some a => BitVec.ofNat 64 a.va
  | none => 0

/-- Every access translated in turn: those that succeed, and those that fail with their extra field. -/
def State.placeAll (s : State) (w : Nat) (rd wr : Bool) (accs : List Acc) :
    (List Placed × List (Acc × DWord)) × State :=
  accs.foldl (fun (x : (List Placed × List (Acc × DWord)) × State) (a : Acc) =>
    let (r, s) := x
    match s.translate (some (s.warp w).core) (s.rootOf w) (s.regionOf w) a.va rd wr with
    | (.ok pa e, s) => ((r.1 ++ [{ acc := a, pa := pa, pte := e.pte, ptr := e.ptr, wb := s.holdFor (s.rootOf w) e }], r.2), s)
    | (.fault x, s) => ((r.1, r.2 ++ [(a, x)]), s)) (([], []), s)

/-- Lines of a group's version, and of all versions on a die (R327). -/
def State.versionLines (s : State) (g : Nat) : Nat := (s.group g).version.length
def State.dieVersionLines (s : State) (die : Nat) : Nat :=
  (s.groups.map fun g => if dieOf (g.coreAt 0) = die then g.version.length else 0).sum

/-- Whether a write of these lines would take a version beyond its limit: the extra field of VERSION_OVERFLOW
(R327). -/
def State.overflows (s : State) (g : Nat) (lines : List Nat) : Option DWord :=
  let n := (lines.eraseDups.filter fun l => (alFind l (s.group g).version).isNone).length
  if 0x200000 < 128 * (s.versionLines g + n) then some 0
  else if 0x2000000 < 128 * (s.dieVersionLines (dieOf ((s.group g).coreAt 0)) + n) then some 1
  else none

/-- Whether a write to this place raises SCOPE in a versioned group (R327). -/
def State.outsideVersion (s : State) (p : Placed) : Bool :=
  ptePool p.pte || match s.frame p.pa with
    | .host _ => true
    | _ => false

/-- The traps of R327 for accesses that have been placed: `scope` says that the instruction itself is at a scope that
a versioned group may not use. -/
def State.conditions (s : State) (e : Mask) (wr scope : Bool) (ps : List Placed) : Option State :=
  let accs := ps.map Placed.acc
  let bad := ps.filter s.outsideVersion
  let lost := ps.filter fun p => (s.poolLost p.pa).isSome
  if s.versioned && scope then some (s.raise .scope e 0 (firstVa accs))
  else if s.versioned && wr && !bad.isEmpty then
    some (s.raise .scope (accLanes (bad.map Placed.acc)) 0 (firstVa (bad.map Placed.acc)))
  else match if s.versioned && wr then s.overflows s.me.group (ps.map fun p => lineNo p.pa) else none with
    | some x => some (s.raise .versionOverflow e x (firstVa accs))
    | none =>
      match lost with
      | [] => none
      | p :: _ =>
        some (s.raise .poolRegion (accLanes (lost.map Placed.acc)) (BitVec.ofNat 64 ((s.poolLost p.pa).getD 0))
          (firstVa (lost.map Placed.acc)))

/-- Requests that a core has outstanding, one for each instruction and line (R302); the steps of an ATOMR are those of the load that takes their values. -/
def State.requests (s : State) (core : Nat) : Nat :=
  ((s.loads.filter fun x => x.core == core).map fun x => (x.pieces.map fun p => lineNo p.pa).eraseDups.length).sum +
    ((s.writes.filter fun x => x.core == some core && (match x.kind with
      | .store | .sc .. => true
      | .atom _ _ _ _ _ _ _ r => r.isNone
      | _ => false)).map fun x => (x.req, x.line)).eraseDups.length

/-- Whether the executing warp's core has too few request entries for an access to these lines, which takes one for each
(R302). -/
def State.lacksEntries (s : State) (lines : List Nat) : Bool := 768 < s.requests s.me.core + lines.eraseDups.length

/-- Whether accesses of the executing warp that have been placed must wait: for a MATX operation of the warp that has
still to move one of the bytes, or for request entries of the core (R260, R302). -/
def State.placesWait (s : State) (ps : List Placed) : Bool :=
  (ps.any fun p => s.matxMeets p.acc.va p.pa p.acc.len) || s.lacksEntries (ps.map fun p => lineNo p.pa)

/-- The checks of a memory instruction over every lane of E, in the order of R326, and then `k` with the places, once
nothing makes them wait (R260, R302). -/
def State.withPlaces (s : State) (e : Mask) (rd wr scope : Bool) (mis accs : List Acc)
    (k : List Placed → State → State) : State :=
  if !mis.isEmpty then s.raise .align (accLanes mis) 0 (firstVa mis)
  else
    match s.placeAll s.cur.warp rd wr accs with
    | ((ps, []), s) =>
      match s.conditions e wr scope ps with
      | some t => t
      | none => if s.placesWait ps then s.block .access else k ps s
    | ((_, bad), s) =>
      let fails := bad.map Prod.fst
      let first := bad.find? fun x => x.1.lane == lowest (accLanes fails)
      s.raise .memfault (accLanes fails) ((first.map Prod.snd).getD 0) (firstVa fails)

/-! ## Program order (R363, R364, R367 to R370) -/

/-- The bytes of its line that a part covers. -/
def LPiece.bytes (p : LPiece) : BitVec 128 := byteRun (p.pa % 128) p.len
/-- Whether a load has a part to be performed in a lane of the mask. -/
def Load.open (x : Load) (m : Mask) : Bool := x.pieces.any fun p => !p.got && m.getLsbD p.lane
/-- Whether a load has a part to be performed on bytes of a line in a lane of the mask. -/
def Load.openAt (x : Load) (m : Mask) (line : Nat) (b : BitVec 128) : Bool :=
  x.pieces.any fun p => !p.got && m.getLsbD p.lane && lineNo p.pa == line && (p.bytes &&& b) != 0#128
/-- Whether every part of a load has been performed. -/
def Load.performed (x : Load) : Bool := x.pieces.all fun p => p.got

/-- Whether a write is performed at a scope: one that a pool device has still to acknowledge is performed up to .dev
(R371, R375, R376). -/
def State.writeDone (s : State) (x : Write) (scope : BitVec 3) : Bool :=
  x.phase == .remote && scope.toNat ≤ 3 && (match s.frame (128 * x.line) with
    | .pool _ _ => true
    | _ => false)

/-- Whether a write of a versioned group acts on its version (R373, R497). -/
def WKind.inVersion : WKind → Bool
  | .store | .atom .. | .sc .. => true
  | _ => false

/-- Whether a write held under WB stands at bytes of a line, which the warp names by the line or by its virtual address
(R322). -/
def Write.holds (x : Write) (line va : Nat) (b : BitVec 128) : Bool :=
  x.phase == .held && (x.line == line || x.va / 128 == va / 128) && (x.mask &&& b) != 0#128
/-- Whether a write of the warp that comes before an access of lanes `m` to bytes of a line in program order, or a CSTORE
before it, is still to be performed; every access of the warp waits behind a write held under WB (R283, R322, R363, R364). -/
def State.ownWrite (s : State) (w before : Nat) (m : Mask) (line va : Nat) (b : BitVec 128) : Bool :=
  s.writes.any fun x => x.warp == some w && x.id < before && (x.holds line va b ||
    (x.line == line && (x.seen &&& (s.warp w).lanesBefore x.id before m) != 0#32 && (x.mask &&& b) != 0#128 && !s.writeDone x 3))
/-- Whether a load of the warp that comes before an access of lanes `m` in program order is still to be performed on bytes
of a line (R363, R364). -/
def State.ownLoad (s : State) (w before : Nat) (m : Mask) (line : Nat) (b : BitVec 128) : Bool :=
  s.loads.any fun x => x.warp == w && x.id < before && x.openAt ((s.warp w).lanesBefore x.id before m) line b
/-- Whether an atomic has still to read its place (R334, R370). -/
def Write.reads (x : Write) : Bool :=
  match x.kind with
  | .atom .. => x.phase == .pending || x.phase == .asked || x.phase == .held
  | _ => false
/-- Whether any earlier read of the warp in lanes `m`, but the load numbered `but`, has still to receive its value: a load,
or an atomic's read of the old value (R370). -/
def State.readsOpen (s : State) (w before : Nat) (m : Mask) (but : Nat := 0) : Bool :=
  (s.loads.any fun x => x.warp == w && x.id < before && x.id != but && x.open ((s.warp w).lanesBefore x.id before m)) ||
    s.writes.any fun x => x.warp == some w && x.id < before && x.reads &&
      (x.lanes &&& (s.warp w).lanesBefore x.id before m) != 0#32

/-- Whether a write is one of an engine or array operation that is still outstanding: no release and no fence covers it before
the WAITC that waits for the operation (R372). -/
def Warp.moving (v : Warp) (id : Nat) : Bool :=
  (v.eng.any fun o => match o.work with
    | .writing ids _ => ids.contains id
    | _ => false) || v.matx.any fun o => (o.sent.getD []).contains id

/-- Whether every write of a warp issued before a number is performed at a scope. -/
def State.allWritten (s : State) (w before : Nat) (scope : BitVec 3) : Bool :=
  s.writes.all fun x => x.warp != some w || before ≤ x.id || s.writeDone x scope || (s.warp w).moving x.id
/-- Whether every load of a warp issued before a number is performed, but for the one numbered `but`. -/
def State.allLoaded (s : State) (w before : Nat) (but : Nat := 0) : Bool :=
  s.loads.all fun x => x.warp != w || before ≤ x.id || x.id == but || x.performed

/-- Whether every access of a warp issued before a number is performed at a scope, the joins and resends of its core
among them (R379; log 10). The load numbered `but` is left out of account: it is that of the access itself. -/
def State.allPerformed (s : State) (w before : Nat) (scope : BitVec 3) (but : Nat := 0) : Bool :=
  s.allLoaded w before but && s.allWritten w before scope &&
    (s.joins.all fun j => j.core != (s.warp w).core || before ≤ j.id) &&
    s.upgs.all fun u => u.core != (s.warp w).core || before ≤ u.id

/-- Whether a read that later accesses wait for has not been performed yet (R342, R367). -/
def State.readPending (s : State) (w id : Nat) : Bool :=
  (s.loads.any fun x => x.warp == w && x.id == id && !x.performed) ||
    s.writes.any fun x => x.warp == some w && x.id == id && (x.phase == .pending || x.phase == .asked || x.phase == .held)

/-- Whether the commit of a version holds a line (R373). -/
def State.committed (s : State) (line : Nat) : Bool :=
  s.groups.any fun g => g.committing && (alFind line g.version).isSome
/-- The write that is on its way down the list of a line, 0 for the commit of a version, which copies of the line may show before
others do (R373, R388). -/
def State.flowOf (s : State) (line : Nat) : Option Nat :=
  if s.committed line then some 0
  else ((s.l2At line).bind fun x => x.prop).bind fun f => if f.upgrade.isSome then none else some f.write
/-- Loads have read a line: while a write of it is on its way, each warp keeps that it has read it, and waits for it where the load
is an acquire (R368, R369, R373; log 58). -/
def State.noteEarly (s : State) (ids : List Nat) (line : Nat) : State :=
  match s.flowOf line with
  | none => s
  | some f => (s.loads.filter fun x => ids.contains x.id).foldl (fun (t : State) (x : Load) => t.modWarp x.warp fun v =>
      { v with
        early := ((line, f) :: v.early).eraseDups
        acqEarly := if x.acq || v.acqIds.contains x.id then ((line, f) :: v.acqEarly).eraseDups else v.acqEarly }) s
/-- What loads have read early that is still on its way. -/
def State.stillEarly (s : State) (l : List (Nat × Nat)) : List (Nat × Nat) := l.filter fun x => s.flowOf x.1 == some x.2

/-- Whether an acquire of the warp holds later accesses back: its read is still to be performed, or the write that it has read is
still on its way to others (R342, R367 to R369, R373). -/
def State.acquiring (s : State) (w : Nat) : Bool :=
  ((s.warp w).acqIds.any fun id => s.readPending w id) || !(s.stillEarly (s.warp w).acqEarly).isEmpty

/-- An access issues when no acquire holds it back and the core has request entries left (R302, R367; log 9). -/
def State.access (s : State) (k : State → State) : State :=
  if s.acquiring s.cur.warp then s.block .fence
  else if 768 ≤ s.requests s.me.core then s.block .access
  else k s

/-- The warp's later accesses wait for a read (R367). -/
def State.acquire (s : State) (acq : Bool) (ids : List Nat) : State :=
  if acq then s.modMe fun v => { v with acqIds := v.acqIds ++ ids } else s

/-! ## Reading at a home or a copy -/

/-- A part of a load with the value that a line holds. -/
def LPiece.take (p : LPiece) (d : LineData) : LPiece :=
  { p with got := true, val := lineRead d.bits (p.pa % 128) p.len, poison := d.poison.getLsbD (p.pa % 128 / 4) }

/-- The format at which a core holds a line subscribed; FULL where it holds none (R347, R348). -/
def State.subFmt (s : State) (core line : Nat) : Fmt :=
  match (s.core core).l1At line with
  | some x => if s.subscribed core line then x.fmt else .full
  | none => .full
/-- A line whose words are passed through the rounding of a format and widened (R233, R348). -/
def roundLine (f : Fmt) (d : LineData) : LineData :=
  match f with
  | .full => d
  | _ => { bits := wordsLine fun i => widenSub f (roundSub f (lineWord d.bits i)), poison := d.poison }
/-- A copy of a format with its codes widened (R348, R392). -/
def widenLine (f : Fmt) (d : LineData) : LineData :=
  match f with
  | .full => d
  | _ => { bits := wordsLine fun i => widenSub f (lineWord d.bits i), poison := d.poison }

/-- A line that takes the words of a mask from another. -/
def mixWords (d e : LineData) (words : Mask) : LineData :=
  { bits := wordsLine fun i => lineWord (if words.getLsbD i then e else d).bits i,
    poison := (d.poison &&& ~~~words) ||| (e.poison &&& words) }
/-- The words of a line in which the version of a warp's group has bytes (R373). -/
def State.versionWords (s : State) (w line : Nat) : Mask :=
  match alFind line (s.group (s.warp w).group).version with
  | some x => wordsOf x.written
  | none => 0
/-- The line that a load reads, of what a home or a copy holds: the version stands over it, and an LDS rounds it, where it rounds
the word that the home holds under the bytes of the version (R348, R373, R374). -/
def State.readsLine (s : State) (x : Load) (line : Nat) (d : LineData) : LineData :=
  match x.kind, s.subFmt x.core line with
  | .lds, .full => s.viewLine x.warp line d
  | .lds, f =>
    roundLine f (mixWords d (s.viewLine x.warp line (s.homeLine line)) (s.versionWords x.warp line))
  | _, _ => s.viewLine x.warp line d

/-- Parts of loads on a line take their values from it (R366, R495). -/
def State.performLoads (s : State) (ids : List Nat) (line : Nat) (d : LineData) : State :=
  { s with loads := s.loads.map fun (x : Load) =>
      if ids.contains x.id then
        { x with pieces := x.pieces.map fun p => if lineNo p.pa = line && !p.got then p.take (s.readsLine x line d) else p }
      else x }

/-- The observation record of a line notes bytes that a core read (R394). -/
def State.noteRead (s : State) (core line : Nat) (b : BitVec 128) : State :=
  (s.rollObs line).modL2 line fun x => { x with obs := { x.obs with rd := addMask core b x.obs.rd } }
/-- The observation record of a line bars a grant (R394). -/
def State.barGrant (s : State) (line : Nat) : State :=
  (s.rollObs line).modL2 line fun x => { x with obs := { x.obs with barred := true } }

/-- The bytes of a line that a list of loads has still to read. -/
def State.wanted (s : State) (ids : List Nat) (line : Nat) : BitVec 128 :=
  s.loads.foldl (fun m x => if ids.contains x.id then
    x.pieces.foldl (fun m p => if lineNo p.pa = line && !p.got then m ||| p.bytes else m) m else m) 0

/-! ## Requests to other agents -/

/-- A request of a warp for a line that L2 does not hold goes to a remote agent as a read (R319, R399, R401). -/
def State.askRemote (s : State) (core launch line va : Nat) (acc : Bool) : State :=
  let t := s.countAccess core launch line va acc
  match s.frame (128 * line) with
  | .host p => if (s.port p).cache then t.sendLink line .rdShared else t.sendLink line (.memRd · false)
  | .pool _ _ => t.sendLink line (.memRd · false)
  | _ => t

/-! ## Loads -/

/-- What a load instruction asks for, besides its places. -/
structure LoadReq where
  kind : LoadKind
  acq : Bool
  scope : BitVec 3
  nc : Bool
  d : GReg
  wide : Bool
  bytes : Nat
  sext : Bool
  deriving DecidableEq, Repr

/-- The parts that placed accesses make. -/
def piecesOf (ps : List Placed) : List LPiece :=
  ps.map fun p => { lane := p.acc.lane, off := p.acc.off, len := p.acc.len, va := p.acc.va, pa := p.pa, got := false, val := 0, poison := false }

/-- Whether a core has a write to a line that is not yet complete (R303, R348, R390). -/
def State.writing (s : State) (core line : Nat) : Bool :=
  s.writes.any fun x => x.core == some core && x.line == line && !s.writeDone x 3

/-- The copy that a load reads at once, for an LD or an LDS of a line that its core does not hold subscribed: the FULL
copy, or the bytes of its own mask of a privatised copy (R366, R386, R390, R395, R495). -/
def State.fullCopy (s : State) (q : LoadReq) (w line va : Nat) (b : BitVec 128) (m : Mask) : Option LineData :=
  let core := (s.warp w).core
  if (q.kind == .ld || q.kind == .lds) && !q.nc && !(q.acq && atDie q.scope) && !s.subscribed core line &&
      !s.writing core line && !s.ownWrite w s.nextId m line va b && !s.ownLoad w s.nextId m line b then
    match (s.core core).l1At line with
    | some x =>
      if x.fmt == .full && sectorsOf b &&& ~~~x.sectors == 0#4 && (x.pst == .listed || (x.pst == .privatised && (b &&& ~~~x.granted) == 0#128)) then some x.data
      else none
    | none => none
  else none

/-- The subscribed copy that an LDS reads, widened (R348). -/
def State.subCopy (s : State) (w line : Nat) : Option LineData :=
  let core := (s.warp w).core
  match (s.core core).l1At line with
  | some x => if s.subscribed core line && x.pst == .listed then some (widenLine x.fmt x.data) else none
  | none => none

/-- What a load reads at once. -/
def State.copyOf (s : State) (q : LoadReq) (w line va : Nat) (b : BitVec 128) (m : Mask) : Option LineData :=
  if q.kind == .lds && s.subscribed (s.warp w).core line then s.subCopy w line else s.fullCopy q w line va b m

/-- The constant cache's word for a GOT load (R294; log 15). -/
def State.constHit (s : State) (q : LoadReq) (w : Nat) (pa : Nat) : Option (Word × Bool) :=
  if q.kind == .ldc && !q.acq then
    ((s.core (s.warp w).core).consts.find? fun x => x.1 == ((s.group (s.warp w).group).launch, pa / 4)).map Prod.snd
  else none

/-- The miss-status entry that a request joins (R303). -/
def State.joinable (s : State) (q : LoadReq) (w line : Nat) : Option Fill :=
  let core := (s.warp w).core
  if (q.kind == .ld || q.kind == .ldc) && !q.nc && q.scope.toNat ≤ 3 && !(q.acq && atDie q.scope) &&
      !s.writing core line then
    s.fills.find? fun f => f.core == core && f.line == line && f.joinable && s.clock ≤ f.at_ + 64 && !f.barred.contains w
  else none

/-- A load's request for a line goes to the home: it joins an open entry or opens one (R303, R385). -/
def State.request (s : State) (q : LoadReq) (w id line va : Nat) (acc : Bool) : State :=
  let core := (s.warp w).core
  match s.joinable q w line with
  | some f =>
    let t : State := { s with fills := s.fills.map fun (x : Fill) =>
      if x.id = f.id then
        { x with loads := x.loads ++ [id], alloc := x.alloc || (q.kind == .ld && s.cacheable line) }
      else x }
    t.modCore core fun c => { c with missmerge := c.missmerge + 1 }
  | none =>
    let (fid, s) := s.fresh
    let s := { s with fills := s.fills ++
      [{ id := fid, core := core, line := line, at_ := s.clock, loads := [id],
         alloc := (q.kind == .ld || q.kind == .lds) && !q.nc && s.cacheable line,
         joinable := (q.kind == .ld || q.kind == .ldc || q.kind == .lds) && !q.nc, barred := [] }] }
    if (s.l2At line).isSome then s else s.askRemote core (s.group (s.warp w).group).launch line va acc

/-- The registers of a destination. -/
def regsOfDst (wide : Bool) (d : GReg) : List Nat := if wide then [d.toNat, d.toNat + 1] else [d.toNat]

/-- A part of a load with a word of the constant cache, where it holds one. -/
def LPiece.cached (p : LPiece) (c : Option (Word × Bool)) : LPiece :=
  match c with
  | some c => { p with got := true, val := c.1.setWidth 64, poison := c.2 }
  | none => p

/-- A load issues: its destination is marked empty, and its parts are outstanding (R17, R330). -/
def State.startLoad (s : State) (q : LoadReq) (e : Mask) (ps : List LPiece) : Nat × State :=
  let (id, s) := s.fresh
  let x : Load :=
    { id := id, warp := s.cur.warp, core := s.me.core, kind := q.kind, acq := q.acq, scope := q.scope, d := q.d, wide := q.wide,
      bytes := q.bytes, sext := q.sext, lanes := e, pieces := ps, at_ := s.clock }
  let s : State := { s with loads := s.loads ++ [x] }
  (id, s.modMe fun v => (regsOfDst q.wide q.d).foldl (fun v r => v.empty r) v)

/-- The words of the constant cache for the lanes of a load that it serves whole, so that a 64-bit value is never made of a
cached and a fetched word (R294, R362). -/
def State.constWhole (s : State) (q : LoadReq) (w : Nat) (mine : List Placed) (p : LPiece) : Option (Word × Bool) :=
  if mine.all fun x => x.acc.lane != p.lane || (s.constHit q w x.pa).isSome then s.constHit q w p.pa else none

/-- The copy that a load of placed accesses reads on a line at once. -/
def State.copyFor (s : State) (q : LoadReq) (id : Nat) (ps : List Placed) (line : Nat) : Option LineData :=
  let mine := ps.filter fun p => lineNo p.pa == line
  s.copyOf q s.cur.warp line ((mine.head?.map fun p => p.acc.va).getD 0) (s.wanted [id] line) (accLanes (mine.map Placed.acc))
/-- Whether the value of some lane lies in two lines, as a 64-bit value of private space does; it is read in one step (R295,
R362). -/
def LPiece.splits (ps : List LPiece) : Bool :=
  ps.any fun p => ps.any fun q => p.lane == q.lane && lineNo p.pa != lineNo q.pa

/-- A load's parts on one line: performed at once where a copy or the constant cache holds them, and otherwise asked
of the home (R302, R303, R366); `copies` says whether copies may serve it. -/
def State.loadLine (q : LoadReq) (id : Nat) (ps : List Placed) (copies : Bool) (s : State) (line : Nat) : State :=
  let w := s.cur.warp
  let mine := ps.filter fun p => lineNo p.pa == line
  let b := s.wanted [id] line
  let va := (mine.head?.map fun p => p.acc.va).getD 0
  match if copies then s.copyFor q id ps line else none with
  | some x =>
    (((s.performLoads [id] line x).noteEarly [id] line).modCore s.me.core fun c => c.touchL1 line).noteRead s.me.core line b
  | none =>
    let s := { s with loads := s.loads.map fun (x : Load) =>
      if x.id = id then { x with pieces := x.pieces.map fun p => if lineNo p.pa = line then p.cached (s.constWhole q w mine p) else p }
      else x }
    if s.wanted [id] line = 0 then s
    else s.request q w id line va (mine.any fun p => pteAcc p.pte)

/-- A load of placed accesses issues, line by line (R302). One with a value that lies in two lines reads copies only where there is
one of every line, and no write of it on its way (R362). -/
def State.issueLoad (s : State) (q : LoadReq) (e : Mask) (ps : List Placed) : State :=
  let (id, s) := s.startLoad q e (piecesOf ps)
  let lines := (ps.map fun p => lineNo p.pa).eraseDups
  let copies := !LPiece.splits (piecesOf ps) ||
    lines.all fun line => (s.copyFor q id ps line).isSome && (s.flowOf line).isNone
  (lines.foldl (State.loadLine q id ps copies) s).acquire q.acq [id]

/-! ## Writes -/

/-- One lane's part of a store: its place, its bytes as a number, and its mark. -/
structure WPart where
  at_ : Placed
  val : BitVec 64
  poison : Bool
  deriving DecidableEq, Repr

/-- A list in an order that the device chooses: `n` picks from the free values that begin at `f` (log 7). -/
def shuffled {α : Type} (f : Nat) : Nat → List α → List α
  | 0, l => l
  | n + 1, l =>
    match l with
    | [] => []
    | x :: r =>
      let i := Config.freePick f % (r.length + 1)
      nth x (x :: r) i :: shuffled (f + 1) n ((x :: r).eraseIdx i)

/-- Whether two lanes of a store write a common byte. -/
def WPart.clash (a b : WPart) : Bool :=
  a.at_.acc.lane != b.at_.acc.lane && a.at_.pa < b.at_.pa + b.at_.acc.len && b.at_.pa < a.at_.pa + a.at_.acc.len

/-- The parts of a store in the order in which they are laid: lane by lane, in any order of the lanes when lanes collide,
so that the value of one lane stays whole (R331, R362). -/
def State.layOrder (s : State) (ws : List WPart) : List WPart × State :=
  if ws.any fun a => ws.any fun b => a.clash b then
    ((shuffled s.free 32 laneList).flatMap fun l => ws.filter fun x => x.at_.acc.lane == l, { s with free := s.free + 32 })
  else (ws, s)

/-- The bytes of one line that parts of a store write, with their mask. -/
def lineOfParts (ws : List WPart) : LineData × BitVec 128 :=
  ws.foldl (fun (x : LineData × BitVec 128) p =>
    let off := p.at_.pa % 128
    let m := byteRun off p.at_.acc.len
    (lineLay x.1 (lineOf off p.at_.acc.len p.val p.poison) m, x.2 ||| m)) (LineData.zero, 0)
where
  /-- Bytes laid over others; the mark of a word is that of the bytes laid last in it. -/
  lineLay (old new : LineData) (m : BitVec 128) : LineData :=
    { bits := (old.bits &&& ~~~(byteBits m)) ||| new.bits, poison := (old.poison &&& ~~~(wholeWords m)) ||| new.poison }

/-- The version of a group takes bytes of a line, which clears the group's reservations on it (R373, R497). -/
def GroupSt.writeVersion (g : GroupSt) (line : Nat) (ptrs : List Nat) (d : LineData) (m : BitVec 128) : GroupSt :=
  let old := (alFind line g.version).getD { data := LineData.zero, written := 0, ptes := [] }
  { g with
    version := alPut line { data := lineWrite old.data d m, written := old.written ||| m,
                            ptes := (ptrs ++ old.ptes).eraseDups } g.version
    vresv := g.vresv.filter fun r => r.2.2 != line }

/-- Whether virtual ranges meet the save area of a warp. -/
def Warp.areaHit (v : Warp) (ranges : List (Nat × Nat)) : Bool :=
  let base := v.dstkBase.toNat
  ranges.any fun r => base < r.1 + r.2 && r.1 < base + 0x140C0
/-- Whether a write of the executing warp to virtual ranges meets the save area of a warp that is in no handler, under the same
tables (R168). -/
def State.losesFlow (s : State) (ranges : List (Nat × Nat)) (w : Nat) : Bool :=
  let v := s.warp w
  !v.exited && !v.handler && v.areaHit ranges && s.rootOf w == s.rootOf s.cur.warp
/-- A program that writes to the save area of a warp outside its handler loses that warp's control flow (R168). -/
def State.guardAreas (s : State) (ranges : List (Nat × Nat)) : State :=
  if (List.range s.warps.length).any (s.losesFlow ranges) then
    { s with warps := s.warps.mapIdx fun w v => if s.losesFlow ranges w then { v with flowLost := true } else v }
  else s
/-- The virtual ranges of the places of an access. -/
def placeRanges (ps : List Placed) : List (Nat × Nat) := ps.map fun p => (p.acc.va, p.acc.len)

/-- The warp has issued a store to a line: it joins no entry that was open for it (R303). -/
def State.barJoin (s : State) (w line : Nat) : State :=
  { s with fills := s.fills.map fun (f : Fill) =>
      if f.core = (s.warp w).core ∧ f.line = line then { f with barred := w :: f.barred } else f }

/-- One write of a line, which the places `p` and `ps` name, is sent to its home, or held under WB (R302, R322). -/
def State.sendWrite (s : State) (req : Nat) (kind : WKind) (m seen : Mask) (p : Placed) (ps : List Placed) (d : LineData)
    (b : BitVec 128) (rel : Bool) (scope : BitVec 3) (nf : Option Nat) : State :=
  let (id, s) := s.fresh
  let t : State := { s with writes := s.writes ++
      [{ id := id, warp := some s.cur.warp, core := some s.me.core, lanes := m, seen := seen, line := lineNo p.pa, va := p.acc.va,
         kind := kind, data := d, mask := b, rel := rel, scope := scope,
         phase := if pteWb p.pte then .held else .pending, nf := nf, through := (p :: ps).any fun q => pteStackl q.pte,
         ptes := ((p :: ps).map Placed.ptr).eraseDups, counter := none, wb := p.wb, req := req, root := 0, region := 0,
         note := none }] }
  t.barJoin s.cur.warp (lineNo p.pa)

/-- The access counters count the requests that the writes of an instruction make, one for each line; a write that is held
is counted when it goes out (R302, R319, R322). -/
def State.countPlaces (s : State) (ps : List Placed) : State :=
  (ps.map fun p => lineNo p.pa).eraseDups.foldl (fun (t : State) line =>
    match ps.find? fun p => lineNo p.pa == line with
    | some p => t.countAccess t.me.core (t.group t.me.group).launch line p.acc.va (pteAcc p.pte && !pteWb p.pte)
    | none => t) s

/-- What tells the writes of a store apart: the line, and the virtual line of one that is held, which may be moved (R302, R322,
R388). -/
def WPart.key (x : WPart) : Option Nat × Nat :=
  (if pteWb x.at_.pte then some (x.at_.acc.va / 128) else none, lineNo x.at_.pa)
/-- A store of lane parts issues: one write for each line, or in a versioned group at once into the version
(R302, R331, R373); `all` says that the later accesses of every lane see it (R283). -/
def State.issueStore (s : State) (ws : List WPart) (rel : Bool) (scope : BitVec 3) (nf : Option Nat) (all : Bool := false) :
    State :=
  let s := s.guardAreas (placeRanges (ws.map WPart.at_))
  let s := if s.versioned then s else s.countPlaces (ws.map WPart.at_)
  let (ws, s) := s.layOrder ws
  let req := s.nextId
  (ws.map WPart.key).eraseDups.foldl (fun (s : State) (key : Option Nat × Nat) =>
    let mine := (ws.filter fun x => x.key == key).map WPart.at_
    let (d, b) := lineOfParts (ws.filter fun x => x.key == key)
    match mine with
    | [] => s
    | p :: ps =>
      if s.versioned then
        (s.barJoin s.cur.warp key.2).modGroup s.me.group fun g => g.writeVersion key.2 (mine.map Placed.ptr) d b
      else
        let m := accLanes (mine.map Placed.acc)
        s.sendWrite req .store m (if all then BitVec.allOnes 32 else m) p ps d b rel scope nf) s

/-- Whether a write of a versioned group must wait, because an earlier access has still to be performed before it
(R364, R367, R370). -/
def State.versionWaits (s : State) (e : Mask) (rel : Bool) (ps : List Placed) : Bool :=
  s.versioned && (s.readsOpen s.cur.warp s.nextId e || (rel && !s.allPerformed s.cur.warp s.nextId 0) ||
    ps.any fun p => s.ownWrite s.cur.warp s.nextId (1#32 <<< p.acc.lane) (lineNo p.pa) p.acc.va (byteRun (p.pa % 128) p.acc.len))

/-- A release at .pool or wider raises POOL_REGION for a write of the warp that was lost with its pool window, and that no release has
reported (R376, R403; log 58). -/
def State.reportLost (s : State) (e : Mask) (k : State → State) : State :=
  match s.me.lostWrite with
  | some (va, port) =>
    (s.modMe fun v => { v with lostWrite := none }).raise .poolRegion e (BitVec.ofNat 64 port) (BitVec.ofNat 64 va)
  | none => k s
/-- A release of lanes `e` at .pool or .sys waits at issue for every earlier access (R375, R376). -/
def State.release (s : State) (e : Mask) (rel : Bool) (scope : BitVec 3) (k : State → State) : State :=
  if rel && 4 ≤ scope.toNat then
    s.reportLost e fun s => if !s.allPerformed s.cur.warp s.nextId scope then s.block .fence else k s
  else k s

end Sys2Proof.Machine
end

