-- ==== Sys2Proof/Machine/MemoryInstr.lean ====
section
/-! DEFINITION. Loads and stores: LD, ST, LDC, LDS (R291 to R295, R324 to R332, R348). -/

namespace Sys2Proof.Machine

/-! ## The lanes of an access -/

/-- Bytes of a TYPE code (R324). -/
def AccMod.size (m : AccMod) : Nat := 2 ^ m.ty.toNat

/-- The parts of one lane's access to global or private memory (R295, R325). -/
def Warp.laneParts (v : Warp) (m : AccMod) (a : GReg) (off : BitVec 16) (n l : Nat) : List Acc :=
  if m.space = 0 then accParts l (v.addr64 a off l).toNat n else v.privParts l (v.addr32 m.nb a off l).toNat n

/-- Whether a lane's address is no multiple of the access size (R326). -/
def Warp.misaligned (v : Warp) (m : AccMod) (a : GReg) (off : BitVec 16) (n l : Nat) : Bool :=
  (if m.space = 0 then (v.addr64 a off l).toNat else (v.addr32 m.nb a off l).toNat) % n != 0

/-- A global or private access of the lanes of E: its checks, and then `k` with the places (R326, R327). -/
def State.withLanes (s : State) (m : AccMod) (a : GReg) (off : BitVec 16) (e : Mask) (rd wr : Bool)
    (k : List Placed → State → State) : State :=
  let v := s.me
  let n := AccMod.size m
  s.withPlaces e rd wr false (((lanesOf e).filter (v.misaligned m a off n)).flatMap (v.laneParts m a off n))
    ((lanesOf e).flatMap (v.laneParts m a off n)) k

/-! ## Scratch -/

/-- The place of one lane's scratch access: lane, position, offset. -/
abbrev ScrPlace := Nat × Nat × Nat

/-- The 128-byte line of scratch that a place lies in. -/
def ScrPlace.line (p : ScrPlace) : Nat := lineNo (scratchKey p.2.1 p.2.2)

/-- A scratch access of `n` bytes at the address `f l` of each lane of E: its checks, its wait for a bank that
switches, for a MATX operation that has still to move a byte and for a request entry of each line, and then `k` with the
places (R260, R291, R292, R300, R302, R326). -/
def State.withScratch (s : State) (e : Mask) (n : Nat) (f : Nat → Word) (k : List ScrPlace → State → State) : State :=
  let g := s.me.group
  let mis := maskOf fun l => e.getLsbD l && (f l).toNat % n != 0
  let bad := maskOf fun l => e.getLsbD l && (s.scratchRange g (f l) n).isNone
  if mis ≠ 0 then s.raise .align mis 0 ((f (lowest mis)).setWidth 64)
  else if bad ≠ 0 then s.raise .memfault bad (faultCode 5 0) ((f (lowest bad)).setWidth 64)
  else
    let ps := (lanesOf e).filterMap fun l => (s.scratchRange g (f l) n).map fun p => (l, p)
    if (ps.any fun p => s.scratchWaits g p.2.1 p.2.2 n || s.matxMeetsScr p.2.1 p.2.2 n) || s.lacksEntries (ps.map ScrPlace.line)
    then s.block .access else k ps s

/-- A part of a load that has its value: bytes with the mark of their word (R329). -/
def donePiece (lane off key : Nat) (bs : List MarkedByte) : LPiece :=
  { lane := lane, off := off, len := bs.length, va := 0, pa := key, got := true, val := BitVec.ofNat 64 (numOf bs),
    poison := bs.any fun b => b.2 }

/-- The parts of a scratch load, which reads its bytes when it issues (log 8). -/
def GroupSt.scratchPieces (g : GroupSt) (n : Nat) (ps : List ScrPlace) : List LPiece :=
  ps.flatMap fun p => (accParts p.1 p.2.2 n).map fun a =>
    donePiece a.lane a.off (scratchKey p.2.1 a.va) (g.peekN p.2.1 a.va a.len)

/-- A store to scratch writes its bytes when it issues, lanes that collide in any order (R331; log 7, log 8). -/
def State.scratchStore (s : State) (n : Nat) (ps : List ScrPlace) (bs : Nat → List MarkedByte) : State :=
  let clash := ((ps.map Prod.snd).eraseDups.length != ps.length)
  let l := if clash then shuffled s.free 32 ps else ps
  let s := if clash then { s with free := s.free + 32 } else s
  l.foldl (fun t p => t.pokeScratch s.me.group p.2.1 p.2.2 ((bs p.1).take n)) s

/-- A scratch write waits for the earlier reads of its lanes, and as a release for every earlier access of the warp
(R367, R370). -/
def State.scratchWrite (s : State) (e : Mask) (rel : Bool) (k : State → State) : State :=
  if s.readsOpen s.cur.warp s.nextId e then s.block .access
  else if rel && !s.allPerformed s.cur.warp s.nextId 0 then s.block .fence
  else k s

/-! ## LD and ST -/

/-- What an LD asks for: any ordering executes as .acq (R87, R330). -/
def ldReq (kind : LoadKind) (m : AccMod) (d : GReg) : LoadReq :=
  { kind := kind, acq := m.ord != 0#2, scope := m.scope, nc := m.nc, d := d, wide := m.wide, bytes := AccMod.size m,
    sext := m.sg == 2#2 && m.ty.toNat ≤ 1 }

/-- LD (R330). -/
def execLd (h : Hd) (m : AccMod) (d a : GReg) (off : BitVec 16) (s : State) : Out :=
  .next (s.issue (.ld h m d a off) fun e s =>
    let i := Instr.ld h m d a off
    if e = 0 then s.retire i
    else s.access fun s =>
      if m.space = 1 then
        s.withScratch e (AccMod.size m) (s.me.addr32 m.nb a off) fun ps s =>
          (s.startLoad (ldReq .ld m d) e (s.myGroup.scratchPieces (AccMod.size m) ps)).2.retire i
      else s.withLanes m a off e true false fun ps s => (s.issueLoad (ldReq .ld m d) e ps).retire i)

/-- The word of a data register that a part at an offset stores, with its mark (R329, R331). -/
def Warp.storeWord (v : Warp) (d : GReg) (l off : Nat) : Word × Bool :=
  let r := v.reg (d.toNat + off / 4)
  (r.val.at' l, r.poison.getLsbD l)
/-- The bytes of lane `l` that a store of data register `d` writes, at most 8. -/
def Warp.storeBytes (v : Warp) (d : GReg) (wide : Bool) (l : Nat) : List MarkedByte :=
  let f := fun o => let x := v.storeWord d l o; (bytesOf 4 x.1.toNat).map fun b => (b.1, x.2)
  if wide then f 0 ++ f 4 else f 0
/-- The parts of a store of data register `d`. -/
def Warp.storeParts (v : Warp) (d : GReg) (ps : List Placed) : List WPart :=
  ps.map fun p => let x := v.storeWord d p.acc.lane p.acc.off; { at_ := p, val := x.1.setWidth 64, poison := x.2 }

/-- ST; any ordering executes as .rel (R87, R331). -/
def execSt (h : Hd) (m : AccMod) (d a : GReg) (off : BitVec 16) (s : State) : Out :=
  .next (s.issue (.st h m d a off) fun e s =>
    let i := Instr.st h m d a off
    let rel := m.ord != 0#2
    if e = 0 then s.retire i
    else s.access fun s =>
      if m.space = 1 then
        s.withScratch e (AccMod.size m) (s.me.addr32 m.nb a off) fun ps s =>
          s.scratchWrite e rel fun s =>
            (s.scratchStore (AccMod.size m) ps (s.me.storeBytes d m.wide)).retire i
      else s.withLanes m a off e false true fun ps s =>
        if s.versionWaits e rel ps then s.block .access
        else s.release e rel m.scope fun s => (s.issueStore (s.me.storeParts d ps) rel m.scope none).retire i)

/-! ## LDC (R293, R294, R332) -/

/-- What an LDC asks for. -/
def ldcReq (m : AccMod) (d : GReg) : LoadReq :=
  { kind := .ldc, acq := m.ord != 0#2, scope := 3, nc := false, d := d, wide := m.wide, bytes := AccMod.size m, sext := false }

/-- The parts of an LDC from the constant image, which are read at once. -/
def LaunchSt.imagePieces (x : LaunchSt) (n : Nat) (e : Mask) (f : Nat → Word) : List LPiece :=
  (lanesOf e).flatMap fun l => (accParts l (f l).toNat n).map fun a =>
    donePiece a.lane a.off a.va ((List.range a.len).map fun i => (alGet (0 : Byte) (a.va + i) x.image, false))

/-- LDC and LDC.got (R332). -/
def execLdc (h : Hd) (m : AccMod) (d a : GReg) (off : BitVec 16) (s : State) : Out :=
  .next (s.issue (.ldc h m d a off) fun e s =>
    let i := Instr.ldc h m d a off
    let n := AccMod.size m
    let f := s.me.addr32 m.nb a off
    let mis := maskOf fun l => e.getLsbD l && (f l).toNat % n != 0
    let far := maskOf fun l => e.getLsbD l && 0x10000 ≤ (f l).toNat
    if e = 0 then s.retire i
    else s.access fun s =>
      if mis ≠ 0 then s.raise .align mis 0 ((f (lowest mis)).setWidth 64)
      else if m.space = 1 then
        let accs := (lanesOf e).flatMap fun l => accParts l ((s.me.tableBase + (f l).setWidth 64).toNat) n
        s.withPlaces e true false false (if s.me.tableBase.toNat % n = 0 then [] else accs) accs fun ps s =>
          (s.issueLoad (ldcReq m d) e ps).retire i
      else if far ≠ 0 then s.raise .memfault far (faultCode 5 0) ((f (lowest far)).setWidth 64)
      else
        let ps := s.myLaunch.imagePieces n e f
        if s.lacksEntries (ps.map fun p => lineNo p.pa) then s.block .access
        else (s.startLoad (ldcReq m d) e ps).2.retire i)

/-! ## LDS (R348) -/

/-- Whether an LDS of a line waits: for a resent or a joining line, for a write of its core or to a BUSY line under
an acquire, for a leaving tag, or for an earlier load of its lanes (R348, R349, R364, R386). -/
def State.ldsWaits (s : State) (acq : Bool) (ps : List Placed) (line : Nat) : Bool :=
  let core := s.me.core
  let mine := ps.filter fun p => lineNo p.pa == line
  (s.upgs.any fun u => u.core == core && u.line == line) || (s.joins.any fun j => j.core == core && j.line == line) ||
    (acq && s.lineBusy line) || s.writing core line ||
    (match (s.core core).l1At line with
      | some x => x.pst == .leaving
      | none => false) ||
    mine.any fun p => s.ownLoad s.cur.warp s.nextId (1#32 <<< p.acc.lane) line (byteRun (p.pa % 128) p.acc.len)

/-- LDS (R348). -/
def execLds (h : Hd) (m : AccMod) (d a : GReg) (off : BitVec 16) (s : State) : Out :=
  .next (s.issue (.lds h m d a off) fun e s =>
    let i := Instr.lds h m d a off
    if e = 0 then s.retire i
    else s.access fun s =>
      s.withLanes m a off e true false fun ps s =>
        if (ps.map fun p => lineNo p.pa).any (s.ldsWaits (m.ord != 0#2 && atDie m.scope) ps) then s.block .access
        else (s.issueLoad (ldReq .lds m d) e ps).retire i)

end Sys2Proof.Machine
end

