-- ==== Sys2Proof/Machine/Atomics.lean ====
section
/-! DEFINITION. Atomics, reservations and the consecutive store: ATOM, ATOMR, LR, SC, CSTORE, CSTORE.nf
(R281 to R284, R327, R329, R333 to R338, R497). -/

namespace Sys2Proof.Machine

/-! ## One atomic step (R333, R334) -/

/-- The lesser or the greater of two values of a width, signed or natural. -/
def atomPick (w : Nat) (sg max : Bool) (a b : Nat) : Nat :=
  let lt := if sg then (BitVec.ofNat w a).slt (BitVec.ofNat w b) else decide (a < b)
  if lt == max then b else a

/-- The sum that atomic fadd writes: one rounding, ties to even, no flag (R334). -/
def atomFadd (w64 : Bool) (a b : Nat) : Nat :=
  let k : RndCtl := { rnd := .rne, sat := false, ftz := false }
  if w64 then (f64F.add k (f64F.val a) (f64F.val b)).code else (f32F.add k (f32F.val a) (f32F.val b)).code

/-- The new value of an atomic operation on `old`, as numbers of the width (R333). -/
def atomNew (aop : BitVec 4) (w64 sg : Bool) (old b c : Nat) : Nat :=
  let w := if w64 then 64 else 32
  match aop.toNat with
  | 0 => (old + b) % 2 ^ w
  | 1 => atomPick w sg false old b
  | 2 => atomPick w sg true old b
  | 3 => old &&& b
  | 4 => old ||| b
  | 5 => old ^^^ b
  | 6 => b
  | 7 => if old = c then b else old
  | 8 => atomFadd w64 old b
  | 9 => if b ≤ old then 0 else old + 1
  | _ => if old = 0 || b < old then b else old - 1

/-- Bytes of an atomic operation. -/
def atomBytes (w64 : Bool) : Nat := if w64 then 8 else 4

/-- An atomic step on the bytes at `off` of a line: the line it leaves. exch clears the marks of its words, every
other operation leaves them (R329). -/
def atomLine (aop : BitVec 4) (w64 sg : Bool) (off : Nat) (b c : DWord) (d : LineData) : LineData :=
  let n := atomBytes w64
  let new := atomNew aop w64 sg (lineRead d.bits off n).toNat (b.toNat % 2 ^ (8 * n)) (c.toNat % 2 ^ (8 * n))
  let x := lineWrite d (lineOf off n (BitVec.ofNat 64 new) false) (byteRun off n)
  if aop = 6 then x else { x with poison := d.poison }

/-- An operand of an atomic in lane `l`. -/
def Warp.atomOperand (v : Warp) (w64 : Bool) (r : GReg) (l : Nat) : DWord := v.wide w64 r l

/-! ## Atomics on scratch (R334; log 7, log 8) -/

/-- The bytes of scratch as a line of its own, so that an atomic step acts on them as on a line. -/
def scratchLine (bs : List MarkedByte) : LineData :=
  (bs.foldl (fun (x : Nat × LineData) b => (x.1 + 1, putByte x.2 x.1 b)) (0, LineData.zero)).2
/-- The first `n` bytes of a line. -/
def lineBytes (d : LineData) (n : Nat) : List MarkedByte := (List.range n).map (markedByte d)

/-- One lane's atomic step on scratch: the pieces it returns, and the scratch it leaves. -/
def scratchAtom (m : AtomMod) (b c : Nat → DWord) (x : List LPiece × GroupSt) (p : ScrPlace) : List LPiece × GroupSt :=
  let n := atomBytes m.w64
  let old := x.2.peekN p.2.1 p.2.2 n
  let new := atomLine m.aop m.w64 (m.sg != 1#2) 0 (b p.1) (c p.1) (scratchLine old)
  (x.1 ++ (accParts p.1 0 n).map fun a => donePiece p.1 a.off (scratchKey p.2.1 (p.2.2 + a.off)) ((old.drop a.off).take a.len),
   x.2.poke p.2.1 p.2.2 (lineBytes new n))

/-- Every lane's step on scratch, in an order that the device chooses. -/
def State.scratchAtoms (s : State) (m : AtomMod) (b c : Nat → DWord) (ps : List ScrPlace) : List LPiece × State :=
  let (ls, g) := (shuffled s.free 32 ps).foldl (scratchAtom m b c) ([], s.myGroup)
  (ls, { s with free := s.free + 32 }.modGroup s.me.group fun _ => g)

/-! ## Atomics on global memory -/

/-- The accesses of an atomic: one for each lane, whole (R362). -/
def Warp.atomAccs (v : Warp) (n : Nat) (a : GReg) (e : Mask) : List Acc :=
  (lanesOf e).map fun l => { lane := l, off := 0, len := n, va := (v.lane2 a l).toNat }
/-- Those of them that are misaligned. -/
def Warp.atomMis (v : Warp) (n : Nat) (a : GReg) (e : Mask) : List Acc :=
  (v.atomAccs n a e).filter fun x => x.va % n != 0

/-- The parts of the load that receives the old values of an ATOMR. -/
def atomPieces (ps : List Placed) : List LPiece :=
  ps.flatMap fun p => (accParts p.acc.lane p.pa p.acc.len).map fun a =>
    { lane := a.lane, off := a.off, len := a.len, va := p.acc.va + a.off, pa := a.va, got := false, val := 0, poison := false }

/-- Each lane's step goes to its home as a write of its own (R334, R388). -/
def State.sendAtoms (s : State) (m : AtomMod) (b c : GReg) (ret : Option Nat) (ps : List Placed) : State :=
  let v := s.me
  let req := s.nextId
  ps.foldl (fun t p =>
    let off := p.pa % 128
    t.sendWrite req (.atom m.aop m.w64 (m.sg != 1#2) off (v.atomOperand m.w64 b p.acc.lane) (v.atomOperand m.w64 c p.acc.lane)
      p.acc.lane ret) (1#32 <<< p.acc.lane) (1#32 <<< p.acc.lane) p [] LineData.zero (byteRun off p.acc.len) (releases m.ord) m.scope none) s

/-- What an ATOMR or an LR asks for. -/
def atomReq (kind : LoadKind) (m : AtomMod) (acq : Bool) (d : GReg) : LoadReq :=
  { kind := kind, acq := acq, scope := m.scope, nc := false, d := d, wide := m.w64, bytes := atomBytes m.w64, sext := false }

/-- The requests of an atomic, and the reads that later accesses wait for when it acquires (R334, R367). -/
def State.issueAtoms (s : State) (m : AtomMod) (d : Option GReg) (b c : GReg) (e : Mask) (ps : List Placed) : State :=
  let acq := acquires m.ord
  let s := (s.guardAreas (placeRanges ps)).countPlaces ps
  match d with
  | none =>
    let t := s.sendAtoms m b c none ps
    t.acquire acq ((List.range ps.length).map (s.nextId + ·))
  | some d =>
    let (id, t) := s.startLoad (atomReq .atomr m acq d) e (atomPieces ps)
    (t.sendAtoms m b c (some id) ps).acquire acq [id]

/-- ATOM and ATOMR in the lanes of E (R327, R334). -/
def State.atomic (s : State) (i : Instr) (m : AtomMod) (d : Option GReg) (a b c : GReg) (e : Mask) : State :=
  let n := atomBytes m.w64
  let rel := releases m.ord
  if e = 0 then s.retire i
  else s.access fun s =>
    if m.space = 1 then
      s.withScratch e n (fun l => s.me.lane a l) fun ps s =>
        s.scratchWrite e rel fun s =>
          let v := s.me
          let (ls, s) := s.scratchAtoms m (v.atomOperand m.w64 b) (v.atomOperand m.w64 c) ps
          (match d with
            | none => s
            | some d => (s.startLoad (atomReq .atomr m (acquires m.ord) d) e ls).2).retire i
    else
      s.withPlaces e true true (m.scope != 0#3) (s.me.atomMis n a e) (s.me.atomAccs n a e) fun ps s =>
        if s.versionWaits e rel ps then s.block .access
        else s.release e rel m.scope fun s => (s.issueAtoms m d b c e ps).retire i

/-- ATOM (R334). -/
def execAtom (h : Hd) (m : AtomMod) (a b : GReg) (s : State) : Out :=
  .next (s.issue (.atom h m a b) fun e s => s.atomic (.atom h m a b) m none a b b e)

/-- ATOMR (R334). -/
def execAtomr (h : Hd) (m : AtomMod) (d a b c : GReg) (s : State) : Out :=
  .next (s.issue (.atomr h m d a b c) fun e s => s.atomic (.atomr h m d a b c) m (some d) a b c e)

/-! ## LR and SC (R163, R335, R336) -/

/-- LR (R335). Its loads are served at the home, which then holds the reservations. -/
def execLr (h : Hd) (m : AtomMod) (d a : GReg) (s : State) : Out :=
  .next (s.issue (.lr h m d a) fun e s =>
    let i := Instr.lr h m d a
    let n := atomBytes m.w64
    let late := 2048 ≤ s.me.fairCount
    if e = 0 then s.retire i
    else s.access fun s =>
      s.withPlaces e true false (m.scope != 0#3) (s.me.atomMis n a e)
        ((lanesOf e).flatMap fun l => accParts l (s.me.lane2 a l).toNat n) fun ps s =>
        (((s.modMe fun v => v.unreserve e s.nextId).issueLoad (atomReq .lr m (m.ord != 0#2) d) e ps).retire i).modMe fun v =>
          if late then v else { v with lrCount := some 0 })

/-- The bytes of one lane of an SC, with their marks. -/
def Warp.scData (v : Warp) (w64 : Bool) (b : GReg) (l off n : Nat) : LineData :=
  let x := v.storeBytes b w64 l
  ((x.take n).foldl (fun (y : Nat × LineData) c => (y.1 + 1, putByte y.2 y.1 c)) (off, LineData.zero)).2

/-- A predicate receives its value later (R282, R336, R474); pt never waits. -/
def Warp.pendPred (v : Warp) (p : PNum) : Warp :=
  if p == 15#4 then v else v.modPred p.toNat fun q => { q with ready := false }

/-- SC (R336). Each lane's write goes to the home, and the predicate waits for the answer. -/
def execSc (h : Hd) (m : AtomMod) (d : PNum) (a b : GReg) (s : State) : Out :=
  .next (s.issue (.sc h m d a b) fun e s =>
    let i := Instr.sc h m d a b
    let n := atomBytes m.w64
    let rel := m.ord != 0#2
    if e = 0 then s.retire i
    else s.access fun s =>
      s.withPlaces e false true (m.scope != 0#3) (s.me.atomMis n a e) (s.me.atomAccs n a e) fun ps s =>
        if s.versionWaits e rel ps then s.block .access
        else s.release e rel m.scope fun s =>
          let v := s.me
          let (id, s) := s.fresh
          let s : State := { s with scs := s.scs ++ [{ id := id, warp := s.cur.warp, d := d, lanes := e, ok := 0 }] }
          let s := ps.foldl (fun t p =>
            let off := p.pa % 128
            t.sendWrite id (.sc id p.acc.lane) (1#32 <<< p.acc.lane) (1#32 <<< p.acc.lane) p [] (v.scData m.w64 b p.acc.lane off n) (byteRun off n) rel
              m.scope none) ((s.guardAreas (placeRanges ps)).countPlaces ps)
          (s.modMe fun v => v.pendPred d).retire i)

/-! ## CSTORE (R281 to R284) -/

/-- The elements that a CSTORE reaches: the places of those whose every check passes in turn, and the lanes, address and
number of the one that stops it. -/
def State.cstoreGo (s : State) (n base : Nat) :
    List Nat → Nat → List Placed × Option (List Nat × Nat × Nat) × State
  | [], _ => ([], none, s)
  | l :: ls, k =>
    let va := (base + n * k) % 2 ^ 64
    match s.translate (some s.me.core) (s.rootOf s.cur.warp) (s.regionOf s.cur.warp) va false true with
    | (.fault _, s) => ([], some (l :: ls, va, k), s)
    | (.ok pa e, s) =>
      let (ps, stop, s) := s.cstoreGo n base ls (k + 1)
      let wb := s.holdFor (s.rootOf s.cur.warp) e
      ((accParts l va n).map (fun a => ({ acc := a, pa := pa + a.off, pte := e.pte, ptr := e.ptr, wb := wb } : Placed)) ++ ps, stop, s)

/-- The lanes that a CSTORE stores (R281). -/
def Warp.selected (v : Warp) (e : Mask) (ps : PNum) : Mask := e &&& (v.pred ps).val

/-- A CSTORE stores its elements, and `k` follows with their number and the stop (R281, R327). -/
def State.cstoreRun (s : State) (w64 : Bool) (ord : BitVec 2) (scope : BitVec 3) (a b : GReg) (ps : PNum) (e : Mask)
    (nf : Option Nat) (k : Nat → Option (List Nat × Nat × Nat) → State → State) : State :=
  let n := atomBytes w64
  let base := (s.me.lane2 a (lowest e)).toNat
  let rel := ord != 0#2
  if base % n ≠ 0 then s.raise .align e 0 (BitVec.ofNat 64 base)
  else s.access fun s =>
    let (places, stop, s) := s.cstoreGo n base (lanesOf (s.me.selected e ps)) 0
    match s.conditions e true false places with
    | some t => t
    | none =>
      if s.versionWaits e rel places || s.placesWait places then s.block .access
      else s.release e rel scope fun s =>
        k (places.filter fun p => p.acc.off == 0).length stop (s.issueStore (s.me.storeParts b places) rel scope nf true)

/-- CSTORE (R281, R284). -/
def execCstore (h : Hd) (w64 : Bool) (ord : BitVec 2) (scope : BitVec 3) (a b : GReg) (ps : PNum) (s : State) : Out :=
  .next (s.issue (.cstore h w64 ord scope a b ps) fun e s =>
    let i := Instr.cstore h w64 ord scope a b ps
    if e = 0 then s.retire i
    else s.cstoreRun w64 ord scope a b ps e none fun _ stop s =>
      match stop with
      | none => s.retire i
      | some (ls, va, k) =>
        s.raise .memfault (maskOf fun l => ls.contains l) (BitVec.ofNat 64 k) (BitVec.ofNat 64 va))

/-- CSTORE.nf (R281, R282). The destination is full, and pF written, at CSTORE_NF_COMPLETE. -/
def execCstoreNf (h : Hd) (w64 : Bool) (ord : BitVec 2) (scope : BitVec 3) (d a b : GReg) (ps pf : PNum) (s : State) :
    Out :=
  .next (s.issue (.cstoreNf h w64 ord scope d a b ps pf) fun e s =>
    let i := Instr.cstoreNf h w64 ord scope d a b ps pf
    let id := s.nextId
    if e = 0 then s.retire i
    else s.fresh.2.cstoreRun w64 ord scope a b ps e (some id) fun k stop s =>
      let s : State := { s with nfs := s.nfs ++
        [{ id := id, warp := s.cur.warp, d := d, pf := pf, lanes := e, count := k, complete := stop.isNone }] }
      (s.modMe fun v => (v.empty d.toNat).pendPred pf).retire i)

end Sys2Proof.Machine
end

