-- ==== Sys2Proof/Machine/Barrier.lean ====
section
/-! DEFINITION. Group barriers and the phase of a core: BAR, BARA, BARW, PHASE (R285, R430, R469 to R472). -/

namespace Sys2Proof.Machine

/-- Barrier `n` of a group. -/
def GroupSt.bar (g : GroupSt) (n : Nat) : Bar := nth { phase := 0, arrived := [] } g.bars n
/-- An idle barrier. -/
def Bar.idle : Bar := { phase := 0, arrived := [] }
/-- The group with barrier `n` changed. -/
def GroupSt.modBar (g : GroupSt) (n : Nat) (f : Bar → Bar) : GroupSt :=
  { g with bars := (g.bars ++ List.replicate (16 - g.bars.length) Bar.idle).modify n f }

/-- A warp arrives at a barrier, once in a phase, and records the phase; the last arrival completes it
(R469, R470). -/
def State.arrive (s : State) (w n : Nat) : State :=
  let g := (s.warp w).group
  let b := (s.group g).bar n
  if b.arrived.contains w then s
  else
    let s := s.modGroup g fun x => x.modBar n fun b =>
      { b with arrived := b.arrived ++ [w], since := b.since ++ [(w, s.nextId)] }
    (s.modWarp w fun v => { v with barPhase := v.barPhase.set n (some b.phase) }).settleBars g

/-- Whether what every warp had issued before it arrived in the phase that has completed last is performed at .grp, as those accesses
happen before what follows the wait for that phase (R471). -/
def State.barOrdered (s : State) (b : Bar) : Bool := b.before.all fun x => s.allPerformed x.1 x.2 0
/-- Whether the executing warp has never arrived at a barrier, or the phase of its last arrival has completed
(R470), with the accesses that it orders (R471). -/
def State.barOpen (s : State) (n : Nat) : Bool :=
  match nth none s.me.barPhase n with
  | some p => p < (s.myGroup.bar n).phase && s.barOrdered (s.myGroup.bar n)
  | none => true

/-- BARA, which never waits (R470). -/
def execBara (h : Hd) (n : BitVec 4) (s : State) : Out :=
  .next (s.issue (.bara h n) fun e s =>
    if e = 0 then s.retire (.bara h n)
    else (s.arrive s.cur.warp n.toNat).retire (.bara h n))

/-- The wait of BAR and BARW (R470). -/
def State.barWait (s : State) (i : Instr) (n : Nat) : State :=
  if s.barOpen n then s.retire i else s.block (.bar n)

/-- BARW (R470). -/
def execBarw (h : Hd) (n : BitVec 4) (s : State) : Out :=
  .next (s.issue (.barw h n) fun e s =>
    if e = 0 then s.retire (.barw h n) else s.barWait (.barw h n) n.toNat)

/-- An instruction that waits has its first part once (R461, R472): `first` unless it is the instruction at the PC that
is already waiting. -/
def State.once (s : State) (first : State → State) (k : State → State) : State :=
  if s.me.begun = some s.me.pc then k s
  else k ((first s).modMe fun v => { v with begun := some v.pc })

/-- BAR: BARA and then BARW, as one instruction (R285, R470). -/
def execBar (h : Hd) (n : BitVec 4) (s : State) : Out :=
  .next (s.issue (.bar h n) fun e s =>
    if e = 0 then s.retire (.bar h n)
    else s.once (fun s => s.arrive s.cur.warp n.toNat) fun s => s.barWait (.bar h n) n.toNat)

/-! ## PHASE (R430, R472) -/

/-- The neighbours of a core on its die. -/
def neighbours (core : Nat) : List Nat :=
  let i := core % 64
  (if i % 8 = 0 then [] else [core - 1]) ++ (if i % 8 = 7 then [] else [core + 1]) ++
    (if i < 8 then [] else [core - 8]) ++ (if 56 ≤ i then [] else [core + 8])

/-- Whether the executing warp's phase count leads a neighbour's core phase by more than LEAD, the difference taken as
s32. -/
def State.leads (s : State) : Bool :=
  let l := s.myGroup.launch
  let near := neighbours s.me.core
  s.myLaunch.lead != 0 && s.warps.any fun v =>
    near.contains v.core && !v.exited && (s.group v.group).resident && (s.group v.group).launch == l &&
      decide (0 < (s.me.phase - v.phase - BitVec.ofNat 32 s.myLaunch.lead).toInt)

/-- PHASE (R430, R472). -/
def execPhase (h : Hd) (s : State) : Out :=
  .next (s.issue (.phase h) fun e s =>
    if e = 0 then s.retire (.phase h)
    else s.once (fun s => s.modMe fun v => { v with phase := v.phase + 1 }) fun s =>
      if s.leads then s.block .phase else s.retire (.phase h))

end Sys2Proof.Machine
end

