-- ==== Sys2Proof/Machine/Control.lean ====
section
/-! DEFINITION. Control transfers: NOP, REP, BRA, JMP, JMPI, CALL, CALLI, RET, EXIT, WSYNC
(R154 to R158, R164 to R167, R175 to R184, R287, R355). -/

namespace Sys2Proof.Machine

/-! ## Checks of transfers -/

/-- A transfer that cannot split a path: without effect for an empty E, and TARGET_MISMATCH for a part of the mask
(R154). -/
def State.uniform (s : State) (i : Instr) (e : Mask) (k : State → State) : State :=
  if e = 0 then s.retire i
  else if e ≠ s.me.mask then s.raise .targetMismatch e ((s.me.mask &&& ~~~e).setWidth 64)
  else k s

/-- The lanes of E whose value of a register differs from that of the lowest lane (R155). -/
def Warp.disagree (v : Warp) (r : GReg) (e : Mask) : Mask :=
  maskOf fun l => e.getLsbD l && v.lane r l != v.lane r (lowest e)

/-- An operand that every lane of E must agree on (R155). -/
def State.agreed (s : State) (r : GReg) (e : Mask) (k : Word → State → State) : State :=
  let bad := s.me.disagree r e
  if bad ≠ 0 then s.raise .targetMismatch e (bad.setWidth 64) else k (s.me.lane r (lowest e)) s

/-- The check of a transfer's target (R82). -/
def State.checkTarget (s : State) (e : Mask) (t : Word) (k : State → State) : State :=
  if offOf t % 8 ≠ 0 || 0x10000 ≤ offOf t then s.raise .align e 0 (t.setWidth 64)
  else if (s.overlay s.cur.warp (ovlOf t)).isNone then s.raise .ovmiss e (BitVec.ofNat 64 (ovlOf t))
  else k s

/-- A call pushes its return address under the number of the calling path (R167). -/
def State.callTo (s : State) (i : Instr) (e : Mask) (t : Word) : State :=
  let v := s.me
  if 4096 ≤ v.cstack.length then s.raise .stackOverflow e 1
  else (s.modMe fun v => { v with cstack := { pc := v.pc + 8, pid := v.pid } :: v.cstack }).retireTo i t

/-- The code address of an overlay and an offset (R81, R116). -/
def codeAddr (ovl : Byte) (off : BitVec 16) : Word := ovl ++ 0#8 ++ off

/-! ## NOP and REP -/

/-- NOP (R175). -/
def execNop (h : Hd) (s : State) : Out := .next (s.issue (.nop h) fun _ s => s.retire (.nop h))

/-- Opcodes that no REP may have as its body (R177). -/
def repBars (op : Byte) : Bool := op.toNat ≤ 0x12 || (0xA0 ≤ op.toNat && op.toNat ≤ 0xAA)

/-- Whether STR names only fields that the body uses as a register or predicate number (R177). -/
def repFields (w : LongWord) (str : BitVec 4) : Bool :=
  let u := match w.dropFe.spell with
    | some b => b.uses
    | none => {}
  (!bitAt str 0 || u.d != .none) && (!bitAt str 1 || u.a != .none) && (!bitAt str 2 || u.b != .none) &&
    (!bitAt str 3 || u.c != .none)

/-- REP: the next code word issues `n` + 1 times (R176, R177). -/
def execRep (str : BitVec 4) (n : BitVec 8) (s : State) : Out :=
  .next (s.issue (.rep str n) fun e s =>
    let start := fun (s : State) =>
      (s.modMe fun v => { v with rep := some { left := n.toNat + 1, idx := 0, str := str } }).retireTo (.rep str n)
        (s.me.pc + 8)
    match s.code s.cur.warp (s.me.pc + 8) with
    | some x =>
      let w := LongWord.ofBits x
      if repBars w.op || !repFields w str then s.illegal e else start s
    | none => start s)

/-! ## BRA (R156, R179) -/

/-- The address `off` words from the PC; none outside the loaded length of the overlay (R72). -/
def State.branchTo (s : State) (off : BitVec 20) : Option Word :=
  let pc := s.me.pc
  let o : Int := (offOf pc : Int) + 8 * off.toInt
  match s.overlay s.cur.warp (ovlOf pc) with
  | some v => if 0 ≤ o ∧ o < (8 * v.code.length : Nat) then some (BitVec.ofNat 32 (ovlOf pc * 2 ^ 24 + o.toNat)) else none
  | none => none

/-- The current path splits at a BRA: `t` lanes go to `target`, the others to the next instruction, and both meet at
`join` (R156, R157). -/
def Warp.split (v : Warp) (t : Mask) (target join : Word) : Warp :=
  let p1 := freePid v.pids
  let p2 := freePid (p1 :: v.pids)
  { v with
    dstack :=
      { pc := v.pc + 8, mask := v.mask &&& ~~~t, join := join, path := true, park := false,
        pid := BitVec.ofNat 16 p2, rejoin := 0 } ::
      { pc := join, mask := v.mask, join := v.join, path := false, park := false, pid := v.pid, rejoin := 0 } ::
      v.dstack
    pc := target, mask := t, join := join, pid := BitVec.ofNat 16 p1 }

/-- BRA (R156, R179). -/
def execBra (h : Hd) (target join : BitVec 20) (s : State) : Out :=
  .next (s.issue (.bra h target join) fun e s =>
    match s.branchTo target, s.branchTo join with
    | some t, some j =>
      if s.me.mask &&& ~~~e = 0 then s.retireTo (.bra h target join) t
      else if e = 0 then s.retire (.bra h target join)
      else if 1024 < s.me.dstack.length + 2 then s.raise .stackOverflow e 0
      else ((s.modMe fun v => v.split e t j).retireTo (.bra h target join) t).modMe Warp.newPath
    | _, _ => s.illegal e)

/-! ## Transfers (R180 to R182) -/

/-- JMP (R180). -/
def execJmp (h : Hd) (ovl : Byte) (off : BitVec 16) (s : State) : Out :=
  .next (s.issue (.jmp h ovl off) fun e s =>
    s.uniform (.jmp h ovl off) e fun s =>
    s.checkTarget e (codeAddr ovl off) fun s => s.retireTo (.jmp h ovl off) (codeAddr ovl off))

/-- JMPI (R155, R181). -/
def execJmpi (h : Hd) (a : GReg) (s : State) : Out :=
  .next (s.issue (.jmpi h a) fun e s =>
    s.uniform (.jmpi h a) e fun s =>
    s.agreed a e fun t s =>
    s.checkTarget e t fun s => s.retireTo (.jmpi h a) t)

/-- CALL (R167, R180). -/
def execCall (h : Hd) (ovl : Byte) (off : BitVec 16) (s : State) : Out :=
  .next (s.issue (.call h ovl off) fun e s =>
    s.uniform (.call h ovl off) e fun s =>
    s.checkTarget e (codeAddr ovl off) fun s => s.callTo (.call h ovl off) e (codeAddr ovl off))

/-- CALLI (R155, R167, R181). -/
def execCalli (h : Hd) (a : GReg) (s : State) : Out :=
  .next (s.issue (.calli h a) fun e s =>
    s.uniform (.calli h a) e fun s =>
    s.agreed a e fun t s =>
    s.checkTarget e t fun s => s.callTo (.calli h a) e t)

/-- The call stack without its newest entry of a path, and that entry (R167). -/
def takeCall (pid : BitVec 16) : List CEntry → Option (CEntry × List CEntry)
  | [] => none
  | c :: l => if c.pid = pid then some (c, l) else
    match takeCall pid l with
    | some (x, r) => some (x, c :: r)
    | none => none

/-- RET (R167, R182). -/
def execRet (h : Hd) (s : State) : Out :=
  .next (s.issue (.ret h) fun e s =>
    s.uniform (.ret h) e fun s =>
    match takeCall s.me.pid s.me.cstack with
    | none => s.raise .targetMismatch e 0
    | some (c, r) =>
      s.checkTarget e c.pc fun s => (s.modMe fun v => { v with cstack := r }).retireTo (.ret h) c.pc)

/-! ## EXIT and WSYNC -/

/-- Whether a rejoin set is complete: each of its lanes is in `here` or in a parked path that waits at `at_` with the
same set (R165). -/
def setComplete (l : List DEntry) (here : Mask) (at_ : Word) (r : Mask) : Bool :=
  let parked := l.foldl (fun m e => if e.path && e.park && e.pc == at_ && e.rejoin == r then m ||| e.mask else m) 0
  r &&& ~~~(here ||| parked) == 0#32

/-- The parked paths of a rejoin set are released, past their WSYNC (R165). -/
def release (l : List DEntry) (at_ : Word) (r : Mask) : List DEntry :=
  l.map fun e => if e.path && e.park && e.pc == at_ && e.rejoin == r then { e with pc := e.pc + 8, park := false, rejoin := 0 } else e

/-- Every rejoin set that the parked paths alone complete is released (R165). -/
def releaseAll (l : List DEntry) : List DEntry :=
  l.foldl (fun acc e => if e.path && e.park && setComplete l 0 e.pc e.rejoin then release acc e.pc e.rejoin else acc) l

/-- The rejoin sets that the parked paths alone complete, each of which is released (R165). -/
def completeSets (l : List DEntry) : List Mask :=
  ((l.filter fun e => e.path && e.park && setComplete l 0 e.pc e.rejoin).map fun e => e.rejoin).eraseDups

/-- Lanes leave the warp: every mask and rejoin set loses them, PATH entries that become empty are removed, paths
without lanes lose their call entries, those held by JOIN entries among them, and a set that the EXIT completes is
released, in order with what its lanes issued before. What the lanes issued stays ordered before the joins at which they will
be missed (R159, R164, R165, R183). -/
def Warp.removeLanes (v : Warp) (e : Mask) (id : Nat) : Warp :=
  let cut := v.dstack.map fun x => { x with mask := x.mask &&& ~~~e, rejoin := x.rejoin &&& ~~~e }
  let gone := (cut.filter fun x => x.mask == 0#32).map fun x => x.pid
  let m := v.mask &&& ~~~e
  let gone := if m = 0 then v.pid :: gone else gone
  let stack := cut.filter fun x => !x.path || x.mask != 0#32
  let under := (v.dstack.filter fun x => !x.path && x.mask &&& e != 0#32).map fun x => (x.pid, x.mask &&& e)
  (completeSets stack).foldl (fun u r => u.sync id r) { v with
    mask := m
    exits := under ++ v.exits
    dstack := releaseAll stack
    cstack := v.cstack.filter fun c => !gone.contains c.pid }

/-- The EXIT of lanes E has its effect; a path without lanes ends (R158, R164). -/
def State.exitLanes (s : State) (i : Instr) (e : Mask) : State :=
  let s := s.modMe fun v => v.removeLanes e s.nextId
  if s.me.mask ≠ 0 then s.retire i
  else
    let t := (s.noteIssue.modMe fun v => ((v.counted s.clock).fallBack i)).endPath
    if t.me.exited then t.settleExit s.cur.warp else t.stepped

/-- The last EXIT of a warp: it waits for segments and engine operations, raises a pending failure, and then the
warp leaves. In a handler it cancels the frozen segments (R50, R164, R287, R355). -/
def State.lastExit (s : State) (i : Instr) (e : Mask) : State :=
  let v := s.me
  if !v.handler && !v.segmentsDone 0xFF then s.block .segments
  else if !v.eng.isEmpty || !v.matx.isEmpty then s.block .engine
  else match v.fails with
    | f :: r => (s.modMe fun v => { v with fails := r }).raise .memfault e f.extra f.faddr true
    | [] => (if v.handler then s.modMe fun v => v.squashMask 0xFF else s).exitLanes i e

/-- EXIT (R164, R183). -/
def execExit (h : Hd) (s : State) : Out :=
  .next (s.issue (.exit h) fun e s =>
    if e = 0 then s.retire (.exit h)
    else if s.me.live &&& ~~~e = 0 then s.lastExit (.exit h) e
    else s.exitLanes (.exit h) e)

/-- WSYNC (R165, R166, R184). -/
def execWsync (h : Hd) (a : GReg) (s : State) : Out :=
  .next (s.issue (.wsync h a) fun e s =>
    if e = 0 then s.retire (.wsync h a)
    else s.agreed a e fun x s =>
      let v := s.me
      let r := (x ||| e) &&& v.live
      if setComplete v.dstack v.mask v.pc r then
        (s.modMe fun v => { v with dstack := release v.dstack v.pc r }.sync s.nextId r).retire (.wsync h a)
      else
        ((s.noteIssue.modMe fun v => { (v.counted s.clock).fallBack (.wsync h a) with
          dstack := { pc := v.pc, mask := v.mask, join := v.join, path := true, park := true, pid := v.pid, rejoin := r } ::
            v.dstack }).endPath).stepped)

end Sys2Proof.Machine
end

