-- ==== Sys2Proof/Machine/Parcel.lean ====
section
/-! DEFINITION. What every parcel does before and after its own effect: windows, poison, and the move to the next
parcel or repetition (R34, R35, R40, R124, R127, R128, R130, R131, R134, R433, R454, R477). -/

namespace Sys2Proof.Machine

/-- What a parcel reads of its segment and strand. -/
structure Reads where
  win : Option (BitVec 3) := none
  acc : Bool := false
  carry : Bool := false
  q : Bool := false
  deriving DecidableEq, Repr

/-- The segment whose parcels a strand issues. -/
def Strand.seg (st : Strand) : Segment :=
  match st.segs with
  | g :: _ => g
  | [] => oneSegment 0

/-- The strand state that a parcel sees: at the first parcel of a segment, as its KIND sets it (R34). -/
def Strand.view (st : Strand) : Strand :=
  if st.seg.fresh && segKind st.seg.hdr == 1 then
    { st with acc := Lanes.all 0, carry := Lanes.all 0, q := 0, accP := 0, carryP := 0, qP := 0 }
  else st

/-- Window slot `n` of a segment. -/
def Segment.slot (g : Segment) (n : BitVec 3) : Window :=
  nth { src := 0, ready := false, val := Lanes.all 0, poison := 0 } g.win n.toNat

/-- The lanes in which a parcel executes: those of the segment mask, under Q those with q set (R128, R130). -/
def Strand.lanes (st : Strand) (q : Bool) : Mask := st.seg.mask &&& (if q then st.q else BitVec.allOnes 32)

/-- The lanes that consume poisoned strand state (R131). -/
def Strand.poisoned (st : Strand) (r : Reads) (e : Mask) : Mask :=
  ((if r.acc then st.accP else 0) ||| (if r.carry then st.carryP else 0)) &&& e |||
    ((if r.q then st.qP else 0) &&& st.seg.mask)

/-- A parcel issues: SEGMENT for a window that is no input, then a pending window, then poison, and then its own
effect in its lanes, on the strand state that it sees (R35, R40, R124, R131). -/
def State.parcelOp (s : State) (r : Reads) (q : Bool) (k : Mask → Strand → State → State) : State :=
  let st := (s.me.strand s.k).view
  let g := st.seg
  let e := st.lanes q
  let go := fun (s : State) =>
    if st.poisoned r e ≠ 0 then s.raise .poison (st.poisoned r e) 0xFF else k e st s
  match r.win with
  | none => go s
  | some n =>
    let x := g.slot n
    let reg := (segIn g.hdr n.toNat).setWidth 64
    if !segInv g.hdr n.toNat then s.raise .segment g.mask
    else if !x.ready then if segWfe g.hdr then s.raise .empty g.mask reg else s
    else if x.poison &&& e ≠ 0 then s.raise .poison (x.poison &&& e) reg
    else go s

/-- The strand after a parcel of `n` bytes: at the next repetition of a body, or past it (R124, R133, R134, R433). -/
def Strand.moveOn (st : Strand) (n : Nat) (clock : Nat) : Strand :=
  let segs := match st.segs with
    | g :: l => { g with fresh := false, pc := if 1 < st.arep then g.pc else g.pc + BitVec.ofNat 32 n } :: l
    | [] => []
  { st with segs := segs, arep := st.arep - 1, earliest := clock + 1, age := clock + 1 }

/-- The clocks that the result of a parcel takes; a slice parcel on the follower's column groups of a t128p tile takes 16
(R125, R148). -/
def Strand.latencyOf (st : Strand) (i : Instr) : Nat :=
  match i, st.tile with
  | .aslc g _ _, some x | .asts g _ _, some x => if x.kind = .t128p ∧ 4 ≤ g.toNat then 16 else i.latency
  | _, _ => i.latency
/-- The result of a parcel is there for later parcels after its latency (R124, R125). -/
def Strand.post (st : Strand) (i : Instr) (clock : Nat) : Strand :=
  let due := clock + st.latencyOf i
  let (a, c, q) := i.leaves
  { st with
    accAt := if a then due else st.accAt, carryAt := if c then due else st.carryAt, qAt := if q then due else st.qAt }
/-- A parcel of `n` bytes has issued and leaves the strand as `st` (R89, R477). -/
def State.commitN (s : State) (i : Instr) (n : Nat) (st : Strand) : State :=
  ((s.hold i).modMe fun v =>
    { (v.modStrand s.k fun _ => (st.moveOn n s.clock).post i s.clock).fallBack i with wparcel := v.wparcel + 1 }).stepped
/-- A parcel without extension has issued. -/
def State.commit (s : State) (i : Instr) (st : Strand) : State := s.commitN i 2 st

/-! ## Strand values -/

/-- Lane words with those of `m` replaced. -/
def mergeLanes (m : Mask) (f : Nat → Word) (x : Lanes Word) : Lanes Word :=
  Lanes.tab fun l => if m.getLsbD l then f l else x.at' l
/-- The strand with the accumulator written in the lanes of `m`. -/
def Strand.setAcc (st : Strand) (m : Mask) (f : Nat → Word) : Strand :=
  { st with acc := mergeLanes m f st.acc, accP := st.accP &&& ~~~m }
/-- The strand with the carry written in the lanes of `m`. -/
def Strand.setCarry (st : Strand) (m : Mask) (f : Nat → Word) : Strand :=
  { st with carry := mergeLanes m f st.carry, carryP := st.carryP &&& ~~~m }
/-- The strand with the strand predicate written in the lanes of `m`. -/
def Strand.setQ (st : Strand) (m : Mask) (f : Nat → Bool) : Strand :=
  { st with q := (st.q &&& ~~~m) ||| (maskOf f &&& m), qP := st.qP &&& ~~~m }

/-- The source of a parcel in lane `l`: the carry, or window `w` (R128). -/
def Strand.source (st : Strand) (c : Bool) (w : BitVec 3) (l : Nat) : Word :=
  if c then st.carry.at' l else (st.seg.slot w).val.at' l

/-- What a value instruction with a source reads, besides what `acc` and `carry` add (R128, R130). -/
def valueReads (m : PMod) (w : BitVec 3) (acc : Bool := true) (carry : Bool := false) : Reads :=
  { win := if m.c then none else some w, acc := acc, carry := m.c || carry, q := m.q }

/-- How f32 results of a strand are delivered (R15, R136). -/
def strandCtl (mode : Word) : RndCtl := { rnd := modeRnd mode, sat := false, ftz := modeFtz mode }

/-- An f32 parcel with a source: the accumulator becomes `f` of itself, the source and the carry, lane by lane, with
flags (R130, R136). -/
def State.floatParcel (s : State) (i : Instr) (m : PMod) (w : BitVec 3) (carry : Bool)
    (f : RndCtl → Word → Word → Word → FRes) : State :=
  s.parcelOp (valueReads m w true carry) m.q fun e st s =>
    let k := strandCtl s.me.mode
    let r := fun l => f k (st.acc.at' l) (negWord m.n (st.source m.c w l)) (st.carry.at' l)
    s.flagged i e (fun l => (r l).fl) fun s => s.commit i (st.setAcc e fun l => BitVec.ofNat 32 (r l).code)

/-- A unary f32 parcel (R130, R135). -/
def State.unaryParcel (s : State) (i : Instr) (m : PMod) (f : RndCtl → Word → FRes) : State :=
  s.parcelOp { acc := true, q := m.q } m.q fun e st s =>
    let k := strandCtl s.me.mode
    let r := fun l => f k (st.acc.at' l)
    s.flagged i e (fun l => (r l).fl) fun s => s.commit i (st.setAcc e fun l => BitVec.ofNat 32 (r l).code)

/-- A parcel that writes the accumulator from itself and a source, without flags; `neg` is what N does to the source
(R130, R135). -/
def State.plainParcel (s : State) (i : Instr) (m : PMod) (w : BitVec 3) (neg : Word → Word)
    (f : Word → Word → Word) : State :=
  s.parcelOp (valueReads m w) m.q fun e st s =>
    s.commit i (st.setAcc e fun l =>
      let x := st.source m.c w l
      f (st.acc.at' l) (if m.n then neg x else x))

end Sys2Proof.Machine
end

