-- ==== Sys2Proof/Machine/Engine.lean ====
section
/-! DEFINITION. Engine operations, fences, watches, banks, FIFO banks and overlays at issue: COPY, GATH, PXFER, TLOAD,
TSTORE, PREF, OVLD, WAITC, FENCE, MON, MWAIT, BANKM, FPUSH, FPOP
(R297, R298, R300, R304 to R306, R322, R327, R339 to R345, R351 to R360, R369, R372, R485). -/

namespace Sys2Proof.Machine

/-! ## What engine operations share -/

/-- An instruction that needs every lane which has not exited (R339, R351). -/
def State.whole (s : State) (i : Instr) (e : Mask) (k : State → State) : State :=
  let missing := s.me.live &&& ~~~e
  if e = 0 then s.retire i
  else if missing ≠ 0 then s.raise .partialMask e (missing.setWidth 64)
  else k s

/-- Outstanding operations of an engine class (R305). -/
def Warp.outstanding (v : Warp) (cls : Nat) : Nat :=
  if cls = 2 then (v.matx.filter MatxOp.counted).length else (v.eng.filter fun o => o.cls == cls).length

/-- An engine operation issues when its class has room and no acquire holds it back (R305, R367; log 9). -/
def State.engRoom (s : State) (cls : Nat) (k : State → State) : State :=
  if s.acquiring s.cur.warp then s.block .fence
  else if 63 ≤ s.me.outstanding cls then s.block .access
  else k s

/-- The runs of memory and of scratch that an operation has translated at its issue. -/
def EngWork.named : EngWork → List Run
  | .copy src dst => src ++ dst
  | .tload _ ver src dst _ _ => ver ++ src ++ dst
  | .tstore ver src dst => ver ++ src ++ dst
  | .pxfer _ _ _ near far => near ++ far
  | .pref _ clause => clause.toList
  | .writing .. | .ovld .. | .loaded .. | .none => []
/-- The virtual range of a run of memory. -/
def Run.range (r : Run) : Option (Nat × Nat) :=
  match r.place with
  | .scr _ _ => none
  | _ => some (r.va, r.len)

/-- The virtual ranges of memory that an operation writes. -/
def EngWork.written : EngWork → List (Nat × Nat)
  | .copy _ dst => dst.filterMap Run.range
  | .tstore ver _ dst => (ver ++ dst).filterMap Run.range
  | .pxfer true _ _ near _ => near.filterMap Run.range
  | _ => []

/-- An engine operation enters its class. -/
def State.engPush (s : State) (cls : Nat) (scope : BitVec 3) (work : EngWork) : State :=
  let (id, s) := (s.guardAreas work.written).fresh
  s.modMe fun v => { v with
    eng := v.eng ++ [{ id := id, cls := cls, scope := scope, work := work, pages := work.named.filterMap Run.range }] }

/-- Whether what is written to a run is held under WB (R322). -/
def Run.held (r : Run) : Bool :=
  match r.place with
  | .virt _ _ => true
  | _ => false
/-- The access counters count the lines of runs that L2 does not hold; what is held is counted when it goes out (R319, R322). -/
def State.countRuns (s : State) (runs : List Run) : State :=
  s.countRunsFor (some (s.myGroup.launch, s.me.core)) (runs.filter fun r => !r.held)

/-- Whether a run lies in host or pool memory. -/
def State.remoteRun (s : State) (r : Run) : Bool :=
  match r.pa with
  | some pa => (match s.frame pa with
    | .host _ | .pool _ _ => true
    | _ => false)
  | none => false

/-- A global range of an engine operation, translated whole (R306, R326). -/
def State.transRange (s : State) (e : Mask) (va n : Nat) (rd wr : Bool) (k : List Run → State → State) : State :=
  match s.vruns (some s.me.core) (s.rootOf s.cur.warp) (s.regionOf s.cur.warp) va n rd wr false !s.versioned with
  | (.error (a, x), s) => s.raise .memfault e x (BitVec.ofNat 64 a)
  | (.ok runs, s) => k runs s

/-- The conditions of R327 over the global ranges that an operation reads and writes, once all of them have been translated,
and then `k`; `scope` says that the instruction itself raises SCOPE in a versioned group, at the address `at_` (R326, R327). -/
def State.globConds (s : State) (e : Mask) (at_ : DWord) (scope : Bool) (src dst : List Run) (k : State → State) : State :=
  let outside := if s.versioned then dst.find? s.remoteRun else none
  if s.versioned && scope then s.raise .scope e 0 at_
  else match outside with
    | some r => s.raise .scope e 0 (BitVec.ofNat 64 r.va)
    | none => match if s.versioned then s.overflows s.me.group (dst.flatMap Run.lines) else none with
      | some x => s.raise .versionOverflow e x (match dst with
        | r :: _ => BitVec.ofNat 64 r.va
        | [] => at_)
      | none => match s.lostRun (src ++ dst) with
        | some x => s.raise .poolRegion e (BitVec.ofNat 64 x.2) (BitVec.ofNat 64 x.1.va)
        | none => k (if s.versioned then s.countRuns src else s.countRuns (src ++ dst))

/-- The first byte of a scratch range that cannot be accessed (R291, R292). -/
def State.scratchFail (s : State) (g : Nat) (a : Word) (n : Nat) : Option Nat :=
  let off := (bitsAt a 0 20).toNat
  let size := (s.launch (s.group g).launch).scratchBytes
  let stops := off :: ((List.range 32).map fun i => 32768 * (i + 1)).filter fun x => off < x && x < off + n && x < size
  match (stops.find? fun x => (s.scratchRange g (BitVec.ofNat 32 (a.toNat - off + x)) 1).isNone) with
  | some x => some (a.toNat - off + x)
  | none => if size < off + n then some (a.toNat - off + size) else none

/-- A scratch range of an engine operation (R291, R300, R306). -/
def State.scrRange (s : State) (e : Mask) (a : Word) (n : Nat) (k : List Run → State → State) : State :=
  if n = 0 then k [] s
  else match s.scratchFail s.me.group a n, s.scratchAddr s.me.group a with
    | some b, _ => s.raise .memfault e (faultCode 5 0) (BitVec.ofNat 64 b)
    | none, some (pos, off) =>
      if s.scratchWaits s.me.group pos off n then s.block .access
      else
        let r : Run := { place := .scr pos off, len := n, va := a.toNat, acc := false, pte := none, through := false }
        k [r] s
    | none, none => s.raise .memfault e (faultCode 5 0) (a.setWidth 64)

/-- A global or a scratch range that a register names in lane 0. -/
def State.engRange (s : State) (e : Mask) (glob : Bool) (r : GReg) (n : Nat) (rd wr : Bool) (k : List Run → State → State) :
    State :=
  if glob then s.transRange e (s.me.lane2 r 0).toNat n rd wr k else s.scrRange e (s.me.lane r 0) n k
/-- The runs of a range that lie in global memory. -/
def globRuns (l : List Run) : List Run := l.filter fun r => r.pa.isSome

/-! ## COPY, GATH, PXFER (R351 to R353) -/

/-- The scope of a COPY: .grp, by the SCP fallback, where it writes scratch (R87, R351; log 21). -/
def copyScope (dir : BitVec 2) (scope : BitVec 3) : BitVec 3 := if dir == 1#2 || dir == 3#2 then 0 else scope

/-- COPY (R351). -/
def execCopy (h : Hd) (dir : BitVec 2) (scope : BitVec 3) (d a b : GReg) (s : State) : Out :=
  .next (s.issue (.copy h dir scope d a b) fun e s =>
    let i := Instr.copy h dir scope d a b
    let n := (s.me.lane b 0).toNat
    s.whole i e fun s => s.engRoom 0 fun s =>
      s.engRange e (dir == 0#2 || dir == 1#2) a n true false fun src s =>
      s.engRange e (dir == 0#2 || dir == 2#2) d n false true fun dst s =>
      s.globConds e (s.me.lane2 d 0) false (globRuns src) (globRuns dst) fun s =>
        (s.engPush 0 (copyScope dir scope) (.copy src dst)).retire i)

/-- The rows of a GATH, checked in turn (R352). -/
def State.gathRows (s : State) (e : Mask) (base size : Nat) (k : List Run → State → State) : List Nat → List Run → State
  | [], acc => k acc s
  | x :: xs, acc => s.transRange e ((base + x * size) % 2 ^ 64) size true false fun runs s => s.gathRows e base size k xs (acc ++ runs)

/-- The n32 words of a scratch range. -/
def GroupSt.words (g : GroupSt) (pos off n : Nat) : List Nat :=
  (List.range n).map fun i => numOf (g.peekN pos (off + 4 * i) 4)

/-- GATH (R352), at .grp, by the SCP fallback where its scope is larger (R87; log 21). A count or a size outside its range raises ILLEGAL (log 27). -/
def execGath (h : Hd) (scope : BitVec 3) (d a b c : GReg) (s : State) : Out :=
  .next (s.issue (.gath h scope d a b c) fun e s =>
    let i := Instr.gath h scope d a b c
    let rows := (bitsAt (s.me.lane c 0) 0 16).toNat
    let size := (bitsAt (s.me.lane c 0) 16 16).toNat
    s.whole i e fun s => s.engRoom 1 fun s =>
      if rows = 0 || 4096 < rows || size = 0 || 4096 < size || size % 32 ≠ 0 then s.illegal e
      else s.scrRange e (s.me.lane b 0) (4 * rows) fun list s =>
        s.scrRange e (s.me.lane d 0) (rows * size) fun dst s =>
          let idx := list.flatMap fun r => match r.place with
            | .scr pos off => s.myGroup.words pos off rows
            | _ => []
          s.gathRows e (s.me.lane2 a 0).toNat size (fun src s =>
            s.globConds e (s.me.lane2 a 0) false src [] fun s => (s.engPush 1 0 (.copy src dst)).retire i) idx [])

/-- The remote range of a PXFER, which lies in one peer window (R353, R481). -/
def State.peerRange (s : State) (e : Mask) (va n : Nat) (rd wr : Bool) (k : Nat → List Run → State → State) : State :=
  match s.vruns (some s.me.core) (s.rootOf s.cur.warp) (s.regionOf s.cur.warp) va n rd wr true with
  | (.error (a, x), s) => s.raise .memfault e x (BitVec.ofNat 64 a)
  | (.ok runs, s) =>
    let peer := fun (r : Run) => match r.place with
      | .phys pa => (match s.frame pa with
        | .peer q => some q
        | _ => none)
      | _ => none
    let q := runs.head?.bind peer
    match runs.find? fun r => (peer r).isNone || peer r != q with
    | some r => s.raise .memfault e (faultCode 10 0) (BitVec.ofNat 64 r.va)
    | none => k (q.getD 0) runs s

/-- PXFER (R326, R327, R353). -/
def execPxfer (h : Hd) (get : Bool) (d a b : GReg) (s : State) : Out :=
  .next (s.issue (.pxfer h get d a b) fun e s =>
    let i := Instr.pxfer h get d a b
    let n := (s.me.lane b 0).toNat
    let far := (s.me.lane2 (if get then a else d) 0).toNat
    let near := (s.me.lane2 (if get then d else a) 0).toNat
    s.whole i e fun s => s.engRoom 3 fun s =>
      s.peerRange e far n get (!get) fun q frs s =>
      s.transRange e near n (!get) get fun nrs s =>
      s.globConds e (s.me.lane2 d 0) true (if get then [] else nrs) (if get then nrs else []) fun s =>
        (s.engPush 3 5 (.pxfer get (BitVec.ofNat 64 far) q nrs frs)).retire i)

/-! ## TLOAD, TSTORE (R339 to R341) -/

/-- The checks of a tile: V a multiple of 128, the length, the scratch range, the version word and the data, and then the
conditions of R327, among them the one of a scope; then `k` with the scratch run, the runs of the version word and those of
the data. A length outside its range raises ILLEGAL (log 27). -/
def State.tileRange (s : State) (e : Mask) (v : DWord) (scr : Word) (n : Nat) (wr scope : Bool)
    (k : List Run → List Run → List Run → State → State) : State :=
  if v.toNat % 128 ≠ 0 then s.raise .align e 0 v
  else if n = 0 || n % 128 ≠ 0 || 65536 < n then s.illegal e
  else s.scrRange e scr n fun sr s =>
    s.transRange e v.toNat 8 true wr fun vr s =>
    s.transRange e ((v.toNat + 128) % 2 ^ 64) n (!wr) wr fun dr s =>
    s.globConds e v scope (if wr then [] else vr ++ dr) (if wr then vr ++ dr else []) fun s => k sr vr dr s

/-- The physical address of the first byte of a list of runs; 0 where it has none. -/
def firstPa (runs : List Run) : Nat := (runs.head?.bind Run.pa).getD 0

/-- TLOAD (R339, R341). -/
def execTload (h : Hd) (scope : BitVec 3) (d a b : GReg) (s : State) : Out :=
  .next (s.issue (.tload h scope d a b) fun e s =>
    let i := Instr.tload h scope d a b
    s.whole i e fun s => s.engRoom 0 fun s =>
      s.tileRange e (s.me.lane2 a 0) (s.me.lane d 0) (s.me.lane b 0).toNat false false fun sr vr dr s =>
        (s.engPush 0 scope (.tload (s.me.lane2 a 0) vr dr sr 0 none)).retire i)

/-- TSTORE.all (R327, R339, R340). -/
def execTstore (h : Hd) (scope : BitVec 3) (d a b : GReg) (s : State) : Out :=
  .next (s.issue (.tstore h scope d a b) fun e s =>
    let i := Instr.tstore h scope d a b
    s.whole i e fun s => s.engRoom 0 fun s =>
      s.tileRange e (s.me.lane2 d 0) (s.me.lane a 0) (s.me.lane b 0).toNat true (scope != 0#3) fun sr vr dr s =>
        (s.engPush 0 scope (.tstore vr sr dr)).retire i)

/-! ## PREF (R304, R345) -/

/-- The lines of a range whose pages can be read; the other pages are skipped (R304). A lost pool window raises
POOL_REGION (R327). -/
def State.prefLines (s : State) (e : Mask) (va n : Nat) (k : List Nat → State → State) : State :=
  let (lines, lost, s) := (rangeParts va n).foldl (fun (x : List Nat × Option (Nat × Nat) × State) (p : Nat × Nat) =>
    let (lines, lost, s) := x
    match s.translate (some s.me.core) (s.rootOf s.cur.warp) (s.regionOf s.cur.warp) (p.1 % 2 ^ 64) true false with
    | (.fault _, s) => (lines, lost, s)
    | (.ok pa t, s) =>
      let r : Run := { place := .phys pa, len := p.2, va := p.1 % 2 ^ 64, acc := pteAcc t.pte, pte := none, through := false }
      (lines ++ r.lines, lost.or ((s.poolLost pa).map fun q => (p.1, q)), s.countRuns [r])) ([], none, s)
  match lost with
  | some (a, p) => s.raise .poolRegion e (BitVec.ofNat 64 p) (BitVec.ofNat 64 a)
  | none => k lines.eraseDups s

/-- PREF.cnt (R345). -/
def execPrefCnt (h : Hd) (a b : GReg) (s : State) : Out :=
  .next (s.issue (.prefCnt h a b) fun e s =>
    let i := Instr.prefCnt h a b
    if e = 0 then s.retire i
    else s.engRoom 0 fun s =>
      s.prefLines e (s.me.lane2 a 0).toNat (s.me.lane b 0).toNat fun ls s => (s.engPush 0 3 (.pref ls none)).retire i)

/-- The place of a clause that a PREF reports on: no version holds its decrement, which is made in memory at .dev
(R316, R327, R345). -/
def State.clausePlace (s : State) (e : Mask) (va : Nat) (k : List Run → State → State) : State :=
  match s.vrange (some s.me.core) (s.rootOf s.cur.warp) (s.regionOf s.cur.warp) va 8 true true with
  | (.error (.fault a x), s) => s.raise .memfault e x (BitVec.ofNat 64 a)
  | (.error (.pool a p), s) => s.raise .poolRegion e (BitVec.ofNat 64 p) (BitVec.ofNat 64 a)
  | (.ok runs, s) => k runs s

/-- PREF.cl (R311, R345). -/
def execPrefCl (h : Hd) (a b c : GReg) (s : State) : Out :=
  .next (s.issue (.prefCl h a b c) fun e s =>
    let i := Instr.prefCl h a b c
    let cl := s.me.lane2 c 0
    if e = 0 then s.retire i
    else if cl.toNat % 64 ≠ 0 then s.raise .align e 0 cl
    else s.engRoom 4 fun s =>
      s.clausePlace e cl.toNat fun rs s =>
        s.prefLines e (s.me.lane2 a 0).toNat (s.me.lane b 0).toNat fun ls s =>
          (s.engPush 4 3 (.pref ls rs.head?)).retire i)

/-! ## WAITC and FENCE -/

/-- The oldest failure of a class, and the rest (R355). -/
def takeFail (cls : Nat) : List EngFail → Option (EngFail × List EngFail)
  | [] => none
  | f :: l => if f.cls = cls then some (f, l) else
    match takeFail cls l with
    | some (x, r) => some (x, f :: r)
    | none => none

/-- WAITC (R305, R354, R355). -/
def execWaitc (h : Hd) (cls : BitVec 2) (n : BitVec 6) (s : State) : Out :=
  .next (s.issue (.waitc h cls n) fun e s =>
    let i := Instr.waitc h cls n
    if e = 0 then s.retire i
    else if n.toNat < s.me.outstanding cls.toNat then s.block .engine
    else match takeFail cls.toNat s.me.fails with
      | some (f, r) => (s.modMe fun v => { v with fails := r }).raise .memfault e f.extra f.faddr true
      | none => s.retire i)

/-- The reads of a warp that have still to be performed: loads, and the reads of atomics and SCs (R342). -/
def State.openReads (s : State) (w : Nat) : List Nat :=
  (s.loads.filter fun x => x.warp == w && !x.performed).map (fun x => x.id) ++
    (s.writes.filter fun x => x.warp == some w && (match x.kind with
      | .atom .. | .sc .. => true
      | _ => false)).map fun x => x.id

/-- A fence makes acquires of the reads before it: of those that are open, and of those that have read a write which is still on its
way to others (R342, R368, R369, R373). -/
def State.fenceAcquire (s : State) : State :=
  (s.acquire true (s.openReads s.cur.warp)).modMe fun v => { v with acqEarly := (v.acqEarly ++ s.stillEarly v.early).eraseDups }
/-- A fence that releases waits until every earlier access is performed at its scope; at .pool or wider it reports a write that was
lost (R342, R376). -/
def State.fenceRelease (s : State) (e : Mask) (scope : BitVec 3) (k : State → State) : State :=
  let go := fun (s : State) => if !s.allPerformed s.cur.warp s.nextId scope then s.block .fence else k s
  if 4 ≤ scope.toNat then s.reportLost e go else go s

/-- FENCE.acq, FENCE.rel and FENCE.sc (R342, R369; log 9, log 10). -/
def execFence (h : Hd) (kind : BitVec 2) (scope : BitVec 3) (s : State) : Out :=
  .next (s.issue (.fence h kind scope) fun e s =>
    let i := Instr.fence h kind scope
    if e = 0 then s.retire i
    else if kind = 0 then s.fenceAcquire.retire i
    else s.fenceRelease e scope fun s => (if kind = 1 then s else s.fenceAcquire).retire i)

/-! ## MON and MWAIT (R343, R344) -/

/-- MON (R343). -/
def execMon (h : Hd) (a : GReg) (s : State) : Out :=
  .next (s.issue (.mon h a) fun e s =>
    let i := Instr.mon h a
    if e = 0 then s.retire i
    else
      let acc : Acc := { lane := 0, off := 0, len := 1, va := (s.me.lane2 a 0).toNat }
      s.withPlaces e true false false [] [acc] fun ps s =>
        let line := lineNo ((ps.head?.map fun p => p.pa).getD 0)
        let s := ((s.mergeLine line).barGrant line).addWatch { warp := s.cur.warp, lwait := false, line := line, hit := false }
        (s.modMe fun v => { v with watch := .armed, mwait := none }).retire i)

/-- Whether the watch of MON has fired, or never will: none while it is armed (R343, R344). -/
def State.watchEnd (s : State) : Option Bool :=
  match s.me.watch with
  | .fired => some true
  | .armed => (match s.watchOf s.cur.warp false with
    | some x => if x.hit then some true else none
    | none => some false)
  | _ => some false

/-- MWAIT (R344). -/
def execMwait (h : Hd) (d : PNum) (a : GReg) (s : State) : Out :=
  .next (s.issue (.mwait h d a) fun e s =>
    let i := Instr.mwait h d a
    let done := fun (ok : Bool) =>
      ((s.dropWatch s.cur.warp false).modMe fun v => { v with watch := .none, mwait := none }).toPred i d e fun _ => ok
    if e = 0 then s.retire i
    else match s.watchEnd with
      | some ok => done ok
      | none =>
        let q := s.me.mwait.getD { limit := (s.me.lane a 0).toNat, start := s.gtime }
        if q.limit ≠ 0 && q.start + q.limit ≤ s.gtime then done false
        else (s.modMe fun v => { v with mwait := some q }).block .mwait)

/-! ## Banks and FIFO banks (R297, R298, R356 to R359) -/

/-- A bank of the warp's group on its core, or MEMFAULT with code 5 and the index as the fault address (R298). -/
def State.withBank (s : State) (e : Mask) (j : Nat) (k : Nat → Bank → State → State) : State :=
  match if j < s.myLaunch.nb then s.bankAt s.me.group s.me.pos j else none with
  | some (n, b) => k n b s
  | none => s.raise .memfault e (faultCode 5 0) (BitVec.ofNat 64 j)

/-- The mode that a BANKM code names (R297). -/
def bankMode (code : BitVec 2) : BankMode :=
  match code.toNat with
  | 0 => .off
  | 1 => .cache
  | 2 => .scratch
  | _ => .fifo

/-- BANKM (R298, R356). The switch itself is BANK_SWITCH_COMPLETE. -/
def execBankm (h : Hd) (mode : BitVec 2) (a : GReg) (s : State) : Out :=
  .next (s.issue (.bankm h mode a) fun e s =>
    let i := Instr.bankm h mode a
    if e = 0 then s.retire i
    else s.withBank e (s.me.lane a 0).toNat fun n _ s =>
      (s.modBank s.me.core n fun b => { b with pending := b.pending ++ [bankMode mode] }).retire i)

/-- A FIFO bank that has no switch to make, or the trap of R359. -/
def State.withFifo (s : State) (e : Mask) (j : Nat) (w : Wait) (k : Nat → Bank → State → State) : State :=
  s.withBank e j fun n b s =>
    if !b.pending.isEmpty then s.block w
    else if b.mode != .fifo then s.raise .memfault e (faultCode 5 0) (BitVec.ofNat 64 j)
    else k n b s

/-- The words that FPUSH carries, in lane order, with their marks (R357, R454). -/
def Warp.pushWords (v : Warp) (w64 : Bool) (a : GReg) (i : Nat) : Word × Bool :=
  if w64 then v.storeWord a (i / 2) (4 * (i % 2)) else v.storeWord a i 0

/-- FPUSH (R357, R358): a release at .grp. -/
def execFpush (h : Hd) (w64 : Bool) (j : Byte) (a : GReg) (s : State) : Out :=
  .next (s.issue (.fpush h w64 j a) fun e s =>
    let i := Instr.fpush h w64 j a
    let n := if w64 then 8 else 4
    if e = 0 then s.retire i
    else s.withFifo e j.toNat .fpush fun k b s =>
      if !s.allPerformed s.cur.warp s.nextId 0 then s.block .fence
      else if fifoCap < b.fifo.length + n then s.block .fpush
      else
        let es := toEntries n (s.me.pushWords w64 a)
        (s.modBank s.me.core k fun b => { b with fifo := b.fifo ++ es }).retire i)

/-- The parts of the load that an FPOP makes of the entries it takes (R358). -/
def popPieces (w64 : Bool) (e : Mask) (l : List FifoEntry) : List LPiece :=
  let part := fun (lane off i : Nat) =>
    let x := entryWord l i
    ({ lane := lane, off := off, len := 4, va := 0, pa := 0, got := true, val := x.1.setWidth 64, poison := x.2 } : LPiece)
  (lanesOf e).flatMap fun q => if w64 then [part q 0 (2 * q), part q 4 (2 * q + 1)] else [part q 0 q]

/-- FPOP (R358). -/
def execFpop (h : Hd) (w64 : Bool) (d : GReg) (j : Byte) (s : State) : Out :=
  .next (s.issue (.fpop h w64 d j) fun e s =>
    let i := Instr.fpop h w64 d j
    let n := if w64 then 8 else 4
    if e = 0 then s.retire i
    else s.withFifo e j.toNat .fpop fun k b s =>
      let ps := popPieces w64 e (b.fifo.take n)
      if b.fifo.length < n then s.block .fpop
      else if s.lacksEntries (ps.map fun p => lineNo p.pa) then s.block .access
      else
        let q : LoadReq := { kind := .fpop, acq := true, scope := 0, nc := false, d := d, wide := w64, bytes := n, sext := false }
        let t := s.modBank s.me.core k fun b => { b with fifo := b.fifo.drop n }
        (t.startLoad q e ps).2.retire i)

/-! ## OVLD (R108, R360, R415) -/

/-- The address and the length that the overlay table at `ovtab` gives for an overlay (R415). -/
def State.overlayEntry (s : State) (core : Option Nat) (root region ovtab n : Nat) : Except VErr (Nat × Nat) × State :=
  match s.vrange core root region (ovtab + 16 * n) 16 true false with
  | (.ok runs, s) =>
    let s := s.ownRuns runs
    let bs := s.readRuns runs
    (.ok (numOf (bs.take 8), numOf ((bs.drop 8).take 4)), s)
  | (.error e, s) => (.error e, s)

/-- The code words of an image. -/
def codeWords (bs : List MarkedByte) : List (BitVec 64) :=
  (List.range (bs.length / 8)).map fun i => BitVec.ofNat 64 (numOf ((bs.drop (8 * i)).take 8))

/-- Whether a resident warp of the core protects an overlay: a PC in it, or the base of a segment (R108). -/
def State.protects (s : State) (core : Nat) (o : Overlay) : Bool :=
  (List.range s.warps.length).any fun w =>
    let v := s.warp w
    v.core == core && !v.exited && (s.group v.group).resident && s.binary w == o.binary &&
      (ovlOf v.pc == o.num || v.strandList.any fun st => st.segs.any fun g => ovlOf g.base == o.num || ovlOf g.pc == o.num)

/-- The code-store slot that a load takes: an empty one, or the least recently used that may be replaced (R108, R360). -/
def State.overlaySlot (s : State) (core : Nat) (free : Overlay → Bool) : Option Nat :=
  let l := (s.core core).overlays
  match l.findIdx? fun o => o.isNone with
  | some i => some i
  | none =>
    (List.range l.length).foldl (fun (best : Option Nat) i =>
      match nth none l i with
      | none => best
      | some o =>
        if o.loading || !free o then best
        else match best with
          | none => some i
          | some j => match nth none l j with
            | some p => if o.used < p.used then some i else best
            | none => best) none

/-- A code-store slot takes an overlay whose load begins. It holds 64 KiB (R3), and no rule says what a core does with a longer image,
which R415 excludes but R417 and R360 name no cause for: the slot takes the first 64 KiB, and an address beyond them holds no code
(DESIGN CHOICE, log 51) (R106, R360). -/
def State.startOverlay (s : State) (core slot binary num : Nat) (code : List (BitVec 64)) : State :=
  let o : Overlay := { binary := binary, num := num, code := code.take 8192, loading := true, used := s.clock }
  s.modCore core fun c => { c with overlays := c.overlays.set slot (some o) }

/-- OVLD (R360). -/
def execOvld (h : Hd) (a : GReg) (s : State) : Out :=
  .next (s.issue (.ovld h a) fun e s =>
    let i := Instr.ovld h a
    let n := (bitsAt (s.me.lane a 0) 0 8).toNat
    let w := s.cur.warp
    let core := s.me.core
    if e = 0 then s.retire i
    else s.engRoom 0 fun s =>
      match s.overlayEntry (some core) (s.rootOf w) (s.regionOf w) (s.binary w) n with
      | (.error (.fault x c), s) => s.raise .memfault e c (BitVec.ofNat 64 x)
      | (.error (.pool x p), s) => s.raise .poolRegion e (BitVec.ofNat 64 p) (BitVec.ofNat 64 x)
      | (.ok (va, len), s) =>
        if len = 0 then s.raise .memfault e (faultCode 5 0)
        else s.transRange e va len true false fun runs s =>
          s.globConds e 0 false runs [] fun s =>
          let held := (s.core core).overlays.findIdx? fun o => match o with
            | some o => o.binary == s.binary w && o.num == n
            | none => false
          match held with
          | some k =>
            (s.engPush 0 3 (if (nth none (s.core core).overlays k).any fun o => o.loading then .loaded core k else .none)).retire i
          | none =>
            match s.overlaySlot core fun o => o.num != 0 && !s.protects core o with
            | none => s.block .slot
            | some k =>
              let s := s.ownRuns runs
              ((s.startOverlay core k (s.binary w) n (codeWords (s.readRuns runs))).engPush 0 3 (.ovld core k)).retire i)

end Sys2Proof.Machine
end

