-- ==== Sys2Proof/Machine/Subscribe.lean ====
section
/-! DEFINITION. Subscriptions at issue: SUBS, UPGR, UNSUB (R346, R347, R349, R350, R379, R396). -/

namespace Sys2Proof.Machine

/-- The first touched address of each line of each row of a range: base, width in elements, rows, pitch. -/
def rangePoints (base width rows pitch : Nat) : List Nat :=
  (List.range rows).flatMap fun r =>
    let a := (base + r * pitch) % 2 ^ 64
    a :: ((List.range ((a + 4 * width - 1) / 128 - a / 128)).map fun i => ((a / 128 + 1 + i) * 128) % 2 ^ 64)

/-- The first touched address of each line, each line once. -/
def oncePerLine (l : List Nat) : List Nat :=
  l.foldl (fun acc a => if acc.any fun b => b / 128 == a / 128 then acc else acc ++ [a]) []

/-- The lines of a range after their checks: code 9 for pages of the host or the pool (R346). -/
def State.subLines (s : State) (e : Mask) (k : List Nat → State → State) : List Nat → List Nat → State
  | [], acc => k acc s
  | a :: l, acc =>
    match s.translate (some s.me.core) (s.rootOf s.cur.warp) (s.regionOf s.cur.warp) a true false with
    | (.fault x, s) => s.raise .memfault e x (BitVec.ofNat 64 a)
    | (.ok pa t, s) =>
      let host := match s.frame pa with
        | .host _ => true
        | _ => false
      if ptePool t.pte || host then s.raise .memfault e (faultCode 9 0) (BitVec.ofNat 64 a)
      else s.subLines e k l (if acc.contains (lineNo pa) then acc else acc ++ [lineNo pa])

/-- A subscription instruction: the checks of its range, and then `k` with the lines (R346). -/
def State.subRange (s : State) (e : Mask) (a b c : GReg) (k : List Nat → State → State) : State :=
  let base := (s.me.lane2 a 0).toNat
  let x := s.me.lane b 0
  let pitch := (s.me.lane c 0).toNat
  let width := (bitsAt x 0 16).toNat
  let rows := (bitsAt x 16 8).toNat
  if base % 4 ≠ 0 || pitch % 4 ≠ 0 then s.raise .align e 0 (BitVec.ofNat 64 base)
  else if bitsAt x 24 8 != 0#8 || width = 0 || 2048 < width || rows = 0 || 64 < rows then
    s.raise .memfault e (faultCode 9 0) (BitVec.ofNat 64 base)
  else
    let l := oncePerLine (rangePoints base width rows pitch)
    if 64 < l.length then s.raise .memfault e (faultCode 9 0) (BitVec.ofNat 64 base)
    else if s.acquiring s.cur.warp then s.block .fence
    else s.subLines e k l []

/-- The ranks of formats (R346). -/
def Fmt.rank : Fmt → Nat
  | .full => 3
  | .bf16 => 2
  | .e4m3 => 1
  | .e5m2 => 1
/-- The format of a code of SUBS and UPGR (R347, R349). -/
def fmtOf (code : BitVec 2) : Fmt :=
  match code.toNat with
  | 0 => .full
  | 1 => .bf16
  | 2 => .e4m3
  | _ => .e5m2

/-- The format at which a core holds or will hold a line that a group of it has subscribed: that of a resend or of a join
under way, or of its tag, but for a detached one, which has no data (R346, R347, R379, R384). -/
def State.heldFmt (s : State) (core line : Nat) : Option Fmt :=
  if !s.subscribed core line then none
  else match s.upgs.reverse.find? fun u => u.core == core && u.line == line with
    | some u => some u.fmt
    | none => match s.joins.find? fun j => j.core == core && j.line == line && j.fmt != .full with
      | some j => some j.fmt
      | none => match (s.core core).l1At line with
        | some x => if x.pst == .leaving || x.pst == .detached then none else some x.fmt
        | none => none

/-- The format of the detached tag that a core has of a subscribed line (R384). -/
def State.detachedFmt (s : State) (core line : Nat) : Option Fmt :=
  if !s.subscribed core line then none
  else (((s.core core).l1At line).filter fun x => x.pst == .detached).map fun x => x.fmt

/-- The home is asked to raise a core's format of a line (R349, R393). -/
def State.askUpgrade (s : State) (core line : Nat) (f : Fmt) : State :=
  let (id, s) := s.fresh
  { s with upgs := s.upgs ++ [{ id := id, core := core, line := line, fmt := f, sent := false }] }

/-- The home is asked to link a core (R385). -/
def State.askJoin (s : State) (core line : Nat) (f : Fmt) : State :=
  let (id, s) := s.fresh
  { s with joins := s.joins ++ [{ id := id, core := core, line := line, fmt := f, sectors := 15 }] }

/-- A line of a SUBS: it joins at the format, or is raised to it (R347); a detached line joins again, at its own format where that has
no lower rank (R379); privatised copies are merged (R396). -/
def State.subLine (f : Fmt) (s0 : State) (line : Nat) : State :=
  let s := s0.mergeLine line
  let core := s.me.core
  let held := s.heldFmt core line
  let was := s.detachedFmt core line
  let s := s.modGroup s.me.group fun g => { g with subs := if g.subs.contains (core, line) then g.subs else g.subs ++ [(core, line)] }
  match held with
  | some g => if g.rank < f.rank then s.askUpgrade core line f else s
  | none => s.askJoin core line (match was with
    | some g => if g.rank < f.rank then f else g
    | none => f)

/-- SUBS (R347). -/
def execSubs (h : Hd) (fmt : BitVec 2) (a b c : GReg) (s : State) : Out :=
  .next (s.issue (.subs h fmt a b c) fun e s =>
    if e = 0 then s.retire (.subs h fmt a b c)
    else s.subRange e a b c fun ls s => (ls.foldl (State.subLine (fmtOf fmt)) s).retire (.subs h fmt a b c))

/-- A line of an UPGR (R349); a detached line that it does not raise joins again at its own format (R379). -/
def State.upgrLine (f : Fmt) (s : State) (line : Nat) : State :=
  let core := s.me.core
  if !s.subscribed core line then s
  else match s.heldFmt core line with
    | some g => if g.rank < f.rank then s.askUpgrade core line f else s
    | none => match s.detachedFmt core line with
      | some g => if g.rank < f.rank then s.askUpgrade core line f else s.askJoin core line g
      | none => s

/-- UPGR (R349). -/
def execUpgr (h : Hd) (fmt : BitVec 2) (a b c : GReg) (s : State) : Out :=
  .next (s.issue (.upgr h fmt a b c) fun e s =>
    if e = 0 then s.retire (.upgr h fmt a b c)
    else s.subRange e a b c fun ls s => (ls.foldl (State.upgrLine (fmtOf fmt)) s).retire (.upgr h fmt a b c))

/-- UNSUB (R350). -/
def execUnsub (h : Hd) (a b c : GReg) (s : State) : Out :=
  .next (s.issue (.unsub h a b c) fun e s =>
    if e = 0 then s.retire (.unsub h a b c)
    else s.subRange e a b c fun ls s =>
      (ls.foldl (fun t line => t.unsubscribe s.me.group s.me.core line) s).retire (.unsub h a b c))

end Sys2Proof.Machine
end

