-- ==== Sys2Proof/Machine/Bulk.lean ====
section
/-! DEFINITION. The bytes that the engine and the matrix array move: runs of memory as a group sees them, and when
such a move may be made (R259, R260, R306, R315, R322, R372, R373, R396, R403; log 12). -/

namespace Sys2Proof.Machine

/-- Whether the group of a warp is versioned. -/
def State.versionedOf (s : State) (w : Nat) : Bool := (s.launch (s.group (s.warp w).group).launch).versioned

/-- Whether a physical address lies beyond a link that is lost: reads of it give poison and writes are dropped
(R403, R482). -/
def State.unlinked (s : State) (pa : Nat) : Bool :=
  match s.frame pa with
  | .pool _ _ => (s.poolLost pa).isSome
  | .host p => !(s.port p).up
  | _ => false

/-- The bytes of a run as the group of a warp sees them (R373). -/
def State.runBytes (s : State) (w : Nat) (r : Run) : List MarkedByte :=
  match r.place with
  | .phys pa | .virt pa _ =>
    if s.unlinked pa then (s.physBytes w pa r.len).map fun b => (b.1, true) else s.physBytes w pa r.len
  | .scr pos off => (s.group (s.warp w).group).peekN pos off r.len
/-- The bytes of a list of runs. -/
def State.readGroup (s : State) (w : Nat) (runs : List Run) : List MarkedByte := runs.flatMap (s.runBytes w)

/-- A write of an engine or array operation of a warp at a scope (R372). -/
def Write.forEngine (w core : Nat) (scope : BitVec 3) : Write :=
  { Write.own 0 .engine LineData.zero 0 with warp := some w, core := some core, scope := scope }

/-- Bytes written to a run for a warp: into its group's version, as writes on their way to their homes, or into scratch
(R315, R322, R373, R388). -/
def State.writeRun (s : State) (w : Nat) (scope : BitVec 3) (r : Run) (bs : List MarkedByte) : State :=
  match r.place with
  | .phys pa =>
    if s.unlinked pa then s
    else if s.versionedOf w then
      s.modGroup (s.warp w).group fun g =>
        (byLine pa bs).foldl (fun g x => g.writeVersion x.1 r.pte.toList x.2.1 x.2.2) g
    else s.putRun (Write.forEngine w (s.warp w).core scope) r bs
  | .virt _ _ => s.putRun (Write.forEngine w (s.warp w).core scope) r bs
  | .scr pos off => s.pokeScratch (s.warp w).group pos off bs
/-- Bytes written to a list of runs one after another. -/
def State.writeGroup (s : State) (w : Nat) (scope : BitVec 3) : List Run → List MarkedByte → State
  | [], _ => s
  | r :: rs, bs => (s.writeRun w scope r (bs.take r.len)).writeGroup w scope rs (bs.drop r.len)

/-- The writes made since a number was the next one. -/
def State.newWrites (s : State) (n : Nat) : List Nat := (s.writes.filter fun x => n ≤ x.id).map fun x => x.id
/-- Whether writes are all performed at a scope. -/
def State.allDone (s : State) (ids : List Nat) (scope : BitVec 3) : Bool :=
  s.writes.all fun x => !ids.contains x.id || s.writeDone x scope

/-- Whether two runs share a byte. -/
def Run.overlaps (a b : Run) : Bool :=
  match a.place, b.place with
  | .scr p x, .scr q y => p == q && x < y + b.len && y < x + a.len
  | .scr _ _, _ => false
  | _, _ => match a.pa, b.pa with
    | some x, some y => x < y + b.len && y < x + a.len
    | _, _ => false
/-- The runs that an outstanding AST has still to write. -/
def MatxOp.writes (o : MatxOp) : List Run :=
  match o.work with
  | .ast dst _ => dst.flatten
  | _ => []
/-- Whether an AST of a warp that comes before an operation has still to write bytes of runs (R260). -/
def State.astMeets (s : State) (w before : Nat) (runs : List Run) : Bool :=
  (s.warp w).matx.any fun o => o.id < before && o.writes.any fun r => runs.any r.overlaps

/-- Whether an earlier access of a warp to bytes of the runs is still to be performed at a scope: a write, a store under WB
to the same virtual line, or an AST; and with `reads` a load too (R260, R322, R372). -/
def State.runsPending (s : State) (w before : Nat) (scope : BitVec 3) (runs : List Run) (reads : Bool) : Bool :=
  (s.writes.any fun x => x.warp == some w && x.id < before && !s.writeDone x scope && runs.any fun r =>
    r.covers x.line || (x.phase == .held && r.len != 0 && r.va / 128 ≤ x.va / 128 && x.va / 128 ≤ (r.va + r.len - 1) / 128)) ||
    s.astMeets w before runs ||
    (reads && s.loads.any fun x => x.warp == w && x.id < before &&
      x.pieces.any fun p => !p.got && runs.any fun r => r.covers (lineNo p.pa))

/-- The lines of runs that the host may have changed: they are called back before they are read (R398, R403). -/
def State.hostLines (s : State) (src : List Run) : List Nat :=
  (src.flatMap Run.lines).eraseDups.filter fun line =>
    match s.l2At line with
    | some x => x.host == .he
    | none => false

/-- A line is called back from the host, while the ports carry traffic: BISnpInv, or BISnpData when it is only read
(R389, R398, R491). -/
def State.callBack (s : State) (line : Nat) (inv : Bool) : State :=
  if s.carries then (s.modL2 line fun x => { x with busy := true }).send (if inv then .bisnpInv line else .bisnpData line) else s

/-- Whether nothing of the device's own holds a move back: no earlier access of the warp to its bytes, no operation in progress on a
source line, and no source line behind a port that carries no traffic (R491). -/
def State.bulkReady (s : State) (w before : Nat) (scope : BitVec 3) (src dst : List Run) : Bool :=
  !s.runsPending w before scope src false && !s.runsPending w before scope dst true &&
    (src.flatMap Run.lines).all fun line => !s.lineBusy line && ((s.l2At line).isSome || s.reaches line)

/-- A move of the bytes of source and destination runs for a warp: it waits for the warp's earlier accesses to them, for
source lines in progress and for the host's copies of them; then the sources are read as the device reads, and `k` has its
effect. -/
def State.bulk (s : State) (w before : Nat) (scope : BitVec 3) (src dst : List Run) (k : State → State) : State :=
  if !s.bulkReady w before scope src dst then s
  else match s.hostLines src with
    | [] => k (s.ownRuns src)
    | l => l.foldl (fun t line => t.callBack line false) s

end Sys2Proof.Machine
end

