-- ==== Sys2Proof/Machine/LaunchInstr.lean ====
section
/-! DEFINITION. Launches, counters and sentences from a program: LAUNCH, LWAIT, GRAPH
(R405 to R407, R409, R412, R473, R474). -/

namespace Sys2Proof.Machine

/-- The failure of a range that an instruction names in lanes E. -/
def State.rangeTrap (s : State) (e : Mask) : VErr → State
  | .fault a x => s.raise .memfault e x (BitVec.ofNat 64 a)
  | .pool a p => s.raise .poolRegion e (BitVec.ofNat 64 p) (BitVec.ofNat 64 a)

/-- The range of an instruction, checked whole. -/
def State.instrRange (s : State) (e : Mask) (va n : Nat) (rd wr : Bool) (k : List Run → State → State) : State :=
  match s.vrange (some s.me.core) (s.rootOf s.cur.warp) (s.regionOf s.cur.warp) va n rd wr with
  | (.ok runs, s) => k runs s
  | (.error x, s) => s.rangeTrap e x

/-- The access counters count the lines that an instruction reads from host memory, when it is about to read them (R319). -/
def State.countIfReady (s : State) (runs : List Run) : State :=
  if s.bulkReady s.cur.warp s.nextId 3 runs [] && (s.hostLines runs).isEmpty then s.countRuns runs else s

/-! ## LAUNCH (R406, R407) -/

/-- The 256 bytes of a record as one number, byte 0 lowest. -/
def recordOf (bs : List MarkedByte) : BitVec 2048 := BitVec.ofNat 2048 (numOf bs)

/-- LAUNCH. -/
def execLaunch (h : Hd) (a : GReg) (s : State) : Out :=
  .next (s.issue (.launch h a) fun e s =>
    let i := Instr.launch h a
    let w := s.cur.warp
    let core := s.me.core
    let rec_ := s.me.lane2 a (lowest e)
    if e = 0 then s.retire i
    else if s.versioned then s.raise .scope e
    else if rec_.toNat % 256 ≠ 0 then s.raise .align e 0 rec_
    else s.instrRange e rec_.toNat 256 true false fun runs s =>
      if s.acquiring w || !s.allWritten w s.nextId 3 then s.block .fence
      else if 4 ≤ (s.core core).queue.length then s.block .launch
      else (s.countIfReady runs).bulk w s.nextId 3 runs [] fun s =>
        let q : QEntry := { record := recordOf (s.readGroup w runs), region := s.regionOf w, age := s.clock, warp := w, id := s.nextId }
        (s.modCore core fun c => { c with queue := c.queue ++ [q] }).retire i)

/-! ## LWAIT (R409) -/

/-- The watch of a waiting LWAIT at the home of its counter (R405, R409). -/
def State.watchCounter (s : State) (w line : Nat) : State :=
  (s.barGrant line).addWatch { warp := w, lwait := true, line := line, hit := false }
/-- Whether a line of host or pool memory changes unseen, because L2 does not hold it (log 46). -/
def State.unseen (s : State) (line : Nat) : Bool := s.frame (128 * line) != .hbm && (s.l2At line).isNone

/-- LWAIT. After a read below the target it waits for LWAIT_WAKE or LWAIT_POLL to have the counter read again. -/
def execLwait (h : Hd) (a b : GReg) (s : State) : Out :=
  .next (s.issue (.lwait h a b) fun e s =>
    let i := Instr.lwait h a b
    let w := s.cur.warp
    let addr := s.me.lane2 a (lowest e)
    let target := s.me.lane2 b (lowest e)
    if e = 0 then s.retire i
    else if s.me.wait = some .lwait then s
    else if addr.toNat % 8 ≠ 0 then s.raise .align e 0 addr
    else s.instrRange e addr.toNat 8 true false fun runs s =>
      if s.acquiring w then s.block .fence
      else if s.matxMeets addr.toNat (firstPa runs) 8 then s.block .access
      else (s.countIfReady runs).bulk w s.nextId 5 runs [] fun s =>
        let s := s.dropWatch w true
        if target.toNat ≤ numOf (s.readGroup w runs) then s.retire i
        else
          let line := lineNo (firstPa runs)
          let s := s.watchCounter w line
          (s.modMe fun v => { v with lwaitAt := s.gtime, lwaitFor := some (addr.toNat, target.toNat) }).block .lwait)

/-- Whether the warp named in `State.cur` waits in an LWAIT. -/
def Warp.inLwait (v : Warp) : Bool := v.wait == some .lwait

/-- The counter of a waiting LWAIT is to be read again: by the LWAIT itself, or for an evicted group by the launch
processor, which keeps the watch while the counter is below the target (R409, R456, R460). -/
def State.pollCounter (s : State) (w : Nat) : State :=
  let v := s.warp w
  let again := s.modWarp w fun v => { v with wait := none }
  if (s.group v.group).phase != .evicted && (s.group v.group).phase != .leaving then again
  else match v.lwaitFor with
    | none => again
    | some (a, target) =>
      match s.vrange none (s.rootOf w) (s.regionOf w) a 8 true false with
      | (.error _, _) => again
      | (.ok runs, s) =>
        let s := s.lpRuns runs
        if target ≤ numOf (s.readRuns runs) then s.modWarp w fun v => { v with wait := none }
        else (s.watchCounter w (lineNo (firstPa runs))).modWarp w fun v => { v with lwaitAt := s.gtime }

/-- LWAIT_WAKE: a write to the counter's line has it read again (R409). -/
def execLwaitWake (s : State) : Out :=
  .next (match s.watchOf s.cur.warp true with
    | some x => if s.me.inLwait && x.hit then (s.dropWatch s.cur.warp true).pollCounter s.cur.warp else s
    | none => s)

/-- LWAIT_POLL: an LWAIT whose watch is lost reads the counter again every 10 µs (R409); so does one whose counter lies in a line that
changes unseen (log 46). -/
def execLwaitPoll (s : State) : Out :=
  .next (if s.me.inLwait && (s.watchOf s.cur.warp true).all (fun x => s.unseen x.line) && s.me.lwaitAt + 10000 ≤ s.gtime then
    s.pollCounter s.cur.warp
  else s)

/-! ## GRAPH (R474) -/

/-- GRAPH. The launch processor starts the walk, or finds it started, at GRAPH_ANSWER. -/
def execGraph (h : Hd) (d : PNum) (a : GReg) (s : State) : Out :=
  .next (s.issue (.graph h d a) fun e s =>
    let i := Instr.graph h d a
    let w := s.cur.warp
    let hdr := s.me.lane2 a (lowest e)
    if e = 0 then s.retire i
    else if s.versioned then s.raise .scope e
    else if hdr.toNat % 64 ≠ 0 then s.raise .align e 0 hdr
    else s.instrRange e hdr.toNat 64 true true fun _ s =>
      if s.acquiring w || !s.allWritten w s.nextId 3 then s.block .fence
      else if s.me.graph.isSome then s.block .graph
      else (s.modMe fun v => { v.pendPred d with graph := some { hdr := hdr, d := d, lanes := e, sent := none, won := none } }).retire i)

end Sys2Proof.Machine
end

