-- ==== Sys2Proof/Machine/Records.lean ====
section
/-! DEFINITION. Launch records, submission lists and pending-launch queues, the checks of a record, and the fault ring
(R53 to R55, R293, R377, R406, R407, R415, R417, R422, R423, R444, R445, R447, R498). -/

namespace Sys2Proof.Machine

/-! ## The fault ring (R444) -/

/-- A number that the device fills in where the spec states none (log 5). -/
def State.freeWord (s : State) : Word × State :=
  let (n, s) := s.draw
  (BitVec.ofNat 32 (Config.freePick n), s)

/-- The record of an entry that no warp raised: CAUSEW, FADDR and EXTRA (R444). -/
def bareRecord (c : Cause) (faddr extra : Nat) : List MarkedByte :=
  bytesOf 4 c.code ++ bytesOf 76 0 ++ bytesOf 8 faddr ++ bytesOf 8 extra ++ bytesOf 32 0

/-- The 16 page-table entries of a line of memory; none where every byte is 0. -/
def State.lineEntries (s : State) (line : Nat) : List DWord :=
  let d := (s.devLine line).bits
  if d = 0 then [] else (List.range 16).map fun i => bitsAt d (64 * i) 64

/-- The virtual addresses that the page tables from a table at a level down, whose first entry maps the address `lo`, give to a
physical address (R290, R312 to R315). -/
def State.vasOf (s : State) (pa : Nat) (level table lo : Nat) : List Nat :=
  (List.range 32).flatMap fun b => (s.lineEntries (table / 128 + b)).zipIdx.flatMap fun x =>
    let p := x.1
    let va := lo + (16 * b + x.2) * 2 ^ (12 + 9 * level)
    if !pteV p || pteBad p level then []
    else if pteLeaf p level then
      let n := (pageBytes (pteSize p) level).getD 4096
      let y := va / n * n + (pa - ptePfn p)
      if ptePfn p ≤ pa && va ≤ y && y < va + min n (2 ^ (12 + 9 * level)) then
        [if y < 2 ^ 56 then y else y + (2 ^ 64 - 2 ^ 57)]
      else []
    else match level with
      | 0 => []
      | l + 1 => s.vasOf pa l (ptePfn p) va

/-- An entry of a region's fault ring is written, and then the fault interrupt of the host port is raised. The device knows
the ring by its physical address. ENTRY holds a virtual address at which the region's tables map the entry, one of them where
there are several, and a free value where there is none (R444; log 32). -/
def State.faultEntry (s : State) (region launch : Nat) (rec : List MarkedByte) (kind tries : Nat) : Nat × State :=
  let base := s.eff region 2 0x18 8
  let n := alGet 0 base s.ctl.ringSeq
  let entry := base + 256 * (n % 256)
  let vas := s.vasOf entry 4 (s.eff region 6 0x30 8) 0
  let (k, s) := (s.modCtl fun c => { c with ringSeq := alPut base (n + 1) c.ringSeq }).draw
  let va := if vas.isEmpty then Config.freePick k else nth 0 vas (Config.freePick k % vas.length)
  (entry, s.devWriteThen entry (rec ++ bytesOf 4 n ++ bytesOf 4 launch ++ bytesOf 8 va ++ bytesOf 4 kind ++ bytesOf 4 0 ++
    bytesOf 4 n ++ bytesOf 4 tries ++ bytesOf 96 0) .irqFault)

/-- A KIND 4 entry for a completion counter that could not be written, or of a walk's (R408). -/
def State.counterEntry (s : State) (region : Nat) (launch : Option Nat) (addr extra : Nat) : State :=
  let (f, s) := s.freeWord
  (s.faultEntry region (launch.getD f.toNat) (bareRecord .memfault addr extra) 4 0).2

/-! ## Records (R415) -/

/-- A record with a field of `n` bytes replaced. -/
def recPut (r : BitVec 2048) (off n v : Nat) : BitVec 2048 :=
  (r &&& ~~~(BitVec.ofNat 2048 (2 ^ (8 * n) - 1) <<< (8 * off))) ||| (BitVec.ofNat 2048 (v % 2 ^ (8 * n)) <<< (8 * off))

/-- A launch of a record that has not been checked. -/
def LaunchSt.ofRecord (r : BitVec 2048) (region submitter age gtime : Nat) : LaunchSt :=
  { LaunchSt.none with
    record := r, region := region, submitter := submitter, age := age, waitFrom := gtime, phase := .checked }

/-- The region that a record names: the submitter's where REGION is 0. -/
def regionOfRecord (r : BitVec 2048) (submitter : Nat) : Nat :=
  if recField r 0x28 8 = 0 then submitter else recField r 0x28 8

/-- Warps of a launch that one half can hold (R54). -/
def LaunchSt.halfCap (l : LaunchSt) : Nat := min 32 (4096 / l.nregs)
/-- Cores that a group of the launch needs (R53, R55). -/
def LaunchSt.coreCount (l : LaunchSt) : Nat :=
  if l.warpCount ≤ 2 * l.halfCap then 1 else (l.warpCount + 2 * l.halfCap - 1) / (2 * l.halfCap)
/-- Warps that each core of a group holds (R55). -/
def LaunchSt.perCore (l : LaunchSt) : Nat := (l.warpCount + l.coreCount - 1) / l.coreCount

/-- CSCOPE as written (R408). -/
def LaunchSt.cscope (l : LaunchSt) : BitVec 3 := bitsAt l.flags 4 3

/-! ## Checks (R417) -/

/-- Whether a range can be read by the launch processor. -/
def State.readable (s : State) (root region va n : Nat) : Bool × State :=
  match s.vread root region va n with
  | (.ok _, s) => (true, s)
  | (.error _, s) => (false, s)

/-- Whether the image that an overlay table gives for an overlay can be read; and its length. -/
def State.imageReadable (s : State) (root region ovtab n : Nat) : Bool × Nat × State :=
  match s.overlayEntry none root region ovtab n with
  | (.error _, s) => (false, 0, s)
  | (.ok (va, len), s) =>
    let (ok, s) := s.readable root region va len
    (ok, len, s)

/-- The condition of code 10. The argument block of a handler task is the fault-ring entry itself (R448). -/
def State.contentsOk (s : State) (l : LaunchSt) (task : Bool) : Bool × State :=
  let root := s.eff l.region 6 0x30 8
  let entry := l.entry
  let (a, s) := if task then (true, s) else s.readable root l.region (l.f 0x38 8) (8 * l.f 0x4E 2)
  let (c, s) := s.readable root l.region (l.f 0x98 8) (l.f 0xA0 4)
  let (o, s) := s.readable root l.region l.ovtab 4096
  let (i0, _, s) := s.imageReadable root l.region l.ovtab 0
  let (ie, len, s) := s.imageReadable root l.region l.ovtab (ovlOf entry)
  (a && c && o && i0 && ie && offOf entry % 8 == 0 && offOf entry < len, s)

/-- Whether a field of a record is within a range. -/
def within (lo hi x : Nat) : Bool := lo ≤ x && x ≤ hi

/-- Whether a region or an ancestor of it is stopped (R447). -/
def State.isStopped (s : State) (region : Nat) : Bool :=
  (s.ancestry 1024 region).any s.stopped.contains

/-- The conditions that come before the reading of memory, in the order of the table, code 12 first. -/
def State.earlyReject (s : State) (l : LaunchSt) (task : Bool) : Option Nat :=
  let ok := regionReadable l.region
  let f := l.flags
  if ok && s.isStopped l.region then some 12
  else if !(within 1 0x7FFFFFFF (l.grid 0) && within 1 65535 (l.grid 1) && within 1 65535 (l.grid 2)) then some 1
  else if l.dim 0 = 0 || l.dim 1 = 0 || l.dim 2 = 0 || l.threads % 32 ≠ 0 || 65536 < l.threads then some 2
  else if l.nregs % 16 ≠ 0 || !within 16 256 l.nregs then some 3
  else if 992 < l.f 0x22 2 || 96 < l.gran then some 4
  else if bitsAt f 7 9 != 0#9 || 6 ≤ l.cscope.toNat || (l.span && (l.pin || l.pair)) || (l.pair && l.pin) ||
      (l.pin && 256 < l.total) then some 5
  else if (if l.span then 32 else 1) < l.coreCount then some 6
  else if l.dmax < l.dmin || 4 < l.dmax then some 7
  else if !ok || !(task || s.isAncestor l.submitter l.region) then some 8
  else if 4096 < l.f 0x4E 2 || 32768 < l.f 0xA0 4 then some 9
  else none

/-- The rejection code of a record, none for one that is accepted in its turn. -/
def State.checkRecord (s : State) (l : LaunchSt) (task : Bool) : Option Nat × State :=
  match s.earlyReject l task with
  | some c => (some c, s)
  | none =>
    let (ok, s) := s.contentsOk l task
    if !ok then (some 10, s)
    else if l.f 0x04 4 ≠ 0 || l.f 0x94 4 ≠ 0 || l.f 0xA4 4 ≠ 0 || l.f 0xB0 80 ≠ 0 then (some 11, s)
    else (none, s)

/-- LASTREJ and REJCNT of the block that R498 names. -/
def State.reject (s : State) (l : LaunchSt) (code : Nat) : State :=
  let b := if code = 8 || !regionReadable l.region then l.submitter else l.region
  (s.devPut (b + 0x48) 4 code).devPut (b + 0x4C) 4 ((s.devNat (b + 0x4C) 4 + 1) % 2 ^ 32)

/-! ## Queues (R407, R422 to R424) -/

/-- The block of a region entry of the control window; 0 for none. -/
def RegionEnt.block (e : RegionEnt) : Nat := 128 * (bitsAt e.base 7 57).toNat
/-- The records of a submission list: a power of two; 0 for a list that is disabled. -/
def State.listSize (s : State) (block : Nat) : Nat :=
  let n := s.devNat (block + 0x40) 4
  if within 1 12 n then 2 ^ n else 0

/-- The oldest pending record of a submission list (R423). -/
def State.listHead (s : State) (n : Nat) : Option QEntry :=
  match alFind n s.ctl.regions with
  | none => none
  | some e =>
    let size := s.listSize e.block
    if e.block = 0 || size = 0 then none
    else
      let head := s.devNat (e.block + 0x44) 4 % size
      if head = (bitsAt e.tail 0 12).toNat % size then none
      else
        some { record := recordOf (s.devRead (s.devNat (e.block + 0x38) 8 + 256 * head) 256), region := e.block,
               age := alGet s.clock head e.ages, warp := 0, id := 0 }

/-- The region of a queued launch. -/
def QEntry.launchRegion (e : QEntry) : Nat := regionOfRecord e.record e.region
/-- Whether entry `i` is the oldest of its region in a pending-launch queue. -/
def oldestOfRegion (q : List QEntry) (i : Nat) : Bool :=
  match q[i]? with
  | some e => (q.take i).all fun x => x.launchRegion != e.launchRegion
  | none => false

/-- The launch processor is about to read a queue: the block, the list and the record of a submission list are read as the device
reads (R398). -/
def State.readQueue (s : State) (q : QueueRef) : State :=
  match q with
  | .core _ _ => s
  | .list n => match alFind n s.ctl.regions with
    | none => s
    | some e =>
      let s := s.ownRead (lineNo e.block)
      let head := s.devNat (e.block + 0x44) 4 % max 1 (s.listSize e.block)
      let a := lineNo (s.devNat (e.block + 0x38) 8 + 256 * head)
      (s.ownRead a).ownRead (a + 1)

/-- The record that a reference names, when it is the oldest of its queue. -/
def State.front (s : State) (q : QueueRef) : Option QEntry :=
  match q with
  | .list n => s.listHead n
  | .core c i => if oldestOfRegion (s.core c).queue i then (s.core c).queue[i]? else none

/-- Every queue's oldest entries. -/
def State.fronts (s : State) : List QueueRef :=
  (s.ctl.regions.filterMap fun x => if (s.listHead x.1).isSome then some (QueueRef.list x.1) else none) ++
    (List.range s.cores.length).flatMap fun c =>
      (List.range (s.core c).queue.length).filterMap fun i =>
        if oldestOfRegion (s.core c).queue i then some (QueueRef.core c i) else none

/-- Whether a queue entry has been checked and waits for acceptance. -/
def State.checkedRef (s : State) (q : QueueRef) : Bool :=
  s.launches.any fun l => l.phase == .checked && l.queue == some q

/-- A reference after entry `i` of a core's queue has gone. -/
def QueueRef.after (c i : Nat) (q : QueueRef) : QueueRef :=
  match q with
  | .core d j => if d = c ∧ i < j then .core d (j - 1) else q
  | .list _ => q

/-- A queue entry is freed: SQHEAD advances, or the entry leaves its core's queue (R407, R423). -/
def State.freeEntry (s : State) (q : QueueRef) : State :=
  match q with
  | .list n =>
    (match alFind n s.ctl.regions with
      | none => s
      | some e =>
        let size := s.listSize e.block
        if size = 0 then s else s.devPut (e.block + 0x44) 4 ((s.devNat (e.block + 0x44) 4 % size + 1) % size))
  | .core c i =>
    let s := s.modCore c fun k => { k with queue := k.queue.eraseIdx i }
    { s with launches := s.launches.map fun (l : LaunchSt) => { l with queue := l.queue.map (QueueRef.after c i) } }

/-- A launch enters the launch processor's list, with its number. R197 asks only that the number of a launch be unique among those
that have not finished: the model takes its place in the list of all launches, counting from 0 (DESIGN CHOICE, log 52). -/
def State.addLaunch (s : State) (l : LaunchSt) : Nat × State :=
  (s.launches.length, { s with launches := s.launches ++ [l] })

/-- The constant image of a launch: the argument block and the constant section (R293, R415). -/
def constImage (args const : List MarkedByte) : List (Nat × Byte) :=
  let put := fun (base : Nat) (bs : List MarkedByte) (m : List (Nat × Byte)) =>
    (List.range bs.length).foldl (fun (m : List (Nat × Byte)) i => alSet (0 : Byte) (base + i) (nth ((0 : Byte), false) bs i).1 m) m
  put 0x8000 const (put 0 args [])

/-- A checked launch is accepted: the chain of its region is read, its constant image is copied and its queue entry freed; a copy that cannot be read
rejects it (R293, R407, R415, R417). -/
def State.accept (s : State) (l : Nat) : Bool × State :=
  let x := s.launch l
  let s := s.readRegion x.region
  let root := s.eff x.region 6 0x30 8
  let free := fun (s : State) => match x.queue with
    | some q => s.freeEntry q
    | none => s
  let fail := fun (s : State) => (false, free ((s.reject x 10).modLaunch l fun y => { y with phase := .rejected, queue := none }))
  match s.vread root x.region (x.f 0x38 8) (8 * x.f 0x4E 2) with
  | (.error _, s) => fail s
  | (.ok args, s) =>
    match s.vread root x.region (x.f 0x98 8) (x.f 0xA0 4) with
    | (.error _, s) => fail s
    | (.ok const, s) =>
      (true, free (s.modLaunch l fun y => { y with phase := .accepted, queue := none, image := constImage args const }))

end Sys2Proof.Machine
end

