-- ==== Sys2Proof/Machine/Placement.lean ====
section
/-! DEFINITION. Which cores can hold a group, the order of the launch processor's candidates, and placing, evicting and
restoring a group (R27, R53 to R56, R271, R291, R298, R301, R377, R411, R420, R424 to R431, R445, R457 to R462, R479). -/

namespace Sys2Proof.Machine

/-! ## What a core has left (R53, R54, R298, R426) -/

/-- The warps that hold a slot of a half of a core. -/
def State.onHalf (s : State) (c h : Nat) : List Warp :=
  s.warps.filter fun v => v.core == c && v.half == h && !v.exited && (s.group v.group).resident
/-- Register-file bytes that warps of a half hold. -/
def State.fileUsed (s : State) (c h : Nat) : Nat := ((s.onHalf c h).map fun v => 128 * v.regs.length).sum
/-- The resident groups of a core. -/
def State.groupsOn (s : State) (c : Nat) : List GroupSt := s.groups.filter fun g => g.resident && g.cores.contains c
/-- Whether a core holds a resident group or is reserved for a leader that does. -/
def State.coreBusy (s : State) (c : Nat) : Bool := !(s.groupsOn c).isEmpty || (s.core c).followerOf.isSome
/-- Unowned banks of a core in a mode. -/
def CoreSt.unowned (c : CoreSt) (m : BankMode) : Nat := (c.banks.filter fun b => b.owner.isNone && b.mode == m).length
/-- The binaries that have a resident warp on a core (R107). -/
def State.binariesOn (s : State) (c : Nat) : List Nat := ((s.groupsOn c).map fun g => (s.launch g.launch).ovtab).eraseDups

/-- An overlay that a load of overlay 0 may replace (R106, R108). -/
def State.replaceable (s : State) (c : Nat) (o : Overlay) : Bool :=
  !s.protects c o && !(o.num == 0 && (s.binariesOn c).contains o.binary)
/-- Whether a core holds overlay 0 of a binary or has a slot for it. -/
def State.overlayRoom (s : State) (c binary : Nat) : Bool :=
  ((s.core c).slotOf binary 0).isSome || (s.overlaySlot c (s.replaceable c)).isSome

/-- The launch of a candidate. -/
def State.candLaunch (s : State) : CandKind → Nat
  | .next l => l
  | .again g | .back g => (s.group g).launch

/-- Whether a core is free of reservations for another candidate (R425, R494). -/
def State.admits (s : State) (who : CandKind) (c : Nat) : Bool :=
  let k := s.core c
  c < 256 && !k.disabled && !k.failing && (k.reserved.isNone || k.reserved == some who)

/-- Whether a pair can be reserved: the core is even, neither core is excluded from pairing, and the follower holds
no group (R271). -/
def State.pairFree (s : State) (who : CandKind) (c : Nat) : Bool :=
  let f := s.core (c + 1)
  c % 2 == 0 && !(s.core c).array.excluded && !f.array.excluded && s.admits who (c + 1) && (s.groupsOn (c + 1)).isEmpty &&
    (f.followerOf.isNone || f.followerOf == some c) && f.gran + (s.launch (s.candLaunch who)).gran ≤ 96

/-- Whether a core can hold its part of a group, with `need` warps in each half (R426). -/
def State.coreHolds (s : State) (who : CandKind) (need : Nat × Nat) (c : Nat) : Bool :=
  let x := s.launch (s.candLaunch who)
  let k := s.core c
  let half := fun (h n : Nat) => (s.onHalf c h).length + n ≤ 32 && s.fileUsed c h + 128 * x.nregs * n ≤ 0x80000
  s.admits who c && half 0 need.1 && half 1 need.2 && x.nb + 1 ≤ k.unowned .cache + k.unowned .hold &&
    k.gran + x.gran ≤ 96 && (x.ovtab :: s.binariesOn c).eraseDups.length ≤ 2 && s.overlayRoom c x.ovtab &&
    k.followerOf.isNone && (!x.pair || s.pairFree who c)

/-! ## Budgets (R420, R445) -/

/-- The cores that hold a resident group of a region or of a descendant. -/
def State.coresIn (s : State) (region : Nat) : List Nat := ((s.groupsOf region).filter GroupSt.resident).flatMap s.coresOf
/-- Whether a region and its ancestors allow more cores and granules, and the evicted state that they keep once `freed` bytes of it are
given back. -/
def State.budgetOk (s : State) (region : Nat) (cores : List Nat) (gran freed : Nat) : Bool :=
  (s.ancestry 1024 region).all fun r =>
    (s.coresIn r ++ cores).eraseDups.length ≤ s.eff r 0 0x0C 2 && s.usedGran r + gran ≤ s.eff r 1 0x0E 2 &&
      s.usedSave r ≤ s.eff r 2 0x10 8 + freed

/-- The runs of an image area that are taken, by base and length. -/
def State.takenRuns (s : State) : List (Nat × Nat) :=
  s.groups.flatMap fun g => g.image.filterMap fun p => match p with
    | .hbm b n => some (b, n)
    | _ => none

/-- The lowest address from `a` on at which a run of `n` bytes fits below `top`, tried `k` times. -/
def fitRun (taken : List (Nat × Nat)) (n top : Nat) : Nat → Nat → Option Nat
  | 0, _ => none
  | k + 1, a =>
    if top < a + n then none
    else match taken.find? fun r => r.1 < a + n && a < r.1 + r.2 with
      | some r => fitRun taken n top k (r.1 + r.2)
      | none => some a

/-- A run of an image area for `n` bytes of a region's group, where SAVE allows it (R420, R445). -/
def State.allotRun (s : State) (region n : Nat) : Option ImagePart :=
  let base := s.eff region 2 0x18 8 + 0x10000
  let taken := s.takenRuns
  if (s.ancestry 1024 region).all fun r => s.usedSave r + n ≤ s.eff r 2 0x10 8 then
    (fitRun taken n (base + s.eff region 2 0x10 8) (taken.length + 1) base).map fun a => .hbm a n
  else none

/-! ## Space for images (R459) -/

/-- Bytes of a part of an image. -/
def ImagePart.bytes : ImagePart → Nat
  | .rf _ n => n
  | .bank _ _ => 32768
  | .hbm _ n => n
/-- Whether a part lies on a core. -/
def ImagePart.on (c : Nat) : ImagePart → Bool
  | .rf d _ => d == c
  | .bank d _ => d == c
  | .hbm _ _ => false

/-- The parts of one group's image that lie on a core are moved to its region's save area; none where SAVE does not
allow it. -/
def State.moveImage (s : State) (c g : Nat) : Option State :=
  let x := s.group g
  let mine := x.image.filter (ImagePart.on c)
  let n := (mine.map ImagePart.bytes).sum
  if n = 0 then some s
  else
    let region := (s.launch x.launch).region
    match s.allotRun region n with
    | none => none
    | some p =>
      let s := mine.foldl State.freePart s
      some ((s.modGroup g fun y => { y with image := y.image.filter (fun q => !q.on c) ++ [p] }).writeUsage region)

/-- Idle register-file bytes of a core, in units of 4 KiB. -/
def State.fileFree (s : State) (c : Nat) : Nat :=
  (0x100000 - s.fileUsed c 0 - s.fileUsed c 1 - (s.core c).imageBytes) / 4096 * 4096

/-- A core that gives space to a group moves image parts away when the group does not fit beside them (R459). -/
def State.vacate (s : State) (c file banks : Nat) : Option State :=
  if s.fileUsed c 0 + s.fileUsed c 1 + (s.core c).imageBytes + file ≤ 0x100000 && banks + 1 ≤ (s.core c).unowned .cache then some s
  else (List.range s.groups.length).foldl (fun (t : Option State) g => match t with
    | some t => t.moveImage c g
    | none => none) (some s)

/-- The space that a core advertises: idle register file, and unowned CACHE banks beyond the one it keeps. -/
def State.advertised (s : State) (c : Nat) : Nat :=
  if (s.core c).disabled then 0 else s.fileFree c + 32768 * ((s.core c).unowned .cache - 1)

/-- An image of `n` bytes is laid into a core: its register file first, then whole banks, which are drained and enter
HOLD mode; the parts, and the bytes left over. -/
def State.layImage (s : State) (c n : Nat) : List ImagePart × Nat × State :=
  let f := min n (s.fileFree c)
  let s := s.modCore c fun k => { k with imageBytes := k.imageBytes + f }
  let want := min ((n - f + 32767) / 32768) ((s.core c).unowned .cache - 1)
  let ids := ((List.range 32).filter fun i =>
    let b := nth Bank.cache (s.core c).banks i
    b.owner.isNone && b.mode == .cache).take want
  let s := ids.foldl (fun (t : State) i => (t.drainBank c i).modBank c i fun b => b.enter .hold) s
  ((if f = 0 then [] else [.rf c f]) ++ ids.map fun i => .bank c i, n - f - 32768 * want, s)

/-- The core with the most advertised space, the lower index on a tie. -/
def State.mostSpace (s : State) (cs : List Nat) : Option Nat :=
  cs.foldl (fun (b : Option Nat) c => match b with
    | none => some c
    | some d => if s.advertised d < s.advertised c || (s.advertised d == s.advertised c && c < d) then some c else some d) none

/-- An image laid into neighbours, the one with the most space first. -/
def State.layAll (s : State) : Nat → List Nat → Nat → List ImagePart × State
  | 0, _, _ => ([], s)
  | k + 1, cs, n =>
    if n = 0 then ([], s)
    else match s.mostSpace cs with
      | none => ([], s)
      | some c =>
        let (ps, left, s) := s.layImage c n
        let (rest, s) := s.layAll k (cs.filter (· ≠ c)) left
        (ps ++ rest, s)

/-- Granules of a bound tile on all cores that hold a part of it. -/
def TileKind.total : TileKind → Nat
  | .t128p => 8
  | k => k.granules

/-- Bytes of a group's image, in units of 4 KiB (R458; log 33). -/
def State.imageSize (s : State) (g : Nat) : Nat :=
  let x := s.group g
  let live := (x.warps.map s.warp).filter fun v => !v.exited
  let warps := (live.map fun v => 128 * v.regs.length + 12288).sum
  let banks := (x.saved.filter fun b => b.mode == .scratch || b.mode == .fifo).length
  let tiles := (live.flatMap fun v => v.strandList.filterMap fun st => st.tile.map fun t => t.kind.total).sum
  (warps + 32768 * banks + 16384 * tiles + 4096 + 4095) / 4096 * 4096

/-- A place for a group's image: its cores' neighbours, and otherwise its region's save area (R420, R459). -/
def State.placeImage (s : State) (g : Nat) (cores : List Nat) : Option State :=
  let n := s.imageSize g
  let near := (cores.flatMap neighbours).eraseDups
  let region := (s.launch (s.group g).launch).region
  if n ≤ (near.map s.advertised).sum then
    let (ps, s) := s.layAll near.length near n
    some (s.modGroup g fun x => { x with image := ps })
  else (s.allotRun region n).map fun p => s.modGroup g fun x => { x with image := [p] }

/-! ## The choice of cores (R55, R377, R426, R428) -/

/-- Idle cores of a die. -/
def State.idleCores (s : State) (d : Nat) : Nat :=
  ((List.range 64).filter fun i => !s.coreBusy (64 * d + i) && !(s.core (64 * d + i)).disabled).length
/-- A die entered in the order of R426: most idle cores first, the lower number on a tie. -/
def State.insertDie (s : State) (d : Nat) : List Nat → List Nat
  | [] => [d]
  | e :: l => if s.idleCores e < s.idleCores d || (s.idleCores e == s.idleCores d && d < e) then d :: e :: l else e :: s.insertDie d l
/-- The dies in the order of R426. -/
def State.dieOrder (s : State) : List Nat := [0, 1, 2, 3].foldl (fun l d => s.insertDie d l) []
/-- The cores of a die. -/
def dieCores (d : Nat) : List Nat := (List.range 64).map (64 * d + ·)

/-- Warps of each half of a list of local indices. -/
def halfCounts (locs : List Nat) : Nat × Nat :=
  ((locs.filter fun k => k % 2 == 0).length, (locs.filter fun k => k % 2 == 1).length)

/-- The local indices that a new group has at each position (R55). -/
def LaunchSt.newLocs (l : LaunchSt) : List (List Nat) :=
  (List.range l.coreCount).map fun p => List.range (min l.perCore (l.warpCount - p * l.perCore))
/-- Those of the live warps of an evicted group. -/
def State.liveLocs (s : State) (g : Nat) : List (List Nat) :=
  let live := ((s.group g).warps.map s.warp).filter fun v => !v.exited
  (List.range (s.launch (s.group g).launch).coreCount).map fun p => (live.filter fun v => v.pos == p).map fun v => v.loc

/-- Whether a core can hold a part and give the space for it. -/
def State.partFits (s : State) (who : CandKind) (locs : List Nat) (c : Nat) : Bool :=
  let l := s.candLaunch who
  s.coreHolds who (halfCounts locs) c &&
    (s.vacate c (128 * (s.launch l).nregs * locs.length) (s.launch l).nb).isSome

/-- The cores of a placement, with the followers of pairs. -/
def LaunchSt.withFollowers (l : LaunchSt) (cs : List Nat) : List Nat := if l.pair then cs ++ cs.map (· + 1) else cs
/-- Granules that a group holds on its cores. -/
def LaunchSt.granTotal (l : LaunchSt) (n : Nat) : Nat := l.gran * n * (if l.pair then 2 else 1)

/-- The bytes of evicted state that a candidate gives back when it is placed. -/
def State.givesBack (s : State) : CandKind → Nat
  | .back g => ((s.group g).image.map ImagePart.hbmBytes).sum
  | _ => 0
/-- Whether a placement of a candidate on cores is within the budgets; `any` leaves the budgets out of account. -/
def State.coresOk (s : State) (who : CandKind) (cs : List Nat) (any : Bool := false) : Bool :=
  let x := s.launch (s.candLaunch who)
  any || s.budgetOk x.region (x.withFollowers cs) (x.granTotal cs.length) (s.givesBack who)

/-- A core for one position of a group among the cores `cs`, where `fits` says which core fits which position: the first that is
free, or one that another position gives up for a core of its own; with the cores that have been tried. -/
def seatPart (fits : Nat → Nat → Bool) (cs : List Nat) : Nat → List (Nat × Nat) → List Nat → Nat → Option (List (Nat × Nat)) × List Nat
  | 0, _, seen, _ => (none, seen)
  | n + 1, m, seen, p =>
    cs.foldl (fun (r : Option (List (Nat × Nat)) × List Nat) c =>
      if r.1.isSome || r.2.contains c || !fits p c then r
      else match m.find? fun x => x.1 == c with
        | none => (some ((c, p) :: m), c :: r.2)
        | some x => match seatPart fits cs n m (c :: r.2) x.2 with
          | (some m', seen) => (some ((c, p) :: m'.filter fun y => y.1 != c || y.2 != x.2), seen)
          | (none, seen) => (none, seen)) (none, seen)
/-- The core of each position of a group, each on a core of its own; none where they do not all fit. -/
def seatParts (fits : Nat → Nat → Bool) (cs : List Nat) (n : Nat) : Option (List Nat) :=
  ((List.range n).foldl (fun (m : Option (List (Nat × Nat))) p => m.bind fun m => (seatPart fits cs (n + 1) m [] p).1) (some [])).map fun m =>
    (List.range n).map fun p => ((m.find? fun x => x.2 == p).map Prod.fst).getD 0

/-- The cores that can be given to positions, taken in the order of `cs`: each that can be added to those before it. -/
def pickCores (fits : Nat → Nat → Bool) (cs : List Nat) (n : Nat) : List Nat :=
  (cs.foldl (fun (m : List (Nat × Nat)) c =>
    ((seatPart (fun c p => fits p c) (List.range n) (n + 1) m [] c).1).getD m) []).map Prod.snd
/-- The cores of a die, those first that the region of a candidate uses, then those that its parent uses, and so on: a placement on the
first of them adds the fewest cores to the usage of every one of these regions (R420). -/
def State.byUse (s : State) (region d : Nat) : List Nat :=
  let used := (s.ancestry 1024 region).map s.coresIn
  let rank := fun (c : Nat) => (used.takeWhile fun l => !l.contains c).length
  (List.range (used.length + 1)).flatMap fun k => (dieCores d).filter fun c => rank c == k

/-- The cores of one die that a group takes, where they exist, each able to hold the part of its position (R55, R426). R426 names one
lowest core only: a spanning group's positions take the lowest cores that fit them, in ascending order, and another only where a
later position needs that core; where the budgets do not allow that set, it takes the set that adds the fewest cores to them, if
they allow it (R420, R424; DESIGN CHOICE, log 52). -/
def State.onDie (s : State) (who : CandKind) (locs : List (List Nat)) (d : Nat) (any : Bool := false) : Option (List Nat) :=
  let n := locs.length
  let fits := fun (p c : Nat) => s.partFits who (nth [] locs p) c
  let region := (s.launch (s.candLaunch who)).region
  if n = 1 then ((dieCores d).find? fun c => s.partFits who (locs.headD []) c && s.coresOk who [c] any).map fun c => [c]
  else match seatParts fits (dieCores d) n with
    | none => none
    | some cs =>
      if s.coresOk who cs any then some cs
      else
        let few := pickCores fits (s.byUse region d) n
        (seatParts fits ((dieCores d).filter few.contains) n).filter fun cs => s.coresOk who cs any

/-- The die set at acceptance; none while fewer than DMIN dies can hold the group (R428). -/
def State.dieSet (s : State) (l : Nat) (any : Bool := false) : Option (List Nat) :=
  let x := s.launch l
  let ds := s.dieOrder.filter fun d => (s.onDie (.next l) x.newLocs d any).isSome
  if ds.length < x.dmin then none else some (ds.take x.dmax)

/-- Free private areas (R479). -/
def State.areasFree (s : State) : Nat := (bitsAt s.ctl.ppcount 0 24).toNat - s.ctl.areas.length

/-- The core of each group of a pinned launch, which are placed together (R377). -/
def State.pinnedCores (s : State) (l : Nat) (any : Bool := false) : Option (List Nat) :=
  let x := s.launch l
  let cs := List.range x.total
  if cs.all (fun c => s.partFits (.next l) (x.newLocs.headD []) c) && s.coresOk (.next l) cs any && x.total * x.warpCount ≤ s.areasFree then some cs
  else none

/-- The cores that a group takes within a die set, in the order of R426. -/
def State.choose (s : State) (who : CandKind) (locs : List (List Nat)) (dies : List Nat) (any : Bool := false) : Option (List Nat) :=
  (s.dieOrder.filter dies.contains).findSome? fun d => s.onDie who locs d any

/-- The cores that the next group of a launch would take; under PIN one for each of its groups. -/
def State.whereNext (s : State) (l : Nat) (any : Bool := false) : Option (List Nat) :=
  let x := s.launch l
  if x.pin then s.pinnedCores l any
  else if s.areasFree < x.warpCount then none
  else match if x.dies = [] then s.dieSet l any else some x.dies with
    | none => none
    | some ds => s.choose (.next l) x.newLocs ds any
/-- The core of a pinned group: the one that its place in the grid names (R377). -/
def State.pinnedAt (s : State) (who : CandKind) (lin : Nat) (locs : List (List Nat)) (any : Bool) : Option (List Nat) :=
  if s.partFits who (locs.headD []) lin && s.coresOk who [lin] any then some [lin] else none
/-- The cores that a discarded group that is to run again would take (R446). -/
def State.whereAgain (s : State) (g : Nat) (any : Bool := false) : Option (List Nat) :=
  let l := (s.group g).launch
  let x := s.launch l
  if s.areasFree < x.warpCount then none
  else if x.pin then s.pinnedAt (.again g) (s.group g).lin x.newLocs any
  else s.choose (.again g) x.newLocs x.dies any
/-- The cores that an evicted group would take (R377, R426, R428, R460). -/
def State.whereBack (s : State) (g : Nat) (any : Bool := false) : Option (List Nat) :=
  let l := (s.group g).launch
  if (s.launch l).pin then s.pinnedAt (.back g) (s.group g).lin (s.liveLocs g) any
  else s.choose (.back g) (s.liveLocs g) (s.launch l).dies any

/-! ## Candidates (R411, R424) -/

/-- A candidate with its priority, age and region. -/
structure Cand where
  kind : CandKind
  prio : Nat
  age : Nat
  region : Nat
  deriving DecidableEq, Repr

/-- The effective priority of a region. -/
def State.prioOf (s : State) (region : Nat) : Nat := s.eff region 3 0x20 1
/-- The candidates of the launch processor. -/
def State.cands (s : State) : List Cand :=
  let mk := fun (k : CandKind) (age l : Nat) =>
    ({ kind := k, prio := s.prioOf (s.launch l).region, age := age, region := (s.launch l).region } : Cand)
  ((List.range s.launches.length).filterMap fun l =>
    let x := s.launch l
    if (x.phase = .checked ∨ x.phase = .accepted) ∧ x.next < x.total then some (mk (.next l) x.age l) else none) ++
  (List.range s.groups.length).filterMap fun g =>
    let x := s.group g
    match x.phase, x.woken with
    | .waiting, _ => some (mk (.again g) x.age x.launch)
    | .evicted, some t => some (mk (.back g) t x.launch)
    | _, _ => none

/-- Whether a candidate is served before another. -/
def Cand.before (a b : Cand) : Bool := b.prio < a.prio || (a.prio == b.prio && a.age < b.age)
/-- Whether a candidate is a group that has never been placed or runs anew. -/
def Cand.fresh (a : Cand) : Bool :=
  match a.kind with
  | .back _ => false
  | _ => true
/-- The cores that a candidate would take; `any` leaves the budgets out of account. -/
def State.whereTo (s : State) (a : Cand) (any : Bool := false) : Option (List Nat) :=
  match a.kind with
  | .next l => s.whereNext l any
  | .again g => s.whereAgain g any
  | .back g => s.whereBack g any
/-- Whether a candidate cannot be placed for want of budget alone (R410). -/
def State.wantsBudget (s : State) (a : Cand) : Bool := (s.whereTo a).isNone && (s.whereTo a true).isSome

/-- The cores of a candidate whose turn it is: every record is checked, no candidate that comes before it can be placed,
and no group of a launch of its own region that comes before it still waits to run (R411, R424; log 30). A module that is locked
places nothing (R491). -/
def State.serves (s : State) (a : Cand) : Option (List Nat) :=
  if s.ctl.modst = .locked || s.fronts.any fun q => !s.checkedRef q then none
  else if s.cands.any fun b => b.before a && ((b.fresh && a.region == b.region) || (s.whereTo b).isSome) then none
  else s.whereTo a

/-! ## Placing -/

/-- A slot of a half: the one asked for where it is free, and otherwise the lowest that is. -/
def State.slotFor (s : State) (c h : Nat) (ask : Option Nat) : Nat :=
  let used := (s.onHalf c h).map fun v => v.slot
  match ask with
  | some n => if n < 32 && !used.contains n then n else lowestFree used 32 0
  | none => lowestFree used 32 0

/-- Whether the active set of a half has a place (R431). -/
def State.activeRoom (s : State) (c h : Nat) : Bool := ((s.onHalf c h).filter fun v => v.active).length < 8

/-- The group's banks on a core: the lowest unowned CACHE banks, in the modes given (R298, R301). -/
def State.takeBanks (s : State) (c g : Nat) (modes : List (BankMode × List FifoEntry)) : State :=
  let free := (List.range 32).filter fun i =>
    let b := nth Bank.cache (s.core c).banks i
    b.owner.isNone && b.mode == .cache
  (modes.zipIdx.zip free).foldl (fun (t : State) (x : ((BankMode × List FifoEntry) × Nat) × Nat) =>
    (t.drainBank c x.2).modBank c x.2 fun _ => { mode := x.1.1.1, owner := some (g, x.1.2), fifo := x.1.1.2, pending := [] }) s

/-- Overlay 0 of a binary is there, or its load begins (R106). The code of a binary leaves a core with its last resident group: the spec
does not say whether an old copy may be used when the binary comes back, and here overlay 0 is loaded again (DESIGN CHOICE,
log 55). -/
def State.loadOverlay0 (s : State) (c l : Nat) : State :=
  let x := s.launch l
  if ((s.core c).slotOf x.ovtab 0).isSome then s
  else match s.overlaySlot c (s.replaceable c) with
    | none => s
    | some k =>
      let root := s.eff x.region 6 0x30 8
      (match s.overlayEntry none root x.region x.ovtab 0 with
        | (.error _, s) => s
        | (.ok (va, len), s) =>
          match s.vread root x.region va len with
          | (.error _, s) => s
          | (.ok bs, s) => s.startOverlay c k x.ovtab 0 (codeWords bs))

/-- A core takes its part of a group: space is made, and the banks, the granules and the follower are taken. Cores that stay reserved for
the candidate are given up with it (`State.unreserve`). -/
def State.takeCore (s : State) (l g c : Nat) (locs : List Nat) (modes : List (BankMode × List FifoEntry)) : State :=
  let x := s.launch l
  let s := ((s.vacate c (128 * x.nregs * locs.length) x.nb).getD s).loadOverlay0 c l
  let s := (s.takeBanks c g modes).modCore c fun k => { k with gran := k.gran + x.gran }
  if x.pair then
    s.modCore (c + 1) fun k => { k with followerOf := some c, gran := k.gran + x.gran }
  else s

/-- The lowest free private area (R479). -/
def State.newArea (s : State) : Nat := lowestFree s.ctl.areas s.ctl.areas.length 0

/-- A warp of a new group, in the state of R27 (R14, R100, R415, R477, R479). -/
def State.newWarp (s : State) (l g c k pos loc : Nat) (ask : Option Nat) : State :=
  let x := s.launch l
  let w := s.warps.length
  let area := s.newArea
  let base := s.ctl.ppbase + BitVec.ofNat 64 (65536 * (bitsAt s.ctl.pparea 0 16).toNat * area)
  let v : Warp := { Warp.start x.nregs with
    group := g, index := k, core := c, pos := pos, loc := loc, half := loc % 2, slot := s.slotFor c (loc % 2) ask, area := area,
    active := s.activeRoom c (loc % 2), readySince := s.clock + 1, pc := x.entry, trapBase := BitVec.ofNat 32 (x.f 0x90 4),
    tableBase := BitVec.ofNat 64 (x.f 0x40 8), dstkBase := base, age := s.clock }
  let s := { s with warps := s.warps ++ [v] }
  (s.modCtl fun c => { c with areas := area :: c.areas }).modGroup g fun y => { y with warps := y.warps ++ [w] }

/-- The warps of a new group (R51, R55). -/
def State.newWarps (s : State) (l g : Nat) (cores slots : List Nat) : State :=
  let x := s.launch l
  (List.range x.warpCount).foldl (fun (t : State) k =>
    let pos := k / x.perCore
    t.newWarp l g (nth 0 cores pos) k pos (k % x.perCore) slots[k]?) s

/-- A candidate has been placed: no core is kept for it any more (R425). -/
def State.unreserve (s : State) (who : CandKind) : State :=
  { s with cores := s.cores.map fun (k : CoreSt) => if k.reserved = some who then { k with reserved := none } else k }

/-- A group that has been made for a candidate runs on its cores from the start of its program (R27, R56, R291). -/
def State.startGroup (s : State) (who : CandKind) (l g : Nat) (cores slots : List Nat) : State :=
  let x := s.launch l
  let s := s.modGroup g fun y => { y with
    cores := cores, warps := [], phase := .resident, waitFrom := s.gtime, age := s.clock, since := s.gtime, root := s.eff x.region 6 0x30 8,
    granUsed := cores.map fun _ => 0, rings := cores.map fun _ => 0,
    staggered := x.stagger != 0 && y.rank != 0 }
  let s := s.unreserve who
  let s := (cores.zip x.newLocs).foldl (fun (t : State) (c : Nat × List Nat) =>
    t.takeCore l g c.1 c.2 (List.replicate x.nb (.scratch, []))) s
  ((s.newWarps l g cores slots).modLaunch l fun z => { z with waitFrom := s.gtime }).writeUsage x.region

/-- The next group of a launch is placed on cores (R52, R427). -/
def State.placeNext (s : State) (l : Nat) (cores slots : List Nat) : State :=
  let x := s.launch l
  let g := s.groups.length
  let lin := x.next
  let y : GroupSt := { GroupSt.none with
    launch := l, lin := lin, gx := lin % x.grid 0, gy := lin / x.grid 0 % x.grid 1, gz := lin / (x.grid 0 * x.grid 1),
    rank := x.placed }
  let s := { s with groups := s.groups ++ [y] }
  let s := s.modLaunch l fun z => { z with next := z.next + 1, placed := z.placed + 1 }
  s.startGroup (.next l) l g cores slots

/-! ## Restoring (R298, R301, R460) -/

/-- The modes and the FIFO contents of the banks saved for a position. -/
def GroupSt.savedModes (g : GroupSt) (pos nb : Nat) : List (BankMode × List FifoEntry) :=
  (List.range nb).map fun j => match g.saved.find? fun b => b.pos == pos && b.j == j with
    | .some b => (b.mode, b.fifo)
    | .none => (.scratch, [])

/-- A live warp takes its place on a core; its blocked instruction issues again, but a held warp stays held. -/
def State.seatWarp (s : State) (w c : Nat) (ask : Option Nat) : State :=
  let v := s.warp w
  let slot := s.slotFor c v.half ask
  let act := s.activeRoom c v.half
  s.modWarp w fun v => { v with
    core := c, slot := slot, active := act, readySince := s.clock + 1, wait := none, age := s.clock }

/-- An evicted group is restored on cores. -/
def State.putBack (s : State) (g : Nat) (cores slots : List Nat) : State :=
  let y := s.group g
  let x := s.launch y.launch
  let s := (s.freeImage g).unreserve (.back g)
  let live := y.warps.filter fun w => !(s.warp w).exited
  let s := (cores.zipIdx.zip (s.liveLocs g)).foldl (fun (t : State) (c : (Nat × Nat) × List Nat) =>
    t.takeCore y.launch g c.1.1 c.2 (y.savedModes c.1.2 x.nb)) s
  let s := live.foldl (fun (t : State) w => t.modWarp w fun v => { v with core := 256 }) s
  let s := s.modGroup g fun z => { z with
    cores := cores, phase := .resident, since := s.gtime, woken := none, saved := [], staggered := false,
    root := s.eff x.region 6 0x30 8 }
  let s := live.zipIdx.foldl (fun (t : State) (k : Nat × Nat) =>
    t.seatWarp k.1 (nth 0 cores (t.warp k.1).pos) slots[k.2]?) s
  s.writeUsage x.region

end Sys2Proof.Machine
end

