-- ==== Sys2Proof/Machine/Waits.lean ====
section
/-! DEFINITION. What a warp waits for: long latency, blocking points, wake conditions, and what every turn settles about
them (R431, R432, R456, R460, R462). -/

namespace Sys2Proof.Machine

/-! ## Strands -/

/-- The window slot that a parcel reads (R124, R128, R142, R146). -/
def Instr.window : Instr → Option (BitVec 3)
  | .amov m w | .movc m w | .afadd m w | .afsub m w | .afrsub m w | .afmul m w | .afmac m w | .afmsc m w | .afmin m w
  | .afmax m w | .afdiv m w | .aexp2 m w | .aiadd m w | .aisub m w | .aimul m w | .aimulh m w | .aand m w | .aor m w
  | .axor m w | .asel m w => if m.c then none else some w
  | .ashl _ n w | .ashr _ n w => if n = 0 then some w else none
  | .ashfl mode _ w => if mode = 3 then some w else none
  | .aslc _ _ w | .asts _ _ w => some w
  | .acmp c _ _ w => if c then none else some w
  | _ => none

/-- The register that a running segment's parcel waits for: the source of a pending window. -/
def State.pendingWindow (s : State) (w : Nat) (g : Segment) : Option Nat :=
  match s.parcel w g.pc with
  | none => none
  | some x =>
    match Instr.window (decodeShort x ((s.parcel w (g.pc + 2)).getD 0)) with
    | none => none
    | some n =>
      let y := g.slot n
      if segInv g.hdr n.toNat && !y.ready && !segWfe g.hdr then some y.src.toNat else none

/-! ## The spine -/

/-- The instruction at a warp's PC. -/
def State.spineInstr (s : State) (w : Nat) : Option Instr :=
  (s.code w (s.warp w).pc).map fun x => decodeAt (s.warp w).rep x

/-- The state with another warp named in `State.cur`. -/
def State.asWarp (s : State) (w : Nat) : State := { s with cur := { s.cur with warp := w, unit := 0 } }

/-- Whether a register's pending producer is a load or an engine operation (R38, R432). -/
def State.loading (s : State) (w r : Nat) : Bool :=
  (s.loads.any fun x => x.warp == w && (regsOfDst x.wide x.d).contains r) || s.nfs.any fun x => x.warp == w && x.d.toNat == r

/-- Whether a register waits for an LD or an LDS of host or pool memory (R456). -/
def State.remoteLoad (s : State) (w r : Nat) : Bool :=
  s.loads.any fun x => x.warp == w && (x.kind == .ld || x.kind == .lds) && (regsOfDst x.wide x.d).contains r &&
    x.pieces.any fun p => match s.frame p.pa with
      | .host _ | .pool _ _ => true
      | _ => false

/-- Whether the FIFO bank of a waiting FPOP still lacks entries. -/
def State.fifoShort (s : State) (w : Nat) : Bool :=
  match s.spineInstr w with
  | some (.fpop _ w64 _ j) =>
    (match s.bankAt (s.warp w).group (s.warp w).pos j.toNat with
      | some (_, b) => b.fifo.length < (if w64 then 8 else 4)
      | none => false)
  | _ => false
/-- Whether a waiting WAITC still has too many operations outstanding. -/
def State.waitcOpen (s : State) (w : Nat) : Bool :=
  match s.spineInstr w with
  | some (.waitc _ cls n) => n.toNat < (s.warp w).outstanding cls.toNat
  | _ => false

/-- Whether an MWAIT's watch is armed and its limit has not passed (R344). -/
def State.mwaitOpen (s : State) (w : Nat) : Bool :=
  (s.asWarp w).watchEnd.isNone && match (s.warp w).mwait with
    | some q => q.limit == 0 || s.gtime < q.start + q.limit
    | none => true

/-- Whether the spine of a warp still waits for what it was recorded to wait for. -/
def State.waitOpen (s : State) (w : Nat) : Bool :=
  let v := s.warp w
  match v.wait with
  | none => false
  | some (.reg r) | some (.output r) => !(v.reg r).full
  | some (.pred p) => !(v.predAt p).ready
  | some (.bar n) => !(s.asWarp w).barOpen n
  | some .fpop => s.fifoShort w
  | some .mwait => s.mwaitOpen w
  | some .launch => 4 ≤ (s.core v.core).queue.length
  | some .baton => (s.core v.core).baton != some w && !((s.core v.core).baton.isNone && (s.core v.core).batonQ.isEmpty)
  | some .phase => (s.asWarp w).leads
  | some .engine => s.waitcOpen w
  | some _ => true

/-- Whether the spine of a warp waits on long latency (R432). -/
def State.spineLong (s : State) (w : Nat) : Bool :=
  s.waitOpen w && match (s.warp w).wait with
    | some (.reg r) | some (.output r) => s.loading w r
    | some (.pred _) | some (.bar _) | some .fpop | some .baton | some .mwait | some .lwait | some .launch | some .phase
    | some .engine => true
    | _ => false

/-- Whether a warp is blocked on long latency: its spine and every live strand (R432). -/
def State.longBlocked (s : State) (w : Nat) : Bool :=
  s.spineLong w && (s.warp w).strandList.all fun st => match st.segs with
    | [] => true
    | g :: _ => g.started && match s.pendingWindow w g with
      | some r => s.loading w r
      | none => false

/-- Whether a warp is at a blocking point (R443, R456). -/
def State.atBlockingPoint (s : State) (w : Nat) : Bool :=
  let v := s.warp w
  v.held.isSome || (v.trap.isNone && s.waitOpen w && (match v.wait with
    | some (.reg r) => s.remoteLoad w r
    | some (.bar _) | some .fpop | some .mwait | some .lwait | some .launch | some .baton => true
    | _ => false) && v.strandList.all fun st => match st.segs with
      | [] => true
      | g :: _ => !g.started || (s.pendingWindow w g).isSome)

/-- Whether a blocked warp's wake condition can come to hold on its own (R456, R457). -/
def Warp.canWake (v : Warp) : Bool :=
  v.held.isSome || match v.wait with
    | some (.bar _) | some .fpop => false
    | _ => true

/-- Whether the wake condition of a warp of an evicted group holds (R449, R456, R460, R462). -/
def State.wakes (s : State) (w : Nat) : Bool :=
  let v := s.warp w
  match v.held with
  | some h => h.resolve.isSome
  | none => match v.wait with
    | none => true
    | some (.reg r) => (v.reg r).full
    | some .mwait => !s.mwaitOpen w
    | some .launch => (s.core v.core).queue.length < 4
    | some .baton => true
    | _ => false

/-! ## What every turn settles -/

/-- Whether a group's wake conditions are kept for it: it is evicted, or its eviction is under way (R457). -/
def GroupSt.out (g : GroupSt) : Bool := g.phase == .evicted || g.phase == .leaving
/-- The clock at which a wake condition of an evicted group comes to hold is noted (R411, R457, R460). -/
def State.noteWakes (s : State) : State :=
  if s.groups.any fun g => g.out && g.woken.isNone then
    { s with groups := s.groups.map fun (g : GroupSt) =>
        if g.out ∧ g.woken = none ∧ (g.warps.any fun w => !(s.warp w).exited && s.wakes w) then
          { g with woken := some s.clock, waitFrom := s.gtime }
        else g }
  else s

/-- Whether a warp is resident outside its half's active set (R431). -/
def State.pendingWarp (s : State) (v : Warp) : Bool := !v.active && !v.exited && (s.group v.group).resident

/-- The pending warps of a half that have been ready, the longest first. -/
def State.readiest (s : State) (c h : Nat) : Option Nat :=
  (List.range s.warps.length).foldl (fun (b : Option Nat) w =>
    let v := s.warp w
    if v.core = c ∧ v.half = h ∧ s.pendingWarp v ∧ v.readySince ≠ 0 then
      match b with
      | some x => if v.readySince < (s.warp x).readySince then some w else b
      | none => some w
    else b) none

/-- The free places of a half's active set are taken by the pending warps that have been ready longest; of a half with at most
eight resident warps every one is active (R431, R432). -/
def State.fillActive : Nat → State → Nat × Nat → State
  | 0, s, _ => s
  | n + 1, s, x =>
    if !s.activeRoom x.1 x.2 then s
    else match s.readiest x.1 x.2 with
      | some w => State.fillActive n (s.modWarp w fun v => { v with active := true }) x
      | none =>
        if (s.onHalf x.1 x.2).length ≤ 8 then
          { s with warps := s.warps.map fun (v : Warp) =>
              if v.core = x.1 ∧ v.half = x.2 ∧ s.pendingWarp v then { v with active := true } else v }
        else s

/-- Since when each pending warp has been ready is noted, and pending warps enter the active sets that have free places
(R431, R432). -/
def State.noteReady (s : State) : State :=
  if s.warps.any s.pendingWarp then
    let note := fun (w : Nat) (v : Warp) =>
      if s.pendingWarp v then
        if s.longBlocked w then { v with readySince := 0 }
        else if v.readySince = 0 then { v with readySince := s.clock + 1 } else v
      else v
    let t : State := { s with warps := s.warps.mapIdx note }
    ((s.warps.filter s.pendingWarp).map fun v => (v.core, v.half)).eraseDups.foldl (State.fillActive 9) t
  else s

/-- What a turn settles beside the effect of its instruction or event. -/
def State.settleTurn (s : State) : State := s.noteWakes.noteReady

end Sys2Proof.Machine
end

