-- ==== Sys2Proof/Machine/Domain.lean ====
section
/-! DEFINITION. The fault domain: killing, discarding and restarting groups, stopping a region, escalation, handler
tasks and their resolution (R66, R442 to R449, R455). -/

namespace Sys2Proof.Machine

/-! ## Killing and restarting (R446, R447, R449) -/

/-- The overlay that an operation of a warp loads is loaded (R360). -/
def State.finishLoad (s : State) (o : EngOp) : State :=
  match o.work with
  | .ovld core slot =>
    let f := fun (x : Option Overlay) => x.map fun y => { y with loading := false }
    s.modCore core fun c => { c with overlays := c.overlays.modify slot f }
  | _ => s

/-- A warp is stopped for good: its segments are cancelled as by SQUASH 0xFF, and what it still waits for is dropped; the
overlays that it loads are loaded, and its steps on a version that is discarded are never taken (R373). -/
def State.stopWarp (s : State) (w : Nat) : State :=
  let s := (s.warp w).eng.foldl State.finishLoad s
  let s := s.modWarp w fun v =>
    { v.squashMask 0xFF with eng := [], matx := [], fails := [], bcasts := [], graph := none, mwait := none }
  let versioned := s.versionedOf w
  { s with
    loads := s.loads.filter fun x => x.warp != w
    writes := s.writes.filter fun x => !(versioned && x.warp == some w && x.kind.inVersion)
    scs := s.scs.filter fun x => x.warp != w
    nfs := s.nfs.filter fun x => x.warp != w }

/-- A warp of a group that is killed: its segments are cancelled as by SQUASH 0xFF, it issues nothing more, and what it waits for is
dropped; its engine operations go on (R449), but for what is on its way to a version that is discarded. -/
def State.quellWarp (s : State) (w : Nat) : State :=
  let versioned := s.versionedOf w
  let s := s.modWarp w fun v =>
    { v.squashMask 0xFF with
      fails := [], bcasts := [], mwait := none, trap := none, held := none, escalating := false, stepArmed := false, wait := none }
  { s with
    writes := s.writes.filter fun x => !(versioned && x.warp == some w && x.kind.inVersion)
    loads := s.loads.filter fun x => x.warp != w
    scs := s.scs.filter fun x => x.warp != w
    nfs := s.nfs.filter fun x => x.warp != w }

/-- A group is killed: its warps leave as by EXIT, and it retires without a commit (R449). -/
def State.killGroup (s : State) (g : Nat) : State :=
  let x := s.group g
  let s := s.modGroup g fun x => { x with version := [], vresv := [], committing := false }
  match x.phase with
  | .retired | .killed => s
  | .waiting => s.modGroup g fun x => { x with phase := .retired }
  | .evicted => (s.liveWarps g).foldl (fun (t : State) w => (t.stopWarp w).leave w) s
  | .resident | .leaving =>
    let l := s.liveWarps g
    let s := l.foldl State.quellWarp (s.modGroup g fun x => { x with phase := .killed })
    l.foldl State.settleKill s

/-- A group's version is discarded and its resources freed without a commit; it is then a candidate to run again
(R446). -/
def State.restartGroup (s : State) (g : Nat) (counted : Bool) : State :=
  let region := (s.launch (s.group g).launch).region
  let s := (s.liveWarps g).foldl (fun (t : State) w => (t.stopWarp w).depart w) s
  let s := s.freeGroup g
  (s.modGroup g fun x => { x with
    phase := .waiting, waitFrom := s.gtime, version := [], vresv := [], warps := [], cores := [], woken := none, age := s.clock,
    tries := if counted then x.tries + 1 else x.tries }).writeUsage region

/-- The groups of a launch. -/
def State.groupsIn (s : State) (l : Nat) : List Nat :=
  (List.range s.groups.length).filter fun g => (s.group g).launch == l && (s.group g).phase != .retired

/-- A launch is discarded: its groups are killed, the others are never placed, and its counter stays (R447). -/
def State.discardLaunch (s : State) (l : Nat) : State :=
  let s := s.modLaunch l fun x => { x with phase := .discarded }
  (s.groupsIn l).foldl State.killGroup s

/-- A region is stopped: its launches and those of its descendants are discarded, and records that still stand in a
queue are checked anew, and then rejected (R447). -/
def State.stopRegion (s : State) (region : Nat) : State :=
  let s : State := { s with stopped := if s.stopped.contains region then s.stopped else region :: s.stopped }
  (List.range s.launches.length).foldl (fun (t : State) l =>
    let x := t.launch l
    if (x.phase = .accepted ∨ x.phase = .checked) ∧ t.isAncestor region x.region then
      (t.discardLaunch l).modLaunch l fun y => { y with queue := none }
    else t) s

/-! ## Handler tasks (R448) -/

/-- The record of a handler task, from the one at FHREC, for the value of ENTRY. -/
def taskRecord (r : BitVec 2048) (entry : Nat) : BitVec 2048 :=
  let r := recPut (recPut (recPut r 0x08 4 1) 0x0C 4 1) 0x10 4 1
  let r := recPut (recPut (recPut r 0x14 4 32) 0x18 4 1) 0x1C 4 1
  recPut (recPut r 0x38 8 ((entry + 0x80) % 2 ^ 64)) 0x4E 2 2

/-- A handler task for a fault-ring entry is queued as a launch accepted now, which has the chain of its region read (R419). Its argument block is the 16 bytes of
the entry from HANDLE on. -/
def State.spawnTask (s : State) (region warp entry : Nat) : State :=
  let r := taskRecord (recordOf (s.devRead (s.eff region 5 0x28 8) 256)) (s.devNat (entry + 0x88) 8)
  let l := LaunchSt.ofRecord r (regionOfRecord r region) region s.clock s.gtime
  match s.checkRecord l true with
  | (some c, s) => s.reject l c
  | (none, s) =>
    let s := s.readRegion l.region
    match s.vread (s.eff l.region 6 0x30 8) l.region (l.f 0x98 8) (l.f 0xA0 4) with
    | (.error _, s) => s.reject l 10
    | (.ok const, s) =>
      (s.addLaunch { l with
        phase := .accepted, image := constImage (s.devRead (entry + 0x80) 16) const,
        task := some { warp := warp, entry := entry } }).2

/-! ## Escalation (R442, R443, R446, R447) -/

/-- A warp is held after its escalation, with what its entry shows (R443). -/
def Warp.hold (v : Warp) (t : Trap) (x : Snap) (entry : Nat) : Warp :=
  let u := { v with held := some { entry := entry, resolve := none }, opened := some (t, x), trap := none,
                    escalating := false, wait := none, stepArmed := false }
  if v.handler then u else { u with repAside := v.rep, rep := none, begunAside := v.begun, begun := none }

/-- What an entry shows of an escalating trap: the record that opened the handler, with the new cause, when the trap
was raised in it, and otherwise the trap itself (R437, R442). For an error in control state inside the handler that record also
has the extra field that R455 gives the escalation (DEDUCED, log 23). -/
def Warp.escalated (v : Warp) (t : Trap) : Trap × Snap × Option Cause :=
  match v.handler, v.opened with
  | true, some (t0, x) => (if v.escalating then { t0 with extra := t.extra } else t0, x, some t.cause)
  | _, _ => (t.seen v, v.snap, none)

/-- The policy of the fault domain for an entry of KIND 1 (R447). -/
def State.contain (s : State) (region l warp entry : Nat) : State :=
  match s.eff region 5 0x22 1 with
  | 0 => s.spawnTask region warp entry
  | 1 => s.discardLaunch l
  | _ => s.stopRegion region

/-- A warp's trap escalates. -/
def State.escalate (s : State) (w : Nat) (t : Trap) : State :=
  let v := s.warp w
  let g := v.group
  let l := (s.group g).launch
  let x := s.launch l
  let tries := (s.group g).tries
  let (t0, snap, nested) := v.escalated t
  let retry := x.versioned && x.task.isNone && tries < s.eff x.region 5 0x21 1
  let (entry, s) := s.faultEntry x.region l (s.record w t0 snap nested) (if retry then 2 else 1) tries
  let s := s.modWarp w fun v => v.hold t0 snap entry
  match x.task with
  | some q => ((s.killGroup g).modLaunch l fun y => { y with task := none }).killGroup (s.warp q.warp).group
  | none =>
    if retry then s.restartGroup g true
    else
      let s := if x.versioned then s.modGroup g fun y => { y with version := [], vresv := [] } else s
      s.contain x.region l w entry

/-- Whether a warp's trap escalates (R442, R455, R478). -/
def Warp.escalates (v : Warp) : Bool :=
  v.trap.isSome && v.held.isNone && !v.exited && (v.handler || v.escalating || v.trapBase == 0xFFFFFFFF)

/-! ## Resolution (R449) -/

/-- The SPC and the strand PCs of a fault-ring entry. -/
def State.entrySpc (s : State) (entry : Nat) : Word := BitVec.ofNat 32 (s.devNat (entry + 8) 4)
def State.entryStpc (s : State) (entry : Nat) : List Word :=
  (List.range 8).map fun k => BitVec.ofNat 32 (s.devNat (entry + 0x10 + 4 * k) 4)

/-- A held warp resumes as ERET would, from the PCs of its entry. The save area is read back when the warp was in its
handler, in which it was written; a word of it that cannot be read escalates again. -/
def State.resumeHeld (s : State) (w entry : Nat) : State :=
  let v := s.warp w
  match v.opened with
  | none => s
  | some (t, o) =>
    if v.handler then
      match s.readArea w with
      | .ok x =>
        s.modWarp w fun v => v.resume { x with spc := s.entrySpc entry, stpc := s.entryStpc entry } t o.stpc s.clock
      | .error e =>
        let (a, x) := match e with
          | .fault a x => (a, x)
          | .pool a p => (a, BitVec.ofNat 64 p)
        s.modWarp w fun v => { v with
          held := none
          trap := some { t with cause := .memfault, faddr := BitVec.ofNat 64 a, extra := x, at_ := s.clock } }
    else
      let own : Reload :=
        { mask := v.mask, join := v.join, pid := v.pid, dstack := v.dstack, cstack := v.cstack, bad := v.badArea,
          spc := s.entrySpc entry, stpc := s.entryStpc entry }
      s.modWarp w fun v => v.resume own t o.stpc s.clock

/-- The resolution of a held warp takes effect (R446, R449). -/
def State.resolve (s : State) (w entry value : Nat) : State :=
  let v := s.warp w
  let g := v.group
  let l := (s.group g).launch
  if v.held.map (fun h => h.entry) ≠ some entry then s
  else match value with
    | 1 =>
      if (s.launch l).versioned then s.restartGroup g false
      else if (s.group g).phase = .evicted then
        s.modWarp w fun v => { v with held := some { entry := entry, resolve := some 1 } }
      else s.resumeHeld w entry
    | 3 => s.discardLaunch l
    | _ => s.killGroup g

/-- The warps of a restored group whose resolution is known resume (R449, R460). -/
def State.resumeResolved (s : State) (g : Nat) : State :=
  (s.group g).warps.foldl (fun (t : State) w => match (t.warp w).held with
    | some h => if h.resolve = some 1 then t.resumeHeld w h.entry else t
    | none => t) s

/-! ## The end of a launch (R66, R67, R408) -/

/-- Whether every group of a launch has retired and its writes are performed at a scope. -/
def State.launchDone (s : State) (l : Nat) (scope : BitVec 3) : Bool :=
  let x := s.launch l
  x.phase == .accepted && x.next == x.total &&
    s.groups.all fun g => g.launch != l || (g.phase == .retired && g.version.isEmpty &&
      s.writes.all fun y => match y.warp with
        | some w => !g.warps.contains w || s.writeDone y scope
        | none => true)

end Sys2Proof.Machine
end

