-- ==== Sys2Proof/Machine/HomeEvents.lean ====
section
/-! DEFINITION. What happens at the homes and at the copies of lines, and the answers that come back to warps
(R17, R43, R282, R302, R303, R315, R322, R329, R334, R336, R343, R347, R349, R364, R366 to R371, R378, R384 to R397, R401,
R404, R495, R497). -/

namespace Sys2Proof.Machine

/-! ## Requests for a line -/

/-- Whether something outstanding names a line, so that its home fetches it. -/
def State.named (s : State) (line : Nat) : Bool :=
  (s.fills.any fun f => f.line == line) || (s.writes.any fun x => x.line == line && x.phase == .pending) ||
    (s.joins.any fun j => j.line == line) || s.upgs.any fun u => u.line == line

/-- The loads of a fill. -/
def State.loadsOf (s : State) (f : Fill) : List Load := s.loads.filter fun x => f.loads.contains x.id

/-- Whether a part of a load must wait for an earlier access to its bytes: one of its own lane, or of a lane that a join or a
WSYNC release between the two orders before it (R159, R165, R363, R364). The loads `ids` are performed together with it. -/
def State.partWaits (s : State) (ids : List Nat) (line : Nat) (x : Load) (p : LPiece) : Bool :=
  s.ownWrite x.warp x.id (1#32 <<< p.lane) line p.va p.bytes ||
    s.loads.any fun y => y.warp == x.warp && y.id < x.id && !ids.contains y.id &&
      y.openAt ((s.warp x.warp).lanesBefore y.id x.id (1#32 <<< p.lane)) line p.bytes

/-- Whether a fill waits while an operation on its line is in progress: a load that R390 names, one that joins the
list, or one of a core that has a copy of the line, which shows the written value only later (R364, R387, R390). -/
def State.fillOrdered (s : State) (f : Fill) : Bool :=
  f.alloc || s.writing f.core f.line || s.subscribed f.core f.line || ((s.core f.core).l1At f.line).isSome ||
    (s.loadsOf f).any fun x => x.kind == .lr || (x.acq && atDie x.scope)

/-- Whether a fill can be served as far as the device is concerned, no earlier than 110 clocks after its request, together with the
loads `ids` (R303, R364, R386, R387, R390, R396). -/
def State.fillReady (s : State) (f : Fill) (ids : List Nat := f.loads) : Bool :=
  let b := s.wanted f.loads f.line
  let own := s.grantOf f.core f.line
  f.at_ + 110 ≤ s.clock && !s.leaving f.core f.line && !(s.fillOrdered f && s.lineBusy f.line) &&
    ((s.loadsOf f).all fun x => x.pieces.all fun p => p.got || lineNo p.pa != f.line || !s.partWaits ids f.line x p) &&
    (match s.l2At f.line with
      | some x => !x.priv || (((x.nodes.foldl (fun m n => m ||| s.grantOf n.core f.line) 0) &&& ~~~own &&& b) == 0#128 &&
          !(s.loadsOf f).any fun y => y.kind == .lr)
      | none => true)

/-- Lanes of a warp take the reservations of a load on a line, in place of the ones they held; but for a lane that has
lost that reservation since (R335, R337, R497). -/
def State.reserve (s : State) (w line id : Nat) (asked : Mask) : State :=
  let lanes := asked &&& maskOf fun l => nth 0 (s.warp w).resvFrom l ≤ id
  let cut := fun (l : List (Nat × Nat × Nat)) => (l.filter fun r => !(r.1 == w && lanes.getLsbD r.2.1)) ++
    (lanesOf lanes).map fun l => (w, l, line)
  if s.versionedOf w then s.modGroup (s.warp w).group fun g => { g with vresv := cut g.vresv } else { s with resv := cut s.resv }

/-- The lanes of a load with a part on a line. -/
def Load.lanesAt (x : Load) (line : Nat) : Mask := maskOf fun l => x.pieces.any fun p => p.lane == l && lineNo p.pa == line

/-- The constant cache takes a word of a line for a launch. -/
def CoreSt.cacheWord (c : CoreSt) (launch line i : Nat) (d : LineData) : CoreSt :=
  let key := (launch, 32 * line + i)
  { c with consts := (key, markedWord d i) :: c.consts.filter fun y => y.1 != key }
/-- The constant cache takes the aligned pairs of words of a GOT load, so that the two words of a 64-bit value are always of one time
(R294, R362; log 15). -/
def State.cacheConsts (s : State) (f : Fill) (d : LineData) : State :=
  ((s.loadsOf f).filter fun x => x.kind == .ldc).foldl (fun t x =>
    (x.pieces.filter fun p => lineNo p.pa == f.line).foldl (fun t p =>
      let launch := (t.group (t.warp x.warp).group).launch
      let i := p.pa % 128 / 8
      t.modCore x.core fun c => (c.cacheWord launch f.line (2 * i) d).cacheWord launch f.line (2 * i + 1) d) t) s

/-- The format at which a fill links its core: that of a detached tag, else FULL (R385, R398). -/
def State.fillFmt (s : State) (f : Fill) : Option Fmt :=
  match (s.core f.core).l1At f.line with
  | some x => if x.pst = .detached then some x.fmt else none
  | none => some .full

/-- The loads of a fill are performed with the bytes of its line, and the core is to join the line's list (R303, R366,
R385, R394, R495). -/
def State.serve (s : State) (f : Fill) (d : LineData) (held : Bool) : State :=
  let own := match (s.core f.core).l1At f.line with
    | some x => if x.pst = .privatised then lineWrite d x.data x.written else d
    | none => d
  let b := s.wanted f.loads f.line
  let lrs := (s.loadsOf f).filter fun x => x.kind == .lr
  let priv := match s.l2At f.line with
    | some x => x.priv
    | none => false
  let s := (((s.performLoads f.loads f.line own).noteEarly f.loads f.line).cacheConsts f own).noteRead f.core f.line b
  let s := lrs.foldl (fun t x => (t.reserve x.warp f.line x.id (x.lanesAt f.line)).barGrant f.line) s
  let s := { s with fills := s.fills.filter fun x => x.id != f.id }
  match if f.alloc && held && !priv then s.fillFmt f else none with
  | some fmt =>
    let (id, s) := s.fresh
    { s with joins := s.joins ++ [{ id := id, core := f.core, line := f.line, fmt := fmt, sectors := sectorsOf b }] }
  | none => s

/-- Whether a load has still to be performed with a value that lies in two lines, in one step (R362). Host memory that the device may
not cache is left out (log 57). -/
def State.wholeLoad (s : State) (x : Load) : Bool :=
  LPiece.splits (x.pieces.filter fun p => !p.got) && x.pieces.all fun p => s.cacheable (lineNo p.pa)
/-- The fills that are served in one step with those of a list: they share a load whose value lies in two lines. -/
def State.closeFills (s : State) : Nat → List Fill → List Fill
  | 0, fs => fs
  | n + 1, fs => s.closeFills n (fs ++ s.fills.filter fun g => !fs.contains g && s.loads.any fun x =>
      s.wholeLoad x && g.loads.contains x.id && fs.any fun f => f.loads.contains x.id)
/-- The fills that are served in one step with a fill (R362). -/
def State.tiedFills (s : State) (f : Fill) : List Fill := s.closeFills s.fills.length [f]
/-- Whether the home of a line holds it and the host does not. -/
def State.atHand (s : State) (line : Nat) : Bool := (s.l2At line).any fun x => x.host != .he
/-- A fill whose line its home holds is served, in one step with those that share a load with it, once all of them can be
(R303, R362). -/
def State.serveTied (s : State) (f : Fill) : State :=
  match s.tiedFills f with
  | [_] => s.serve f (s.homeLine f.line) true
  | fs =>
    let ids := fs.flatMap fun g => g.loads
    if fs.all fun g => s.fillReady g ids && s.atHand g.line then fs.foldl (fun (t : State) g => t.serve g (t.homeLine g.line) true) s
    else s

/-- A fill is served with the answer of a remote agent, which the home installs; it waits while its slice has no room
(R1, R399, R401). -/
def State.fillFrom (s : State) (f : Fill) (answer : LineData) (st : Moesi) : State :=
  match (s.storeMem f.line answer).install f.line answer st with
  | some t => t.serveTied f
  | none => s

/-- FILL_SERVED: the home serves a fill, with the answer of the remote agent for a line that the device does not hold
(R303, R398, R399, R401, R495). -/
def execFillServed (id : Nat) (answer : LineData) (s : State) : Out :=
  .next (match s.fills.find? fun f => f.id == id with
    | none => s
    | some f =>
      if !s.fillReady f ((s.tiedFills f).flatMap fun g => g.loads) then s
      else match s.l2At f.line with
        | some x => if x.host = .he then (if x.busy then s else s.callBack f.line false) else s.serveTied f
        | none => match s.frame (128 * f.line) with
          | .hbm => s
          | .host p =>
            if !s.carries then s
            else if (s.port p).cache then
              let (n, s) := s.draw
              let st : Moesi := if Config.freePick n % 2 = 0 then .s else .e
              s.fillFrom f answer st
            else (s.storeMem f.line answer).serve f answer false
          | _ => if s.carries then s.fillFrom f answer .s else s)

/-- HBM_FETCH_INSTALL: a line fetched from its stack is installed, once its slice has room, and the loads that wait for it are
performed (R1, R495). -/
def execHbmFetchInstall (s : State) : Out :=
  let line := s.cur.line
  .next (if s.frame (128 * line) = .hbm && (s.l2At line).isNone && s.named line then
    match s.install line (s.memAt line) .m with
    | some t => (t.fills.filter fun f => f.line == line).foldl (fun u f =>
        if u.fillReady f ((u.tiedFills f).flatMap fun g => g.loads) then u.serveTied f else u) t
    | none => s
  else s)

/-! ## Lists (R385 to R387) -/

/-- The state without a join. -/
def State.dropJoin (s : State) (id : Nat) : State := { s with joins := s.joins.filter fun j => j.id != id }

/-- A core's node is linked at the head of a line's list, and its way takes the line (R385). The spec does not say whether a detached
node that is installed again, or a FULL copy that takes more sectors, keeps its place; here it goes to the head (DESIGN CHOICE,
log 57). -/
def State.link (s : State) (line core : Nat) (f : Fmt) (sectors : BitVec 4) : State :=
  match s.l2At line with
  | none => s
  | some x =>
    let s := s.setL2 line { x with nodes := { core := core, fmt := f } :: x.nodes.filter fun n => n.core != core }
    s.installL1 core line f sectors x.data

/-- JOIN_LIST: a fill links its core FULL, or adds its sectors to the FULL copy that the core holds, but never takes the place of
a subscription; a SUBS links at its format, in place of a FULL copy that a plain fill has left (R299, R347, R348, R384, R385,
R387). -/
def execJoinList (id : Nat) (s : State) : Out :=
  .next (match s.joins.find? fun j => j.id == id with
    | none => s
    | some j =>
      let full := j.fmt == .full
      if s.leaving j.core j.line || s.lineBusy j.line then s
      else if !full && !s.subscribed j.core j.line then s.dropJoin id
      else match s.l2At j.line with
        | none => if full then s.dropJoin id else s
        | some x =>
          let listed := x.nodes.any fun n => n.core == j.core
          let subs := s.joins.any fun k => k.core == j.core && k.line == j.line && k.fmt != .full
          if x.priv then (if full then s.dropJoin id else s)
          else if x.host = .he then (if full then s.dropJoin id else s.callBack j.line false)
          else if 16 ≤ x.nodes.length && !listed then s.dropJoin id
          else match full, (s.core j.core).l1At j.line with
            | true, some y =>
              if y.pst = .listed && y.fmt = .full then (s.dropJoin id).link j.line j.core .full (y.sectors ||| j.sectors)
              else s.dropJoin id
            | true, none => if subs then s.dropJoin id else (s.dropJoin id).link j.line j.core .full j.sectors
            | false, some y =>
              if y.pst = .listed && y.fmt != .full then s.dropJoin id else (s.dropJoin id).link j.line j.core j.fmt 15
            | false, none => (s.dropJoin id).link j.line j.core j.fmt 15)

/-- A core's node is taken from a line's list, or from the detached nodes of a line that its home does not hold (R386, R398). -/
def State.unlink (s : State) (core line : Nat) : State :=
  let rest := (alGet [] line s.apart).filter fun n => n.core != core
  { s.modL2 line fun x => { x with nodes := x.nodes.filter fun n => n.core != core } with
    apart := if rest.isEmpty then alDel line s.apart else alPut line rest s.apart }
/-- LEAVE_REQUEST: a leaving node is unlinked (R386). -/
def execLeaveRequest (core line : Nat) (s : State) : Out :=
  .next (if s.leaving core line && !s.lineBusy line then (s.unlink core line).modCore core fun c => c.dropL1 line else s)

/-! ## Upgrades (R349, R393) -/

/-- UPGRADE_RESEND. -/
def execUpgradeResend (id : Nat) (s : State) : Out :=
  .next (match s.upgs.find? fun u => u.id == id && !u.sent with
    | none => s
    | some u =>
      let gone : State := { s with upgs := s.upgs.filter fun y => y.id != id }
      if s.lineBusy u.line || s.joins.any fun j => j.core == u.core && j.line == u.line && j.id < id then s
      else match s.l2At u.line, (s.core u.core).l1At u.line with
        | some x, some y =>
          if y.pst = .leaving || !(x.nodes.any fun n => n.core == u.core) then gone
          else if x.host = .he then s.callBack u.line false
          else
            let flow : Flow := { write := 0, words := BitVec.allOnes 32, hostLeft := false, hostAsked := false,
                                 nodes := [{ core := u.core, fmt := u.fmt }], upgrade := some id }
            let s := s.setL2 u.line { x with
              busy := true, prop := some flow,
              nodes := x.nodes.map fun n => if n.core = u.core then { n with fmt := u.fmt } else n }
            { s with upgs := s.upgs.map fun y => if y.id = id then { y with sent := true } else y }
        | none, some _ => s
        | _, none => gone)

/-- UPGRADE_INSTALL: the node holds the line at its new format, and the operation ends (R349, R393). -/
def execUpgradeInstall (s : State) : Out :=
  let line := s.cur.line
  .next (match s.l2At line with
    | none => s
    | some x => match x.prop with
      | some { upgrade := some id, nodes := n :: _, .. } =>
        let s := s.setL2 line { x with busy := false, prop := none }
        let s := s.modCore n.core fun c => c.modL1 line fun y =>
          { y with fmt := n.fmt, sectors := 15, data := codeLine n.fmt x.data, pst := if y.pst = .leaving then .leaving else .listed }
        let s : State := { s with upgs := s.upgs.filter fun u => u.id != id }
        if n.fmt = .full then
          { s with groups := s.groups.map fun g => { g with subs := g.subs.filter (· ≠ (n.core, line)) } }
        else s
      | _ => s)

/-! ## Writes (R364, R367, R370, R387, R388) -/

/-- The load that receives the old value of an atomic; 0 where there is none. -/
def Write.ret (x : Write) : Nat :=
  match x.kind with
  | .atom _ _ _ _ _ _ _ r => r.getD 0
  | _ => 0

/-- Whether an earlier lane of the same SC has still to be judged (R336). -/
def State.scBefore (s : State) (x : Write) : Bool :=
  match x.kind with
  | .sc q l => s.writes.any fun y => match y.kind with
    | .sc q' l' => q' == q && l' < l && y.phase != .propagating && y.phase != .remote
    | _ => false
  | _ => false

/-- Whether a write is the device's own. -/
def WKind.isDev : WKind → Bool
  | .dev _ => true
  | _ => false

/-- The number of the entry of the ring of notifications that a write is part of (R321). -/
def Write.posts (x : Write) : Option Nat :=
  match x.note with
  | some (n, .irqNotify) => some n
  | _ => none
/-- The number from which accesses do not come before a write in program order: that of the first write of its instruction. -/
def Write.since (x : Write) : Nat := if x.req = 0 then x.id else x.req

/-- Whether a write of the device's own waits for an earlier one: for those to its bytes, which reach their home in the order in which
they were made; an entry of the ring of notifications for the entries before it; and the add to a completion counter, which is a release,
for all that the launch processor has written (R310, R321, R408). -/
def State.devBefore (s : State) (x : Write) : Bool :=
  x.kind.isDev && s.writes.any fun y => y.id < x.id && y.kind.isDev &&
    ((y.line == x.line && (y.mask &&& x.mask) != 0#128 && s.unapplied y) ||
      (x.posts.isSome && y.posts.isSome && x.posts != y.posts) ||
      (x.rel && x.warp.isNone && y.warp.isNone && !s.writeDone y x.scope))

/-- Whether earlier accesses allow a write to be performed: those of the warp, the device's own writes, and the leaving of its
core's node on the line (R364, R367, R370, R386). It waits for the earlier reads of its own lanes: the spec does not say whether it
also waits for those of lanes of its instruction that store to other lines, and here it does not (DESIGN CHOICE, log 57). -/
def State.writeOrdered (s : State) (x : Write) : Bool :=
  !s.devBefore x && (match x.core with
    | some c => !s.leaving c x.line
    | none => true) &&
  match x.warp with
  | none => true
  | some w =>
    !s.ownWrite w x.id x.lanes x.line x.va x.mask && !s.readsOpen w x.id x.lanes x.ret &&
      (!x.rel || s.allPerformed w x.since x.scope x.ret) && !s.scBefore x

/-- An outstanding write changed. -/
def State.modWrite (s : State) (id : Nat) (f : Write → Write) : State :=
  { s with writes := s.writes.map fun x => if x.id = id then f x else x }

/-- The lane of an SC whose write has been judged: with a reservation on the line it succeeds (R336, R497). -/
def State.scHolds (s : State) (w lane line : Nat) : Bool :=
  if s.versionedOf w then (s.group (s.warp w).group).vresv.contains (w, lane, line) else s.resv.contains (w, lane, line)
/-- An SC clears its lane's reservation, and when it succeeds every reservation on the line. -/
def State.scClear (s : State) (w lane line : Nat) (ok : Bool) : State :=
  let cut := fun (l : List (Nat × Nat × Nat)) => l.filter fun r => !(r.1 == w && r.2.1 == lane) && !(ok && r.2.2 == line)
  if s.versionedOf w then s.modGroup (s.warp w).group fun g => { g with vresv := cut g.vresv } else { s with resv := cut s.resv }
/-- The answer of an SC notes a lane that succeeded. -/
def State.scNote (s : State) (q lane : Nat) : State :=
  { s with scs := s.scs.map fun (y : ScReq) => if y.id = q then { y with ok := y.ok ||| (1#32 <<< lane) } else y }

/-- A TSTORE.all whose exchange of the version word has failed reads the word anew (R340). -/
def State.retryStore (s : State) (w op : Nat) : State :=
  s.modWarp w fun v => { v with eng := v.eng.map fun o =>
    if o.id = op then (match o.work with
      | .writing _ (.data ver src dst _) => { o with work := .tstore ver src dst }
      | _ => o) else o }

/-- The line that a write leaves, none for one that writes nothing, an SC that fails among them, and the state with what the write reads handed on: the old
value of an atomic goes to its load, and a GRAPH learns whether its header was idle or done (R334, R336, R474). -/
def State.writeValue (s : State) (x : Write) (old : LineData) : Option LineData × State :=
  match x.kind with
  | .atom aop w64 sg off b c lane ret =>
    let s : State := match ret with
      | some r => { s with loads := s.loads.map fun (y : Load) =>
          if y.id = r then { y with pieces := y.pieces.map fun p =>
            if p.lane = lane ∧ lineNo p.pa = x.line then p.take old else p } else y }
      | none => s
    (some (atomLine aop w64 sg off b c old), s)
  | .sc q lane =>
    let w := x.warp.getD 0
    let ok := s.scHolds w lane x.line
    let s := (s.scClear w lane x.line ok).modWarp w fun v => v.unreserve (1#32 <<< lane) q
    if ok then (some (lineWrite old x.data x.mask), s.scNote q lane) else (none, s)
  | .dev (.cas op off v) =>
    if lineRead old.bits off 8 = BitVec.ofNat 64 v then (some (DevOp.line (.cas op off v) old x.data x.mask), s)
    else (none, s.retryStore (x.warp.getD 0) op)
  | .dev (.claim w off) =>
    let won := !old.bits.getLsbD (8 * off)
    let s := s.modWarp w fun v => { v with graph := v.graph.map fun q => { q with won := some won } }
    (if won then some (DevOp.line (.claim w off) old x.data x.mask) else none, s)
  | .dev (.dec off) => (if lineRead old.bits off 2 = 0 then none else some (DevOp.line (.dec off) old x.data x.mask), s)
  | .dev op => (some (op.line old x.data x.mask), s)
  | _ => (some (lineWrite old x.data x.mask), s)

/-- Whether the home counts a write under R378: store requests, atomic steps, the add to a completion counter and the step of a GRAPH
among them, engine writes and the lines of a commit. -/
def WKind.counted : WKind → Bool
  | .store | .atom .. | .sc .. | .engine | .commit => true
  | .dev (.cas ..) | .dev (.inc ..) | .dev (.claim ..) => true
  | .dev _ | .merge | .host => false

/-- The message that follows what the device has written is sent; TAIL of the ring of notifications passes an entry before its
interrupt (R321). -/
def State.sendNote (s : State) (m : Msg) : State :=
  (if m = .irqNotify then s.modCtl fun c => { c with nqtail := BitVec.ofNat 32 ((c.nqtail.toNat + 1) % c.ringSize) } else s).send m
/-- A write is gone; the last one of those that carry a message together sends it. -/
def State.endWrite (s : State) (x : Write) : State :=
  let t : State := { s with writes := s.writes.filter fun y => y.id != x.id }
  match x.note with
  | some (n, m) => if t.writes.any fun y => (y.note.map Prod.fst) == some n then t else t.sendNote m
  | none => t

/-- The D bits of the leaves through which a write was made are set (R315). -/
def State.markDirty (s : State) (x : Write) : State := x.ptes.foldl (fun (t : State) p => t.setPteBit p 7) s

/-- A write is complete: the D bit of its page is set, watches of its line are hit, and it is gone; one to the pool has still to be
acknowledged there (R315, R343, R376, R390). -/
def State.completeWrite (s : State) (x : Write) : State :=
  let s := s.markDirty x
  let s : State := { s with watches := s.watches.map fun w => if w.line = x.line then { w with hit := true } else w }
  match s.frame (128 * x.line) with
  | .pool _ _ => s.modWrite x.id fun y => { y with phase := .remote }
  | _ => s.endWrite x

/-- What a write does to the observation record of its line (R394). -/
def State.noteStore (s : State) (x : Write) : State :=
  match x.kind, x.core with
  | .store, some c =>
    (s.rollObs x.line).modL2 x.line fun y => { y with obs := { y.obs with wr := addMask c x.mask y.obs.wr, barred := y.obs.barred || x.through } }
  | .atom .., _ | .sc .., _ => s.barGrant x.line
  | _, _ => s

/-- Whether a write is the host's or the device's own: the page that it goes to is not known, and it is written through, as to a
page with STACKL (R315; log 57). -/
def WKind.direct : WKind → Bool
  | .host | .dev _ => true
  | _ => false
/-- A write is applied at its home and sent down the list, or complete at once (R388). A line of a page with STACKL is written
through to its stack and stays clean (R315). -/
def State.applyWrite (s : State) (x : Write) (l : L2Line) : State :=
  match s.writeValue x l.data with
  | (none, s) => (s.noteStore x).endWrite x
  | (some new, s) =>
    let words := wordsOf x.mask
    let hbm : Bool := s.frame (128 * x.line) = .hbm
    let through := l.through || (x.through && hbm)
    let direct := through || (x.kind.direct && hbm)
    let s := (s.setL2 x.line { l with data := new, dirty := !direct, through := through, st := .m }).noteStore x
    let s : State := { s with resv := s.resv.filter fun r => r.2.2 != x.line }
    let s := if direct then s.storeMem x.line new else s
    if l.sends new words then
      let flow : Flow := { write := x.id, words := words, hostLeft := l.host == .hs, hostAsked := false, nodes := l.nodes,
                           upgrade := none }
      (s.modL2 x.line fun y => { y with busy := true, prop := some flow }).modWrite x.id fun y => { y with phase := .propagating }
    else
      let s := if x.kind.counted then { s with subskip := s.subskip + BitVec.ofNat 32 l.narrow } else s
      s.completeWrite x

/-- A write of a group's version: an atomic step or an SC on the line as the group sees it, whose read at the home the observation
record of the line notes (R394, R497). -/
def State.applyVersion (s : State) (x : Write) (w : Nat) : State :=
  let done := fun (t : State) => t.endWrite x
  let s := (s.noteRead (s.warp w).core x.line x.mask).noteStore x
  match s.writeValue x (s.viewLine w x.line (s.homeLine x.line)) with
  | (none, s) => done s
  | (some new, s) => done (s.modGroup (s.warp w).group fun g => g.writeVersion x.line x.ptes new x.mask)

/-- A write into the owner's privatised copy, which sets the D bit of its page (R315, R395, R397). -/
def State.applyOwn (s : State) (x : Write) (core : Nat) : State :=
  let s := s.modCore core fun c => c.modL1 x.line fun y =>
    { y with data := lineWrite y.data x.data x.mask, written := y.written ||| x.mask }
  (s.markDirty x).endWrite x

/-- Whether a write decides by what stands at its place: an atomic step, an SC, or an operation of the device's own. -/
def WKind.readsOld : WKind → Bool
  | .atom .. | .sc .. => true
  | .dev op => op != .put
  | _ => false

/-- The home asks a remote agent for the right to write a line (R399, R401). -/
def State.askOwner (s : State) (x : Write) (m : Nat → LinkMsg) : State :=
  (s.modWrite x.id fun y => { y with phase := .asked }).sendLink x.line m

/-- The core into whose privatised copy a store goes: every byte of it lies in the mask of that core (R395). -/
def State.ownerFor (s : State) (x : Write) : Option Nat :=
  match x.kind, x.core with
  | .store, some c => if s.grantOf c x.line != 0#128 && x.mask &&& ~~~(s.grantOf c x.line) == 0#128 then some c else none
  | _, _ => none
/-- A write in phase pending reaches its home, whose line is not in progress (R387, R388, R395, R396, R398, R399, R401). -/
def State.writeHere (s : State) (x : Write) : State :=
  match s.l2At x.line with
  | some l =>
    if l.priv then
      match s.ownerFor x with
      | some c => s.applyOwn x c
      | none => s
    else if l.host = .he then s.callBack x.line true
    else match s.frame (128 * x.line) with
      | .host _ => if l.st = .m || l.st = .e then s.applyWrite x l else s.askOwner x .rdOwn
      | .pool _ _ => if l.st = .m || l.st = .e then s.applyWrite x l else s.askOwner x (.memRd · true)
      | _ => s.applyWrite x l
  | none =>
    match s.frame (128 * x.line) with
    | .host p =>
      if (s.port p).cache then s.askOwner x .rdOwn
      else if x.kind.readsOld then s.askOwner x (.memRd · true)
      else (s.modWrite x.id fun y => { y with phase := .remote }).sendLink x.line (.memWr · x.data x.mask)
    | .pool _ _ => s.askOwner x (.memRd · true)
    | .hbm => s
    | _ => s.endWrite x

/-- Whether a write can be applied at its home now: it is pending and in order, and its line is held there with the right to write
it. -/
def State.takes (s : State) (x : Write) : Bool :=
  x.phase == .pending && s.writeOrdered x && !s.lineBusy x.line && match s.l2At x.line with
    | some l =>
      if l.priv then (s.ownerFor x).isSome
      else l.host != .he && (match s.frame (128 * x.line) with
        | .host _ | .pool _ _ => l.st == .m || l.st == .e
        | _ => true)
    | none => false
/-- The writes that are applied in one step with a write: those of its store that share a lane, whose 64-bit value lies in two lines
(R295, R362). Host memory that the device may not cache is left out (log 57). -/
def State.tied (s : State) (x : Write) : List Write :=
  let mine := if x.kind = .store then s.writes.filter fun y => y.warp == x.warp && y.req == x.req && y.kind == .store else [x]
  let lanes := mine.foldl (fun m _ => mine.foldl (fun (m : Mask) y => if y.lanes &&& m = 0 then m else m ||| y.lanes) m) x.lanes
  let all := mine.filter fun y => y.lanes &&& lanes != 0
  if all.all fun y => s.cacheable y.line then all else [x]
/-- A write in phase pending reaches its home, in one step with those that are tied to it, once all of them can be applied; until
then it only asks for what it needs (R362). -/
def State.writeTied (s : State) (x : Write) : State :=
  match s.tied x with
  | a :: b :: l =>
    if (a :: b :: l).all s.takes then (a :: b :: l).foldl (fun (t : State) y => t.writeHere y) s
    else if s.takes x then s else s.writeHere x
  | _ => s.writeHere x

/-- Whether a write of a versioned group can act: no operation is in progress on its line, and no core holds a privatised copy of
it, which is merged first (R396, R497). -/
def State.versionReady (s : State) (x : Write) : Bool :=
  match s.l2At x.line with
  | some l => !l.busy && !l.priv
  | none => true

/-- WRITE_AT_HOME. -/
def execWriteAtHome (id : Nat) (s : State) : Out :=
  .next (match s.writes.find? fun x => x.id == id && x.phase == .pending with
    | none => s
    | some x =>
      if !s.writeOrdered x then s
      else match x.warp with
        | some w =>
          if s.versionedOf w && x.kind.inVersion then
            if !s.versionReady x then s
            else match s.l2At x.line with
              | some l => if l.host = .he then s.callBack x.line false else s.applyVersion x w
              | none => s.applyVersion x w
          else if s.lineBusy x.line || !s.reaches x.line then s else s.writeTied x
        | none => if s.lineBusy x.line || !s.reaches x.line then s else s.writeHere x)

/-- UPDATE_AT_NODE: the next node of the list takes an update, skips it, or the host node calls its copy back (R389). -/
def execUpdateAtNode (s : State) : Out :=
  let line := s.cur.line
  .next (match s.l2At line with
    | none => s
    | some x => match x.prop with
      | none => s
      | some f =>
        if f.upgrade.isSome then s
        else if f.hostLeft then
          if f.hostAsked || !s.carries then s
          else (s.setL2 line { x with prop := some { f with hostAsked := true } }).send (.bisnpInv line)
        else match f.nodes with
          | [] => s
          | n :: r =>
            let t := s.updateNode n line f.words x.data
            let counted := match s.writes.find? fun y => y.id == f.write with
              | some y => y.kind.counted
              | none => true
            let t := if counted then t else { t with subupd := s.subupd, subskip := s.subskip }
            t.modL2 line fun y => { y with prop := some { f with nodes := r } })

/-- WRITE_ACK: the tail has acknowledged, and the write is complete (R388). A line of a commit stays in progress until
the commit releases it (R373). -/
def execWriteAck (s : State) : Out :=
  let line := s.cur.line
  .next (match s.l2At line with
    | none => s
    | some x => match x.prop with
      | some { upgrade := none, hostLeft := false, nodes := [], write := id, .. } =>
        let s := s.setL2 line { x with busy := s.committed line, prop := none }
        (match s.writes.find? fun y => y.id == id with
          | some y => s.completeWrite y
          | none => s)
      | _ => s)

/-! ## Privatised copies (R394 to R396) -/

/-- Copies are granted: every copy of a core that did not write is recalled, and each writer takes a privatised copy
with the mask of the bytes that it wrote (R395). -/
def State.grant (s : State) (line : Nat) (masks : List (Nat × BitVec 128)) : State :=
  let s := s.recallLine line
  match s.l2At line with
  | none => s
  | some x =>
    let s := masks.foldl (fun t m => (t.installL1 m.1 line .full 15 x.data).modCore m.1 fun c =>
      c.modL1 line fun y => { y with pst := .privatised, granted := m.2 }) s
    s.modL2 line fun y =>
      { y with priv := true, nodes := masks.map (fun m => { core := m.1, fmt := .full }), obs := Obs.fresh s.clock }

/-- OBSERVATION_WINDOW_END: the home judges the window that has passed, and after four disjoint ones in a row it grants copies
(R394, R395). -/
def execObservationWindowEnd (s : State) : Out :=
  let line := s.cur.line
  let s := s.rollObs line
  .next (match s.l2At line with
    | none => s
    | some x =>
      if x.priv || s.lineBusy line || x.obs.streak < 4 then s
      else if s.grantable line x then s.grant line x.obs.union
      else s.setL2 line { x with obs := Obs.fresh x.obs.start })

/-- MERGE: the copies are merged before an access that conflicts with them (R396). -/
def execMerge (s : State) : Out :=
  let line := s.cur.line
  .next (if s.named line && !s.lineBusy line then s.mergeLine line else s)

/-- RECALL: the L2 evicts a line and takes it from every copy (R404). -/
def execRecall (s : State) : Out :=
  let line := s.cur.line
  .next (match s.l2At line with
    | some _ => if s.evictable line then s.evictLine line else s
    | none => s)

/-! ## What comes back to a warp -/

/-- The value that the parts of a load give a lane, as a number of at most 8 bytes. -/
def Load.value (x : Load) (l : Nat) : BitVec 64 :=
  (x.pieces.filter fun p => p.lane == l).foldl (fun (a : BitVec 64) (p : LPiece) => a ||| (p.val <<< (8 * p.off))) 0
/-- Whether a poisoned part of a lane falls into word `i` of the destination. -/
def Load.marked (x : Load) (l i : Nat) : Bool := x.pieces.any fun p => p.lane == l && p.off / 4 == i && p.poison
/-- Word `i` that a load writes in a lane, extended as the load says (R330). -/
def Load.word (x : Load) (l i : Nat) : Word :=
  let v := x.value l
  if x.wide then bitsAt v (32 * i) 32
  else if x.sext && x.bytes = 1 then (v.setWidth 8).signExtend 32
  else if x.sext && x.bytes = 2 then (v.setWidth 16).signExtend 32
  else v.setWidth 32

/-- A register takes a word of a load in its lanes, with poison marks, and is full (R17, R329, R330). -/
def Warp.takeLoad (v : Warp) (x : Load) (i : Nat) : Warp :=
  let r := x.d.toNat + i
  (v.modReg r fun g =>
    let g := g.write x.lanes fun l => x.word l i
    { g with poison := g.poison ||| maskOf fun l => x.lanes.getLsbD l && x.marked l i }).fill r

/-- LOAD_DATA_ARRIVE: the data of a load that has been performed fill its registers and the windows pending on them
(R17, R330). -/
def execLoadDataArrive (id : Nat) (s : State) : Out :=
  .next (match s.loads.find? fun x => x.id == id && x.performed with
    | none => s
    | some x =>
      let s : State := { s with loads := s.loads.filter fun y => y.id != id }
      s.modWarp x.warp fun v => (List.range (if x.wide then 2 else 1)).foldl (fun v i => v.takeLoad x i) v)

/-- APUT_DELIVERY: the register of a broadcast becomes full, and windows pending on it are written (R43). -/
def execAputDelivery (w r : Nat) (s : State) : Out :=
  .next (if (s.warp w).bcasts.any fun b => b.r.toNat == r && b.due ≤ s.clock then
    s.modWarp w fun v => { v with bcasts := v.bcasts.filter fun b => b.r.toNat != r }.fill r
  else s)

/-- A predicate receives the value that it waited for. -/
def Warp.givePred (v : Warp) (p : PNum) (m : Mask) (f : Nat → Bool) : Warp :=
  let v := v.setPred p m f
  if p == 15#4 then v else v.modPred p.toNat fun q => { q with ready := true }

/-- SC_ANSWER: the home has judged every lane (R336). -/
def execScAnswer (id : Nat) (s : State) : Out :=
  .next (match s.scs.find? fun x => x.id == id with
    | none => s
    | some x =>
      let judged := s.writes.all fun y => match y.kind with
        | .sc q _ => q != id || y.phase == .propagating || y.phase == .remote
        | _ => true
      if !judged then s
      else
        let s : State := { s with scs := s.scs.filter fun y => y.id != id }
        s.modWarp x.warp fun v => v.givePred x.d x.lanes fun l => x.ok.getLsbD l)

/-- CSTORE_NF_COMPLETE: the last element has been performed, or the loop has stopped before it: the count register is filled and pF
written (R282). -/
def execCstoreNfComplete (id : Nat) (s : State) : Out :=
  .next (match s.nfs.find? fun x => x.id == id with
    | none => s
    | some x =>
      if x.complete && s.writes.any fun y => y.nf == some id && !s.writeDone y 3 then s
      else
        let s : State := { s with nfs := s.nfs.filter fun y => y.id != id }
        s.modWarp x.warp fun v =>
          ((v.setReg x.d x.lanes fun _ => BitVec.ofNat 32 x.count).fill x.d.toNat).givePred x.pf x.lanes fun _ => x.complete)

end Sys2Proof.Machine
end

