-- ==== Sys2Proof/Machine/LaunchEvents.lean ====
section
/-! DEFINITION. What the launch processor does: checking records, placing, evicting and restoring groups, stagger,
reservations, commits, the end of launches, step boundaries, and the load of overlay 0
(R66, R67, R106, R373, R377, R408 to R411, R415 to R417, R420 to R431, R446, R456 to R462, R475, R486, R494). -/

namespace Sys2Proof.Machine

/-! ## Records and placement -/

/-- LAUNCH_RECORD_CHECK: the record that has become the oldest of its queue is checked, and rejected or kept as a
candidate. What the groups of a launch do comes after every access before its LAUNCH, so that the warp's loads before it are performed
first (R368, R417, R498). -/
def execLaunchRecordCheck (q : QueueRef) (s : State) : Out :=
  let s := s.readQueue q
  .next (match s.front q with
    | none => s
    | some e =>
      if s.checkedRef q || !s.allLoaded e.warp e.id then s
      else
        let l := LaunchSt.ofRecord e.record e.launchRegion e.region e.age s.gtime
        match s.checkRecord l false with
        | (some c, s) => (s.reject l c).freeEntry q
        | (none, s) => (s.addLaunch { l with queue := some q }).2)

/-- Whether a candidate is a group of a launch that has still to run. -/
def State.candOf (s : State) (l : Nat) (a : Cand) : Bool :=
  match a.kind with
  | .next k => k == l
  | .again g => (s.group g).launch == l
  | .back _ => false

/-- The next groups of a launch are placed: one, or under PIN all of them together (R377). -/
def State.placeAllNext (s : State) (l : Nat) (cores slots : List Nat) : State :=
  if (s.launch l).pin then
    cores.foldl (fun (t : State) c =>
      t.placeNext l [c] ((slots.drop ((t.launch l).warpCount * (t.launch l).next)).take (t.launch l).warpCount)) s
  else s.placeNext l cores slots

/-- GROUP_PLACE: the candidate of a launch whose turn it is takes its cores; the first group has the launch accepted.
The chain of its region is read before (R407, R419, R424, R426, R428). -/
def execGroupPlace (l : Nat) (slots : List Nat) (s : State) : Out :=
  let s := s.readRegion (s.launch l).region
  .next (match (s.cands.filter (s.candOf l)).findSome? fun a => (s.serves a).map fun cs => (a, cs) with
    | none => s
    | some (a, cores) => match a.kind with
      | .next _ =>
        let dies := if (s.launch l).pin || (s.launch l).dies != [] then (s.launch l).dies else (s.dieSet l).getD []
        let (ok, s) := if (s.launch l).phase = .checked then s.accept l else (true, s)
        if !ok then s else (s.modLaunch l fun x => { x with dies := dies }).placeAllNext l cores slots
      | .again g => s.startGroup (.again g) l g cores slots
      | .back _ => s)

/-- STAGGER_RELEASE (R427). A launch whose first group never issues has no t0: the spec does not say what becomes of its later groups
when the first is killed before that, and here they stay held (DESIGN CHOICE, log 55). -/
def execStaggerRelease (g : Nat) (s : State) : Out :=
  let x := s.group g
  let l := s.launch x.launch
  .next (match l.t0 with
    | some t =>
      if x.staggered && t + 16 * l.stagger * x.rank ≤ s.clock then s.modGroup g fun y => { y with staggered := false } else s
    | none => s)

/-- The launch of a candidate. -/
def State.launchOf (s : State) (a : Cand) : Nat := s.candLaunch a.kind
/-- GTIME since which a candidate has waited. -/
def State.waitOf (s : State) (a : Cand) : Nat :=
  match a.kind with
  | .next l => (s.launch l).waitFrom
  | .again g | .back g => (s.group g).waitFrom

/-- Whether cores are a set that a pinned, paired or spanning candidate needs (R55, R271, R377, R425). -/
def State.neededCores (s : State) (a : Cand) (cores : List Nat) : Bool :=
  let l := s.launchOf a
  let x := s.launch l
  cores.all (fun c => s.admits a.kind c) && cores.eraseDups.length == cores.length &&
    (if x.pin then cores == (match a.kind with
        | .next _ => List.range x.total
        | .again g | .back g => [(s.group g).lin])
     else if x.pair then (match cores with
       | [a, b] => a % 2 == 0 && b == a + 1 && (x.dies.isEmpty || x.dies.contains (dieOf a))
       | _ => false)
     else 1 < x.coreCount && cores.length == x.coreCount && (match cores with
       | a :: r => r.all (fun c => dieOf c == dieOf a) && (x.dies.isEmpty || x.dies.contains (dieOf a))
       | [] => false))

/-- CANDIDATE_RESERVE: cores are kept for a pinned, paired or spanning candidate of a launch, an evicted group or one that runs anew
among them, that has waited 1 ms on GTIME, until it is placed (R425). -/
def execCandidateReserve (l : Nat) (cores : List Nat) (s : State) : Out :=
  .next (match s.cands.find? fun a => s.launchOf a == l && (s.cores.all fun c => c.reserved != some a.kind) &&
      s.waitOf a + 1000000 ≤ s.gtime && (s.whereTo a).isNone && s.neededCores a cores with
    | some a => cores.foldl (fun (t : State) c => t.modCore c fun k => { k with reserved := some a.kind }) s
    | none => s)

/-- An overlay slot whose overlay has been loaded. -/
def Overlay.loaded (o : Overlay) : Overlay := { o with loading := false }
/-- OVERLAY_0_LOAD_COMPLETE (R106). -/
def execOverlay0LoadComplete (core slot : Nat) (s : State) : Out :=
  let f := fun (o : Option Overlay) => o.map fun x => if x.num = 0 then x.loaded else x
  .next (s.modCore core fun c => { c with overlays := c.overlays.modify slot f })

/-! ## Commits (R373) -/

/-- The writes of a commit that are not yet complete. -/
def State.commitOpen (s : State) (g : Nat) : Bool :=
  s.writes.any fun x => x.kind == .commit && (alFind x.line (s.group g).version).isSome

/-- A line of a version is held at its home, which fetches it from its stack where it does not hold it; none while the slice has no
room (R1, R387). -/
def State.holdLine (s : State) (line : Nat) : Option State :=
  let s := s.mergeLine line
  (if (s.l2At line).isSome then some s else s.install line (s.memAt line) .m).map fun s => s.modL2 line fun x => { x with busy := true }
/-- Every line of a version is held. -/
def State.holdLines (s : State) : List Nat → Option State
  | [] => some s
  | line :: l => (s.holdLine line).bind fun s => s.holdLines l

/-- The bytes of a version's line are applied at its home as one write, which sets the D bits of its pages (R315). -/
def State.commitLine (s : State) (line : Nat) (v : VerLine) : State :=
  let x : Write := { Write.own line .commit v.data v.written with
    id := s.nextId, through := v.ptes.any fun p => pteStackl (BitVec.ofNat 64 (s.devNat p 8)) }
  let s := s.sendOwn x
  let s := match s.l2At line with
    | some l => s.applyWrite x l
    | none => s
  v.ptes.foldl (fun (t : State) p => if p = 0 then t else t.setPteBit p 7) s

/-- Whether a step of a group on its version is still to be taken: an atomic or an SC (R497). -/
def State.versionOpen (s : State) (g : Nat) : Bool :=
  s.writes.any fun x => x.kind.inVersion && match x.warp with
    | some w => (s.group g).warps.contains w
    | none => false

/-- VERSION_COMMIT: once every step of a retired group on its version is taken and no operation is in progress on its lines, all are held and their
writes applied; when these are complete, all the holds are released together. -/
def execVersionCommit (g : Nat) (s : State) : Out :=
  let x := s.group g
  let lines := x.version.map Prod.fst
  .next (if x.phase != .retired || x.version.isEmpty then s
  else if x.committing then
    if s.commitOpen g then s
    else
      (lines.foldl (fun (t : State) line => t.modL2 line fun y => { y with busy := false }) s).modGroup g fun y =>
        { y with version := [], vresv := [], committing := false }
  else if lines.any s.lineBusy || s.versionOpen g then s
  else match lines.filter fun line => (s.l2At line).any fun y => y.host == .he with
    | [] => (match s.holdLines lines with
      | some s => x.version.foldl (fun (t : State) v => t.commitLine v.1 v.2) (s.modGroup g fun y => { y with committing := true })
      | none => s)
    | l => l.foldl (fun (t : State) line => t.callBack line true) s)

/-! ## Completion counters (R67, R408) -/

/-- 1 is added to the 8 bytes of runs at a scope, in one step and as a release, where they lie in one line. -/
def State.addOne (s : State) (root region : Nat) (scope : BitVec 3) (runs : List Run) (v : Nat)
    (counter : Option (Option Nat) := none) : State :=
  let x : Write := { Write.forLp root region .put with rel := true, scope := scope, counter := counter }
  let s := runs.foldl (fun t r => r.lines.foldl (fun t line => t.countLp r line) t) s
  match runs with
  | [r] =>
    if (firstPa runs) % 128 ≤ 120 then s.putOp x r 0 8 (.inc · 8 v)
    else s.putRuns x runs (bytesOf 8 ((numOf (s.readRuns runs) + v) % 2 ^ 64))
  | _ => s.putRuns x runs (bytesOf 8 ((numOf (s.readRuns runs) + v) % 2 ^ 64))

/-- A completion counter is incremented, as an atomic add that is a release at a scope; a counter that cannot be written is
reported. -/
def State.addCounter (s : State) (root region : Nat) (scope : BitVec 3) (launch : Option Nat) (addr : Nat) : State :=
  if addr = 0 then s
  else match s.vrange none root region addr 8 true true false true with
    | (.error (.fault _ x), s) => s.counterEntry region launch addr x.toNat
    | (.error (.pool _ _), s) =>
      let (f, s) := s.freeWord
      s.counterEntry region launch addr f.toNat
    | (.ok runs, s) => s.addOne root region scope runs 1 (some launch)

/-- The scope at which a launch finishes: CSCOPE, and .dev for a smaller one (R408). -/
def LaunchSt.endScope (l : LaunchSt) : BitVec 3 := if l.cscope.toNat < 3 then 3 else l.cscope

/-- LAUNCH_FINISH (R67, R408). -/
def execLaunchFinish (l : Nat) (s : State) : Out :=
  let x := s.launch l
  .next (if s.launchDone l x.endScope then
    (s.modLaunch l fun y => { y with phase := .finished }).addCounter (s.eff x.region 6 0x30 8) x.region x.endScope (some l) x.cmpl
  else s)

/-! ## Eviction and restore (R410, R421, R429, R456 to R462, R494) -/

/-- Whether a resident group may be evicted for a candidate that cannot be placed: one of its own region only for want of budget
(R410, R421). -/
def State.yieldsTo (s : State) (g : Nat) (a : Cand) : Bool :=
  let x := s.group g
  let r := (s.launch x.launch).region
  let p := s.prioOf r
  let q := s.eff r 4 0x24 4
  (s.whereTo a).isNone &&
    (if a.region = r then s.wantsBudget a && p ≤ a.prio else p < a.prio || (p == a.prio && q != 0 && x.since + 1000 * q < s.gtime))

/-- Whether something asks for a group to leave its cores: a candidate, a withdrawn die, or a failing core. -/
def State.askedToLeave (s : State) (g : Nat) : Bool :=
  let x := s.group g
  x.cores.any (fun c => (s.core c).failing || (s.launch x.launch).withdrawn.contains (dieOf c)) || s.cands.any (s.yieldsTo g)

/-- Whether every access and operation of a group's warps is complete, but for loads of host and pool memory (R457). -/
def State.quiet (s : State) (g : Nat) : Bool :=
  let x := s.group g
  let mine := x.warps.contains
  let remote := fun (p : LPiece) => match s.frame p.pa with
    | .host _ | .pool _ _ => true
    | _ => false
  (s.loads.all fun y => !mine y.warp || ((y.kind == .ld || y.kind == .lds) && y.pieces.any remote)) &&
    (s.writes.all fun y => match y.warp with
      | some w => !mine w
      | none => true) &&
    (s.scs.all fun y => !mine y.warp) && (s.nfs.all fun y => !mine y.warp) &&
    (x.warps.all fun w => (s.warp w).exited || ((s.warp w).eng.isEmpty && (s.warp w).matx.isEmpty && (s.warp w).bcasts.isEmpty &&
      (s.warp w).graph.isNone)) &&
    x.cores.all fun c => (s.core c).banks.all fun b => (b.owner.map Prod.fst) != some g || b.pending.isEmpty

/-- The banks of a group with their modes and FIFO contents (R301). -/
def State.saveBanks (s : State) (g : Nat) : List SavedBank :=
  let x := s.group g
  (List.range x.cores.length).flatMap fun pos => (List.range (s.launch x.launch).nb).filterMap fun j =>
    (s.bankAt g pos j).map fun b => { pos := pos, j := j, mode := b.2.mode, fifo := b.2.fifo }

/-- A group leaves its cores with its image saved; none where the image finds no place (R420, R457 to R459). -/
def State.evictGroup (s : State) (g : Nat) : Option State :=
  let x := s.group g
  let live := x.warps.filter fun w => !(s.warp w).exited
  let s := s.modGroup g fun y => { y with saved := s.saveBanks g }
  (s.placeImage g x.cores).map fun s =>
    let s := (s.endSubs g).freeCores g
    let s := live.foldl (fun (t : State) w =>
      (t.clearResv w).modWarp w fun v => { v with active := false, wevict := v.wevict + 1 }) s
    (s.modGroup g fun y => { y with phase := .evicted, cores := [], since := s.gtime }).writeUsage
      (s.launch x.launch).region

/-- Whether the image of a group finds a place. -/
def State.imageFits (s : State) (g : Nat) : Bool :=
  ((s.modGroup g fun y => { y with saved := s.saveBanks g }).placeImage g (s.group g).cores).isSome

/-- GROUP_EVICT: the units of a group that is asked to leave stop, and once what it has outstanding is complete it leaves, whatever wake
condition has come to hold meanwhile (R457). -/
def execGroupEvict (g : Nat) (s : State) : Out :=
  let x := s.group g
  let live := s.liveWarps g
  .next (if x.phase = .resident then
    (if live != [] && live.all s.atBlockingPoint && (live.any fun w => (s.warp w).canWake) && s.askedToLeave g && s.imageFits g then
      s.modGroup g fun y => { y with phase := .leaving, woken := none }
    else s)
  else if x.phase = .leaving && s.quiet g then
    (s.evictGroup g).getD (s.modGroup g fun y => { y with phase := .resident, woken := none })
  else s)

/-- GROUP_RESTORE: the chain of the region is read before (R411, R419, R460). -/
def execGroupRestore (g : Nat) (slots : List Nat) (s : State) : Out :=
  let s := s.readRegion (s.launch (s.group g).launch).region
  .next (match (s.cands.find? fun a => a.kind == .back g).bind s.serves with
    | some cores => (s.putBack g cores slots).resumeResolved g
    | none => s)

/-! ## Step boundaries (R428, R429, R475) -/

/-- The launch's resident groups on a die. -/
def State.groupsOnDie (s : State) (l d : Nat) : Nat :=
  (s.groups.filter fun g => g.launch == l && g.resident && dieOf (g.coreAt 0) == d).length
/-- The die of D with the fewest of the launch's groups, the higher number on a tie. -/
def State.leastDie (s : State) (l : Nat) : Option Nat :=
  (s.launch l).dies.foldl (fun (b : Option Nat) d => match b with
    | none => some d
    | some e =>
      if s.groupsOnDie l d < s.groupsOnDie l e || (s.groupsOnDie l d == s.groupsOnDie l e && e < d) then some d else b) none
/-- A die leaves D. -/
def State.withdrawDie (s : State) (l : Nat) : State :=
  match s.leastDie l with
  | none => s
  | some d => s.modLaunch l fun x => { x with dies := x.dies.filter (· ≠ d), withdrawn := d :: x.withdrawn }
/-- A die enters D: the first in the order of R426 that has an idle core. -/
def State.addDie (s : State) (l : Nat) : State :=
  match s.dieOrder.find? fun d => !(s.launch l).dies.contains d && s.idleCores d != 0 with
  | none => s
  | some d => s.modLaunch l fun x => { x with dies := x.dies ++ [d], withdrawn := x.withdrawn.filter (· ≠ d) }

/-- Whether a candidate that cannot be placed needs cores of a die: one of its launch's die set, or of any die before that is
chosen (R426, R428). -/
def State.needsDie (s : State) (a : Cand) (d : Nat) : Bool :=
  let x := s.launch (s.launchOf a)
  (s.whereTo a).isNone && (if x.pin then (match a.kind with
      | .next _ => 64 * d < x.total
      | .again g | .back g => dieOf (s.group g).lin == d)
    else x.dies.isEmpty || x.dies.contains d)

/-- A launch reaches a new step: at most one change to D, by the power controller's request or by the launch processor's
own choice (R429). -/
def State.newStep (s : State) (l : Nat) (n : Word) : State :=
  let s := s.modLaunch l fun x => { x with step := n }
  let x := s.launch l
  let p := s.prioOf x.region
  if x.pin then s
  else if s.ctl.withdrawAsked.contains l && x.dmin < x.dies.length then
    (s.withdrawDie l).modCtl fun c => { c with withdrawAsked := c.withdrawAsked.filter (· ≠ l) }
  else
    let (k, s) := s.draw
    let choice := Config.freePick k % 3
    if choice = 1 && x.dies.length < x.dmax && s.cands.all (fun a => a.prio < p) then s.addDie l
    else if choice = 2 && x.dmin < x.dies.length && s.cands.any (fun a => p < a.prio && (s.leastDie l).any (s.needsDie a)) then
      s.withdrawDie l
    else s

/-- SBND (R429, R475). -/
def execSbnd (h : Hd) (a : GReg) (s : State) : Out :=
  .next (s.issue (.sbnd h a) fun e s =>
    let n := s.me.lane a 0
    let l := s.myGroup.launch
    if e = 0 then s.retire (.sbnd h a)
    else (if (s.launch l).step.toNat < n.toNat then s.newStep l n else s).retire (.sbnd h a))

end Sys2Proof.Machine
end

