-- ==== Sys2Proof/Machine/Sentences.lean ====
section
/-! DEFINITION. Sentences: how clauses start, fail and finish, and how a walk ends (R308 to R311). -/

namespace Sys2Proof.Machine

/-! ## Clauses in memory (R308, R309) -/

/-- A walk of nothing. -/
def Walk.blank : Walk := { hdr := 0, root := 0, region := 0, clauses := [], failed := true, ended := true }
/-- Walk `n`. -/
def State.walk (s : State) (n : Nat) : Walk := nth Walk.blank s.walks n
/-- The state with walk `n` changed. -/
def State.modWalk (s : State) (n : Nat) (f : Walk → Walk) : State := { s with walks := s.walks.modify n f }
/-- The walk with clause `i` in a state. -/
def Walk.setClause (x : Walk) (i : Nat) (c : ClauseSt) : Walk := { x with clauses := x.clauses.set i c }
/-- The address of clause `i`. -/
def Walk.clauseAt (x : Walk) (i : Nat) : Nat := (x.hdr.toNat + 64 + 64 * i) % 2 ^ 64

/-- The launch processor writes for a walk; a place that cannot be written keeps its bytes. -/
def State.walkWrite (s : State) (x : Walk) (va : Nat) (bs : List MarkedByte) : State :=
  match s.vwrite none x.root x.region va bs with
  | (.ok t, _) => t
  | (.error _, t) => t

/-- A clause read from memory, as 64 bytes, or the address that fails. -/
def State.readClause (s : State) (x : Walk) (i : Nat) : Except Nat (List MarkedByte) × State :=
  match s.vread x.root x.region (x.clauseAt i) 64 with
  | (.ok bs, s) => (.ok bs, s)
  | (.error (.fault a _), s) => (.error a, s)
  | (.error (.pool a _), s) => (.error a, s)

/-- A field of a clause. -/
def clauseField (bs : List MarkedByte) (off n : Nat) : Nat := numOf ((bs.drop off).take n)
/-- The successors of a clause. -/
def clauseSuccs (bs : List MarkedByte) : List Nat :=
  (List.range (clauseField bs 0x06 2)).map fun i => clauseField bs (0x08 + 2 * i) 2

/-! ## The end of a walk (R310, R311) -/

/-- The completion counter of a walk that has ended is incremented. -/
def State.walkCounter (s : State) (x : Walk) : State :=
  match s.vread x.root x.region ((x.hdr.toNat + 8) % 2 ^ 64) 8 with
  | (.ok bs, s) => s.addCounter x.root x.region 5 none (numOf bs)
  | (.error _, s) => s

/-- PRED of a clause takes its INIT. -/
def State.resetPred (x : Walk) (s : State) (i : Nat) : State :=
  match s.readClause x i with
  | (.ok bs, s) => s.walkWrite x ((x.clauseAt i + 2) % 2 ^ 64) ((bs.drop 4).take 2)
  | (.error _, s) => s

/-- Whether a clause is running. -/
def ClauseSt.isRunning : ClauseSt → Bool
  | .running _ | .writing _ _ => true
  | _ => false

/-- A walk ends when every clause has finished, or, after a failure, when none is running any more. -/
def State.endWalk (s : State) (n : Nat) : State :=
  let x := s.walk n
  if x.ended then s
  else if x.failed then
    if x.clauses.any ClauseSt.isRunning then s else (s.modWalk n fun y => { y with ended := true }).walkCounter x
  else if x.clauses.all fun c => c == .finished then
    let s := (List.range x.clauses.length).foldl (State.resetPred x) s
    let s := s.walkWrite x ((x.hdr.toNat + 4) % 2 ^ 64) (bytesOf 4 2)
    (s.modWalk n fun y => { y with ended := true }).walkCounter x
  else s

/-- CLAUSE_FAIL: STATUS becomes 3 with the index of the clause, FADDR the failing address, and no further clause starts
(R311). -/
def State.failClause (s : State) (n i faddr : Nat) : State :=
  let x := s.walk n
  let s := s.walkWrite x ((x.hdr.toNat + 4) % 2 ^ 64) (bytesOf 4 (3 + 2 ^ 16 * (i % 4096)))
  let s := s.walkWrite x ((x.hdr.toNat + 0x10) % 2 ^ 64) (bytesOf 8 faddr)
  (s.modWalk n fun y => { y.setClause i .finished with failed := true }).endWalk n

/-! ## What a clause does (R310) -/

/-- A clause is running. -/
def State.runClause (s : State) (n i : Nat) (l : Option Nat) : State := s.modWalk n fun y => y.setClause i (.running l)

/-- A range of a clause, or the clause fails with its first address that cannot be accessed. -/
def State.clauseRange (s : State) (n i va len : Nat) (wr : Bool) (k : List Run → State → State) : State :=
  let x := s.walk n
  match s.vrange none x.root x.region va len (!wr) wr false true with
  | (.ok runs, s) => k runs s
  | (.error (.fault a _), s) => s.failClause n i a
  | (.error (.pool a _), s) => s.failClause n i a

/-- The scope at which a COPY or a SIGNAL is performed: SCOPE, and .dev for a smaller one. A value above 5 names no scope; it acts as
.sys (R309; log 30). -/
def clauseScope (c : List MarkedByte) : BitVec 3 := BitVec.ofNat 3 (min 5 (max 3 (clauseField c 0x01 1)))
/-- A clause has sent its writes by `f`: it finishes once they are performed at a scope (R310). -/
def State.sendClause (s : State) (n i : Nat) (scope : BitVec 3) (f : State → State) : State :=
  let t := f s
  t.modWalk n fun y => y.setClause i (.writing (t.newWrites s.nextId) scope)

/-- A COPY clause moves its bytes, all of them read before any is written. -/
def State.copyClause (s : State) (n i : Nat) (c : List MarkedByte) : State :=
  let len := clauseField c 0x30 8
  s.clauseRange n i (clauseField c 0x20 8) len false fun src s =>
    s.clauseRange n i (clauseField c 0x28 8) len true fun dst s =>
      let s := s.lpRuns src
      let x := s.walk n
      s.sendClause n i (clauseScope c) fun s => s.writeRuns x.root x.region dst (s.readRuns src)

/-- A LAUNCH clause: its record is checked, and rejected or made a candidate. -/
def State.launchClause (s : State) (n i : Nat) (c : List MarkedByte) : State :=
  let x := s.walk n
  let record := clauseField c 0x20 8
  s.clauseRange n i record 256 false fun runs s =>
    let s := s.lpRuns runs
    let r := recordOf (s.readRuns runs)
    let l := LaunchSt.ofRecord r (regionOfRecord r x.region) x.region s.clock s.gtime
    match s.checkRecord l false with
    | (some code, s) => (s.reject l code).failClause n i record
    | (none, s) =>
      let (k, s) := s.addLaunch { l with clause := some (n, i) }
      s.runClause n i (some k)

/-- A SIGNAL clause writes its value or adds it; the spec states no value for another OPC (log 5). -/
def State.signalClause (s : State) (n i : Nat) (c : List MarkedByte) : State :=
  let v := clauseField c 0x28 8
  s.clauseRange n i (clauseField c 0x20 8) 8 true fun runs s =>
    let x := s.walk n
    let put := fun (s : State) (k : Nat) =>
      s.sendClause n i (clauseScope c) fun s => s.writeRuns x.root x.region runs (bytesOf 8 (k % 2 ^ 64))
    match clauseField c 0x30 8 with
    | 0 => put s v
    | 1 => (s.lpRuns runs).sendClause n i (clauseScope c) fun s => s.addOne x.root x.region (clauseScope c) runs v
    | _ => (let (d, s) := s.draw; put s (Config.freePick d))

/-- CLAUSE_START: a clause whose PRED is 0 starts, unless its sentence has failed (R310, R311). -/
def execClauseStart (walk i : Nat) (s : State) : Out :=
  let x := s.walk walk
  .next (if x.ended || x.failed || x.clauses[i]? != some .idle then s
  else match s.readClause x i with
    | (.error a, s) => s.failClause walk i a
    | (.ok c, s) =>
      if clauseField c 0x02 2 ≠ 0 then s
      else if 12 < clauseField c 0x06 2 || (clauseSuccs c).any (x.clauses.length ≤ ·) then s.failClause walk i (x.clauseAt i)
      else match clauseField c 0x00 1 with
        | 0 => s.runClause walk i none
        | 1 => s.copyClause walk i c
        | 2 => s.launchClause walk i c
        | 3 => s.signalClause walk i c
        | _ => s.failClause walk i (x.clauseAt i))

/-- The PRED field at an address is decremented, unless it is 0 already. -/
def State.decPred (x : Walk) (s : State) (i : Nat) : State :=
  match s.readClause x i with
  | (.ok bs, s) =>
    let p := clauseField bs 0x02 2
    if p = 0 then s else s.walkWrite x ((x.clauseAt i + 2) % 2 ^ 64) (bytesOf 2 (p - 1))
  | (.error _, s) => s

/-- A clause finishes: PRED of each successor is decremented (R310). -/
def State.finishClause (s : State) (n i : Nat) : State :=
  let x := s.walk n
  let (succs, s) := match s.readClause x i with
    | (.ok bs, s) => ((clauseSuccs bs).take 12, s)
    | (.error _, s) => ([], s)
  let s := (succs.filter (· < x.clauses.length)).foldl (State.decPred x) s
  (s.modWalk n fun y => y.setClause i .finished).endWalk n

/-- CLAUSE_FINISH: a running clause finishes, one that writes when its writes are performed at its scope, and one that launches when
its launch has finished; it fails when the launch is
rejected after all (R293, R310, R311). -/
def execClauseFinish (walk i : Nat) (s : State) : Out :=
  .next (match (s.walk walk).clauses[i]? with
    | some (.running none) => s.finishClause walk i
    | some (.writing ids scope) => if s.allDone ids scope then s.finishClause walk i else s
    | some (.running (some l)) =>
      match (s.launch l).phase with
      | .finished => s.finishClause walk i
      | .rejected =>
        let (a, s) := match s.readClause (s.walk walk) i with
          | (.ok c, s) => (clauseField c 0x20 8, s)
          | (.error a, s) => (a, s)
        s.failClause walk i a
      | _ => s
    | _ => s)

end Sys2Proof.Machine
end

