-- ==== Sys2Proof/Machine/EngineEvents.lean ====
section
/-! DEFINITION. The completion of engine operations and of bank switches
(R300, R304, R305, R311, R339 to R341, R345, R351 to R353, R355, R360, R485; log 12). -/

namespace Sys2Proof.Machine

/-! ## Engine operations -/

/-- An engine operation of a warp changed. -/
def State.modEng (s : State) (w id : Nat) (f : EngOp → EngOp) : State :=
  s.modWarp w fun v => { v with eng := v.eng.map fun o => if o.id = id then f o else o }
/-- An engine operation is complete. -/
def State.dropEng (s : State) (w id : Nat) : State :=
  s.modWarp w fun v => { v with eng := v.eng.filter fun o => o.id != id }
/-- An engine operation is complete with a failure, which its warp holds until it is raised (R355). -/
def State.failEng (s : State) (w : Nat) (o : EngOp) (code : Nat) (faddr : DWord) : State :=
  (s.dropEng w o.id).modWarp w fun v =>
    { v with fails := v.fails ++ [{ cls := o.cls, id := o.id, faddr := faddr, extra := faultCode code 0 }] }

/-- Whether a PREF installs a line: a page of a host that the device may not cache or whose port is down, one of a lost
window, and one behind a port that carries no traffic, is skipped (R304, R403, R482, R491). -/
def State.installs (s : State) (line : Nat) : Bool :=
  s.cacheable line && s.reaches line && !s.unlinked (128 * line)

/-- A PREF names a line: privatised copies are merged, and a line that its home does not hold is installed as a shared copy; none
while its slice has no room (R1, R304, R396). -/
def State.installLine (s : State) (line : Nat) : Option State :=
  let s := s.mergeLine line
  if (s.l2At line).isSome || !s.installs line then some s
  else match s.frame (128 * line) with
    | .hbm => s.install line (s.memAt line) .m
    | f =>
      let (d, s) := s.freeLine
      ((s.storeMem line d).install line d .s).map fun s => match f with
        | .host _ => s.sendLink line .rdShared
        | _ => s.sendLink line (.memRd · false)

/-- The lines of a PREF are installed one after another: those left over when a slice has no room, and the state. -/
def State.installAll (s : State) : List Nat → List Nat × State
  | [] => ([], s)
  | line :: l => match s.installLine line with
    | some s => s.installAll l
    | none => (line :: l, s)

/-- Whether a write of a warp made before a number to one of some lines is still to be performed at a scope (R372). -/
def State.linesPending (s : State) (w before : Nat) (scope : BitVec 3) (lines : List Nat) : Bool :=
  s.writes.any fun x => x.warp == some w && x.id < before && lines.contains x.line && !s.writeDone x scope

/-- PRED of the clause at a run is decremented, unless it is 0 already (R311, R345). -/
def State.reportClause (s : State) (w : Nat) (r : Run) : State := s.putOp (Write.forEngine w (s.warp w).core 3) r 2 2 .dec

/-- An engine operation has another thing to do. -/
def State.setWork (s : State) (w : Nat) (o : EngOp) (x : EngWork) : State := s.modEng w o.id fun o => { o with work := x }
/-- An engine operation has moved bytes by `f`: it goes on as `k` says, once the writes that it has made are performed. -/
def State.moveThen (s : State) (w : Nat) (o : EngOp) (f : State → State) (next : EngNext) (k : State → State) : State :=
  let t := f s
  match t.newWrites s.nextId with
  | [] => k t
  | ids => t.setWork w o (.writing ids next)

/-- The first bytes of runs. -/
def takeRuns : List Run → Nat → List Run
  | [], _ => []
  | r :: l, n => if n = 0 then [] else { r with len := min r.len n } :: takeRuns l (n - r.len)

/-- Remote bytes on a peer link: what the peer answers is free (R353; log 5). -/
def State.peerBytes (s : State) (n : Nat) : List MarkedByte × State :=
  let (k, s) := s.draw
  ((List.range n).map fun i => (Config.freeByte (k + i), false), { s with free := s.free + n })

/-- The requests that a PXFER sends on its link for runs of remote bytes. -/
def State.peerSend (s : State) (get : Bool) (link : Nat) : List Run → List MarkedByte → State
  | [], _ => s
  | r :: l, bs =>
    let s := match r.place with
      | .phys pa =>
        if get then s.send (.peerGet link (pa % 2 ^ 44) r.len)
        else s.send (.peerPut link (pa % 2 ^ 44) ((bs.take r.len).map Prod.fst))
      | _ => s
    s.peerSend get link l (bs.drop r.len)

/-- The first `n` bytes of a PXFER move. -/
def State.peerMove (s : State) (w : Nat) (get : Bool) (link n : Nat) (near far : List Run) : State :=
  let far := takeRuns far n
  if get then
    let (bs, s) := s.peerBytes n
    (s.peerSend true link far []).writeGroup w 5 (takeRuns near n) bs
  else s.peerSend false link far ((s.readGroup w near).take n)

/-- The number of bytes of runs. -/
def runsLen (l : List Run) : Nat := (l.map fun r => r.len).sum

/-- PXFER, while the ports carry traffic: with its link down, it fails at a byte that the device chooses, and the bytes before it have
moved (R485, R491). -/
def State.peerEng (s : State) (w : Nat) (o : EngOp) (get : Bool) (va : DWord) (link : Nat) (near far : List Run) : State :=
  let n := runsLen far
  if !s.carries then s
  else s.bulk w o.id o.scope (if get then [] else near) (if get then near else []) fun s =>
    if nth true s.ctl.peerUp link then s.moveThen w o (fun s => s.peerMove w get link n near far) .done fun s => s.dropEng w o.id
    else
      let (k, s) := s.draw
      let k := if n = 0 then 0 else Config.freePick k % n
      let at_ := va + BitVec.ofNat 64 k
      s.moveThen w o (fun s => s.peerMove w get link k near far) (.fail 12 at_) fun s => s.failEng w o 12 at_

/-- A pass of a TLOAD has failed: the next one begins, or after 4,096 the operation fails with code 8 (R341). -/
def State.nextPass (s : State) (w : Nat) (o : EngOp) (va : DWord) (ver src dst : List Run) (passes : Nat) : State :=
  if 4095 ≤ passes then s.failEng w o 8 va else s.setWork w o (.tload va ver src dst (passes + 1) none)

/-- TLOAD: the version word is read, the data are copied to scratch, and the version word is read again, each as a step of its own
(R341). -/
def State.tloadEng (s : State) (w : Nat) (o : EngOp) (va : DWord) (ver src dst : List Run) (passes : Nat) (pass : Option (Nat × Bool)) :
    State :=
  match pass with
  | none => s.bulk w o.id o.scope ver [] fun s =>
    let v := numOf (s.readGroup w ver)
    if v % 2 ≠ 0 then s.nextPass w o va ver src dst passes else s.setWork w o (.tload va ver src dst passes (some (v, false)))
  | some (v, false) => s.bulk w o.id o.scope src dst fun s =>
    (s.writeGroup w o.scope dst (s.readGroup w src)).setWork w o (.tload va ver src dst passes (some (v, true)))
  | some (v, true) => s.bulk w o.id o.scope ver [] fun s =>
    if numOf (s.readGroup w ver) = v then s.dropEng w o.id else s.nextPass w o va ver src dst passes

/-- A run whose page was WB is translated anew once the invalidation that ends WB has completed (R322). -/
def State.renew (s : State) (w : Nat) (r : Run) : List Run × State :=
  match r.place with
  | .virt _ .over =>
    (match s.vruns (some (s.warp w).core) (s.rootOf w) (s.regionOf w) r.va r.len false true false true with
    | (.ok l, s) => (l, s)
    | (.error _, s) => ([r], s))
  | _ => ([r], s)
/-- Runs translated anew. -/
def State.renewAll (s : State) (w : Nat) : List Run → List Run × State
  | [] => ([], s)
  | r :: l =>
    let (a, s) := s.renew w r
    let (b, s) := s.renewAll w l
    (a ++ b, s)

/-- The exchange of an even version word for the next number (R340). -/
def State.sendCas (s : State) (w : Nat) (o : EngOp) (r : Run) (v : Nat) : State :=
  s.putOp (Write.forEngine w (s.warp w).core o.scope) r 0 8 (.cas o.id · v)

/-- TSTORE.all writes the number that ends it into the version word, as a release at its scope: once every earlier access of the warp
is performed there (R340, R368). -/
def State.endStore (s : State) (w : Nat) (o : EngOp) (ver : List Run) (v : Nat) : State :=
  if s.allPerformed w o.id o.scope then
    s.moveThen w o (fun s => s.writeGroup w o.scope ver (bytesOf 8 ((v + 2) % 2 ^ 64))) .done fun s => s.dropEng w o.id
  else s
/-- TSTORE.all writes its data (R340). -/
def State.dataStore (s : State) (w : Nat) (o : EngOp) (ver src dst : List Run) (v : Nat) : State :=
  s.bulk w o.id o.scope src dst fun s =>
    s.moveThen w o (fun s => s.writeGroup w o.scope dst (s.readGroup w src)) (.version ver v) fun s =>
      s.setWork w o (.writing [] (.version ver v))

/-- TSTORE.all reads the version word and exchanges an even one for the next number; in a versioned group it does so in the version,
which the warps of the group read. While a page of it is WB it is held (R322, R340, R373). -/
def State.tstoreEng (s : State) (w : Nat) (o : EngOp) (ver src dst : List Run) : State :=
  let waits := fun (r : Run) => match r.place with
    | .virt _ wb => wb != .over
    | _ => false
  if s.versionedOf w then
    s.bulk w o.id o.scope ver ver fun s =>
      let v := numOf (s.readGroup w ver)
      if v % 2 ≠ 0 then s
      else (s.writeGroup w o.scope ver (bytesOf 8 (v + 1))).setWork w o (.writing [] (.data ver src dst v))
  else if (ver ++ dst).any waits then s
  else if (ver ++ dst).any Run.held then
    let (ver, s) := s.renewAll w ver
    let (dst, s) := s.renewAll w dst
    s.setWork w o (.tstore ver src dst)
  else s.bulk w o.id o.scope ver [] fun s =>
    match ver with
    | r :: _ =>
      let pa := firstPa ver
      let v := numOf (s.readGroup w ver)
      if s.unlinked pa then s.dropEng w o.id
      else if v % 2 ≠ 0 then s
      else s.moveThen w o (fun s => s.sendCas w o r v) (.data ver src dst v) id
    | _ => s.dropEng w o.id

/-- PREF: its lines are installed, after every earlier write of the warp to them, and a clause that it reports on is told
(R304, R311, R345, R372). -/
def State.prefEng (s : State) (w : Nat) (o : EngOp) (lines : List Nat) (clause : Option Run) : State :=
  if s.linesPending w o.id o.scope lines then s
  else match s.installAll lines with
    | ([], s) => (match clause with
      | some r => s.moveThen w o (fun s => s.reportClause w r) .done fun s => s.dropEng w o.id
      | none => s.dropEng w o.id)
    | (l, s) => s.setWork w o (.pref l clause)

/-- The writes of an engine operation are performed, and it goes on. -/
def State.nextEng (s : State) (w : Nat) (o : EngOp) : EngNext → State
  | .done => s.dropEng w o.id
  | .fail code faddr => s.failEng w o code faddr
  | .data ver src dst v => s.dataStore w o ver src dst v
  | .version ver v => s.endStore w o ver v

/-- An outstanding engine operation does its next part, where it may do it now: at the last one it completes. -/
def State.runEng (s : State) (w : Nat) (o : EngOp) : State :=
  match o.work with
  | .copy src dst => s.bulk w o.id o.scope src dst fun s =>
    s.moveThen w o (fun s => s.writeGroup w o.scope dst (s.readGroup w src)) .done fun s => s.dropEng w o.id
  | .tload va ver src dst passes pass => s.tloadEng w o va ver src dst passes pass
  | .tstore ver src dst => s.tstoreEng w o ver src dst
  | .writing ids next => if s.allDone ids o.scope then s.nextEng w o next else s
  | .pref lines clause => s.prefEng w o lines clause
  | .pxfer get va link near far => s.peerEng w o get va link near far
  | .ovld _ _ => (s.finishLoad o).dropEng w o.id
  | .loaded core slot =>
    if (nth none (s.core core).overlays slot).any fun x => x.loading then s else s.dropEng w o.id
  | .none => s.dropEng w o.id

/-- ENGINE_OP_COMPLETE: the oldest operation of a class of a warp (R305); 2 stands for a PREF that reports on a clause,
which no order binds. -/
def execEngineOpComplete (w : Nat) (cls : BitVec 2) (s : State) : Out :=
  let mine := (s.warp w).eng.filter fun o => o.cls == if cls = 2 then 4 else cls.toNat
  .next (if cls = 2 then
    let (k, s) := s.draw
    (match mine[Config.freePick k % mine.length]? with
      | some o => (s.runEng w o).settleKill w
      | none => s)
  else match mine with
    | o :: _ => (s.runEng w o).settleKill w
    | [] => s)

/-! ## Bank switches (R300) -/

/-- Scratch runs that an engine operation has still to move. -/
def EngWork.runs : EngWork → List Run
  | .copy src dst => src ++ dst
  | .tload _ _ _ dst _ _ => dst
  | .tstore _ src _ => src
  | .writing _ (.data _ src _ _) => src
  | _ => []

/-- Whether an engine or array operation of a group has still to move bytes of bank `j` at a position. -/
def State.bankUsed (s : State) (g pos j : Nat) : Bool :=
  (s.group g).warps.any fun w =>
    let v := s.warp w
    let hit := fun (r : Run) => r.meetsScr pos (32768 * j) 32768
    (v.eng.any fun o => o.work.runs.any hit) || v.matx.any fun o => (o.pending v.pos).any hit

/-- BANK_SWITCH_COMPLETE: the first switch that a bank has still to make. -/
def execBankSwitchComplete (core bank : Nat) (s : State) : Out :=
  let b := nth Bank.cache (s.core core).banks bank
  .next (match b.pending, b.owner with
    | m :: r, some (g, j) =>
      let pos := ((s.group g).cores.findIdx? fun c => c == core).getD 0
      if s.bankUsed g pos j then s
      else
        let s := if b.mode = .cache then s.drainBank core bank else s
        let s := s.modBank core bank fun x => { x.enter .off with pending := r }
        let s := s.modBank core bank fun x => x.enter m
        if m = .scratch && b.mode != .scratch then s.modGroup g fun x => x.zeroBank pos j else s
    | _, _ => s)

end Sys2Proof.Machine
end

