-- ==== Sys2Proof/Machine/HostEvents.lean ====
section
/-! DEFINITION. What the host, the pool devices and the links do: host reads, writes and snoops, answers and grants,
pool probes, lost pool links, reopened windows, ports and lanes
writes held under WB (R319, R322, R323, R329, R343, R375, R376, R389, R398, R399, R401 to R405, R408, R450, R482 to R485). -/

namespace Sys2Proof.Machine

/-! ## The host and lines of device HBM (R398) -/

/-- Whether a host port is up. -/
def State.hostUp (s : State) : Bool := s.ctl.hostPorts.any fun p => p.up
/-- Whether the host may cache device HBM through the port that a request of it comes by. -/
def State.hostCaches (s : State) : Bool := (s.port s.k).up && (s.port s.k).hdmdb
/-- Whether a write of the host is still on its way to copies. -/
def State.hostWriting (s : State) : Bool := s.writes.any fun x => x.kind == .host
/-- A line of HBM is held at its home, which fetches it where it does not hold it; without room in its slice the access waits (R1). -/
def State.withLine (s : State) (line : Nat) (k : L2Line → State → State) : State :=
  match if (s.l2At line).isSome then some s else s.install line (s.memAt line) .m with
  | none => s
  | some t => match t.l2At line with
    | some x => k x t
    | none => s

/-- A write of the host to a line of HBM, after which the host holds it as `after`: at once, or once the write has reached the host
node of a line that the host holds shared (R388, R389, R398). -/
def State.hostWrite (s : State) (line : Nat) (d : LineData) (m : BitVec 128) (after : HostSt) : State :=
  (s.mergeLine line).withLine line fun l s =>
    let x : Write := { Write.own line .host d m with id := s.nextId, scope := 5 }
    ((s.sendOwn x).applyWrite x { l with busy := false }).modL2 line fun y =>
      if y.prop.any fun f => f.hostLeft then y else { y with host := after }

/-- A host read that is not carried out: outside READY it returns poisoned data and is counted (R493). -/
def State.notReadyRead (s : State) (line : Nat) : State :=
  if s.carries then s else s.notReady.send (.readData line LineData.poisoned)

/-- HOST_MEMWR. A write of the host waits for those before it, so that it is a release of them: how the host learns that a write is
complete the spec does not say (DESIGN CHOICE, log 58). -/
def execHostMemwr (line : Nat) (mask : BitVec 128) (data : BitVec 1024) (s : State) : Out :=
  .next (if s.carries && s.hostUp && s.frame (128 * line) = .hbm && !s.lineBusy line && !s.hostWriting then
    s.hostWrite line { bits := data, poison := 0 } mask .hi
  else if s.carries then s
  else s.notReady)

/-- Whether a line waits for the host's answer to a call-back. -/
def State.calledBack (s : State) (line : Nat) : Bool :=
  match s.l2At line with
  | some x => x.busy && x.prop.isNone && x.host == .he
  | none => false

/-- The host answers a call-back: dirty data enter as a write, and the line is free again. -/
def State.hostAnswer (s : State) (line : Nat) (dirty : Option (BitVec 1024)) (after : HostSt) : State :=
  match dirty with
  | some d => s.hostWrite line { bits := d, poison := 0 } (BitVec.allOnes 128) after
  | none => s.modL2 line fun x => { x with busy := false, host := after }

/-- BIRSPS. -/
def execBirsps (line : Nat) (dirty : Option (BitVec 1024)) (s : State) : Out :=
  .next (if s.carries && s.calledBack line then s.hostAnswer line dirty .hs else s)

/-- BIRSPI: the answer to a call-back, or of the host node that a write's propagation has reached (R389). -/
def execBirspi (line : Nat) (dirty : Option (BitVec 1024)) (s : State) : Out :=
  .next (if !s.carries then s
  else if s.calledBack line then s.hostAnswer line dirty .hi
  else match s.l2At line with
    | some x => match x.prop with
      | some f =>
        if f.hostLeft && f.hostAsked then
          s.setL2 line { x with host := .hi, prop := some { f with hostLeft := false, hostAsked := false } }
        else s
      | none => s
    | none => s)

/-- HOST_MEMRD_SNPDATA: the host reads a line shared; through a port without HDM-DB it reads it uncached. The port is that of the
unit number. -/
def execHostMemrdSnpdata (s : State) : Out :=
  let line := s.cur.line
  .next (if s.carries && s.hostUp && s.frame (128 * line) = .hbm && !s.lineBusy line then
    (s.mergeLine line).withLine line fun x s =>
      if x.host = .he then s
      else (s.setL2 line { x with host := if s.hostCaches then .hs else x.host }).send (.readData line x.data)
  else s.notReadyRead line)

/-- HOST_MEMRD_SNPINV: the host takes ownership of a line, and every device copy is recalled. -/
def execHostMemrdSnpinv (s : State) : Out :=
  let line := s.cur.line
  .next (if s.carries && s.hostCaches && s.frame (128 * line) = .hbm && !s.lineBusy line then
    s.withLine line fun _ s =>
      let s := s.recallLine line
      match s.l2At line with
      | some x => if x.host = .he then s else (s.setL2 line { x with host := .he }).send (.readData line x.data)
      | none => s
  else s.notReadyRead line)

/-! ## Lines of host memory (R399, R405) -/

/-- A line leaves the device: it is recalled, and watches on it fire as for a write of its owner (R404, R405). -/
def State.loseLine (s : State) (line : Nat) : State := ((s.recallLine line).dropL2 line).noteWrite line
/-- A dirty line is forwarded to its owner, whose memory then holds it. -/
def State.forwardLine (s : State) (line : Nat) (x : L2Line) (st : Moesi) : State :=
  (s.storeMem line x.data).setL2 line { x with st := st, dirty := false }

/-- A snoop of a line of host memory: it waits while an operation on the line is in progress; a line that is not held is
answered RspIHitI. -/
def State.snoop (s : State) (k : Nat → HostPort → L2Line → State → State) : State :=
  let line := s.cur.line
  match s.frame (128 * line) with
  | .host p =>
    if !s.carries || !((s.port p).up && (s.port p).cache) || s.lineBusy line then s
    else match s.l2At line with
      | some x => if x.st = .i then s.sendLink line .rspIHitI else k line (s.port p) x s
      | none => s.sendLink line .rspIHitI
  | _ => s

/-- SNPDATA. -/
def execSnpdata (s : State) : Out :=
  .next (s.snoop fun line p x s => match x.st with
    | .m =>
      if p.owned then (s.setL2 line { x with st := .o }).sendLink line (.fwdOwned · x.data)
      else (s.forwardLine line x .s).sendLink line (.rspSFwdM · x.data)
    | .o => s.sendLink line (.fwdOwned · x.data)
    | .e => (s.setL2 line { x with st := .s }).sendLink line .rspSHitSE
    | _ => s.sendLink line .rspSHitSE)

/-- SNPINV. -/
def execSnpinv (s : State) : Out :=
  .next (s.snoop fun line _ x s => match x.st with
    | .m | .o => ((s.storeMem line x.data).loseLine line).sendLink line (.rspIFwdM · x.data)
    | _ => (s.loseLine line).sendLink line .rspIHitSE)

/-- SNPCUR. -/
def execSnpcur (s : State) : Out :=
  .next (s.snoop fun line _ x s => match x.st with
    | .m | .o => s.sendLink line (.rspVFwdV · x.data)
    | _ => s.sendLink line .rspVHitV)

/-- A remote agent grants the right to write a line: the oldest write that waits for it is applied, unless it is tied to others, and
the others are tried again. A line in S or O keeps what it holds. -/
def State.grantLine (s : State) (line : Nat) (answer : LineData) : State :=
  match s.writes.find? fun x => x.line == line && x.phase == .asked with
  | none => s
  | some x =>
    if !s.carries || s.lineBusy line then s
    else
      match if (s.l2At line).isSome then some s else (s.storeMem line answer).install line answer .e with
      | none => s
      | some s =>
        let s := s.modL2 line fun y => { y with st := if y.st = .m then .m else .e }
        let s : State := { s with writes := s.writes.map fun (y : Write) =>
          if y.line = line ∧ y.phase = .asked then { y with phase := .pending } else y }
        match s.l2At line with
        | some l => if (s.tied { x with phase := .pending }).length ≤ 1 then s.applyWrite { x with phase := .pending } l else s
        | none => s

/-- HOST_OWNERSHIP_GRANT (R375, R399). -/
def execHostOwnershipGrant (line : Nat) (answer : LineData) (s : State) : Out :=
  .next (match s.frame (128 * line) with
    | .host p => if (s.port p).cache then s.grantLine line answer else s
    | _ => s)

/-- HOST_WRITE_ACK: the host acknowledges an uncached write, and an atomic step or an SC has been made there on what host
memory held (R334, R375, R482). -/
def execHostWriteAck (id : Nat) (s : State) : Out :=
  .next (match s.writes.find? fun x => x.id == id && s.carries with
    | none => s
    | some x => match s.frame (128 * x.line), x.phase with
      | .host _, .remote => ((s.storeMem x.line (lineWrite (s.memAt x.line) x.data x.mask)).noteWrite x.line).completeWrite x
      | .host p, .asked =>
        if (s.port p).cache then s
        else
          let (d, s) := s.freeLine
          match s.writeValue x d with
          | (none, s) => s.endWrite x
          | (some new, s) => ((s.storeMem x.line new).noteWrite x.line).completeWrite x
      | _, _ => s)

/-! ## The pool (R401, R402) -/

/-- POOL_EXCLUSIVE_GRANT. -/
def execPoolExclusiveGrant (line : Nat) (answer : LineData) (s : State) : Out :=
  .next (match s.frame (128 * line) with
    | .pool _ _ => s.grantLine line answer
    | _ => s)

/-- POOL_WRITE_ACK: the pool device acknowledges the writes of a line that its home has applied, which are then performed
at .pool; a line that is M is written to the pool for it and is then E (R376, R401; log 34). -/
def execPoolWriteAck (s : State) : Out :=
  let line := s.cur.line
  let mine := s.writes.filter fun x => x.line == line && x.phase == .remote
  let done := mine.foldl State.endWrite s
  .next (match s.frame (128 * line), s.carries && !mine.isEmpty with
    | .pool _ _, true => (match s.l2At line with
      | some x => if s.lineBusy line then s else if x.st = .m then (done.forwardLine line x .e).sendLink line (.memWr · x.data (BitVec.allOnes 128)) else done
      | none => done)
    | _, _ => s)

/-- An answer to a probe, on the pool port whose range holds the address (R481). -/
def State.answerProbe (s : State) (pa : Nat) (m : Nat → LinkMsg) : State := s.send (.pool (pa / 2 ^ 48 - 2) (m (pa % 2 ^ 48)))
/-- BIFP counts a probe of a line that is not held (R402). -/
def State.countMiss (s : State) : State := { s with bifp := s.bifp + 1 }

/-- A probe of the pool device: outside every granted window, or for a line that is not held, it is answered BIRspI and
counted. -/
def State.probe (s : State) (pa : Nat) (k : Nat → L2Line → State → State) : State :=
  let miss := s.answerProbe pa LinkMsg.birspI |>.countMiss
  let line := lineNo pa
  if !s.carries then s
  else match s.frame pa with
  | .pool _ _ => (match s.l2At line with
    | some x => if (s.poolLost pa).isSome || s.lineBusy line then s else k line x s
    | none => miss)
  | _ => miss

/-- An M line is written to the pool before an answer, and it is then held in a state. -/
def State.cleanLine (s : State) (line : Nat) (x : L2Line) (st : Moesi) : State :=
  if x.st = .m then (s.forwardLine line x st).sendLink line (.memWr · x.data (BitVec.allOnes 128)) else s.setL2 line { x with st := st }

/-- BISNPINV. -/
def execBisnpinv (pa : Nat) (s : State) : Out :=
  .next (s.probe pa fun line x s => ((s.cleanLine line x .e).loseLine line).answerProbe pa .birspI)

/-- BISNPDATA. -/
def execBisnpdata (pa : Nat) (s : State) : Out :=
  .next (s.probe pa fun line x s =>
    if x.st = .s then s.answerProbe pa .birspS
    else (((s.cleanLine line x .e).recallLine line).modL2 line fun y => { y with st := .s }).answerProbe pa .birspS)

/-- BISNPCUR. -/
def execBisnpcur (pa : Nat) (s : State) : Out :=
  .next (s.probe pa fun line x s =>
    if x.st = .s then s.answerProbe pa .birspS else (s.cleanLine line x .e).answerProbe pa .birspE)

/-! ## Lost links (R376, R403, R482) -/

/-- What is outstanding for lines is answered with poison or dropped: reads complete with poisoned data, writes that are
not performed are dropped, and an atomic gives its load a poisoned word (R329, R403, R482). -/
def State.cutOff (s : State) (p : Nat → Bool) : State :=
  let gone := fun (x : Write) => p x.line && x.phase != .held
  let open_ := fun (x : Load) (q : LPiece) =>
    !q.got && p (lineNo q.pa) && (s.fills.any (fun f => p f.line && f.loads.contains x.id) ||
      s.writes.any fun y => gone y && y.ret == x.id)
  { s with
    loads := s.loads.map fun (x : Load) =>
      { x with pieces := x.pieces.map fun q => if open_ x q then q.take LineData.poisoned else q }
    fills := s.fills.filter fun f => !p f.line
    writes := s.writes.filter fun x => !gone x }

/-- Whether a line lies in a window of a pool port. -/
def State.onPool (s : State) (port line : Nat) : Bool :=
  match s.frame (128 * line) with
  | .pool q _ => q == port
  | _ => false

/-- An M line is poisoned in place, with its copies; the write that was on its way is gone (R403). -/
def State.poisonLine (s : State) (line : Nat) (x : L2Line) : State :=
  let d : LineData := { x.data with poison := BitVec.allOnes 32 }
  let s := x.nodes.foldl (fun (t : State) n => t.modCore n.core fun c => c.modL1 line fun y =>
    { y with data := { y.data with poison := BitVec.allOnes 32 } }) s
  s.setL2 line { x with data := d, busy := false, prop := none }

/-- The scope at which an instruction is a release, with its guard: a FENCE.rel or FENCE.sc, or an access with .rel or .acqrel. -/
def releaseAt : Instr → Option (Hd × BitVec 3)
  | .fence h kind scope => if kind = 0 then none else some (h, scope)
  | .st h m .. => if releases m.ord then some (h, m.scope) else none
  | .atom h m .. | .atomr h m .. | .sc h m .. => if releases m.ord then some (h, m.scope) else none
  | .cstore h _ ord scope .. | .cstoreNf h _ ord scope .. => if releases ord then some (h, scope) else none
  | _ => none

/-- Whether a warp waits before it issues a release, for its earlier writes: the active lanes of the instruction and its scope
(R376). -/
def State.fenceWaits (s : State) (w : Nat) : Option (Mask × BitVec 3) :=
  if (s.warp w).wait ≠ some .fence || s.acquiring w then none
  else ((s.spineInstr w).bind releaseAt).map fun x => ((s.warp w).activeSet (some x.1), x.2)

/-- Whether a write of a warp is a release that is still to be performed. -/
def Write.waitsFor (x : Write) (w : Nat) : Bool := x.warp == some w && x.rel && x.phase == .pending
/-- A warp has lost a write with a pool window, which its next release at .pool or wider reports (R376; log 58). -/
def State.loseWrite (s : State) (w va port : Nat) : State :=
  s.modWarp w fun v => { v with lostWrite := v.lostWrite.or (some (va, port)) }

/-- A warp raises POOL_REGION for a write that a lost link has dropped (R376). A warp with a trap of its own keeps it, and its next
release reports the loss. -/
def State.raisePool (s : State) (w : Nat) (lanes : Mask) (va port : Nat) : State :=
  if (s.warp w).trap.isSome then s.loseWrite w va port
  else
    let cur := s.cur
    let s := (s.asWarp w).raise .poolRegion lanes (BitVec.ofNat 64 port) (BitVec.ofNat 64 va)
    { s with cur := cur }

/-- The releases and fences that wait for writes which are dropped raise POOL_REGION, and a waiting release is not performed; where
none waits, a later one reports the loss (R376, R403). -/
def State.breakReleases (s : State) (port : Nat) : State :=
  let lost := s.writes.filter fun x => s.onPool port x.line && x.phase != .held
  (lost.filterMap fun x => x.warp).eraseDups.foldl (fun (t : State) w =>
    let mine := lost.filter fun x => x.warp == some w && !(s.warp w).moving x.id
    match mine with
    | [] => t
    | x :: _ =>
      let rel := t.writes.find? fun y => y.waitsFor w && mine.any fun z => z.id < y.since && !t.writeDone z y.scope
      match t.fenceWaits w, rel with
      | some (e, scope), _ => match mine.find? fun z => !t.writeDone z scope with
        | some z => t.raisePool w e z.va port
        | none => t.loseWrite w x.va port
      | none, some y => { (t.raisePool w y.lanes x.va port) with writes := t.writes.filter fun z => z.id != y.id }
      | none, none => t.loseWrite w x.va port) s

/-! ## Writes held under WB (R322, R323) -/

/-- Whether a part of a load goes with a write held under WB to the frame that its page has now: the old value of its atomic, and what
a later load of its warp reads of the same place (R322, R323, R334). -/
def Write.takesAlong (x : Write) (y : Load) (p : LPiece) : Bool :=
  !p.got && lineNo p.pa == x.line && p.va / 128 == x.va / 128 &&
    ((y.kind == .atomr && y.id == x.ret && x.lanes.getLsbD p.lane) ||
      (some y.warp == x.warp && x.id < y.id && (p.bytes &&& x.mask) != 0#128))
/-- The requests of a fill that go with a write to another line ask for that line. -/
def State.moveFill (s : State) (x : Write) (line : Nat) (acc : Bool) (f : Fill) : State :=
  let went := f.loads.filter fun id => s.loads.any fun y => y.id == id && y.pieces.any (x.takesAlong y)
  if went.isEmpty || f.line != x.line then s
  else
    let stays := fun (id : Nat) => s.loads.any fun y => y.id == id && y.pieces.any fun p =>
      !p.got && lineNo p.pa == f.line && !x.takesAlong y p
    let (id, s) := s.fresh
    let s : State := { s with fills := (s.fills.filterMap fun g =>
        if g.id ≠ f.id then some g
        else
          let l := g.loads.filter fun i => !went.contains i || stays i
          if l.isEmpty then none else some { g with loads := l }) ++
      [{ f with id := id, line := line, at_ := s.clock, loads := went, alloc := f.alloc && s.cacheable line, joinable := false, barred := [] }] }
    if (s.l2At line).isSome then s
    else s.askRemote f.core (s.group (s.warp (x.warp.getD 0)).group).launch line x.va acc
/-- What waits behind a write held under WB goes with it to another line (R322, R323, R334). -/
def State.moveLoads (s : State) (x : Write) (line : Nat) (acc : Bool) : State :=
  let t := s.fills.foldl (fun (t : State) f => t.moveFill x line acc f) s
  let move := fun (y : Load) (p : LPiece) => if x.takesAlong y p then { p with pa := 128 * line + p.pa % 128 } else p
  { t with loads := t.loads.map fun (y : Load) => { y with pieces := y.pieces.map (move y) } }

/-- A run of bytes that an operation of a write's warp reads, with the write's place, is read where the write goes, at `pa` (R322,
R323). -/
def Run.goWith (r : Run) (x : Write) (pa : Nat) : Run :=
  match r.place with
  | .phys old =>
    if old / 4096 = x.line / 32 ∧ r.len ≠ 0 ∧ r.va / 128 ≤ x.va / 128 ∧ x.va / 128 ≤ (r.va + r.len - 1) / 128 then
      { r with place := .phys (pa + r.va - x.va) }
    else r
  | _ => r
/-- What an engine operation reads, changed. -/
def EngWork.mapSources (f : Run → Run) : EngWork → EngWork
  | .copy src dst => .copy (src.map f) dst
  | .tload va ver src dst n p => .tload va (ver.map f) (src.map f) dst n p
  | .tstore ver src dst => .tstore ver (src.map f) dst
  | .writing ids (.data ver src dst v) => .writing ids (.data ver (src.map f) dst v)
  | .pxfer false va link near far => .pxfer false va link (near.map f) far
  | x => x
/-- What a MATX operation reads, changed. -/
def MatxWork.mapSources (f : Run → Run) : MatxWork → MatxWork
  | .ald src glob => .ald (src.map fun l => l.map f) glob
  | .smv x w r panels slot stack => .smv x (w.map f) r panels slot stack
  | x => x
/-- The operations of a warp that come after a write held under WB read its place where it goes. -/
def State.moveSources (s : State) (x : Write) (pa : Nat) : State :=
  match x.warp with
  | none => s
  | some w => s.modWarp w fun v =>
    { v with
      eng := v.eng.map fun o => if x.id < o.id then { o with work := o.work.mapSources fun r => r.goWith x pa } else o
      matx := v.matx.map fun o => if x.id < o.id then { o with work := o.work.mapSources fun r => r.goWith x pa } else o }

/-- The counters count the request of a write that goes out (R319). -/
def State.countWrite (s : State) (x : Write) (line : Nat) (acc : Bool) : State :=
  s.countFor (x.warp.map fun w => ((s.group (s.warp w).group).launch, (s.warp w).core)) line x.va acc

/-- HELD_WRITE_PERFORM: a write held under WB goes out once the invalidation that follows the switch of its page's leaf to WB 0 has
completed: it is translated anew, and held again where the leaf has WB once more (R322, R323). Its request is counted now (R319). The
add to a completion counter that can no longer be written is reported (R408), and a write to a lost pool window is lost (R376). -/
def execHeldWritePerform (id : Nat) (s : State) : Out :=
  .next (match s.writes.find? fun x => x.id == id && x.phase == .held && x.wb == .over with
    | none => s
    | some x =>
      let (root, region) := match x.warp with
        | some w => (s.rootOf w, s.regionOf w)
        | none => (x.root, x.region)
      let addr := x.va + (match x.kind with
        | .dev (.inc off ..) => off
        | _ => 0)
      match s.translate x.core root region x.va false true with
        | (.ok pa t, s) =>
          if pteWb t.pte then s.modWrite id fun y => { y with wb := .waiting }
          else
            let line := lineNo pa
            let s := ((s.moveLoads x line (pteAcc t.pte)).moveSources x pa).modWrite id fun y =>
              { y with phase := .pending, line := line, through := pteStackl t.pte, ptes := [t.ptr] }
            match s.poolLost pa, x.counter, x.warp with
            | none, _, _ => s.countWrite x line (pteAcc t.pte)
            | some _, some l, _ =>
              let (f, s) := s.freeWord
              (s.counterEntry region l addr f.toNat).endWrite x
            | some port, none, some w => (s.cutOff fun k => k == line).loseWrite w x.va port
            | some _, none, none => s.endWrite x
        | (.fault e, s) => match x.counter with
          | some l => (s.counterEntry region l addr e.toNat).endWrite x
          | none => (match x.kind with
            | .dev (.claim ..) => s.endWrite x
            | _ => s))

/-! ## Windows (R403, R484) -/

/-- The regions that a lost window reports to (R484). -/
def State.windowRegions (s : State) (win : PoolWin) : List Nat :=
  if win.many then (s.ctl.regions.map fun r => r.2.block).filter (· ≠ 0) else win.regions.reverse
/-- The first physical address of a window. -/
def windowBase (n : Nat) (win : PoolWin) : Nat := (2 + n / 8) * 2 ^ 48 + (bitsAt win.base 28 20).toNat * 2 ^ 28

/-- A KIND 3 entry for each region of a lost window (R403, R450). -/
def State.reportWindow (s : State) (n : Nat) : State :=
  let win := nth PoolWin.start s.ctl.pwins n
  (s.windowRegions win).foldl (fun (t : State) r =>
    let (f, t) := t.freeWord
    (t.faultEntry r f.toNat (bareRecord .poolRegion (windowBase n win) (n / 8)) 3 0).2) s

/-- POOL_LINK_LOSS (R403). A link that was lost because a request had no answer may still be up, which is left open. -/
def execPoolLinkLoss (port : Nat) (s : State) : Out :=
  let wins := ((List.range 8).map (8 * port + ·)).filter fun n => (nth PoolWin.start s.ctl.pwins n).grant
  .next (if 4 ≤ port then s
  else
    let (k, s) := s.draw
    let s := s.modCtl fun c => { c with
      poolUp := c.poolUp.set port (Config.freePick k % 2 = 1)
      pwins := wins.foldl (fun (l : List PoolWin) n => l.modify n fun x => { x with lost := true }) c.pwins }
    let s := (s.breakReleases port).cutOff (s.onPool port)
    let lines := s.l2.filter fun x => s.onPool port x.1
    let s := lines.foldl (fun (t : State) x =>
      if x.2.st = .m then t.poisonLine x.1 x.2 else (t.recallLine x.1).dropL2 x.1) s
    wins.foldl State.reportWindow s)

/-- The physical lines of a window. -/
def State.inWindow (s : State) (n line : Nat) : Bool :=
  match s.frame (128 * line) with
  | .pool _ w => w == n
  | _ => false

/-- REOPEN of a window: ERR while its link is down, and otherwise the poisoned lines are discarded and the window is as
newly granted (R484). A link that is down may have come up again by then. -/
def State.reopen (s : State) (n : Nat) : State :=
  let win := nth PoolWin.start s.ctl.pwins n
  if !win.lost then s
  else
    let (k, s) := s.draw
    let up := nth true s.ctl.poolUp (n / 8) || Config.freePick k % 2 = 1
    if !up then s.modCtl fun c => { c with pwins := c.pwins.modify n fun x => { x with err := true } }
    else
      let s := (s.l2.filter fun x => s.inWindow n x.1).foldl (fun (t : State) x => (t.recallLine x.1).dropL2 x.1) s
      s.modCtl fun c => { c with
        poolUp := c.poolUp.set (n / 8) true
        pwins := c.pwins.modify n fun x => { x with lost := false, regions := [], many := false } }

/-- POOL_WINDOW_REOPEN (R484). -/
def execPoolWindowReopen (win : Nat) (s : State) : Out :=
  .next (if s.carries then s.reopen win else s)

/-- HOST_PORT_DOWN: what is outstanding is cut off (R482). The lines of the port's window leave L2, so that none of them is held once the
link is up again without CXL.cache: the spec does not say what becomes of them (DESIGN CHOICE, log 35). -/
def execHostPortDown (port : Nat) (s : State) : Out :=
  let mine := fun (line : Nat) => s.frame (128 * line) == .host port
  let s := (s.modCtl fun c => { c with hostPorts := c.hostPorts.modify port fun p => { p with up := false } }).cutOff mine
  .next ((s.l2.filter fun x => mine x.1).foldl (fun (t : State) x => (t.recallLine x.1).dropL2 x.1) s)

/-- A host port that is trained: as PCIe 6.0 or as CXL 3.1, with the options that a free number says; `offered` says whether the
configuration record offers owned-sharing (R398 to R400, R482, R488). -/
def HostPort.trained (offered : Bool) (n : Nat) : HostPort :=
  { up := true, hdmdb := n % 2 = 1, cache := n / 2 % 2 = 1, owned := n / 2 % 2 = 1 && offered && n / 4 % 2 = 1 }

/-- HOST_PORT_UP: a port that was down is trained again, as PCIe 6.0 or as CXL 3.1 with or without HDM-DB and CXL.cache,
and with owned-sharing where the configuration offers it and the host accepts it, which a free value says (R398 to R400, R482; log 35). -/
def execHostPortUp (port : Nat) (s : State) : Out :=
  let (n, s) := s.draw
  .next (s.modCtl fun c => { c with hostPorts := c.hostPorts.modify port fun p =>
    if p.up then p else HostPort.trained c.flash.ownedSharing n })

/-- PEER_LINK_DOWN: outstanding transfers of the link fail when they complete (R485). -/
def execPeerLinkDown (q : Nat) (s : State) : Out :=
  .next (s.modCtl fun c => { c with peerUp := c.peerUp.set q false })

/-- LINK_LANE_FAIL: the spare takes over the first lane of a peer link that fails, and a host or pool link narrows, which are
repairs; the rate alone can change (R485, R494). Links 0 to 11 are those of the peers, 12 and 13 of the host ports, 14 to 17 of
the pool ports (log 36). -/
def execLinkLaneFail (q : Nat) (s : State) : Out :=
  let s' := s.modCtl fun c => { c with lanesLost := c.lanesLost.modify q (· + 1) }
  .next (if q < 18 && (12 ≤ q || nth 0 s.ctl.lanesLost q = 0) then s'.logRepair 4 q else s')

end Sys2Proof.Machine
end

