-- ==== Sys2Proof/Machine/Moves.lean ====
section
/-! DEFINITION. Moves and special registers: MOV, MOVI, MOVS, SETS (R15, R16, R51, R52, R55, R196 to R199). -/

namespace Sys2Proof.Machine

/-- MOV (R196). -/
def execMov (h : Hd) (m : MByte) (d a : GReg) (s : State) : Out :=
  .next (s.issue (.mov h m d a) fun e s =>
    let v := s.me
    s.toRegs m.w64 (.mov h m d a) d e (v.wide m.w64 a))

/-- MOVI (R196). -/
def execMovi (h : Hd) (d : GReg) (imm : BitVec 32) (s : State) : Out :=
  .next (s.issue (.movi h d imm) fun e s => s.toReg (.movi h d imm) d e fun _ => imm)

/-- The value of a special register in lane `l` of the executing warp (R197, R198). -/
def State.special (s : State) (idx : Byte) (l : Nat) : DWord :=
  let v := s.me
  let g := s.myGroup
  let n := s.myLaunch
  match idx.toNat with
  | 0x00 => BitVec.ofNat 64 l
  | 0x01 => BitVec.ofNat 64 v.index
  | 0x02 => BitVec.ofNat 64 g.gx
  | 0x03 => BitVec.ofNat 64 g.gy
  | 0x04 => BitVec.ofNat 64 g.gz
  | 0x05 => BitVec.ofNat 64 (n.dim 0)
  | 0x06 => BitVec.ofNat 64 (n.dim 1)
  | 0x07 => BitVec.ofNat 64 (n.dim 2)
  | 0x08 => BitVec.ofNat 64 (n.grid 0)
  | 0x09 => BitVec.ofNat 64 (n.grid 1)
  | 0x0A => BitVec.ofNat 64 (n.grid 2)
  | 0x0B => BitVec.ofNat 64 v.core
  | 0x0C => BitVec.ofNat 64 (dieOf v.core)
  | 0x0D => BitVec.ofNat 64 v.half
  | 0x0E => BitVec.ofNat 64 v.pos
  | 0x0F => BitVec.ofNat 64 s.clock
  | 0x10 => BitVec.ofNat 64 s.gtime
  | 0x11 => BitVec.ofNat 64 g.launch
  | 0x12 => v.mask.setWidth 64
  | _ => v.mode.setWidth 64

/-- MOVS (R197, R198). -/
def execMovs (h : Hd) (idx : Byte) (d : GReg) (s : State) : Out :=
  .next (s.issue (.movs h idx d) fun e s => s.toRegs (movsWide idx) (.movs h idx d) d e (s.special idx))

/-- The bits of a value that MODE holds (R15, R199). -/
def modeBits (x : Word) : Word := x &&& 0x1FF

/-- SETS: MODE takes the value from the next clock on (R16, R174, R199). -/
def execSets (h : Hd) (a : GReg) (s : State) : Out :=
  .next (s.issue (.sets h a) fun e s =>
    (if e = 0 then s else s.modMe fun v => { v with modeDue := some (s.clock, modeBits (v.lane a (lowest e))) }).retire (.sets h a))

end Sys2Proof.Machine
end

