-- ==== Sys2Proof/Machine/System.lean ====
section
/-! DEFINITION. Traps by instruction, the return from a handler, YIELD, the trap record and the system registers: TRAP,
BKPT, ERET, YIELD, TRAPRD, SYSR, SYSW, and words that are no instruction
(R23, R71, R84, R86, R168, R286, R378, R402, R440, R464 to R468, R476 to R478, R480). -/

namespace Sys2Proof.Machine

/-! ## TRAP and BKPT (R465) -/

/-- The instruction has issued, and its trap is raised with the PC past it. -/
def State.trapPast (s : State) (i : Instr) (c : Cause) (e : Mask) (code : BitVec 24) : State :=
  (s.noteIssue.modMe fun v => ((v.counted s.clock).fallBack i).advance).raise c e (code.setWidth 64)

/-- TRAP. -/
def execTrap (h : Hd) (code : BitVec 24) (s : State) : Out :=
  .next (s.issue (.trap h code) fun e s =>
    if e = 0 then s.retire (.trap h code) else s.trapPast (.trap h code) .software e code)

/-- BKPT. -/
def execBkpt (h : Hd) (code : BitVec 24) (s : State) : Out :=
  .next (s.issue (.bkpt h code) fun e s =>
    if e = 0 then s.retire (.bkpt h code) else s.trapPast (.bkpt h code) .brk e code)

/-! ## ERET (R23, R168, R440, R466) -/

/-- Whether an earlier write of a warp to its save area or its record has still to be performed (R440). -/
def State.areaPending (s : State) (w : Nat) : Bool :=
  let base := (s.warp w).dstkBase.toNat
  s.writes.any fun x => x.warp == some w && base / 128 ≤ x.va / 128 && x.va / 128 ≤ (base + 0x1417F) / 128 && !s.writeDone x 3

/-- ERET. A word that it cannot read raises MEMFAULT, which escalates in a handler (R442). -/
def execEret (s : State) : Out :=
  .next (s.issue .eret fun e s =>
    if s.areaPending s.cur.warp then s.block .access
    else match s.readArea s.cur.warp with
      | .error (.fault a x) => s.raise .memfault e x (BitVec.ofNat 64 a)
      | .error (.pool a p) => s.raise .poolRegion e (BitVec.ofNat 64 p) (BitVec.ofNat 64 a)
      | .ok x =>
        match s.me.opened with
        | some (t, o) => s.modMe fun v => (v.counted s.clock).resume x t o.stpc s.clock
        | none => s.illegal e)

/-! ## YIELD (R468) -/

/-- YIELD: with an unparked PATH entry the count of R162 stands at its limit. -/
def execYield (h : Hd) (s : State) : Out :=
  .next (s.issue (.yield h) fun e s =>
    let s := s.retire (.yield h)
    if e = 0 then s
    else s.modMe fun v =>
      if v.handler || !v.dstack.any DEntry.open then v else { v with fairCount := max 2048 v.fairCount })

/-! ## TRAPRD (R286, R435, R467) -/

/-- The parts of a TRAPRD: every lane of E reads the same bytes of the record. -/
def Warp.recordParts (v : Warp) (e : Mask) (w64 : Bool) (off : Byte) : List Acc :=
  (lanesOf e).flatMap fun l => accParts l ((v.recordAt + off.toNat) % 2 ^ 64) (if w64 then 8 else 4)

/-- TRAPRD: a load of the record, after the warp's own writes to it. -/
def execTraprd (h : Hd) (w64 : Bool) (d : GReg) (off : Byte) (s : State) : Out :=
  .next (s.issue (.traprd h w64 d off) fun e s =>
    let i := Instr.traprd h w64 d off
    if e = 0 then s.retire i
    else if s.areaPending s.cur.warp then s.block .access
    else s.access fun s =>
      s.withPlaces e true false false [] (s.me.recordParts e w64 off) fun ps s =>
        let q : LoadReq := { kind := .traprd, acq := false, scope := 0, nc := false, d := d, wide := w64,
                             bytes := if w64 then 8 else 4, sext := false }
        (s.issueLoad q e ps).retire i)

/-! ## System registers (R476 to R478, R480) -/

/-- FPFL as a SYSR that issues in a clock reads it: with every flag written by then (R225). -/
def Warp.flagsBy (v : Warp) (clock : Nat) : Word :=
  v.flagQ.foldl (fun f x => if x.1 ≤ clock then f ||| x.2.setWidth 32 else f) v.fpfl

/-- The value of a system register for the executing warp (R477). -/
def State.sysReg (s : State) (idx : Byte) : DWord :=
  let v := s.me
  let c := s.core v.core
  match idx.toNat with
  | 0x00 => v.mode.setWidth 64
  | 0x01 => (v.flagsBy s.clock).setWidth 64
  | 0x02 => v.modw.setWidth 64
  | 0x03 => v.trapBase.setWidth 64
  | 0x04 => v.tableBase
  | 0x05 => v.dstkBase
  | 0x06 => v.stepCtl.setWidth 64
  | 0x07 => c.stcfg.setWidth 64
  | 0x10 => s.subupd.setWidth 64
  | 0x11 => s.subskip.setWidth 64
  | 0x12 => s.bifp.setWidth 64
  | 0x13 => c.missmerge.setWidth 64
  | 0x14 => v.wissue.setWidth 64
  | 0x15 => v.wparcel.setWidth 64
  | 0x16 => v.wevict.setWidth 64
  | _ => v.wswap.setWidth 64

/-- Whether a SYSR of a counter must wait: it is an access of the warp, which an acquire holds back, and that of SUBUPD and SUBSKIP
counts the writes that joins and WSYNC releases order before it (R159, R165, R367, R368, R378, R477). -/
def State.sysrWaits (s : State) (idx : Byte) (e : Mask) : Bool :=
  let w := s.cur.warp
  (0x10 ≤ idx.toNat && s.acquiring w) || ((idx == 0x10 || idx == 0x11) && s.writes.any fun x =>
    x.warp == some w && (x.lanes &&& s.me.syncedBefore x.id s.nextId e) != 0#32 && !s.writeDone x 3)

/-- SYSR (R476, R477). -/
def execSysr (h : Hd) (idx : Byte) (d : GReg) (s : State) : Out :=
  .next (s.issue (.sysr h idx d) fun e s =>
    if e != 0#32 && s.sysrWaits idx e then s.block .fence
    else s.toRegs (sysWide idx) (.sysr h idx d) d e fun _ => s.sysReg idx)

/-- A written STCFG value within its bounds (R480). -/
def stcfgOf (x : DWord) : Word := BitVec.ofNat 32 (min 65536 (max 256 (bitsAt x 0 17).toNat))

/-- FPFL replaced in a clock: flags that enter it in that clock or later come on top (R225). -/
def Warp.writeFpfl (v : Warp) (x : Word) (clock : Nat) : Warp :=
  { v with fpfl := x &&& 0xFF, flagQ := v.flagQ.filter fun q => clock ≤ q.1 }

/-- The executing warp's system register written; MODE takes its value from the next clock on; counters ignore it (R15, R88, R224, R451, R476 to R480). -/
def State.setSysReg (s : State) (idx : Byte) (x : DWord) : State :=
  let w : Word := x.setWidth 32
  match idx.toNat with
  | 0x00 => s.modMe fun v => { v with modeDue := some (s.clock, modeBits w) }
  | 0x01 => s.modMe fun v => v.writeFpfl w s.clock
  | 0x02 => s.modMe fun v => { v with modw := w &&& 0x3F }
  | 0x03 => s.modMe fun v => { v with trapBase := w }
  | 0x04 => s.modMe fun v => { v with tableBase := x }
  | 0x05 => s.modMe fun v => { v with dstkBase := x &&& ~~~0xFF }
  | 0x06 => s.modMe fun v => { v with stepCtl := w &&& 0xF3 }
  | 0x07 => s.modCore s.me.core fun c => { c with stcfg := stcfgOf x }
  | _ => s

/-- SYSW. DSTKBASE cannot change while stack entries lie in the save area (R478). -/
def execSysw (h : Hd) (idx : Byte) (a : GReg) (s : State) : Out :=
  .next (s.issue (.sysw h idx a) fun e s =>
    let i := Instr.sysw h idx a
    if e = 0 then s.retire i
    else if idx = 0x05 && (16 < s.me.dstack.length || 8 < s.me.cstack.length) then s.illegal e
    else (s.setSysReg idx (s.me.wide (sysWide idx) a (lowest e))).retire i)

/-! ## Reserved words (R71, R84, R86) -/

/-- A code word that is no instruction raises ILLEGAL in the lanes that its guard field selects. -/
def execReservedOpcode (raw : BitVec 64) (s : State) : Out :=
  let v := s.me
  let gp : PNum := bitsAt raw 52 4
  let e := if gp.toNat ≤ 11 || gp == 15#4 then v.activeSet (some { gp := gp, gn := bitAt raw 51, fe := 0 }) else v.mask
  .next (match v.pendingPred [gp.toNat] with
    | some p => s.block (.pred p)
    | none => s.illegal e)

end Sys2Proof.Machine
end

