-- ==== Sys2Proof/Machine/ControlEvents.lean ====
section
/-! DEFINITION. The control window, translation invalidation, power, attestation, alarms, bring-up, errors and repair
(R318 to R320, R422, R423, R429, R444, R447, R453, R455, R479, R480, R483, R486 to R494). -/

namespace Sys2Proof.Machine

/-! ## Invalidation of translations (R318) -/

/-- Whether a cached translation is one that an operation removes: code 0 a page under ROOT, 1 all under ROOT, 2 all. -/
def Ctl.removes (c : Ctl) (op root base size : Nat) : Bool :=
  let psz := (bitsAt c.tlbictl 4 4).toNat
  let page := ((pageBytes psz 0).or ((pageBytes psz 1).or (pageBytes psz 2))).getD 4096
  let va := c.tlbiva.toNat
  let lo := va / page * page
  match op with
  | 0 => root == c.tlbiroot.toNat && base < lo + page && lo < base + size
  | 1 => root == c.tlbiroot.toNat
  | _ => true

/-- A TLB without the removed translations. -/
def Ctl.sweepTlb (c : Ctl) (l : List TlbEnt) : List TlbEnt :=
  l.filter fun e => !c.removes (bitsAt c.tlbictl 0 2).toNat e.root e.base e.size
/-- A walk cache without the removed entries, which are of addresses of either half. -/
def Ctl.sweepWalk (c : Ctl) (l : List WalkEnt) : List WalkEnt :=
  l.filter fun e =>
    let n := 2 ^ (12 + 9 * e.level)
    let op := (bitsAt c.tlbictl 0 2).toNat
    !(c.removes op e.root (e.pfx * n) n || c.removes op e.root (e.pfx * n + (2 ^ 64 - 2 ^ 57)) n)

/-- The caches of translations that `p` names, by core and, from 256 on, by die, lose the removed translations. -/
def State.sweep (s : State) (p : Nat → Bool) : State :=
  { s with
    cores := s.cores.mapIdx fun i c => if p i then { c with tlb := s.ctl.sweepTlb c.tlb } else c
    l2tlb := s.l2tlb.mapIdx fun i l => if p (256 + i) then s.ctl.sweepTlb l else l
    walkCache := s.walkCache.mapIdx fun i l => if p (256 + i) then s.ctl.sweepWalk l else l }

/-- Whether the invalidation in progress removes the translation of a range under a root. -/
def Ctl.covers (c : Ctl) (root va n : Nat) : Bool := c.removes (bitsAt c.tlbictl 0 2).toNat root va n

/-- A run with what holds it changed. -/
def Run.mapHold (r : Run) (f : Nat → HoldSt → HoldSt) : Run :=
  match r.place with
  | .virt pa wb => { r with place := .virt pa (f r.va wb) }
  | _ => r
/-- The work of an engine operation with what holds its runs changed. -/
def EngWork.mapHold (x : EngWork) (f : Nat → HoldSt → HoldSt) : EngWork :=
  let g := fun (l : List Run) => l.map fun r => r.mapHold f
  match x with
  | .copy src dst => .copy src (g dst)
  | .tload va ver src dst passes pass => .tload va ver src (g dst) passes pass
  | .tstore ver src dst => .tstore (g ver) src (g dst)
  | .pref lines clause => .pref lines (clause.map fun r => r.mapHold f)
  | .pxfer get va link near far => .pxfer get va link (g near) far
  | x => x
/-- The work of a tile instruction with what holds its runs changed. -/
def MatxWork.mapHold (x : MatxWork) (f : Nat → HoldSt → HoldSt) : MatxWork :=
  match x with
  | .ast dst glob => .ast (dst.map fun l => l.map fun r => r.mapHold f) glob
  | x => x
/-- The state with what holds the writes under WB changed by root and address (R322). -/
def State.mapHold (s : State) (f : Nat → Nat → HoldSt → HoldSt) : State :=
  { s with
    writes := s.writes.map fun x =>
      { x with wb := f (match x.warp with | some w => s.rootOf w | none => x.root) x.va x.wb }
    warps := s.warps.zipIdx.map fun p =>
      let g := f (s.rootOf p.2)
      { p.1 with
        eng := p.1.eng.map fun o => { o with work := o.work.mapHold g }
        matx := p.1.matx.map fun o => { o with work := o.work.mapHold g } } }

/-- Whether the leaf that names an address has WB 0 now: system software has switched it (R322). -/
def State.switched (s : State) (root va : Nat) : Bool :=
  match (s.walkGo none root va 4 root).1 with
  | .leaf e => !pteWb e.pte
  | .fail _ _ => false

/-- The pages that a TLB still names as WB, whose leaf is switched to WB 0, and which the invalidation in progress removes. -/
def State.freedPages (s : State) : List (Nat × Nat) :=
  ((s.cores.flatMap fun c => c.tlb) ++ s.l2tlb.flatten).filterMap fun e =>
    if pteWb e.pte && s.ctl.covers e.root e.base e.size && s.switched e.root e.base then some (e.root, e.base) else none

/-- An invalidation begins: what is held on a page that it removes and whose leaf is switched goes out once it has completed
(R322). -/
def State.coverHolds (s : State) : State :=
  let t := s.mapHold fun root va h => if h = .waiting ∧ s.ctl.covers root va 128 ∧ s.switched root va then .covered else h
  t.modCtl fun c => { c with tlbiFreed := s.freedPages.eraseDups }
/-- The invalidation in progress has completed. -/
def State.endHolds (s : State) : State :=
  (s.mapHold fun _ _ h => if h = .covered then .over else h).modCtl fun c => { c with tlbiBusy := false, tlbiFreed := [] }

/-- A write of TLBICTL: it starts an invalidation, or is dropped with ERR. Until it completes, each TLB and each walk
cache keeps the removed translations or has dropped them, which is left open (R317). -/
def State.tlbi (s : State) (op psz : Nat) : State :=
  if !s.carries then s.notReady
  else if op = 3 || s.ctl.tlbiBusy then s.modCtl fun c => { c with tlbiErr := true }
  else
    let v : BitVec 32 := BitVec.ofNat 32 (op + 16 * (psz % 16))
    let s := (s.modCtl fun c => { c with tlbictl := v, tlbiBusy := true, tlbiFence := 0 }).coverHolds
    let n := s.free
    { s with free := s.free + 260 }.sweep fun i => Config.freePick (n + i) % 2 = 1

/-- TLBI_PAGE, TLBI_ROOT, TLBI_ALL and TLBI_RESERVED_OP: TLBICTL written with OP 0 to 3. -/
def execTlbiPage (psz : BitVec 4) (s : State) : Out := .next (s.tlbi 0 psz.toNat)
/-- TLBI_ROOT. -/
def execTlbiRoot (s : State) : Out := .next (s.tlbi 1 0)
/-- TLBI_ALL. -/
def execTlbiAll (s : State) : Out := .next (s.tlbi 2 0)
/-- TLBI_RESERVED_OP. -/
def execTlbiReservedOp (s : State) : Out := .next (s.tlbi 3 0)

/-- The ranges whose writes an engine operation waits for, where all that it has still to do is held under WB (R322). -/
def State.heldRanges (s : State) (o : EngOp) : List (Nat × Nat) :=
  match o.work with
  | .writing ids _ =>
    let open_ := s.writes.filter fun x => ids.contains x.id && !s.writeDone x o.scope
    if open_.all fun x => x.phase == .held then open_.map fun x => (x.va, 128) else []
  | .tstore ver _ dst => ((ver ++ dst).filter fun r => match r.place with
      | .virt _ wb => wb != .over
      | _ => false).filterMap Run.range
  | _ => []
/-- Whether an engine operation is no reason for the invalidation in progress to wait: what it has still to do is held, and either
waits for this invalidation or shares no page with it (R306, R318, R322; log 14). -/
def State.letsPass (s : State) (w : Nat) (o : EngOp) : Bool :=
  let hit := fun (l : List (Nat × Nat)) => l.any fun x => s.ctl.covers (s.rootOf w) x.1 x.2
  let held := s.heldRanges o
  !held.isEmpty && (hit held || !hit o.pages)
/-- Whether a write waits for one of the accesses `l` of its warp (R322, R363, R364, R367, R370). -/
def State.writeBehind (s : State) (l : List Nat) (x : Write) : Bool :=
  let mine := fun (id : Nat) => l.contains id && id < x.id
  (x.rel && x.warp.isSome && ((s.writes.any fun y => y.warp == x.warp && mine y.id && y.id < x.since) ||
      s.loads.any fun y => some y.warp == x.warp && mine y.id && y.id < x.since)) ||
    (s.writes.any fun y => y.warp == x.warp && mine y.id &&
      (y.holds x.line x.va x.mask || (y.line == x.line && (y.mask &&& x.mask) != 0#128))) ||
    s.loads.any fun y => some y.warp == x.warp && mine y.id && y.open x.lanes
/-- Whether all that a load has still to read waits for one of the writes `l` of its warp (R322, R334, R364). -/
def State.loadBehind (s : State) (l : List Nat) (x : Load) : Bool :=
  x.pieces.all fun p => p.got || s.writes.any fun y => y.warp == some x.warp && l.contains y.id &&
    ((y.ret == x.id && x.kind == .atomr && y.lanes.getLsbD p.lane) || (y.id < x.id &&
      (y.holds (lineNo p.pa) p.va p.bytes || (y.line == lineNo p.pa && (y.mask &&& p.bytes) != 0#128))))
/-- The accesses that wait, one for another, for the accesses `l`. -/
def State.behind (s : State) : Nat → List Nat → List Nat
  | 0, l => l
  | n + 1, l =>
    s.behind n (l ++ (s.writes.filter fun x => !l.contains x.id && s.writeBehind l x).map (fun x => x.id) ++
      (s.loads.filter fun x => !l.contains x.id && s.loadBehind l x).map fun x => x.id)
/-- The accesses that are held under WB, and those that wait for them: none of them is performed before an invalidation completes
(R322). -/
def State.heldBack (s : State) : List Nat :=
  match (s.writes.filter fun x => x.phase == .held).map fun x => x.id with
  | [] => []
  | l => s.behind (s.writes.length + s.loads.length) l

/-- Whether an engine operation waits for one of the accesses `l` of its warp, or is itself no reason to wait. -/
def State.engBehind (s : State) (l : List Nat) (w : Nat) (o : EngOp) : Bool :=
  s.letsPass w o || (s.writes.any fun x => x.warp == some w && l.contains x.id && x.id < o.id &&
    o.pages.any fun r => r.2 != 0 && r.1 / 128 ≤ x.va / 128 && x.va / 128 ≤ (r.1 + r.2 - 1) / 128)
/-- Whether what an AST has written is held, all that is still open of it. -/
def State.astHeld (s : State) (o : MatxOp) : Bool :=
  let open_ := s.writes.filter fun x => (o.sent.getD []).contains x.id && !s.writeDone x 3
  !open_.isEmpty && open_.all fun x => x.phase == .held
/-- Whether every access and every engine operation that was issued before a number is performed, but for what is held under WB and
what waits for it (R306, R318, R322). -/
def State.drainedTo (s : State) (n : Nat) : Bool :=
  let l := s.heldBack
  (s.loads.all fun x => n ≤ x.id || x.performed || l.contains x.id) &&
    (s.writes.all fun x => n ≤ x.id || s.writeDone x 3 || l.contains x.id) &&
    s.warps.zipIdx.all fun p =>
      (p.1.eng.all fun o => n ≤ o.id || p.1.eng.any fun q => q.cls == o.cls && q.id ≤ o.id && s.engBehind l p.2 q) &&
        p.1.matx.all fun o => n ≤ o.id || p.1.matx.any fun q => q.id ≤ o.id && s.astHeld q

/-- TLBI_COMPLETE: every cache loses the removed translations, and BUSY returns to 0 once every access that can have used
one is performed. -/
def execTlbiComplete (s : State) : Out :=
  .next (if !s.ctl.tlbiBusy then s
  else
    let s := if s.ctl.tlbiFence = 0 then (s.sweep fun _ => true).modCtl fun c => { c with tlbiFence := s.nextId } else s
    if s.drainedTo s.ctl.tlbiFence then s.endHolds else s)

/-! ## Regions and doorbells (R422, R423, R444, R447) -/

/-- A region entry that holds nothing. -/
def RegionEnt.blank : RegionEnt := { base := 0, tail := 0, ages := [] }
/-- Entry `n` of the control window. -/
def State.regionEnt (s : State) (n : Nat) : RegionEnt := (alFind n s.ctl.regions).getD RegionEnt.blank
/-- The state with entry `n` replaced. -/
def State.setRegion (s : State) (n : Nat) (e : RegionEnt) : State := s.modCtl fun c => { c with regions := alPut n e c.regions }
/-- The indices from one record of a list up to another. -/
def listSpan (size lo hi : Nat) : List Nat :=
  if size = 0 then [] else (List.range ((hi + size - lo) % size)).map fun i => (lo + i) % size
/-- Records become pending now. -/
def RegionEnt.stamp (e : RegionEnt) (l : List Nat) (clock : Nat) : RegionEnt :=
  { e with ages := l.foldl (fun a i => alPut i clock a) e.ages }

/-- A write of RTAIL: the records that it covers become pending. It waits for the writes of the host before it, which the groups of its
launches are to see (R368; DESIGN CHOICE, log 58). -/
def State.writeTail (s : State) (n : Nat) (v : BitVec 32) : State :=
  if !s.carries then s.notReady
  else if 1024 ≤ n || s.hostWriting then s
  else
    let e := s.regionEnt n
    let size := if e.block = 0 then 0 else s.listSize e.block
    let t := bitsAt v 0 12
    let new := if size = 0 then [] else listSpan size (e.tail.toNat % size) (t.toNat % size)
    s.setRegion n { e.stamp new s.clock with tail := t.setWidth 32 }

/-- RTAIL_WRITE. -/
def execRtailWrite (n : Nat) (v : BitVec 32) (s : State) : Out := .next (s.writeTail n v)

/-- Whether a launch of a region is unfinished. -/
def State.unfinished (s : State) (block : Nat) : Bool :=
  s.launches.any fun l => l.region == block && (l.phase == .accepted || l.phase == .checked)

/-- A write of REGBASE: it is ignored while a launch of the region is unfinished; it lets a stopped region run again, and
restarts the count of its fault ring. -/
def State.writeBase (s : State) (n : Nat) (v : BitVec 64) : State :=
  let e := s.regionEnt n
  if !s.carries then s.notReady
  else if 1024 ≤ n || (e.block ≠ 0 && s.unfinished e.block) then s
  else
    let e := { e with base := v &&& ~~~0x7F, ages := [] }
    let b := e.block
    if b = 0 then s.setRegion n e
    else
      let size := s.listSize b
      let pending := if size = 0 then [] else listSpan size (s.regionField b 0x44 4 % size) (e.tail.toNat % size)
      let ring := s.eff b 2 0x18 8
      let s : State := { s with stopped := s.stopped.filter (· ≠ b) }
      (s.setRegion n (e.stamp pending s.clock)).modCtl fun c => { c with ringSeq := alDel ring c.ringSeq }

/-- REGBASE_WRITE. -/
def execRegbaseWrite (n : Nat) (v : BitVec 64) (s : State) : Out := .next (s.writeBase n v)

/-! ## Attestation (R487 to R490) -/

/-- The code of STATE in MODSTAT (R492). -/
def ModState.code : ModState → Nat
  | .reset => 0
  | .measure => 1
  | .config => 2
  | .ready => 3
  | .locked => 4
  | .failed => 5
/-- MODSTAT (R492). -/
def Ctl.modstat (c : Ctl) : Nat := c.modst.code + 256 * c.cfgerr

/-- GO: it is ignored while BUSY. The index in flash is advanced before the signature is computed, so that a signature that a
reset cuts off costs one index (R489, R490). -/
def State.attestGo (s : State) : State :=
  if s.ctl.modst ≠ .ready ∧ s.ctl.modst ≠ .locked then s.notReady
  else if s.ctl.attbusy then s
  else s.modCtl fun c => { c with
    attlatched := c.attnonce, atterr := 0, attbusy := true, attindex := c.flash.sigIndex
    flash := { c.flash with sigIndex := if c.flash.keyErased || 2 ^ 40 ≤ c.flash.sigIndex then c.flash.sigIndex else c.flash.sigIndex + 1 } }

/-- ATTEST_GO. -/
def execAttestGo (s : State) : Out := .next s.attestGo

/-- The report, with the signature of index `n` (R489). -/
def Ctl.report (c : Ctl) (n : Nat) : List Byte :=
  let num := fun (k v : Nat) => (bytesOf k v).map Prod.fst
  num 4 0x5441474B ++ num 4 1 ++ num 32 c.attlatched.toNat ++ c.meas.flatMap (fun m => num 64 m.toNat) ++
    num 4 c.modstat ++ num 4 0 ++ (List.range 9893).map fun i => Config.signatureByte n i

/-- ATTEST_COMPLETE: the report, ERR and then BUSY are written. Where the write of the advanced index has failed, flash holds the
index as before (R489, R490). -/
def execAttestComplete (stateWriteFails : Bool) (s : State) : Out :=
  .next (if !s.ctl.attbusy then s
  else
    let n := s.ctl.attindex
    let err := if s.ctl.flash.keyErased then 1 else if 2 ^ 40 ≤ n then 2 else if stateWriteFails then 3 else 0
    s.modCtl fun c =>
      if err = 0 then { c with attbuf := c.report n, atterr := 0, attbusy := false }
      else if err = 3 then { c with flash := { c.flash with sigIndex := n }, atterr := 3, attbusy := false }
      else { c with atterr := err, attbusy := false })

/-! ## Alarms (R491) -/

/-- The policy of a sensor. -/
def Ctl.policy (c : Ctl) (sensor : Nat) : Nat := (bitsAt c.alarmcfg (2 * sensor) 2).toNat

/-- A lock: every group is killed and none is placed any more, and a module that is READY becomes LOCKED. -/
def State.lockModule (s : State) : State :=
  if s.ctl.modst ≠ .ready then s
  else
    let s := (List.range s.groups.length).foldl State.killGroup s
    s.modCtl fun c => { c with modst := .locked }

/-- The policy of a sensor is applied; an erase zeroes the signing state with the key. -/
def State.applyPolicy (s : State) (sensor : Nat) : State :=
  match s.ctl.policy sensor with
  | 0 => s
  | 1 => s.lockModule
  | _ => s.lockModule.modCtl fun c => { c with flash := { c.flash with keyErased := true, sigIndex := 0 } }

/-- ALARM: the sensors are 0 voltage, 1 clock, 2 temperature, 3 the package mesh, 4 debug unlock. The management
controller logs it as 4096 plus the sensor. -/
def execAlarm (sensor : Nat) (s : State) : Out :=
  .next (if 5 ≤ sensor then s
  else
    let s : State := { s with mgmtLog := s.mgmtLog ++ [4096 + sensor] }
    (s.modCtl fun c => { c with alarmst := c.alarmst ||| (1#32 <<< sensor) }).applyPolicy sensor)

/-- A write of ALARMCFG: each field only upwards; the policy of an alarm that stands in ALARMST applies as raised. -/
def State.writeAlarmcfg (s : State) (v : BitVec 32) : State :=
  if !s.carries then s.notReady
  else
    let old := s.ctl
    let new : BitVec 32 := (List.range 5).foldl (fun (a : BitVec 32) k =>
      a ||| (BitVec.ofNat 32 (max (old.policy k) (bitsAt v (2 * k) 2).toNat) <<< (2 * k))) 0
    let s := s.modCtl fun c => { c with alarmcfg := new }
    ((List.range 5).filter fun k => bitAt old.alarmst k && old.policy k < s.ctl.policy k).foldl State.applyPolicy s

/-- ALARMCFG_WRITE. -/
def execAlarmcfgWrite (v : BitVec 32) (s : State) : Out := .next (s.writeAlarmcfg v)

/-! ## Other registers of the control window -/

/-- The cap that is in force (R486). -/
def clampCap (n : Nat) : Nat := min 3000 (max 600 n)

/-- Whether the device holds a line of a pool window (R483). -/
def State.holdsWindow (s : State) (n : Nat) : Bool := s.l2.any fun x => s.inWindow n x.1

/-- PWCTL of a window: SIZE and GRANT, ERR and REOPEN (R483, R484). -/
def State.writePwctl (s : State) (n : Nat) (v : BitVec 64) : State :=
  let set := fun (x : PoolWin) =>
    let grant := bitAt v 0
    { x with size := bitsAt v 16 16, grant := grant,
             regions := if grant && !x.grant then [] else x.regions, many := x.many && !(grant && !x.grant) }
  let s := if s.holdsWindow n then s else s.modCtl fun c => { c with pwins := c.pwins.modify n set }
  let s := if bitAt v 3 then s.modCtl fun c => { c with pwins := c.pwins.modify n fun x => { x with err := false } } else s
  if bitAt v 2 then s.reopen n else s

/-- A write of a register that is plain data, with its reserved bits zero; none for another offset. -/
def Ctl.plainWrite (c : Ctl) (off : Nat) (v : BitVec 64) : Option Ctl :=
  let w : BitVec 32 := v.setWidth 32
  let free := c.areas.isEmpty
  match off with
  | 0x10014 => some { c with alarmst := c.alarmst &&& ~~~w }
  | 0x20000 => some { c with tlbiva := v }
  | 0x20008 => some { c with tlbiroot := v }
  | 0x20018 => some { c with tlbiErr := c.tlbiErr && !bitAt v 1 }
  | 0x20040 => some { c with nqbase := v }
  | 0x20048 => some { c with nqsize := w &&& 0x1F, nqseq := 0 }
  | 0x20050 => some { c with nqhead := w }
  | 0x20060 => some { c with nqovf := c.nqovf && !bitAt v 0 }
  | 0x20068 => some { c with acthr := w &&& 0xFFFF }
  | 0x200C0 => some (if free then { c with ppbase := v } else c)
  | 0x200C8 => some (if free then { c with pparea := w &&& 0xFFFF } else c)
  | 0x200CC => some (if free then { c with ppcount := w &&& 0xFFFFFF } else c)
  | 0x20400 => some { c with pwrcap := BitVec.ofNat 32 (clampCap (bitsAt v 0 12).toNat) }
  | _ => none

/-- A write of eight bytes from byte `i` of ATTNONCE on; those past its end fall on no register (R489). -/
def Ctl.writeNonce (c : Ctl) (i : Nat) (v : BitVec 64) : Ctl :=
  { c with attnonce := (c.attnonce &&& ~~~((BitVec.allOnes 64).setWidth 256 <<< (8 * i))) ||| (v.setWidth 256 <<< (8 * i)) }

/-- A write of a register of the control window (R318, R320, R422, R479, R483, R486, R489, R491). Writes of read-only
registers and of offsets that hold none change nothing. -/
def State.writeControl (s : State) (off : Nat) (v : BitVec 64) : State :=
  let w : BitVec 32 := v.setWidth 32
  if 0x10040 ≤ off && off < 0x10060 then s.modCtl fun c => c.writeNonce (off - 0x10040) v
  else if off = 0x10060 then (if bitAt v 0 then s.attestGo else s)
  else if !s.carries then s
  else match s.ctl.plainWrite off v with
    | some c => { s with ctl := c }
    | none =>
      if off = 0x10010 then s.writeAlarmcfg w
      else if off = 0x20010 then s.tlbi (bitsAt v 0 2).toNat (bitsAt v 4 4).toNat
      else if 0x20200 ≤ off && off < 0x20400 then
        let n := (off - 0x20200) / 16
        (match off % 16 with
          | 0 => if s.holdsWindow n then s
            else s.modCtl fun c => { c with pwins := c.pwins.modify n fun x => { x with base := v &&& 0xFFFFF0000000 } }
          | 8 => s.writePwctl n v
          | _ => s)
      else if 0x30000 ≤ off && off < 0x34000 then
        (match off % 16 with
          | 0 => s.writeBase ((off - 0x30000) / 16) v
          | 8 => s.writeTail ((off - 0x30000) / 16) w
          | _ => s)
      else s

/-- Whether an offset of the control window answers: in READY any; otherwise those of the identity block and the status registers,
and in LOCKED those of attestation (R491, R493). -/
def Ctl.answers (c : Ctl) (off : Nat) : Bool :=
  c.modst == .ready || off < 0x108 ||
    (c.modst == .locked && ((0x10040 ≤ off && off < 0x10064) || (0x11000 ≤ off && off < 0x137D5)))

/-! ## Reads of the control window (R318, R320, R400, R422, R479, R483, R486, R489, R491 to R493) -/

/-- Word `i` of a register. -/
def regWord {n : Nat} (v : BitVec n) (i : Nat) : Word := bitsAt v (32 * i) 32
/-- A bit of a register that a flag gives. -/
def flagAt (b : Bool) (i : Nat) : Word := if b then 1#32 <<< i else 0

/-- The word at an offset of the identity block (R493): the vendor "KWETIN", the part, the version, the serial number and the
public key. -/
def identityWord (off : Nat) : Word :=
  if off < 0x08 then regWord 0x00004E495445574B#64 (off / 4)
  else if off < 0x0C then 0x00008100
  else if off < 0x10 then 0x00030000
  else if off < 0x18 then regWord Config.serial ((off - 0x10) / 4)
  else if off < 0x58 then regWord Config.identityKey ((off - 0x18) / 4)
  else 0

/-- HCOHST of a host port (R400). -/
def HostPort.status (p : HostPort) : Word := flagAt p.owned 2 ||| flagAt p.cache 1 ||| flagAt p.hdmdb 0
/-- ATTCTL (R489): ERR is 1 for ever once the keys are erased (R491). -/
def Ctl.attctl (c : Ctl) : Word := BitVec.ofNat 32 (16 * (if c.flash.keyErased then 1 else c.atterr)) ||| flagAt c.attbusy 1
/-- PWCTL of a window (R483). -/
def PoolWin.ctlWord (x : PoolWin) : Word := (x.size.setWidth 32 <<< 16) ||| flagAt x.err 3 ||| flagAt x.lost 1 ||| flagAt x.grant 0
/-- Word `i` of ATTBUF; a byte that no report has been written to is 0 (log 4). -/
def Ctl.attWord (c : Ctl) (i : Nat) : Word :=
  (List.range 4).foldl (fun (a : Word) k => a ||| ((nth 0#8 c.attbuf (4 * i + k)).setWidth 32 <<< (8 * k))) 0

/-- The word at an offset of the control window. `x` stands for what the spec leaves open: an offset that holds no register
(log 5). -/
def State.controlWord (s : State) (x : Word) (off : Nat) : Word :=
  let c := s.ctl
  if off < 0x100 then identityWord off
  else if 0x10040 ≤ off && off < 0x10060 then regWord c.attnonce ((off - 0x10040) / 4)
  else if 0x11000 ≤ off && off < 0x137D5 then c.attWord ((off - 0x11000) / 4)
  else if 0x20200 ≤ off && off < 0x20400 then
    let w := nth PoolWin.start c.pwins ((off - 0x20200) / 16)
    (match off % 16 / 4 with
      | 0 => regWord w.base 0
      | 1 => regWord w.base 1
      | 2 => w.ctlWord
      | _ => x)
  else if 0x30000 ≤ off && off < 0x34000 then
    let e := s.regionEnt ((off - 0x30000) / 16)
    (match off % 16 / 4 with
      | 0 => regWord e.base 0
      | 1 => regWord e.base 1
      | 2 => e.tail
      | _ => x)
  else match off / 4 * 4 with
    | 0x100 => BitVec.ofNat 32 c.modstat
    | 0x104 => c.nrcnt
    | 0x10010 => c.alarmcfg
    | 0x10014 => c.alarmst
    | 0x10060 => c.attctl
    | 0x20000 => regWord c.tlbiva 0
    | 0x20004 => regWord c.tlbiva 1
    | 0x20008 => regWord c.tlbiroot 0
    | 0x2000C => regWord c.tlbiroot 1
    | 0x20010 => c.tlbictl
    | 0x20018 => flagAt c.tlbiErr 1 ||| flagAt c.tlbiBusy 0
    | 0x20040 => regWord c.nqbase 0
    | 0x20044 => regWord c.nqbase 1
    | 0x20048 => c.nqsize
    | 0x20050 => c.nqhead
    | 0x20058 => c.nqtail
    | 0x20060 => flagAt c.nqovf 0
    | 0x20068 => c.acthr
    | 0x20080 => (s.port 0).status
    | 0x20084 => (s.port 1).status
    | 0x200C0 => regWord c.ppbase 0
    | 0x200C4 => regWord c.ppbase 1
    | 0x200C8 => c.pparea
    | 0x200CC => c.ppcount
    | 0x200D0 => BitVec.ofNat 32 (c.ppcount.toNat - c.areas.length)
    | 0x20400 => c.pwrcap
    | 0x20404 => (c.draw.setWidth 32 <<< 12) ||| BitVec.ofNat 32 (c.level % 16)
    | _ => x

/-- A read of the word at an offset of the control window (R493). -/
def State.readControl (s : State) (off : Nat) : State :=
  if s.ctl.answers off then
    let (x, s) := s.freeWord
    s.send (.registerRead (s.controlWord x off))
  else s.notReady.send (.registerRead 0xFFFFFFFF)

/-- CONTROL_REGISTER_WRITE: outside READY it is discarded and counted. -/
def execControlRegisterWrite (off : BitVec 32) (v : BitVec 64) (s : State) : Out :=
  .next (if s.ctl.answers off.toNat then s.writeControl off.toNat v else s.notReady)

/-- NOT_READY_ACCESS: a register read returns ones and a memory read poisoned data, a write is dropped, and the access is
counted (R493). The event's line is the offset of a register, of which the word is read where it answers, or the line of memory. -/
def execNotReadyAccess (k : NotReadyKind) (s : State) : Out :=
  .next (match k with
    | .regRead => s.readControl s.cur.line
    | .memRead => if s.carries then s else s.notReady.send (.readData s.cur.line LineData.poisoned)
    | .regWrite => if s.ctl.answers s.cur.line then s else s.notReady
    | .memWrite => if s.carries then s else s.notReady)

/-! ## Power (R486) -/

/-- The cap of PWRCAP. -/
def Ctl.cap (c : Ctl) : Nat := clampCap (bitsAt c.pwrcap 0 12).toNat
/-- The launches that have still to finish. -/
def State.runningLaunches (s : State) : List Nat :=
  (List.range s.launches.length).filter fun l => (s.launch l).phase == .accepted

/-- POWER_LEVEL_UP: the draw, in watts, exceeds the cap; at level 15 each launch is asked for a die (R429). -/
def execPowerLevelUp (draw : Nat) (s : State) : Out :=
  .next (if draw ≤ s.ctl.cap then s
  else if s.ctl.level < 15 then s.modCtl fun c => { c with level := c.level + 1 }
  else s.modCtl fun c => { c with withdrawAsked := s.runningLaunches })

/-- POWER_LEVEL_DOWN: the draw has been at least 5 % below the cap. -/
def execPowerLevelDown (draw : Nat) (s : State) : Out :=
  .next (if 100 * draw ≤ 95 * s.ctl.cap then s.modCtl fun c => { c with level := c.level - 1 } else s)

/-! ## Bring-up (R480, R487, R488, R492) -/

/-- The STCFG that a record gives. -/
def Flash.interval (f : Flash) : Word :=
  match f.stcfg with
  | some x => stcfgOf (x.setWidth 64)
  | none => 1024
/-- Whether a core is disabled: by the record's map of enabled cores, or by the repair map (R488, R494). -/
def coreGone (f : Flash) (repaired : List (Nat × Nat)) (c : Nat) : Bool := !bitAt f.enabledCores c || repaired.contains (1, c)
/-- The values of the configuration record, as it is stored. -/
def Flash.values (f : Flash) : List Nat :=
  let opt := fun (x : Option Word) => match x with
    | some v => v.toNat + 1
    | none => 0
  [f.enabledCores.toNat, f.spareCores.toNat, opt f.stcfg, opt f.pwrcap, f.alarmcfg.toNat, f.ownedSharing.toNat, f.signatureOk.toNat,
   f.contentsOk.toNat]

/-- The state of the module after measurement, before it is configured. -/
def State.measured (s : State) : State :=
  let f := s.ctl.flash
  let ctl := { Ctl.start with
    flash := f, meas := (List.range 3).map Config.measurement ++ [Config.measurementRecord f.values]
    hostPorts := s.ctl.hostPorts.map fun p => { up := p.up, hdmdb := false, cache := false, owned := false } }
  { State.reset with agenda := s.agenda, cur := s.cur, free := s.free, repaired := s.repaired, mgmtLog := s.mgmtLog, ctl := ctl }

/-- A host port whose link is up is trained, with the options that it negotiates (R400, R482). -/
def State.trainPort (s : State) (p : Nat) : State :=
  let (n, s) := s.draw
  s.modCtl fun c => { c with hostPorts := c.hostPorts.modify p fun x => if x.up then HostPort.trained c.flash.ownedSharing n else x }

/-- RESET: everything but flash, the repair map and the management controller's log is as at reset; the images are
measured, and the record and the repair map are checked and applied, or bring-up stops in FAILED. In READY the pool and peer
ports are trained, and the host ports with what they negotiate (R487, R488, R492, R493; log 39). -/
def execReset (s : State) : Out :=
  let s := s.measured
  let f := s.ctl.flash
  let fail := fun (n : Nat) => s.modCtl fun c => { c with modst := .failed, cfgerr := n }
  .next (if !f.signatureOk then fail 1
  else if !f.contentsOk then fail 2
  else if !f.repairOk then fail 3
  else
    let s : State := { s with cores := s.cores.mapIdx fun i c =>
      { c with stcfg := f.interval, disabled := coreGone f s.repaired i } }
    ((s.trainPort 0).trainPort 1).modCtl fun c => { c with
      modst := .ready, poolUp := List.replicate 4 true, peerUp := List.replicate 12 true
      pwrcap := BitVec.ofNat 32 (clampCap ((f.pwrcap.map fun x => (bitsAt x 0 12).toNat).getD 3000))
      alarmcfg := f.alarmcfg &&& 0x3FF })

/-! ## Errors (R453, R455) -/

/-- CORRECTABLE_ERROR: it is counted. -/
def execCorrectableError (s : State) : Out := .next { s with correctable := s.correctable + 1 }

/-- A mask of lanes with one lane more. -/
def addLane (m : Mask) (l : Nat) : Mask := if l < 32 then m ||| (1#32 <<< l) else m

/-- Word `l` of a window slot is poisoned. -/
def Window.spoil (x : Window) (l : Nat) : Window := { x with poison := addLane x.poison l }

/-- The words of a sector are poisoned, where it is held. -/
def State.poisonSector (s : State) (pa : Nat) : State :=
  let line := lineNo pa
  let m : Mask := (0xFF#32) <<< (8 * (pa % 128 / 32))
  let spoil := fun (d : LineData) => ({ d with poison := d.poison ||| m } : LineData)
  match s.l2At line with
  | some x => s.setL2 line { x with data := spoil x.data }
  | none => if s.frame pa = .hbm then s.storeMem line (spoil (s.memAt line)) else s

/-- A warp whose state without a lane value is hit escalates at once as POISON with extra 0xFD (R455). -/
def State.loseControl (s : State) (w : Nat) : State :=
  let v := s.warp w
  if v.exited || v.held.isSome then s
  else
    let cur := s.cur
    let s := ((s.asWarp w).raise .poison v.mask 0xFD).modWarp w fun u => { u with escalating := true }
    { s with cur := cur }

/-- UNCORRECTABLE_ERROR: the unit is poisoned (R453). A predicate number from 16 on names the strand predicate of an
accumulator; a window is named by 8 times its segment plus its slot. -/
def State.poisonUnit (s : State) : PoisonUnit → State
  | .reg w r l => s.modWarp w fun v => v.modReg r fun x => { x with poison := addLane x.poison l }
  | .pred w p l => s.modWarp w fun v =>
    if p < 12 then v.modPred p fun x => { x with poison := addLane x.poison l }
    else v.modStrand (p - 16) fun st => { st with qP := addLane st.qP l }
  | .acc w k l => s.modStrand w k fun st => { st with accP := addLane st.accP l }
  | .carry w k l => s.modStrand w k fun st => { st with carryP := addLane st.carryP l }
  | .window w k n l => s.modStrand w k fun st =>
    { st with segs := st.segs.modify (n / 8) fun g => { g with win := g.win.modify (n % 8) fun x => x.spoil l } }
  | .tile w k e => s.modStrand w k fun st =>
    { st with tile := st.tile.map fun t =>
        if e < t.kind.rows * t.kind.cols then
          { t with elems := alSet TElem.zero e { alGet TElem.zero e t.elems with poison := true } t.elems }
        else t }
  | .scratch g off => s.modGroup g fun x => { x with scratchP := alSet false (off / 4) true x.scratchP }
  | .fifo c bank word => s.modBank c bank fun b =>
    { b with fifo := b.fifo.modify (word / 8) fun e => { e with poison := e.poison ||| (1#8 <<< (word % 8)) } }
  | .sector pa => s.poisonSector pa
  | .control w => s.loseControl w

/-- UNCORRECTABLE_ERROR. -/
def execUncorrectableError (u : PoisonUnit) (s : State) : Out := .next (s.poisonUnit u)

/-! ## Repair (R494) -/

/-- A core's node leaves every list, its privatised copies merged first (R386, R396). -/
def State.unlinkCore (s : State) (core : Nat) : State :=
  let mine := fun (l : List Node) => l.any fun n => n.core == core
  let s := (s.l2.filter fun x => x.2.priv && mine x.2.nodes).foldl (fun (t : State) x => t.mergeLine x.1) s
  let cut := fun (l : List Node) => l.filter fun n => n.core != core
  { s with
    joins := s.joins.filter fun j => j.core != core
    apart := (s.apart.map fun x => (x.1, cut x.2)).filter fun x => !x.2.isEmpty
    l2 := s.l2.map fun x =>
      (x.1, { x.2 with nodes := cut x.2.nodes, prop := x.2.prop.map fun f => { f with nodes := cut f.nodes } }) }

/-- Whether an operation is in progress on a line that a core has a node of (R387). -/
def State.coreInFlow (s : State) (core : Nat) : Bool :=
  s.l2.any fun x => s.lineBusy x.1 &&
    (x.2.nodes ++ ((x.2.prop.map fun f => f.nodes).getD [])).any fun n => n.core == core

/-- CORE_REPAIR: the core's groups are asked to leave; once none is left, nor an image of another core's group, nor an operation
on a line that it has a copy of, a spare takes its place, or the core is disabled. -/
def execCoreRepair (core : Nat) (s : State) : Out :=
  .next (if 256 ≤ core || (s.core core).disabled then s
  else if s.coreBusy core || s.coreInFlow core then s.modCore core fun c => { c with failing := true }
  else match (List.range s.groups.length).foldl (fun (t : Option State) g => match t with
      | some t => t.moveImage core g
      | none => none) (some s) with
    | none => s.modCore core fun c => { c with failing := true }
    | some s =>
      let s := s.unlinkCore core
      let old := s.core core
      let fresh := { CoreSt.start with stcfg := old.stcfg, missmerge := old.missmerge, queue := old.queue, reserved := old.reserved }
      if s.sparesLeft (dieOf core) then (s.modCore core fun _ => fresh).logRepair 0 core
      else (s.modCore core fun _ => { fresh with disabled := true }).logRepair 1 core)

/-- The host is asked for a line before the line's slice is drained: one that it holds exclusive is called back, and one that it holds
shared is invalidated as a write's propagation does it, and the line waits for BIRSPI (R389, R398). -/
def State.askHost (s : State) (line : Nat) : State :=
  if !s.carries then s
  else if (s.l2At line).any fun x => x.host == .he then s.callBack line true
  else
    let flow : Flow := { write := 0, words := 0, hostLeft := true, hostAsked := true, nodes := [], upgrade := none }
    (s.modL2 line fun x => { x with busy := true, prop := some flow }).send (.bisnpInv line)

/-- L2_SLICE_REPAIR: the slice is drained, its host copies called back first, and the one spare of the die takes its
number. -/
def execL2SliceRepair (die slice : Nat) (s : State) : Out :=
  let lines := (s.l2.map Prod.fst).filter fun line => homeDie line == die && homeSlice line == slice
  let held := lines.filter fun line => (s.l2At line).any fun x => x.host != .hi
  .next (if s.repaired.any (fun x => x.1 == 2 && x.2 / 32 == die) || lines.any s.lineBusy then s
  else if !lines.all s.reaches then s
  else if held.isEmpty then (lines.foldl State.evictLine s).logRepair 2 (32 * die + slice)
  else held.foldl State.askHost s)

/-- HBM_ROW_REPAIR: the row is copied and remapped, and no byte changes. -/
def execHbmRowRepair (stack bank row : Nat) (s : State) : Out := .next (s.logRepair 3 (row + 2 ^ 32 * (bank + 2 ^ 16 * stack)))

end Sys2Proof.Machine
end

