-- ==== Sys2Proof/Machine/Convert.lean ====
section
/-! DEFINITION. Conversions and quantisation: CVT, QNT, DQNT, SCALEINIT (R145, R220 to R223, R251 to R255). -/

namespace Sys2Proof.Machine

/-! ## CVT (R251, R252) -/

/-- The narrow format of a format code: 3 e4m3, 4 e5m2, 5 e2m1 (R226). -/
def narrowOf (n : Nat) : Narrow := if n = 3 then .e4m3 else if n = 4 then .e5m2 else .e2m1

/-- The rounding of a slot (R226). -/
def slotRounding (x : Slot) : Rnd :=
  match slotRnd x with
  | 1 => .rne
  | 2 => .rz
  | _ => .rna

/-- The exact value of an integer. -/
def intVal (x : Int) : FP := fpOfInt x

/-- The result of CVT in a lane from the source, a register or a pair: 32 or 64 bits, with flags. `k` delivers under
the direction that RM or MODE gives, `k64` under that of a conversion to f64. R252 and R145 say that a signalling NaN raises IV
for a wider and for a bf16 or f16 source; one of f32 raises it in a conversion to f64 too (DEDUCED, log 25). -/
def cvtRes (code : Nat) (slot : Slot) (k : RndCtl) (k64 : RndCtl) (x : DWord) : FRes :=
  let w : Word := x.setWidth 32
  let f := f32F.val (flushWord k.ftz w).toNat
  let g := f64F.val x.toNat
  let noFtz := { k with ftz := false }
  match code with
  | 0x00 => f32F.deliver k g
  | 0x01 => f64F.deliver k64 f
  | 0x02 => bf16F.deliver noFtz f
  | 0x03 => f16F.deliver noFtz f
  | 0x04 => f32F.deliver { k with sat := false } (bf16F.val (bitsAt w 0 16).toNat)
  | 0x05 => f32F.deliver { k with sat := false } (f16F.val (bitsAt w 0 16).toNat)
  | 0x06 => Narrow.e4m3.conv (slotRounding slot) (slotSati slot) f
  | 0x07 => Narrow.e5m2.conv (slotRounding slot) (slotSati slot) f
  | 0x08 => f32F.deliver { k with sat := false } (Narrow.e4m3.val (bitsAt w 0 8).toNat)
  | 0x09 => f32F.deliver { k with sat := false } (Narrow.e5m2.val (bitsAt w 0 8).toNat)
  | 0x0A => fpToInt k.rnd k.sat true 32 f
  | 0x0B => fpToInt k.rnd k.sat false 32 f
  | 0x0C => f32F.deliver k (intVal w.toInt)
  | 0x0D => f32F.deliver k (intVal w.toNat)
  | 0x0E => fpToInt k.rnd k.sat true 32 g
  | 0x0F => f64F.deliver k64 (intVal w.toInt)
  | 0x10 => fpToInt k.rnd k.sat true 64 g
  | 0x11 => fpToInt k.rnd k.sat false 64 g
  | 0x12 => f64F.deliver k64 (intVal x.toInt)
  | 0x13 => f64F.deliver k64 (intVal x.toNat)
  | n =>
    let fmt := if n = 0x14 then f16F else bf16F
    let lo := fmt.deliver noFtz f
    let hi := fmt.deliver noFtz (f32F.val (flushWord k.ftz (bitsAt x 32 32)).toNat)
    { code := lo.code + 65536 * hi.code, fl := lo.fl ||| hi.fl }

/-- CVT (R251, R252). -/
def execCvt (h : Hd) (code : BitVec 5) (sat fz : Bool) (rm slot : BitVec 3) (d a : GReg) (s : State) : Out :=
  .next (s.issue (.cvt h code sat fz rm slot d a) fun e s =>
    let v := s.me
    let i := Instr.cvt h code sat fz rm slot d a
    let ftz := modeFtz v.mode || fz
    let k : RndCtl := { rnd := rmRnd rm (modeRnd v.mode), sat := sat, ftz := ftz }
    let k64 : RndCtl := { rnd := rmRnd rm .rne, sat := false, ftz := false }
    let res := fun l => cvtRes code.toNat (s.myLaunch.slot slot.toNat) k k64 (v.wide (cvtSrc2 code) a l)
    if cvtDst2 code then s.toReg2Fl i d e res else s.toRegFl i d e res)

/-! ## QNT, DQNT and SCALEINIT (R253 to R255) -/

/-- The lanes of E in the block of a lane, for `n` lanes per block. -/
def blockLanes (e : Mask) (n l : Nat) : List Nat := (lanesOf e).filter fun j => j / n == l / n

/-- The code and scale of QNT in a lane, with the flags (R220, R222, R253). -/
def qntRes (slot : Slot) (e : Mask) (x : Nat → FP) (b : Nat → Word) (l : Nat) : FRes :=
  let fmt := narrowOf (slotA slot)
  let conv := fmt.conv (slotRounding slot) (slotSati slot)
  let blk := blockLanes e (blkLen slot) l
  if slotScaled slot then
    let sc := (bitsAt (b (blk.headD l)) 0 8).toNat
    if fmt = .e2m1 ∧ blk.any fun j => (x j).isNan then { code := 0xFF00, fl := 0 }
    else match scaleVal sc with
      | none => { code := 256 * sc, fl := 0 }
      | some (m, ex) =>
        if m = 0 then { code := 0, fl := flZSCL }
        else
          let r := conv (scaleQuot (x l) m ex)
          { r with code := 256 * sc + r.code }
  else
    let r := conv (x l)
    { r with code := 256 * 0x60 + r.code }

/-- QNT (R253). -/
def execQnt (h : Hd) (slot : BitVec 3) (d a b : GReg) (s : State) : Out :=
  .next (s.issue (.qnt h slot d a b) fun e s =>
    let v := s.me
    s.toRegFl (.qnt h slot d a b) d e
      (qntRes (s.myLaunch.slot slot.toNat) e (fun l => f32Src false (modeFtz v.mode) (v.lane a l)) (v.lane b)))

/-- The value of DQNT in a lane, with IV (R221, R254). -/
def dqntRes (slot : Slot) (w : Word) : FRes :=
  let fmt := narrowOf (slotA slot)
  let code := if fmt = .e2m1 then (bitsAt w 0 4).toNat else (bitsAt w 0 8).toNat
  let (x, iv) := expandVal (fmt.val code) (if slotScaled slot then (bitsAt w 8 8).toNat else 0x60)
  { code := (exactF32 x).toNat, fl := if iv then flIV else 0 }

/-- DQNT (R221, R254). -/
def execDqnt (h : Hd) (slot : BitVec 3) (d a : GReg) (s : State) : Out :=
  .next (s.issue (.dqnt h slot d a) fun e s =>
    let v := s.me
    s.toRegFl (.dqnt h slot d a) d e fun l => dqntRes (s.myLaunch.slot slot.toNat) (v.lane a l))

/-- The larger magnitude of two finite values. -/
def maxMag (x : Nat × Int) : FP → Nat × Int
  | .fin _ m e =>
    let q := min x.2 e
    if x.1 * 2 ^ (x.2 - q).toNat < m * 2 ^ (e - q).toNat then (m, e) else x
  | _ => x

/-- The scale of a block of values, with SAT and ZBLK (R223). -/
def scaleOf (fmt : Narrow) (xs : List FP) : FRes :=
  let (m, e) := xs.foldl maxMag (0, 0)
  if xs.any FP.isNan then { code := 0xFF, fl := 0 }
  else if xs.any fun x => match x with | .inf _ => true | _ => false then { code := 0xFE, fl := flSAT }
  else if m = 0 then { code := 0x60, fl := flZBLK }
  else match blockScale m e fmt.maxVal with
    | some c => { code := c, fl := 0 }
    | none => { code := 0xFE, fl := flSAT }

/-- SCALEINIT (R223, R255). -/
def execScaleinit (h : Hd) (slot : BitVec 3) (d a : GReg) (s : State) : Out :=
  .next (s.issue (.scaleinit h slot d a) fun e s =>
    let v := s.me
    s.toRegFl (.scaleinit h slot d a) d e fun l =>
      scaleOf (narrowOf (slotA (s.myLaunch.slot slot.toNat)))
        ((blockLanes e 8 l).map fun j => f32Src false (modeFtz v.mode) (v.lane a j)))

end Sys2Proof.Machine
end

