-- ==== Sys2Proof/Machine/CrossLane.lean ====
section
/-! DEFINITION. Cross-lane exchange: SHFL, VOTE, MBCNT, MATCH, REDUX, FREDUX, RDLANE
(R170, R171, R200 to R206, R231, R250). -/

namespace Sys2Proof.Machine

/-! ## Words from other lanes -/

/-- The registers of an operand. -/
def regsOf (pair : Bool) (r : GReg) : List Nat := if pair then [r.toNat, r.toNat + 1] else [r.toNat]

/-- POISON for the lanes that consume a poisoned word of another lane, the first register first (R174). -/
def State.consumeFrom (s : State) (uses : List (Nat × Mask)) (k : State → State) : State :=
  match uses.find? fun x => x.2 != 0#32 with
  | some (r, m) => s.raise .poison m (BitVec.ofNat 64 r)
  | none => k s

/-- The lanes of E for which lane `src l` of a register is poisoned. -/
def Warp.poisonFrom (v : Warp) (r : Nat) (e : Mask) (src : Nat → Nat) : Mask :=
  maskOf fun l => e.getLsbD l && (v.reg r).poison.getLsbD (src l)

/-- The source lane of SHFL; the lane itself where the result is no lane (R201). -/
def shflLane (mode : BitVec 2) (b l : Nat) : Nat :=
  match mode.toNat with
  | 0 => b
  | 1 => if b ≤ l then l - b else l
  | 2 => if l + b ≤ 31 then l + b else l
  | _ => l ^^^ b

/-- SHFL (R200, R201). -/
def execShfl (h : Hd) (m : MByte) (mode : BitVec 2) (d a b : GReg) (s : State) : Out :=
  .next (s.issue (.shfl h m mode d a b) fun e s =>
    let v := s.me
    let j := fun l => shflLane mode (bitsAt (v.lane b l) 0 5).toNat l
    s.consumeFrom ((regsOf m.w64 a).map (fun r => (r, v.poisonFrom r e j)) ++ [(b.toNat, (v.reg b.toNat).poison &&& e)])
      fun s => s.toRegs m.w64 (.shfl h m mode d a b) d e fun l => v.wide m.w64 a (j l))

/-- VOTE (R202). -/
def execVote (h : Hd) (mode : BitVec 2) (d : GReg) (a : PSrc) (s : State) : Out :=
  .next (s.issue (.vote h mode d a) fun e s =>
    let p := (s.me.pred a.p).val
    let t := e &&& (if a.neg then ~~~p else p)
    let i := Instr.vote h mode d a
    match mode.toNat with
    | 0 => s.toReg i d e fun _ => t
    | 1 => s.toPred i (bitsAt d 0 4) e fun _ => t != 0#32
    | 2 => s.toPred i (bitsAt d 0 4) e fun _ => t == e
    | _ => s.toPred i (bitsAt d 0 4) e fun _ => t == e || t == 0#32)

/-- The 1 bits of a word below bit `l` (R203). -/
def bitsBelow (x : Word) (l : Nat) : Word := BitVec.ofNat 32 ((List.range l).filter fun i => x.getLsbD i).length

/-- MBCNT (R203). -/
def execMbcnt (h : Hd) (add : Bool) (d a b : GReg) (s : State) : Out :=
  .next (s.issue (.mbcnt h add d a b) fun e s =>
    let v := s.me
    s.toReg (.mbcnt h add d a b) d e fun l => bitsBelow (v.lane a l) l + (if add then v.lane b l else 0))

/-- Whether the keys of two lanes are equal under a type tag: b32, b64, f32, f64 (R170). -/
def Warp.sameKey (v : Warp) (ty : BitVec 2) (a : GReg) (i j : Nat) : Bool :=
  match ty.toNat with
  | 0 => v.lane a i == v.lane a j
  | 1 => v.lane2 a i == v.lane2 a j
  | 2 => i == j || (f32F.val (v.lane a i).toNat).eq (f32F.val (v.lane a j).toNat)
  | _ => i == j || (f64F.val (v.lane2 a i).toNat).eq (f64F.val (v.lane2 a j).toNat)

/-- MATCH (R170, R171, R204). -/
def execMatchLanes (h : Hd) (ty : BitVec 2) (d a : GReg) (s : State) : Out :=
  .next (s.issue (.matchLanes h ty d a) fun e s =>
    let v := s.me
    s.toReg (.matchLanes h ty d a) d e fun l => maskOf fun j => e.getLsbD j && v.sameKey ty a l j)

/-- The operation of REDUX on two words (R205). -/
def reduxOp (op : BitVec 3) (signed : Bool) (x y : Word) : Word :=
  match op.toNat with
  | 0 => x + y
  | 1 => if intOf signed x ≤ intOf signed y then x else y
  | 2 => if intOf signed x ≤ intOf signed y then y else x
  | 3 => x &&& y
  | 4 => x ||| y
  | _ => x ^^^ y

/-- REDUX (R205). -/
def execRedux (h : Hd) (m : MByte) (op : BitVec 3) (d a : GReg) (s : State) : Out :=
  .next (s.issue (.redux h m op d a) fun e s =>
    let v := s.me
    match lanesOf e with
    | [] => s.retire (.redux h m op d a)
    | l :: ls =>
      let x := ls.foldl (fun acc j => reduxOp op (sgSigned m.sg) acc (v.lane a j)) (v.lane a l)
      s.toReg (.redux h m op d a) d e fun _ => x)

/-! ## Floating reductions (R147, R231, R250) -/

/-- One step of the butterfly at distance `d`: the values, and the flags of all 32 lanes with those before. -/
def butterflyStep (op : Nat → Nat → FRes) (x : Lanes Nat × Byte) (d : Nat) : Lanes Nat × Byte :=
  let r := Lanes.tab fun l => op (x.1.at' l) (x.1.at' (l ^^^ d))
  (Lanes.tab fun l => (r.at' l).code, laneList.foldl (fun f l => f ||| (r.at' l).fl) x.2)

/-- The butterfly over distances 1, 2, 4, 8 and 16 (R147). -/
def butterfly (op : Nat → Nat → FRes) (v : Lanes Nat) : Lanes Nat × Byte :=
  [1, 2, 4, 8, 16].foldl (butterflyStep op) (v, 0)

/-- A code flushed in a format (R236). -/
def BinFmt.flushCode (f : BinFmt) (ftz : Bool) (x : Nat) : Nat :=
  if ftz && x % f.signBit < 2 ^ f.mb then x / f.signBit % 2 * f.signBit else x

/-- The combination of a floating reduction: 0 add, 1 min, 2 max (R231). -/
def BinFmt.combine (f : BinFmt) (op : Nat) (ftz : Bool) (x y : Nat) : FRes :=
  if op = 0 then f.add { rnd := .rne, sat := false, ftz := ftz } (f.val x) (f.val y)
  else f.minMax (op == 2) x y (f.val x) (f.val y)

/-- What a lane outside the active set contributes: −0.0 to a sum, a NaN to a minimum or maximum (R231). -/
def BinFmt.neutral (f : BinFmt) (op : Nat) : Nat := if op = 0 then f.signBit else f.nanCode

/-- The reduction of the lanes of `e`, with its flags. -/
def BinFmt.reduce (f : BinFmt) (op : Nat) (ftz : Bool) (e : Mask) (x : Nat → Nat) : Lanes Nat × Byte :=
  butterfly (f.combine op ftz) (Lanes.tab fun l => if e.getLsbD l then f.flushCode ftz (x l) else f.neutral op)

/-- FREDUX (R231, R250). -/
def execFredux (h : Hd) (op : BitVec 2) (f64 fz : Bool) (d a : GReg) (s : State) : Out :=
  .next (s.issue (.fredux h op f64 fz d a) fun e s =>
    let v := s.me
    let i := Instr.fredux h op f64 fz d a
    let (r, fl) :=
      if f64 then f64F.reduce op.toNat false e fun l => (v.lane2 a l).toNat
      else f32F.reduce op.toNat (modeFtz v.mode || fz) e fun l => (v.lane a l).toNat
    s.flaggedAll i e fl fun s => s.toRegs f64 i d e fun l => BitVec.ofNat 64 (r.at' l))

/-- RDLANE (R200, R206). -/
def execRdlane (h : Hd) (first w64 : Bool) (d a b : GReg) (s : State) : Out :=
  .next (s.issue (.rdlane h first w64 d a b) fun e s =>
    let v := s.me
    let i := Instr.rdlane h first w64 d a b
    if e = 0 then s.retire i
    else
      let low := lowest e
      let j := if first then low else (bitsAt (v.lane b low) 0 5).toNat
      s.consumeFrom ((regsOf w64 a).map (fun r => (r, v.poisonFrom r e fun _ => j)) ++
          [(b.toNat, if first then 0 else (v.reg b.toNat).poison &&& (1#32 <<< low))])
        fun s => s.toRegs w64 i d e fun _ => v.wide w64 a j)

end Sys2Proof.Machine
end

