-- ==== Sys2Proof/Machine/Float32.lean ====
section
/-! DEFINITION. f32 arithmetic and special functions: FADD to FCLASS (R136 to R139, R235 to R237, R240 to R245). -/

namespace Sys2Proof.Machine

/-- An f32 source of the executing warp in lane `l`, after negation and flushing (R236). -/
def Warp.f32 (v : Warp) (f : FByte) (neg : Bool) (r : GReg) (l : Nat) : FP :=
  f32Src neg (modeFtz v.mode || f.fz) (v.lane r l)
/-- The code of that source. -/
def Warp.f32Code (v : Warp) (f : FByte) (neg : Bool) (r : GReg) (l : Nat) : Word :=
  flushWord (modeFtz v.mode || f.fz) (negWord neg (v.lane r l))

/-- FADD (R240, R241). -/
def execFadd (h : Hd) (f : FByte) (d a b : GReg) (s : State) : Out :=
  .next (s.issue (.fadd h f d a b) fun e s =>
    let v := s.me
    s.toRegFl (.fadd h f d a b) d e fun l => f32F.add (fctl f v.mode) (v.f32 f f.na a l) (v.f32 f f.nb b l))

/-- A source negated once more (R136). -/
def minusF (x : FP) : FP := x.negate

/-- FSUB (R240, R241). -/
def execFsub (h : Hd) (f : FByte) (d a b : GReg) (s : State) : Out :=
  .next (s.issue (.fsub h f d a b) fun e s =>
    let v := s.me
    s.toRegFl (.fsub h f d a b) d e fun l => f32F.add (fctl f v.mode) (v.f32 f f.na a l) (minusF (v.f32 f f.nb b l)))

/-- FMUL (R240, R241). -/
def execFmul (h : Hd) (f : FByte) (d a b : GReg) (s : State) : Out :=
  .next (s.issue (.fmul h f d a b) fun e s =>
    let v := s.me
    s.toRegFl (.fmul h f d a b) d e fun l => f32F.mul (fctl f v.mode) (v.f32 f f.na a l) (v.f32 f f.nb b l))

/-- FFMA (R240, R241). -/
def execFfma (h : Hd) (f : FByte) (d a b c : GReg) (s : State) : Out :=
  .next (s.issue (.ffma h f d a b c) fun e s =>
    let v := s.me
    s.toRegFl (.ffma h f d a b c) d e fun l => f32F.fma (fctl f v.mode) (v.f32 f f.na a l) (v.f32 f f.nb b l) (v.f32 f f.nc c l))

/-- A minimum or maximum of two f32 codes (R137). -/
def minMax32 (mx : Bool) (x y : Word) : FRes :=
  f32F.minMax mx x.toNat y.toNat (f32F.val x.toNat) (f32F.val y.toNat)

/-- FMIN (R137, R241). -/
def execFmin (h : Hd) (f : FByte) (d a b : GReg) (s : State) : Out :=
  .next (s.issue (.fmin h f d a b) fun e s =>
    let v := s.me
    s.toRegFl (.fmin h f d a b) d e fun l => minMax32 false (v.f32Code f f.na a l) (v.f32Code f f.nb b l))

/-- FMAX (R137, R241). -/
def execFmax (h : Hd) (f : FByte) (d a b : GReg) (s : State) : Out :=
  .next (s.issue (.fmax h f d a b) fun e s =>
    let v := s.me
    s.toRegFl (.fmax h f d a b) d e fun l => minMax32 true (v.f32Code f f.na a l) (v.f32Code f f.nb b l))

/-- FDIV (R136, R241). -/
def execFdiv (h : Hd) (f : FByte) (d a b : GReg) (s : State) : Out :=
  .next (s.issue (.fdiv h f d a b) fun e s =>
    let v := s.me
    s.toRegFl (.fdiv h f d a b) d e fun l => f32F.div (fctl f v.mode) (v.f32 f f.na a l) (v.f32 f f.nb b l))

/-- FSQRT (R241). -/
def execFsqrt (h : Hd) (f : FByte) (d a : GReg) (s : State) : Out :=
  .next (s.issue (.fsqrt h f d a) fun e s =>
    let v := s.me
    s.toRegFl (.fsqrt h f d a) d e fun l => f32F.sqrt { fctl f v.mode with sat := false } (v.f32 f f.na a l))

/-- FRCP (R138, R242). -/
def execFrcp (h : Hd) (f : FByte) (d a : GReg) (s : State) : Out :=
  .next (s.issue (.frcp h f d a) fun e s =>
    let v := s.me
    s.toRegFl (.frcp h f d a) d e fun l => rcp (fctl f v.mode) (v.f32Code f f.na a l))

/-- FRSQ (R138, R242). -/
def execFrsq (h : Hd) (f : FByte) (d a : GReg) (s : State) : Out :=
  .next (s.issue (.frsq h f d a) fun e s =>
    let v := s.me
    s.toRegFl (.frsq h f d a) d e fun l => rsq { fctl f v.mode with sat := false } (v.f32Code f f.na a l))

/-- The argument of FEXP2 and AEXP2, with one rounding, and IV where forming it is invalid (R139). -/
def expArg (a b c : FP) : FRes :=
  let r := f32F.fma { rnd := .rne, sat := false, ftz := false } a b c.negate
  { r with fl := r.fl &&& flIV }
/-- exp2 of that argument with the flags of both steps (R139). -/
def expOf (k : RndCtl) (a b c : FP) : FRes :=
  let t := expArg a b c
  let r := exp2f k (BitVec.ofNat 32 t.code)
  { r with fl := r.fl ||| t.fl }

/-- FEXP2 (R139, R242). -/
def execFexp2 (h : Hd) (f : FByte) (d a b c : GReg) (s : State) : Out :=
  .next (s.issue (.fexp2 h f d a b c) fun e s =>
    let v := s.me
    s.toRegFl (.fexp2 h f d a b c) d e fun l => expOf (fctl f v.mode) (v.f32 f f.na a l) (v.f32 f f.nb b l) (v.f32 f f.nc c l))

/-- FLOG2 (R138, R242). -/
def execFlog2 (h : Hd) (f : FByte) (d a : GReg) (s : State) : Out :=
  .next (s.issue (.flog2 h f d a) fun e s =>
    let v := s.me
    s.toRegFl (.flog2 h f d a) d e fun l => log2f { fctl f v.mode with sat := false } (v.f32Code f f.na a l))

/-- FSIN (R242, R243). -/
def execFsin (h : Hd) (f : FByte) (d a : GReg) (s : State) : Out :=
  .next (s.issue (.fsin h f d a) fun e s =>
    let v := s.me
    s.toRegFl (.fsin h f d a) d e fun l => sinCos true { fctl f v.mode with sat := false } (v.f32Code f f.na a l))

/-- FCOS (R242, R243). -/
def execFcos (h : Hd) (f : FByte) (d a : GReg) (s : State) : Out :=
  .next (s.issue (.fcos h f d a) fun e s =>
    let v := s.me
    s.toRegFl (.fcos h f d a) d e fun l => sinCos false { fctl f v.mode with sat := false } (v.f32Code f f.na a l))

/-- FRND (R244). -/
def execFrnd (h : Hd) (f : FByte) (x : Bool) (d a : GReg) (s : State) : Out :=
  .next (s.issue (.frnd h f x d a) fun e s =>
    let v := s.me
    s.toRegFl (.frnd h f x d a) d e fun l => f32F.roundInt (fctl f v.mode).rnd x (v.f32 f f.na a l))

/-- The class mask of a code of a format (R245). -/
def BinFmt.classOf (f : BinFmt) (x : Nat) : Word :=
  match f.val x with
  | .nan sig => if sig then 0x001 else 0x002
  | .inf n => if n then 0x004 else 0x200
  | .fin n m _ =>
    if m = 0 then if n then 0x020 else 0x040
    else if m < 2 ^ f.mb then if n then 0x010 else 0x080
    else if n then 0x008 else 0x100

/-- FCLASS (R245). -/
def execFclass (h : Hd) (f64 : Bool) (d a : GReg) (s : State) : Out :=
  .next (s.issue (.fclass h f64 d a) fun e s =>
    let v := s.me
    s.toReg (.fclass h f64 d a) d e fun l =>
      if f64 then f64F.classOf (v.lane2 a l).toNat else f32F.classOf (v.lane a l).toNat)

end Sys2Proof.Machine
end

