-- ==== Sys2Proof/Machine/Float64.lean ====
section
/-! DEFINITION. f64 arithmetic: DADD to DMINMAX (R137, R235, R237, R247, R248). -/

namespace Sys2Proof.Machine

/-- An f64 source of the executing warp in lane `l`, after negation (R236). -/
def Warp.f64 (v : Warp) (neg : Bool) (r : GReg) (l : Nat) : FP := f64Src neg (v.lane2 r l)
/-- The code of that source. -/
def Warp.f64Code (v : Warp) (neg : Bool) (r : GReg) (l : Nat) : DWord :=
  if neg then v.lane2 r l ^^^ 0x8000000000000000 else v.lane2 r l

/-- DADD (R247, R248). -/
def execDadd (h : Hd) (f : FByte) (d a b : GReg) (s : State) : Out :=
  .next (s.issue (.dadd h f d a b) fun e s =>
    let v := s.me
    s.toReg2Fl (.dadd h f d a b) d e fun l => f64F.add (fctlRne f) (v.f64 f.na a l) (v.f64 f.nb b l))

/-- DMUL (R247, R248). -/
def execDmul (h : Hd) (f : FByte) (d a b : GReg) (s : State) : Out :=
  .next (s.issue (.dmul h f d a b) fun e s =>
    let v := s.me
    s.toReg2Fl (.dmul h f d a b) d e fun l => f64F.mul (fctlRne f) (v.f64 f.na a l) (v.f64 f.nb b l))

/-- DFMA (R247, R248). -/
def execDfma (h : Hd) (f : FByte) (d a b c : GReg) (s : State) : Out :=
  .next (s.issue (.dfma h f d a b c) fun e s =>
    let v := s.me
    s.toReg2Fl (.dfma h f d a b c) d e fun l => f64F.fma (fctlRne f) (v.f64 f.na a l) (v.f64 f.nb b l) (v.f64 f.nc c l))

/-- DDIV (R247, R248). -/
def execDdiv (h : Hd) (f : FByte) (d a b : GReg) (s : State) : Out :=
  .next (s.issue (.ddiv h f d a b) fun e s =>
    let v := s.me
    s.toReg2Fl (.ddiv h f d a b) d e fun l => f64F.div (fctlRne f) (v.f64 f.na a l) (v.f64 f.nb b l))

/-- DSQRT (R247, R248). -/
def execDsqrt (h : Hd) (f : FByte) (d a : GReg) (s : State) : Out :=
  .next (s.issue (.dsqrt h f d a) fun e s =>
    let v := s.me
    s.toReg2Fl (.dsqrt h f d a) d e fun l => f64F.sqrt { fctlRne f with sat := false } (v.f64 f.na a l))

/-- DMINMAX (R137, R247, R248). -/
def execDminmax (h : Hd) (f : FByte) (mx : Bool) (d a b : GReg) (s : State) : Out :=
  .next (s.issue (.dminmax h f mx d a b) fun e s =>
    let v := s.me
    s.toReg2Fl (.dminmax h f mx d a b) d e fun l => f64F.minMax mx (v.f64Code f.na a l).toNat (v.f64Code f.nb b l).toNat (v.f64 f.na a l) (v.f64 f.nb b l))

end Sys2Proof.Machine
end

