-- ==== Sys2Proof/Machine/Integer.lean ====
section
/-! DEFINITION. Integer arithmetic: IADD to ISUBX (R173, R189 to R193). -/

namespace Sys2Proof.Machine

/-- An exact sum or product as the result of an instruction whose SG is "sig", and "s" with SAT (R173, R189). The
operands are read with the signedness that applies, which modulo 2^n makes no difference. -/
def clampRes (m : MByte) (n : Nat) (x : Int) : FRes := clampInt m.sat (sgSigned m.sg) n x

/-- A register in lane `l` as an integer of the signedness of an M-byte (R173). -/
def Warp.int (v : Warp) (m : MByte) (r : GReg) (l : Nat) : Int := intOf (sgSigned m.sg) (v.lane r l)
/-- A pair in lane `l` as an integer. -/
def Warp.int2 (v : Warp) (m : MByte) (r : GReg) (l : Nat) : Int := intOf (sgSigned m.sg) (v.lane2 r l)

/-- IADD (R189). -/
def execIadd (h : Hd) (m : MByte) (d a b : GReg) (s : State) : Out :=
  .next (s.issue (.iadd h m d a b) fun e s =>
    let v := s.me
    s.toRegFl (.iadd h m d a b) d e fun l => clampRes m 32 (v.int m a l + v.int m b l))

/-- IADDI (R189). -/
def execIaddi (h : Hd) (d a : GReg) (imm : BitVec 24) (s : State) : Out :=
  .next (s.issue (.iaddi h d a imm) fun e s =>
    let v := s.me
    s.toReg (.iaddi h d a imm) d e fun l => v.lane a l + imm.signExtend 32)

/-- ISUB (R189). -/
def execIsub (h : Hd) (m : MByte) (d a b : GReg) (s : State) : Out :=
  .next (s.issue (.isub h m d a b) fun e s =>
    let v := s.me
    s.toRegFl (.isub h m d a b) d e fun l => clampRes m 32 (v.int m a l - v.int m b l))

/-- IMUL (R189). -/
def execImul (h : Hd) (m : MByte) (d a b : GReg) (s : State) : Out :=
  .next (s.issue (.imul h m d a b) fun e s =>
    let v := s.me
    s.toRegFl (.imul h m d a b) d e fun l => clampRes m 32 (v.int m a l * v.int m b l))

/-- Bits 63:32 of a product (R135, R189). -/
def mulHigh (x y : Int) : Word := BitVec.ofInt 32 (x * y / 2 ^ 32)

/-- IMULH (R189). -/
def execImulh (h : Hd) (m : MByte) (d a b : GReg) (s : State) : Out :=
  .next (s.issue (.imulh h m d a b) fun e s =>
    let v := s.me
    s.toReg (.imulh h m d a b) d e fun l => mulHigh (v.int m a l) (v.int m b l))

/-- IMAD (R189). -/
def execImad (h : Hd) (m : MByte) (d a b c : GReg) (s : State) : Out :=
  .next (s.issue (.imad h m d a b c) fun e s =>
    let v := s.me
    s.toRegFl (.imad h m d a b c) d e fun l => clampRes m 32 (v.int m a l * v.int m b l + v.int m c l))

/-- IMADW (R191). -/
def execImadw (h : Hd) (m : MByte) (d a b c : GReg) (s : State) : Out :=
  .next (s.issue (.imadw h m d a b c) fun e s =>
    let v := s.me
    s.toReg2Fl (.imadw h m d a b c) d e fun l => clampRes m 64 (v.int m a l * v.int m b l + v.int2 m c l))

/-- The quotient of IDIV in a lane, with its SAT flag (R190). -/
def divRes (m : MByte) (a b : Word) : FRes :=
  if b = 0 then { code := 0xFFFFFFFF, fl := 0 }
  else clampInt m.sat (sgSigned m.sg) 32 ((intOf (sgSigned m.sg) a).tdiv (intOf (sgSigned m.sg) b))

/-- The remainder of IREM in a lane (R190). -/
def remRes (m : MByte) (a b : Word) : Word :=
  if b = 0 then a else BitVec.ofInt 32 ((intOf (sgSigned m.sg) a).tmod (intOf (sgSigned m.sg) b))

/-- IDIV0 is raised for zero divisors under MODE.EIDZ; the lane mask holds their lanes (R190). -/
def State.divides (s : State) (b : GReg) (e : Mask) (k : State → State) : State :=
  let z := maskOf fun l => e.getLsbD l && s.me.lane b l == 0#32
  if z ≠ 0 ∧ bitAt s.me.mode 8 then s.raise .idiv0 z else k s

/-- IDIV (R190). -/
def execIdiv (h : Hd) (m : MByte) (d a b : GReg) (s : State) : Out :=
  .next (s.issue (.idiv h m d a b) fun e s =>
    let v := s.me
    s.divides b e fun s => s.toRegFl (.idiv h m d a b) d e fun l => divRes m (v.lane a l) (v.lane b l))

/-- IREM (R190). -/
def execIrem (h : Hd) (m : MByte) (d a b : GReg) (s : State) : Out :=
  .next (s.issue (.irem h m d a b) fun e s =>
    let v := s.me
    s.divides b e fun s => s.toReg (.irem h m d a b) d e fun l => remRes m (v.lane a l) (v.lane b l))

/-- IMIN (R189). -/
def execImin (h : Hd) (m : MByte) (d a b : GReg) (s : State) : Out :=
  .next (s.issue (.imin h m d a b) fun e s =>
    let v := s.me
    s.toReg (.imin h m d a b) d e fun l => if v.int m a l ≤ v.int m b l then v.lane a l else v.lane b l)

/-- IMAX (R189). -/
def execImax (h : Hd) (m : MByte) (d a b : GReg) (s : State) : Out :=
  .next (s.issue (.imax h m d a b) fun e s =>
    let v := s.me
    s.toReg (.imax h m d a b) d e fun l => if v.int m a l ≤ v.int m b l then v.lane b l else v.lane a l)

/-- IABS (R189). -/
def execIabs (h : Hd) (m : MByte) (d a : GReg) (s : State) : Out :=
  .next (s.issue (.iabs h m d a) fun e s =>
    let v := s.me
    s.toRegFl (.iabs h m d a) d e fun l => clampInt m.sat true 32 ((v.lane a l).toInt.natAbs : Int))

/-- The sum of IADDX and ISUBX: 33 bits (R192). -/
def carrySum (a b : Word) (ci : Bool) : BitVec 33 := a.setWidth 33 + b.setWidth 33 + BitVec.ofNat 33 ci.toNat

/-- A sum with the carry predicate that is read and written (R192). -/
def State.carryAdd (s : State) (i : Instr) (d : GReg) (p : PNum) (e : Mask) (x y : Nat → Word) : State :=
  let v := s.me
  let sum := fun l => carrySum (x l) (y l) (v.pred p |>.val.getLsbD l)
  (s.modMe fun u => (u.setReg d e fun l => (sum l).setWidth 32).setPred p e fun l => (sum l).getLsbD 32).retire i

/-- IADDX (R192). -/
def execIaddx (h : Hd) (d a b : GReg) (p : PNum) (s : State) : Out :=
  .next (s.issue (.iaddx h d a b p) fun e s =>
    let v := s.me
    s.carryAdd (.iaddx h d a b p) d p e (v.lane a) (v.lane b))

/-- IADD64 (R191). -/
def execIadd64 (h : Hd) (m : MByte) (d a b : GReg) (s : State) : Out :=
  .next (s.issue (.iadd64 h m d a b) fun e s =>
    let v := s.me
    s.toReg2Fl (.iadd64 h m d a b) d e fun l => clampRes m 64 (v.int2 m a l + v.int2 m b l))

/-- LEA (R193). -/
def execLea (h : Hd) (sg : Bool) (sh : BitVec 3) (d a b : GReg) (s : State) : Out :=
  .next (s.issue (.lea h sg sh d a b) fun e s =>
    let v := s.me
    let ext := fun l => if sg then (v.lane b l).signExtend 64 else (v.lane b l).setWidth 64
    s.toReg2 (.lea h sg sh d a b) d e fun l => v.lane2 a l + (ext l <<< sh.toNat))

/-- ISUBX (R192). -/
def execIsubx (h : Hd) (d a b : GReg) (p : PNum) (s : State) : Out :=
  .next (s.issue (.isubx h d a b p) fun e s =>
    let v := s.me
    s.carryAdd (.isubx h d a b p) d p e (v.lane a) fun l => ~~~v.lane b l)

end Sys2Proof.Machine
end

