-- ==== Sys2Proof/Machine/Logic.lean ====
section
/-! DEFINITION. Logic, shifts and bit fields: AND to BREV (R194, R195). -/

namespace Sys2Proof.Machine

/-- A second operand, complemented under .not (R194). -/
def inverted (inv : Bool) (x : DWord) : DWord := if inv then ~~~x else x

/-- AND (R194). -/
def execAnd (h : Hd) (m : MByte) (inv : Bool) (d a b : GReg) (s : State) : Out :=
  .next (s.issue (.and h m inv d a b) fun e s =>
    let v := s.me
    s.toRegs m.w64 (.and h m inv d a b) d e fun l => v.wide m.w64 a l &&& inverted inv (v.wide m.w64 b l))

/-- OR (R194). -/
def execOr (h : Hd) (m : MByte) (inv : Bool) (d a b : GReg) (s : State) : Out :=
  .next (s.issue (.or h m inv d a b) fun e s =>
    let v := s.me
    s.toRegs m.w64 (.or h m inv d a b) d e fun l => v.wide m.w64 a l ||| inverted inv (v.wide m.w64 b l))

/-- XOR (R194). -/
def execXor (h : Hd) (m : MByte) (inv : Bool) (d a b : GReg) (s : State) : Out :=
  .next (s.issue (.xor h m inv d a b) fun e s =>
    let v := s.me
    s.toRegs m.w64 (.xor h m inv d a b) d e fun l => v.wide m.w64 a l ^^^ inverted inv (v.wide m.w64 b l))

/-- The operation of LOPI: and, or, xor, andn (R194). -/
def lopi (op : BitVec 2) (x y : Word) : Word :=
  match op.toNat with
  | 0 => x &&& y
  | 1 => x ||| y
  | 2 => x ^^^ y
  | _ => x &&& ~~~y

/-- LOPI (R194). -/
def execLopi (h : Hd) (op : BitVec 2) (d a : GReg) (imm : BitVec 24) (s : State) : Out :=
  .next (s.issue (.lopi h op d a imm) fun e s =>
    let v := s.me
    s.toReg (.lopi h op d a imm) d e fun l => lopi op (v.lane a l) (imm.signExtend 32))

/-- Shifts by any count: 0 or copies of bit 31 for 32 and more; a rotation is by the count modulo 32 (R194). -/
def shiftLeft (x : Word) (n : Nat) : Word := x <<< n
def shiftRight (x : Word) (n : Nat) : Word := x >>> n
def shiftArith (x : Word) (n : Nat) : Word := x.sshiftRight n
def rotate (x : Word) (n : Nat) : Word := x.rotateLeft (n % 32)

/-- The count of a shift: bits 7:0 of B (R194). -/
def Warp.count (v : Warp) (b : GReg) (l : Nat) : Nat := (bitsAt (v.lane b l) 0 8).toNat

/-- LSL (R194). -/
def execLsl (h : Hd) (m : MByte) (d a b : GReg) (s : State) : Out :=
  .next (s.issue (.lsl h m d a b) fun e s =>
    let v := s.me
    s.toReg (.lsl h m d a b) d e fun l => shiftLeft (v.lane a l) (v.count b l))

/-- LSR (R194). -/
def execLsr (h : Hd) (m : MByte) (d a b : GReg) (s : State) : Out :=
  .next (s.issue (.lsr h m d a b) fun e s =>
    let v := s.me
    s.toReg (.lsr h m d a b) d e fun l => shiftRight (v.lane a l) (v.count b l))

/-- ASR (R194). -/
def execAsr (h : Hd) (m : MByte) (d a b : GReg) (s : State) : Out :=
  .next (s.issue (.asr h m d a b) fun e s =>
    let v := s.me
    s.toReg (.asr h m d a b) d e fun l => shiftArith (v.lane a l) (v.count b l))

/-- ROT (R194). -/
def execRot (h : Hd) (m : MByte) (d a b : GReg) (s : State) : Out :=
  .next (s.issue (.rot h m d a b) fun e s =>
    let v := s.me
    s.toReg (.rot h m d a b) d e fun l => rotate (v.lane a l) (v.count b l))

/-- The operation of SHI: lsl, lsr, asr, rot (R194). -/
def shi (op : BitVec 2) (x : Word) (n : Nat) : Word :=
  match op.toNat with
  | 0 => shiftLeft x n
  | 1 => shiftRight x n
  | 2 => shiftArith x n
  | _ => rotate x n

/-- SHI (R194). -/
def execShi (h : Hd) (op : BitVec 2) (d a : GReg) (n : BitVec 5) (s : State) : Out :=
  .next (s.issue (.shi h op d a n) fun e s =>
    let v := s.me
    s.toReg (.shi h op d a n) d e fun l => shi op (v.lane a l) n.toNat)

/-- The position and the length of a bit field, cut at bit 31; none where the field is empty (R195). -/
def fieldOf (b : Word) : Option (Nat × Nat) :=
  let pos := (bitsAt b 0 8).toNat
  let len := (bitsAt b 8 8).toNat
  if len = 0 ∨ 32 ≤ pos then none else some (pos, min len (32 - pos))

/-- The low `k` bits of a word. -/
def lowBits (k : Nat) : Word := (BitVec.allOnes 32) >>> (32 - k)

/-- BFE in a lane (R195). -/
def extractField (signed : Bool) (a b : Word) : Word :=
  match fieldOf b with
  | none => 0
  | some (pos, k) =>
    let x := (a >>> pos) &&& lowBits k
    if signed && x.getLsbD (k - 1) then x ||| ~~~(lowBits k) else x

/-- BFI in a lane (R195). -/
def insertField (a b c : Word) : Word :=
  match fieldOf b with
  | none => c
  | some (pos, k) => (c &&& ~~~(lowBits k <<< pos)) ||| ((a &&& lowBits k) <<< pos)

/-- BFE (R194, R195). -/
def execBfe (h : Hd) (m : MByte) (d a b : GReg) (s : State) : Out :=
  .next (s.issue (.bfe h m d a b) fun e s =>
    let v := s.me
    s.toReg (.bfe h m d a b) d e fun l => extractField (m.sg == 2#2) (v.lane a l) (v.lane b l))

/-- BFI (R194, R195). -/
def execBfi (h : Hd) (m : MByte) (d a b c : GReg) (s : State) : Out :=
  .next (s.issue (.bfi h m d a b c) fun e s =>
    let v := s.me
    s.toReg (.bfi h m d a b c) d e fun l => insertField (v.lane a l) (v.lane b l) (v.lane c l))

/-- The width of an operand that W64 makes a pair. -/
def widthOf (w64 : Bool) : Nat := if w64 then 64 else 32

/-- The 1 bits among the low `n` bits, lowest first. -/
def onesOf (n : Nat) (x : DWord) : List Nat := (List.range n).filter fun i => x.getLsbD i

/-- POPC, CLZ and FFS of the low `n` bits (R194). -/
def popcount (n : Nat) (x : DWord) : Word := BitVec.ofNat 32 (onesOf n x).length
def leadingZeros (n : Nat) (x : DWord) : Word :=
  match (onesOf n x).getLast? with
  | some i => BitVec.ofNat 32 (n - 1 - i)
  | none => BitVec.ofNat 32 n
def lowestOne (n : Nat) (x : DWord) : Word :=
  match onesOf n x with
  | i :: _ => BitVec.ofNat 32 i
  | [] => 0xFFFFFFFF
/-- BREV of the low `n` bits (R194). -/
def bitReverse (n : Nat) (x : DWord) : DWord :=
  (onesOf n x).foldl (fun acc i => acc ||| (1#64 <<< (n - 1 - i))) 0

/-- POPC (R194). -/
def execPopc (h : Hd) (m : MByte) (d a : GReg) (s : State) : Out :=
  .next (s.issue (.popc h m d a) fun e s =>
    let v := s.me
    s.toReg (.popc h m d a) d e fun l => popcount (widthOf m.w64) (v.wide m.w64 a l))

/-- CLZ (R194). -/
def execClz (h : Hd) (m : MByte) (d a : GReg) (s : State) : Out :=
  .next (s.issue (.clz h m d a) fun e s =>
    let v := s.me
    s.toReg (.clz h m d a) d e fun l => leadingZeros (widthOf m.w64) (v.wide m.w64 a l))

/-- FFS (R194). -/
def execFfs (h : Hd) (m : MByte) (d a : GReg) (s : State) : Out :=
  .next (s.issue (.ffs h m d a) fun e s =>
    let v := s.me
    s.toReg (.ffs h m d a) d e fun l => lowestOne (widthOf m.w64) (v.wide m.w64 a l))

/-- BREV (R194). -/
def execBrev (h : Hd) (m : MByte) (d a : GReg) (s : State) : Out :=
  .next (s.issue (.brev h m d a) fun e s =>
    let v := s.me
    s.toRegs m.w64 (.brev h m d a) d e fun l => bitReverse (widthOf m.w64) (v.wide m.w64 a l))

end Sys2Proof.Machine
end

