-- ==== Sys2Proof/Machine/MatrixMath.lean ====
section
/-! DEFINITION. The arithmetic of the matrix array: operand blocks, the order of summation, tiles as rows of elements
(R221, R228 to R230, R266, R268, R273). -/

namespace Sys2Proof.Machine

/-! ## Tiles -/

/-- The elements of a tile from place `i` on changed by `f`, `n` of them, with the flags that `f` raises. -/
def mapElems (f : Nat → TElem → TElem × Byte) : Nat → Nat → List (Nat × TElem) → List (Nat × TElem) × Byte
  | 0, _, l => (l, 0)
  | n + 1, i, l =>
    let (old, rest) := match l with
      | (j, e) :: r => if j = i then (e, r) else (TElem.zero, l)
      | [] => (TElem.zero, [])
    let (e, fl) := f i old
    let (t, g) := mapElems f n (i + 1) rest
    (if e = TElem.zero then t else (i, e) :: t, fl ||| g)

/-- The first `rows` rows of a tile changed by `f` of row, column and old element. -/
def Tile.update (t : Tile) (rows : Nat) (f : Nat → Nat → TElem → TElem × Byte) : Tile × Byte :=
  let c := t.kind.cols
  let (l, fl) := mapElems (fun i e => f (i / c) (i % c) e) (rows * c) 0 t.elems
  ({ t with elems := l }, fl)

/-- The elements of a tile from place `i` on, `n` of them. -/
def denseElems : Nat → Nat → List (Nat × TElem) → List TElem
  | 0, _, _ => []
  | n + 1, i, (j, e) :: r => if j = i then e :: denseElems n (i + 1) r else TElem.zero :: denseElems n (i + 1) ((j, e) :: r)
  | n + 1, i, [] => TElem.zero :: denseElems n (i + 1) []

/-- The bytes of a tile in memory, row by row (R266). -/
def Tile.bytes (t : Tile) : List MarkedByte :=
  (denseElems (t.kind.rows * t.kind.cols) 0 t.elems).flatMap fun e =>
    (bytesOf t.kind.bytes e.bits.toNat).map fun b => (b.1, e.poison)

/-- Consecutive parts of `n` elements, at most `f` of them. -/
def partsOf {α : Type} (n : Nat) : Nat → List α → List (List α)
  | 0, _ => []
  | f + 1, l => l.take n :: partsOf n f (l.drop n)

/-- A tile with its elements read from bytes (R266). -/
def Tile.ofBytes (t : Tile) (bs : List MarkedByte) : Tile :=
  let n := t.kind.rows * t.kind.cols
  let es := (partsOf t.kind.bytes n bs).map fun b =>
    ({ bits := BitVec.ofNat 64 (numOf b), poison := b.any fun x => x.2 } : TElem)
  let l := (List.range n).zip es
  { t with elems := l.filter fun x => x.2 != TElem.zero, suspect := false }

/-! ## Operands -/

/-- A NaN operand counts as quiet: it raises nothing (R229). -/
def FP.quiet : FP → FP
  | .nan _ => .nan false
  | x => x

/-- The value of an element of a format code (R214 to R217, R226). -/
def elemVal (f x : Nat) : FP :=
  match f with
  | 1 => (bf16F.val x).quiet
  | 2 => (f16F.val x).quiet
  | 3 => Narrow.e4m3.val x
  | 4 => Narrow.e5m2.val x
  | 5 => Narrow.e2m1.val x
  | 6 => (f64F.val x).quiet
  | _ => fpOfInt (BitVec.ofNat 8 x).toInt

/-- An operand line: its elements in blocks of 8, whether expanding them raises IV, its band scale, and whether a byte
of it is poisoned. -/
structure MLine where
  blocks : List (List FP)
  iv : Bool
  band : FP
  poison : Bool
  deriving DecidableEq, Repr

/-- One. -/
def fpOne : FP := .fin false 1 0

/-- `n` bytes of a block as a number, with their mark. -/
def fieldAt (f : Nat → MarkedByte) (o n : Nat) : Nat × Bool :=
  let bs := (List.range n).map fun i => f (o + i)
  (numOf bs, bs.any fun b => b.2)

/-- Line `i` of a block of `lines` lines in format `fm`, its bytes given by `f` (R221, R268). -/
def blockLine (x : Slot) (fm lines : Nat) (f : Nat → MarkedByte) (i : Nat) : MLine :=
  let k := slotK x
  let w := fmtBits fm
  let code := fun (j : Nat) =>
    if w = 4 then
      let b := fieldAt f (i * (k / 2) + j / 2) 1
      (if j % 2 = 0 then b.1 % 16 else b.1 / 16, b.2)
    else fieldAt f ((i * k + j) * (w / 8)) (w / 8)
  let elem := fun (j : Nat) =>
    let c := code j
    if slotScaled x then
      let q := fieldAt f (scalesAt x fm lines + i * (k / blkLen x) + j / blkLen x) 1
      (expandVal (elemVal fm c.1) q.1, c.2 || q.2)
    else ((elemVal fm c.1, false), c.2)
  let es := (List.range k).map elem
  let band := if bandLen x = 0 then (fpOne, false)
    else
      let b := fieldAt f (bandsAt x fm lines + 2 * (i / bandLen x)) 2
      ((bf16F.val b.1).quiet, b.2)
  { blocks := partsOf 8 (k / 8) (es.map fun e => e.1.1), iv := es.any fun e => e.1.2, band := band.1,
    poison := band.2 || es.any fun e => e.2 }

/-- The lines of a block whose bytes are given as a list. -/
def blockLines (x : Slot) (fm lines : Nat) (bs : Array MarkedByte) : List MLine :=
  (List.range lines).map (blockLine x fm lines fun o => bs.getD o (0, false))

/-- Row `i` of the x operand of an SMV: `k` bf16 elements without scales (R273). -/
def bf16Line (k : Nat) (bs : Array MarkedByte) (i : Nat) : MLine :=
  let es := (List.range k).map fun j => fieldAt (fun o => bs.getD o (0, false)) (2 * (i * k + j)) 2
  { blocks := partsOf 8 (k / 8) (es.map fun e => elemVal 1 e.1), iv := false, band := fpOne, poison := es.any fun e => e.2 }

/-! ## The order of summation (R228, R229) -/

/-- Round to nearest, ties to even, subnormals kept. -/
def rneCtl : RndCtl := { rnd := .rne, sat := false, ftz := false }

/-- The exact sum of the eight products of a block, with IV. It has no order: infinities of both signs among the products raise IV
also where another product is a NaN, of which R229 does not speak (DEDUCED, log 25). -/
def dotBlock (a b : List FP) : FP × Bool :=
  let ps := (a.zip b).map fun p => exactMul p.1 p.2
  let has := fun (x : FP) => ps.any fun p => p.1 == x
  match ps with
  | [] => (.fin false 0 0, false)
  | x :: xs =>
    (xs.foldl (fun (acc : FP) y => (exactAdd .rne acc y.1).1) x.1,
      ps.any (fun p => p.2) || (has (.inf false) && has (.inf true)))

/-- One block added to an accumulator of format `f`: the scaled sum is rounded once, and the addition once. -/
def addBlock (f : BinFmt) (ba bb : FP) (acc : Nat × Byte) (p : FP × Bool) : Nat × Byte :=
  let (p1, iv1) := exactMul p.1 ba
  let (p2, iv2) := exactMul p1 bb
  let y := withIV (f.deliver rneCtl p2) (p.2 || iv1 || iv2)
  let r := f.add rneCtl (f.val acc.1).quiet (f.val y.code).quiet
  (r.code, acc.2 ||| y.fl ||| r.fl)

/-- The integer that an exact sum of integers is. -/
def intOfFP : FP → Int
  | .fin n m e => scaled n m e 0
  | _ => 0

/-- One output element: the old value plus the products of a line of A and a line of B, with flags (R228, R229).
`o` is OFMT: 0 f32, 6 f64, 8 s32. -/
def mulElem (o : Nat) (a b : MLine) (old : Nat) : Nat × Byte :=
  let ps := (a.blocks.zip b.blocks).map fun p => dotBlock p.1 p.2
  let iv : Byte := if a.iv || b.iv then flIV else 0
  if o = 8 then (ps.foldl (fun acc p => intCode 32 (acc + intOfFP p.1)) old, 0)
  else
    let r := ps.foldl (addBlock (if o = 6 then f64F else f32F) a.band b.band) (old, 0)
    (r.1, r.2 ||| iv)

/-- The flags that enter FPFL: IV, OF, UF and NX (R230). -/
def matxFlags : Byte := flIV ||| flOF ||| flUF ||| flNX

/-- The rows of a tile for which lines of A are given, with A·B added (R228, R230). -/
def Tile.addProduct (t : Tile) (o : Nat) (a b : List MLine) : Tile × Byte :=
  let aa := a.toArray
  let ba := b.toArray
  let none : MLine := { blocks := [], iv := false, band := fpOne, poison := false }
  let r := t.update a.length fun i j e =>
    let x := aa.getD i none
    let y := ba.getD j none
    let q := mulElem o x y e.bits.toNat
    ({ bits := BitVec.ofNat 64 q.1, poison := e.poison || x.poison || y.poison }, q.2)
  (r.1, r.2 &&& matxFlags)

/-! ## Clocks (R270, R275) -/

/-- Clocks for which an MMA under a slot occupies the array; `fenced` says that a sub-array is fenced. -/
def mmaClocks (x : Slot) (fenced : Bool) : Nat :=
  let w := max (fmtBits (slotA x)) (fmtBits (slotB x))
  let c := if slotShape x = 1 then 128 else (if w = 16 then 64 else if w = 8 then 32 else 16) / (if slotShape x = 2 then 4 else 1)
  if fenced then (16 * c + 14) / 15 else c

/-- Clocks for which an SMV streams `n` bytes. -/
def smvClocks (n : Nat) : Nat := (n + 13175) / 13176

end Sys2Proof.Machine
end

