-- ==== Sys2Proof/Machine/Matrix.lean ====
section
/-! DEFINITION. Matrix, pair and stack-side instructions: MMA, MMAP, SMV, ACLR, ALD, AST, ABIND, AFREE, BATON, and the
events that start, stream, test and retire them (R207 to R210, R256 to R279). -/

namespace Sys2Proof.Machine

/-! ## Checks at issue -/

/-- The bound tile of an accumulator when its kind suits, or ACC_SHAPE (R262, R265, R267). -/
def State.withTile (s : State) (e : Mask) (k : AccNum) (ok : TileKind → Bool) (f : Tile → State → State) : State :=
  match s.me.bound k.toNat with
  | some t => if ok t.kind then f t s else s.raise .accShape e (k.setWidth 64)
  | none => s.raise .accShape e (k.setWidth 64)

/-- SUSPECT_TILE for a suspect tile (R262, R266). -/
def State.clean (s : State) (e : Mask) (k : AccNum) (t : Tile) (f : State → State) : State :=
  if t.suspect then s.raise .suspectTile e (k.setWidth 64) else f s

/-- A scratch block of `n` bytes on the warp's own core: a multiple of 128 unless `align` is false, else ALIGN, and
inside the group's scratch, else MEMFAULT, with the block's address (R207, R269, R274). Then `f` with its offset. -/
def State.ownBlock (s : State) (e : Mask) (align : Bool) (a : Word) (n : Nat) (f : Nat → State → State) : State :=
  if align && a.toNat % 128 != 0 then s.raise .align e 0 (a.setWidth 64)
  else match s.scratchRange s.me.group a n with
    | some (pos, off) =>
      if pos ≠ s.me.pos then s.raise .memfault e (faultCode 5 0) (a.setWidth 64)
      else if s.scratchWaits s.me.group pos off n then s.block .access
      else f off s
    | none => s.raise .memfault e (faultCode 5 0) (a.setWidth 64)

/-- The warp holds the core's baton, takes it, or waits for it (R210, R269, R276). -/
def State.withBaton (s : State) (f : State → State) : State :=
  let w := s.cur.warp
  let core := s.me.core
  let c := s.core core
  if c.baton = some w || (c.baton.isNone && c.batonQ.isEmpty) then
    f (s.modCore core fun c => { c with baton := some w, batonQ := c.batonQ.filter (· ≠ w) })
  else
    (s.modCore core fun c => { c with batonQ := if c.batonQ.contains w then c.batonQ else c.batonQ ++ [w] }).block .baton

/-- The virtual ranges of memory that a tile instruction writes. -/
def MatxWork.written : MatxWork → List (Nat × Nat)
  | .ast dst _ => dst.flatten.filterMap Run.range
  | _ => []

/-- A MATX operation enters its class (R259). -/
def State.matxPush (s : State) (k : AccNum) (scope : BitVec 3) (due : Nat) (work : MatxWork) : State :=
  let (id, s) := (s.guardAreas work.written).fresh
  let o : MatxOp := { id := id, k := k.toNat, work := work, started := false, streamed := false, due := due, out := none,
                      flags := 0, scope := scope, sent := none }
  s.modMe fun v => { v with matx := v.matx ++ [o] }

/-! ## MMA and MMAP -/

/-- The tile kind that a slot's SHAPE needs (R262). -/
def shapeKind (x : Slot) : TileKind :=
  match slotShape x with
  | 1 => .t64d
  | 2 => .t64
  | _ => .t128

/-- The checks of MMA and MMAP after FMTSLOT, the baton, and the operation (R269, R272). -/
def State.mmaIssue (s : State) (i : Instr) (e : Mask) (k : AccNum) (a b : GReg) (x : Slot) (pair : Bool) : State :=
  s.withTile e k (fun t => t == if pair then .t128p else shapeKind x) fun t s =>
    s.clean e k t fun s =>
      s.ownBlock e true (s.me.lane a 0) (blockBytes x (slotA x) (slotRows x)) fun oa s =>
      s.ownBlock e true (s.me.lane b 0) (blockBytes x (slotB x) (if pair then 256 else slotRows x)) fun ob s =>
        s.engRoom 2 fun s =>
          s.withBaton fun s => (s.matxPush k 0 0 (.mma pair oa ob x)).retire i

/-- MMA (R269). -/
def execMma (h : Hd) (k : AccNum) (a b : GReg) (slot : BitVec 3) (s : State) : Out :=
  .next (s.issue (.mma h k a b slot) fun e s =>
    let i := Instr.mma h k a b slot
    if e = 0 then s.retire i else s.mmaIssue i e k a b (s.myLaunch.slot slot.toNat) false)

/-- MMAP (R272). -/
def execMmap (h : Hd) (k : AccNum) (a b : GReg) (slot : BitVec 3) (s : State) : Out :=
  .next (s.issue (.mmap h k a b slot) fun e s =>
    let i := Instr.mmap h k a b slot
    if e = 0 then s.retire i else s.mmaIssue i e k a b (s.myLaunch.slot slot.toNat) true)

/-! ## SMV -/

/-- The pages of W: each mapped with STACKL set, all in one stack, else MEMFAULT with the first byte that fails
(R274). Then `f` with the runs and the stack. -/
def State.stackRange (s : State) (e : Mask) (f : List Run → Nat → State → State) :
    List (Nat × Nat) → List Run → Nat → State
  | [], acc, stack => f acc stack s
  | p :: ps, acc, stack =>
    let va := p.1 % 2 ^ 64
    match s.translate (some s.me.core) (s.rootOf s.cur.warp) (s.regionOf s.cur.warp) va true false with
    | (.fault x, s) => s.raise .memfault e x (BitVec.ofNat 64 va)
    | (.ok pa t, s) =>
      let mine := pa / stackBytes
      if !pteStackl t.pte || hbmTop ≤ pa || (!acc.isEmpty && mine != stack) then
        s.raise .memfault e (faultCode 13 0) (BitVec.ofNat 64 va)
      else
        let r : Run := { place := .phys pa, len := p.2, va := va, acc := false, pte := none, through := true }
        s.stackRange e f ps (acc ++ [r]) mine

/-- SMV (R273 to R275). -/
def execSmv (h : Hd) (k : AccNum) (a b c : GReg) (slot : BitVec 3) (s : State) : Out :=
  .next (s.issue (.smv h k a b c slot) fun e s =>
    let i := Instr.smv h k a b c slot
    let x := s.myLaunch.slot slot.toNat
    let g := s.me.lane c 0
    let r := (bitsAt g 0 4).toNat
    let panels := (bitsAt g 16 7).toNat
    let xa := s.me.lane a 0
    let wa := s.me.lane2 b 0
    if e = 0 then s.retire i
    else s.withTile e k (fun t => t == .t128) fun t s =>
      s.clean e k t fun s =>
        if r = 0 || 8 < r || panels = 0 || 64 < panels || g &&& 0xFF80FFF0 != 0#32 then
          s.raise .accShape e (g.setWidth 64)
        else if xa.toNat % 128 ≠ 0 then s.raise .align e 0 (xa.setWidth 64)
        else if wa.toNat % 128 ≠ 0 then s.raise .align e 0 wa
        else s.ownBlock e false xa (128 * panels * r) fun ox s =>
          s.stackRange e (fun runs stack s =>
            s.engRoom 2 fun s => (s.matxPush k 0 (s.clock + 350) (.smv ox runs r panels x stack)).retire i)
            (rangeParts wa.toNat (panels * blockBytes x (slotB x) 128)) [] 0)

/-! ## ACLR, ALD, AST -/

/-- ACLR (R265). -/
def execAclr (h : Hd) (k : AccNum) (s : State) : Out :=
  .next (s.issue (.aclr h k) fun e s =>
    let i := Instr.aclr h k
    if e = 0 then s.retire i
    else s.withTile e k (fun _ => true) fun _ s =>
      s.engRoom 2 fun s => (s.matxPush k 0 0 .aclr).retire i)

/-- The rows of a tile in memory, `n` bytes from each address, checked in turn (R267). -/
def State.tileRows (s : State) (e : Mask) (glob : Bool) (n : Nat) (rd wr : Bool) (k : List (List Run) → State → State) :
    List Nat → List (List Run) → State
  | [], acc => k acc s
  | a :: as_, acc =>
    if glob then s.transRange e (a % 2 ^ 64) n rd wr fun runs s => s.tileRows e glob n rd wr k as_ (acc ++ [runs])
    else if a / 2 ^ 20 ≠ s.me.pos then s.raise .memfault e (faultCode 5 0) (BitVec.ofNat 64 a)
    else s.scrRange e (BitVec.ofNat 32 a) n fun runs s => s.tileRows e glob n rd wr k as_ (acc ++ [runs])

/-- The checks of ALD and AST after ACC_SHAPE, and then `f` with the rows (R266, R267). -/
def State.tilePlace (s : State) (e : Mask) (t : Tile) (glob : Bool) (a b : GReg) (wr : Bool)
    (f : List (List Run) → State → State) : State :=
  let base := if glob then s.me.lane2 a 0 else (s.me.lane a 0).setWidth 64
  let pitch := (s.me.lane b 0).toNat
  if base.toNat % 128 ≠ 0 || pitch % 128 ≠ 0 || pitch < t.kind.rowBytes then s.raise .align e 0 base
  else s.tileRows e glob t.kind.rowBytes (!wr) wr
    (fun rows s => if glob then s.globConds e base false (if wr then [] else rows.flatten) (if wr then rows.flatten else []) (f rows)
      else f rows s)
    ((List.range t.kind.rows).map fun r => base.toNat + r * pitch) []

/-- ALD (R266, R267). -/
def execAld (h : Hd) (k : AccNum) (glob : Bool) (scope : BitVec 3) (a b : GReg) (s : State) : Out :=
  .next (s.issue (.ald h k glob scope a b) fun e s =>
    let i := Instr.ald h k glob scope a b
    if e = 0 then s.retire i
    else s.withTile e k (fun _ => true) fun t s =>
      s.tilePlace e t glob a b false fun rows s =>
        s.engRoom 2 fun s => (s.matxPush k (if glob then scope else 0) 0 (.ald rows glob)).retire i)

/-- AST (R266, R267, R327). -/
def execAst (h : Hd) (k : AccNum) (glob : Bool) (scope : BitVec 3) (a b : GReg) (s : State) : Out :=
  .next (s.issue (.ast h k glob scope a b) fun e s =>
    let i := Instr.ast h k glob scope a b
    if e = 0 then s.retire i
    else s.withTile e k (fun _ => true) fun t s =>
      s.tilePlace e t glob a b true fun rows s =>
        s.clean e k t fun s =>
          s.engRoom 2 fun s => (s.matxPush k (if glob then scope else 0) 0 (.ast rows glob)).retire i)

/-! ## ABIND and AFREE -/

/-- Whether a tile instruction on an accumulator that is not counted may start (R150, R258). -/
def Warp.accIdle (v : Warp) (k : Nat) : Bool :=
  (v.strand k).segs.isEmpty && (v.strand k).tilePuts.isEmpty && v.matx.all fun o => o.k != k

/-- Whether the group has the granules of a kind free on a warp's core, and for a pair on the follower (R263). -/
def State.granulesFree (s : State) (w : Nat) (t : TileKind) : Bool :=
  let v := s.warp w
  let g := s.group v.group
  let l := s.launch g.launch
  g.granAt v.pos + t.granules ≤ l.gran && (t != .t128p || (l.pair && g.granAt (v.pos + 1) + t.granules ≤ l.gran))

/-- A tile of a kind is bound to an accumulator of a warp (R263). -/
def State.bindTile (s : State) (w k : Nat) (t : TileKind) : State := s.modStrand w k fun st => { st with tile := some (Tile.clear t) }
/-- ABIND (R150, R259, R263). It takes its granules at issue, and binds its tile at once or when R258 lets it start. Too few
granules trap; while an AFREE of the same accumulator waits to return some, ABIND waits for it (DEDUCED, log 50). -/
def execAbind (h : Hd) (k : AccNum) (kind : BitVec 2) (s : State) : Out :=
  .next (s.issue (.abind h k kind) fun e s =>
    let i := Instr.abind h k kind
    let t := tileKind kind
    if e = 0 then s.retire i
    else if (s.me.bound k.toNat).isSome then s.raise .accShape e (k.setWidth 64)
    else if !s.granulesFree s.cur.warp t then
      if s.me.matx.any fun o => o.k == k.toNat && o.work == .free then s.block .segments else s.raise .accShape e (k.setWidth 64)
    else
      let s := s.modGroup s.me.group fun g =>
        let g := g.useGran s.me.pos t.granules
        if t = .t128p then g.useGran (s.me.pos + 1) t.granules else g
      (if s.me.accIdle k.toNat then s.bindTile s.cur.warp k.toNat t else s.matxPush k 0 0 (.bind t)).retire i)

/-- The granules of a tile of a warp go back to its group (R264). -/
def State.giveGranules (s : State) (w : Nat) (t : TileKind) : State :=
  let pos := (s.warp w).pos
  s.modGroup (s.warp w).group fun g =>
    let g := g.returnGran pos t.granules
    if t = .t128p then g.returnGran (pos + 1) t.granules else g

/-- An accumulator of a warp gives its tile back (R264). -/
def State.freeTile (s : State) (w k : Nat) : State :=
  match ((s.warp w).strand k).tile with
  | none => s
  | some t => (s.giveGranules w t.kind).modStrand w k fun st => { st with tile := none }
/-- AFREE (R150, R259, R264): it gives the tile back at once, or when R258 lets it start. -/
def execAfree (h : Hd) (k : AccNum) (s : State) : Out :=
  .next (s.issue (.afree h k) fun e s =>
    let i := Instr.afree h k
    if e = 0 then s.retire i
    else if (s.me.bound k.toNat).isNone then s.retire i
    else (if s.me.accIdle k.toNat then s.freeTile s.cur.warp k.toNat else s.matxPush k 0 0 .free).retire i)

/-! ## BATON (R210, R276) -/

/-- BATON.take. -/
def execBatonTake (h : Hd) (s : State) : Out :=
  .next (s.issue (.batonTake h) fun e s =>
    if e = 0 then s.retire (.batonTake h) else s.withBaton fun s => s.retire (.batonTake h))

/-- The warp of the executing warp's group with a local index on its core, unless it has exited. -/
def State.localWarp (s : State) (i : Nat) : Option Nat :=
  s.myGroup.warps.find? fun w =>
    let v := s.warp w
    v.core == s.me.core && v.loc == i && !v.exited

/-- The holder gives the baton to a warp, or frees it, and a self-test becomes due (R276, R277). -/
def State.passBaton (s : State) (next : Option Nat) : State :=
  s.modCore s.me.core fun c =>
    let c := match next with
      | some w => { c with baton := some w, batonQ := c.batonQ.filter (· ≠ w) }
      | none => c.freeBaton
    { c with array := { c.array with testDue := true } }

/-- Whether the executing warp holds the baton of its core. -/
def State.holdsBaton (s : State) : Bool := (s.core s.me.core).baton == some s.cur.warp

/-- BATON.pass. -/
def execBatonPass (h : Hd) (a : GReg) (s : State) : Out :=
  .next (s.issue (.batonPass h a) fun e s =>
    let i := Instr.batonPass h a
    if e = 0 || !s.holdsBaton then s.retire i
    else (s.passBaton (s.localWarp (bitsAt (s.me.lane a 0) 0 6).toNat)).retire i)

/-- The first warp of the ring after the holder that can take the baton (R276). -/
def State.ringNext (s : State) : Option Nat :=
  let ring : BitVec 64 := nth 0 s.myGroup.rings s.me.pos
  (List.range 63).findSome? fun j =>
    let i := (s.me.loc + 1 + j) % 64
    if bitAt ring i then s.localWarp i else none

/-- BATON.pass.ring. -/
def execBatonPassRing (h : Hd) (s : State) : Out :=
  .next (s.issue (.batonPassRing h) fun e s =>
    let i := Instr.batonPassRing h
    if e = 0 || !s.holdsBaton then s.retire i else (s.passBaton s.ringNext).retire i)

/-- BATON.ring. -/
def execBatonRing (h : Hd) (a : GReg) (s : State) : Out :=
  .next (s.issue (.batonRing h a) fun e s =>
    let i := Instr.batonRing h a
    if e = 0 then s.retire i
    else (s.modGroup s.me.group fun g =>
      { g with rings := (g.rings ++ List.replicate (s.me.pos + 1 - g.rings.length) 0).set s.me.pos (s.me.lane2 a 0) }).retire i)

/-! ## The operations (R258 to R260, R265 to R275) -/

/-- An outstanding MATX operation of a warp changed. -/
def State.modMatx (s : State) (w id : Nat) (f : MatxOp → MatxOp) : State :=
  s.modWarp w fun v => { v with matx := v.matx.map fun o => if o.id = id then f o else o }

/-- Whether an operation uses the array. -/
def MatxOp.isMma (o : MatxOp) : Bool :=
  match o.work with
  | .mma .. => true
  | _ => false

/-- The tile that an operation reads when it may start: the bound tile with every element that has been written to it, or
the one that the array forwards from the MMA before it (R125, R258). -/
def Warp.startTile (v : Warp) (o : MatxOp) : Option Tile :=
  let before := v.matx.filter fun p => p.k == o.k && p.id < o.id
  if !(v.strand o.k).tilePuts.isEmpty || (v.strand o.k).segs.any fun g => g.seq < o.id then none
  else match before.getLast? with
    | none => (v.strand o.k).tile
    | some p => if o.isMma && p.isMma && p.started then p.out else none

/-- Whether a core's array can start an operation (R270, R277). -/
def CoreSt.arrayFree (c : CoreSt) (clock : Nat) : Bool := c.array.busy ≤ clock && !c.array.testDue

/-- Whether an MMAP of the pair that a core leads runs on both arrays (R272). -/
def State.pairWorks (s : State) (core : Nat) : Bool :=
  !(s.core core).array.excluded && !(s.core (core + 1)).array.excluded

/-- The array of a core is occupied until a clock; `counts` says that the operation counts towards the self-test
(R269, R277). -/
def CoreSt.occupy (c : CoreSt) (till : Nat) (counts : Bool) : CoreSt :=
  let n := if counts then c.array.count + 1 else c.array.count
  { c with array := { c.array with busy := till, count := n, testDue := counts && c.stcfg.toNat ≤ n } }

/-- An MMA or MMAP starts (R228, R269, R270, R272). -/
def State.startMma (s : State) (w : Nat) (o : MatxOp) (t : Tile) (pair : Bool) (a b : Nat) (x : Slot) : State :=
  let v := s.warp w
  let g := s.group v.group
  let both := pair && s.pairWorks v.core
  if s.astMeets w o.id (o.pending v.pos) then s
  else if !((s.core v.core).arrayFree s.clock && (!both || (s.core (v.core + 1)).arrayFree s.clock)) then s
  else
    let cols := if pair then 256 else slotRows x
    let la := blockLines x (slotA x) (slotRows x) (g.peekN v.pos a (blockBytes x (slotA x) (slotRows x))).toArray
    let lb := blockLines x (slotB x) cols (g.peekN v.pos b (blockBytes x (slotB x) cols)).toArray
    let (u, fl) := t.addProduct (slotO x) la lb
    let c := mmaClocks x !(s.core v.core).array.fenced.isEmpty
    let till := s.clock + (if pair && !both then 2 * c else c)
    let s := s.modMatx w o.id fun o => { o with started := true, due := till + 20, out := some { u with untested := true }, flags := fl }
    let s := s.modCore v.core fun k => k.occupy till true
    if both then s.modCore (v.core + 1) fun k => k.occupy till false else s

/-- An SMV enters the queue of its stack in the order in which their operands arrive there (R275). -/
def State.insertSmv (s : State) (q : Nat × Nat × Nat) (due : Nat) : List (Nat × Nat × Nat) → List (Nat × Nat × Nat)
  | [] => [q]
  | x :: l =>
    if x.1 = q.1 ∧ (s.warp x.2.1).matx.any (fun o => o.id == x.2.2 && due < o.due) then q :: x :: l else x :: s.insertSmv q due l

/-- A MATX operation starts on its tile. -/
def State.startMatx (s : State) (w : Nat) (o : MatxOp) (t : Tile) : State :=
  match o.work with
  | .aclr =>
    s.modMatx w o.id fun o =>
      { o with started := true, due := s.clock + 16, out := some { Tile.clear t.kind with untested := t.untested } }
  | .ald src _ =>
    s.bulk w o.id o.scope src.flatten [] fun s =>
      let u := t.ofBytes (s.readGroup w src.flatten)
      s.modMatx w o.id fun o => { o with started := true, due := s.clock, out := some u }
  | .ast _ _ => s.modMatx w o.id fun o => { o with started := true, due := s.clock }
  | .mma pair a b x => s.startMma w o t pair a b x
  | .smv _ _ _ _ _ stack =>
    { s.modMatx w o.id fun o => { o with started := true } with smvQ := s.insertSmv (stack, w, o.id) o.due s.smvQ }
  | .bind _ | .free => s

/-- Whether an ABIND or an AFREE may start (R150, R258). -/
def Warp.mayBind (v : Warp) (o : MatxOp) : Bool :=
  (v.strand o.k).tilePuts.isEmpty && ((v.strand o.k).segs.all fun g => o.id ≤ g.seq) && v.matx.all fun p => p.k != o.k || o.id ≤ p.id
/-- The state without a tile instruction of a warp. -/
def State.dropMatx (s : State) (w id : Nat) : State := s.modWarp w fun v => { v with matx := v.matx.filter fun p => p.id != id }

/-- MATX_START: operation `id` of warp `w` starts when R258 allows. -/
def execMatxStart (w id : Nat) (s : State) : Out :=
  .next (match (s.warp w).matx.find? fun o => o.id == id && !o.started with
    | none => s
    | some o => match o.work with
      | .bind kind => if (s.warp w).mayBind o then ((s.bindTile w o.k kind).dropMatx w id).settleKill w else s
      | .free => if (s.warp w).mayBind o then ((s.freeTile w o.k).dropMatx w id).settleKill w else s
      | _ => match (s.warp w).startTile o with
        | none => s
        | some t => s.startMatx w o t)

/-- SMV_STREAM_START: the SMV is the first of its stack, x has arrived, the stack is free, and no AST of the warp has still to
write what it reads (R260, R275). -/
def execSmvStreamStart (w id : Nat) (s : State) : Out :=
  .next (match (s.warp w).matx.find? fun o => o.id == id && o.started && !o.streamed with
    | none => s
    | some o => match o.work, (s.warp w).startTile o with
      | .smv x runs r panels slot stack, some t =>
        let first := (s.smvQ.find? fun q => q.1 == stack && (s.warp q.2.1).matx.any fun p => p.id == q.2.2) == some (stack, w, id)
        if !first || s.clock < o.due || s.clock < nth 0 s.stackFree stack || s.astMeets w id (o.pending (s.warp w).pos) then s
        else s.bulk w id o.scope runs [] fun s =>
          let v := s.warp w
          let n := blockBytes slot (slotB slot) 128
          let bs := (s.readGroup w runs).toArray
          let xs := ((s.group v.group).peekN v.pos x (128 * panels * r)).toArray
          let rows := (List.range r).map (bf16Line (64 * panels) xs)
          let (u, fl) := (List.range panels).foldl (fun (acc : Tile × Byte) p =>
            let la := rows.map fun m => { m with blocks := (m.blocks.drop (8 * p)).take 8 }
            let lb := blockLines slot (slotB slot) 128 (bs.extract (n * p) (n * (p + 1)))
            let q := acc.1.addProduct 0 la lb
            (q.1, acc.2 ||| q.2)) (t, 0)
          let till := s.clock + smvClocks (n * panels)
          let s := s.modMatx w id fun o => { o with streamed := true, due := till + 350, out := some u, flags := fl }
          { s with smvQ := s.smvQ.filter (· ≠ (stack, w, id)), stackFree := s.stackFree.set stack till }
      | _, _ => s)

/-- Whether an operation has finished its work (R259). -/
def MatxOp.finished (o : MatxOp) (clock : Nat) : Bool :=
  o.started && o.due ≤ clock && (match o.work with
    | .smv .. => o.streamed
    | _ => true)

/-- The oldest MATX operation of a warp leaves its class, with the tile that it writes and its flags (R230, R259). -/
def Warp.retireMatx (v : Warp) (o : MatxOp) (clock : Nat) : Warp :=
  let v := { v with matx := v.matx.filter fun p => p.id != o.id }
  let v := match o.out with
    | some t => v.modStrand o.k fun st => { st with tile := some t }
    | none => v
  v.addFlags o.flags clock
/-- The state in which an operation of a warp has retired. -/
def State.endMatx (s : State) (w : Nat) (o : MatxOp) : State := (s.modWarp w fun v => v.retireMatx o s.clock).settleKill w

/-- MATX_RETIRE: the oldest MATX operation of the warp named in `State.cur` retires, an AST once what it writes is performed at
its scope (R259, R260, R266, R269, R275). -/
def execMatxRetire (s : State) : Out :=
  let w := s.cur.warp
  .next (match s.me.matx.find? MatxOp.counted with
    | none => s
    | some o =>
      if !o.finished s.clock then s
      else match o.work, (s.me.strand o.k).tile, o.sent with
        | .ast dst _, some t, none =>
          s.bulk w o.id o.scope [] dst.flatten fun s =>
            let n := s.nextId
            let s := s.writeGroup w o.scope dst.flatten t.bytes
            if s.allDone (s.newWrites n) o.scope then s.endMatx w o
            else s.modMatx w o.id fun p => { p with sent := some (s.newWrites n) }
        | .ast _ _, _, some ids => if s.allDone ids o.scope then s.endMatx w o else s
        | _, _, _ => s.endMatx w o)

/-! ## The self-test (R277, R278) -/

/-- The tiles on a core that an array operation wrote since the last passing test, among them those of operations
still under way, become suspect, or are cleared of that doubt. -/
def Tile.tested (t : Tile) (pass : Bool) : Tile :=
  if t.untested then { t with suspect := t.suspect || !pass, untested := !pass } else t
/-- The same of every tile of a warp. -/
def Warp.tested (v : Warp) (pass : Bool) : Warp :=
  { v with
    strands := Accs.tab fun k => let st := v.strand k; { st with tile := st.tile.map fun t => t.tested pass }
    matx := v.matx.map fun o => { o with out := o.out.map fun t => t.tested pass } }

/-- A sub-array that failed its test is fenced, and the core is excluded from pairing (R277). -/
def CoreSt.fence (c : CoreSt) (bad : Option Nat) : CoreSt :=
  match bad with
  | none => c
  | some n => { c with array := { c.array with fenced := (n % 16 :: c.array.fenced).eraseDups, excluded := true } }

/-- SELF_TEST of a core, with the sub-array that fails, if any, on it and on the follower of its pair (R277, R278). -/
def execSelfTest (core : Nat) (bad badFollower : Option Nat) (s : State) : Out :=
  let c := s.core core
  let pair := (s.core (core + 1)).followerOf == some core
  let badF := if pair then badFollower else none
  .next (if !c.array.testDue || s.clock < c.array.busy || (pair && s.clock < (s.core (core + 1)).array.busy) then s
    else
      let pass := bad.isNone && badF.isNone
      let tested := fun (k : CoreSt) => { k with array := { k.array with busy := s.clock + 4, count := 0, testDue := false } }
      let s := s.modCore core fun k => (tested k).fence bad
      let s := if pair then s.modCore (core + 1) fun k => (tested k).fence badF else s
      let logged := (bad.toList.map fun n => 16 * core + n % 16) ++ badF.toList.map fun n => 16 * (core + 1) + n % 16
      { s with
        mgmtLog := s.mgmtLog ++ logged
        cores := s.cores.mapIdx fun i k =>
          if !k.array.fenced.isEmpty && s.sparesLeft (dieOf i) && (i = core || (pair && i = core + 1)) then { k with failing := true } else k
        warps := s.warps.map fun v =>
          if v.core = core && (s.group v.group).resident then v.tested pass else v })

end Sys2Proof.Machine
end

