-- ==== Sys2Proof/Machine/Packed.lean ====
section
/-! DEFINITION. Packed half-precision arithmetic: PKFMA, PKADD, PKMUL (R237, R249). -/

namespace Sys2Proof.Machine

/-- The format of packed elements: bf16 or f16 (R249). -/
def packedFmt (bf : Bool) : BinFmt := if bf then bf16F else f16F

/-- Element `i` of a packed source, after negation (R249). -/
def packedElem (bf neg : Bool) (w : Word) (i : Nat) : FP :=
  let x := bitsAt w (16 * i) 16
  (packedFmt bf).val (if neg then x ^^^ 0x8000 else x).toNat

/-- The two elements of a result in one word, with the flags of both (R249). -/
def packTwo (f : Nat → FRes) : FRes :=
  { code := (f 0).code + 65536 * (f 1).code, fl := (f 0).fl ||| (f 1).fl }

/-- PKFMA (R249). -/
def execPkfma (h : Hd) (f : FByte) (bf : Bool) (d a b c : GReg) (s : State) : Out :=
  .next (s.issue (.pkfma h f bf d a b c) fun e s =>
    let v := s.me
    s.toRegFl (.pkfma h f bf d a b c) d e fun l => packTwo fun i =>
      (packedFmt bf).fma (fctlRne f) (packedElem bf f.na (v.lane a l) i) (packedElem bf f.nb (v.lane b l) i)
        (packedElem bf f.nc (v.lane c l) i))

/-- PKADD (R249). -/
def execPkadd (h : Hd) (f : FByte) (bf : Bool) (d a b : GReg) (s : State) : Out :=
  .next (s.issue (.pkadd h f bf d a b) fun e s =>
    let v := s.me
    s.toRegFl (.pkadd h f bf d a b) d e fun l => packTwo fun i =>
      (packedFmt bf).add (fctlRne f) (packedElem bf f.na (v.lane a l) i) (packedElem bf f.nb (v.lane b l) i))

/-- PKMUL (R249). -/
def execPkmul (h : Hd) (f : FByte) (bf : Bool) (d a b : GReg) (s : State) : Out :=
  .next (s.issue (.pkmul h f bf d a b) fun e s =>
    let v := s.me
    s.toRegFl (.pkmul h f bf d a b) d e fun l => packTwo fun i =>
      (packedFmt bf).mul (fctlRne f) (packedElem bf f.na (v.lane a l) i) (packedElem bf f.nb (v.lane b l) i))

end Sys2Proof.Machine
end

