-- ==== Sys2Proof/Machine/Predicate.lean ====
section
/-! DEFINITION. Compares and predicates: ICMP, ICMPI, FCMP, DCMP, PLOP, P2G, G2P, SEL
(R143, R185 to R188, R236, R246). -/

namespace Sys2Proof.Machine

/-- An operand of an integer compare, signed or natural, of 32 or 64 bits (R185). -/
def Warp.intArg (v : Warp) (wide signed : Bool) (r : GReg) (l : Nat) : Int :=
  if wide then intOf signed (v.lane2 r l) else intOf signed (v.lane r l)

/-- ICMP (R185). -/
def execIcmp (h : Hd) (m : MByte) (cond : BitVec 3) (d : PNum) (a b : GReg) (s : State) : Out :=
  .next (s.issue (.icmp h m cond d a b) fun e s =>
    let arg := s.me.intArg m.w64 (sgSigned m.sg)
    s.toPred (.icmp h m cond d a b) d e fun l => intCompare cond (arg a l) (arg b l))

/-- IMM24 as the second operand of ICMPI: zero-extended under .n, else sign-extended (R185). -/
def icmpImm (sg : BitVec 2) (imm : BitVec 24) : Int := if sg = 1 then imm.toNat else imm.toInt

/-- ICMPI (R185). -/
def execIcmpi (h : Hd) (cond : BitVec 3) (sg : BitVec 2) (d : PNum) (a : GReg) (imm : BitVec 24) (s : State) : Out :=
  .next (s.issue (.icmpi h cond sg d a imm) fun e s =>
    let v := s.me
    s.toPred (.icmpi h cond sg d a imm) d e fun l => intCompare cond (intOf (sgSigned sg) (v.lane a l)) (icmpImm sg imm))

/-- FCMP (R143, R246). -/
def execFcmp (h : Hd) (f : FByte) (cond : BitVec 3) (d : PNum) (a b : GReg) (s : State) : Out :=
  .next (s.issue (.fcmp h f cond d a b) fun e s =>
    let v := s.me
    let ftz := modeFtz v.mode || f.fz
    s.toPredFl (.fcmp h f cond d a b) d e fun l =>
      fpCompare cond (f32Src f.na ftz (v.lane a l)) (f32Src f.nb ftz (v.lane b l)))

/-- DCMP (R246, R248). -/
def execDcmp (h : Hd) (f : FByte) (cond : BitVec 3) (d : PNum) (a b : GReg) (s : State) : Out :=
  .next (s.issue (.dcmp h f cond d a b) fun e s =>
    let v := s.me
    s.toPredFl (.dcmp h f cond d a b) d e fun l => fpCompare cond (f64Src f.na (v.lane2 a l)) (f64Src f.nb (v.lane2 b l)))

/-- Lane `l` of a predicate. -/
def Warp.predLane (v : Warp) (p : PNum) (l : Nat) : Bool := (v.pred p).val.getLsbD l
/-- Lane `l` of a predicate source with its negation. -/
def Warp.psrc (v : Warp) (p : PSrc) (l : Nat) : Bool := (v.predLane p.p l) != p.neg

/-- PLOP (R186). -/
def execPlop (h : Hd) (d : PNum) (a : PSrc) (b c : PNum) (lut : Byte) (s : State) : Out :=
  .next (s.issue (.plop h d a b c lut) fun e s =>
    let v := s.me
    s.toPred (.plop h d a b c lut) d e fun l =>
      lut.getLsbD (4 * (v.psrc a l).toNat + 2 * (v.predLane b l).toNat + (v.predLane c l).toNat))

/-- Bits 11:0 of a lane word from the predicates of that lane (R187). -/
def Warp.predBits (v : Warp) (l : Nat) : Word :=
  (List.range 12).foldl (fun acc i => if (v.predAt i).val.getLsbD l then acc ||| (1#32 <<< i) else acc) 0

/-- P2G (R187). -/
def execP2g (h : Hd) (d : GReg) (s : State) : Out :=
  .next (s.issue (.p2g h d) fun e s =>
    let v := s.me
    s.toReg (.p2g h d) d e fun l => v.predBits l)

/-- G2P (R187). -/
def execG2p (h : Hd) (a : GReg) (mask : BitVec 12) (s : State) : Out :=
  .next (s.issue (.g2p h a mask) fun e s =>
    let v := s.me
    let put := fun (u : Warp) (i : Nat) =>
      if mask.getLsbD i then u.setPred (BitVec.ofNat 4 i) e fun l => (v.lane a l).getLsbD i else u
    (s.modMe fun u => (List.range 12).foldl put u).retire (.g2p h a mask))

/-- SEL (R188). -/
def execSel (h : Hd) (m : MByte) (d a b : GReg) (p : PSrc) (s : State) : Out :=
  .next (s.issue (.sel h m d a b p) fun e s =>
    let v := s.me
    s.toRegs m.w64 (.sel h m d a b p) d e fun l => if v.psrc p l then v.wide m.w64 a l else v.wide m.w64 b l)

end Sys2Proof.Machine
end

