-- ==== Sys2Proof/Machine/StrandCtl.lean ====
section
/-! DEFINITION. Segment control: STRAND, WAITS, SQUASH, and the start of a queued segment
(R31 to R34, R45 to R49, R79, R80, R116 to R122). -/

namespace Sys2Proof.Machine

/-! ## STRAND -/

/-- The header of a segment: the two code words at its base; none past the loaded length (R79). -/
def State.headerAt (s : State) (base : Word) : Option (BitVec 128) :=
  match s.code s.cur.warp base, s.code s.cur.warp (base + 8) with
  | some lo, some hi => some (hi ++ lo)
  | _, _ => none

/-- The valid inputs and outputs of a header. -/
def validIn (h : BitVec 128) : List GReg := (List.range 8).filterMap fun i => if segInv h i then some (segIn h i) else none
def validOut (h : BitVec 128) : List GReg := (List.range 4).filterMap fun i => if segOutv h i then some (segOut h i) else none

/-- Whether the header and the base pass the checks of a STRAND (R33, R80). -/
def State.headerOk (s : State) (k : Nat) (base : Word) (h : BitVec 128) : Bool :=
  let v := s.me
  let ins := validIn h
  let outs := validOut h
  let last := offOf base + 16 + 2 * segLen h
  let len := match s.overlay s.cur.warp (ovlOf base) with
    | some o => 8 * o.code.length
    | none => 0
  base.toNat % 8 == 0 && segKind h ≤ 2 && !segRsv h && segLen h != 0 &&
    (ins ++ outs).all (fun r => r.toNat < v.regs.length) && outs.eraseDups.length == outs.length &&
    outs.all (fun r => !ins.contains r) && (segKind h != 2 || (v.bound k).isSome) && last ≤ len

/-- The windows of a new segment: each valid input that is full is copied, an empty one stays pending (R31). -/
def Warp.windows (v : Warp) (h : BitVec 128) : List Window :=
  (List.range 8).map fun i =>
    let r := segIn h i
    let g := v.reg r.toNat
    if segInv h i && !g.full then { src := r, ready := false, val := Lanes.all 0, poison := 0 }
    else { src := r, ready := true, val := g.val, poison := g.poison }

/-- A segment enters the queue of aK: outputs are marked empty and full inputs captured (R31, R118). -/
def Warp.launchSeg (v : Warp) (k : Nat) (base : Word) (h : BitVec 128) (e : Mask) (clock seq : Nat) : Warp :=
  let u := (validOut h).foldl (fun u r => u.empty r.toNat) v
  u.modStrand k fun st =>
    { st with
      segs := st.segs ++ [{ base := base, hdr := h, mask := e, win := u.windows h, puts := 0, started := false,
                            fresh := true, pc := base + 16, at_ := clock, seq := seq }]
      age := if st.segs.isEmpty then clock else st.age }

/-- STRAND (R116 to R118). It waits for a place in the queue, and as for any destination for an empty output (R41, R117). -/
def execStrand (h : Hd) (k : AccNum) (ovl : Byte) (off : BitVec 16) (s : State) : Out :=
  .next (s.issue (.strand h k ovl off) fun e s =>
    let i := Instr.strand h k ovl off
    let base := codeAddr ovl off
    if e = 0 then s.retire i
    else if (s.overlay s.cur.warp ovl.toNat).isNone then s.raise .ovmiss e (ovl.setWidth 64)
    else match s.headerAt base with
      | none => s.raise .segment e
      | some x =>
        if !s.headerOk k.toNat base x then s.raise .segment e
        else if 2 ≤ (s.me.strand k.toNat).segs.length then s.block .segments
        else match (validOut x).find? fun r => !(s.me.reg r.toNat).full with
          | some r => s.block (.output r.toNat)
          | none =>
            let (id, s) := s.fresh
            (s.modMe fun v => v.launchSeg k.toNat base x e s.clock id).retire i)

/-! ## WAITS and SQUASH -/

/-- WAITS (R48, R121). -/
def execWaits (h : Hd) (m : Byte) (s : State) : Out :=
  .next (s.issue (.waits h m) fun e s =>
    if e = 0 || s.me.segmentsDone m then s.retire (.waits h m) else s.block .segments)

/-- SQUASH (R49, R119, R122). -/
def execSquash (h : Hd) (m : Byte) (s : State) : Out :=
  .next (s.issue (.squash h m) fun e s =>
    (if e = 0 then s else s.modMe fun v => v.squashMask m).retire (.squash h m))

/-! ## SEGMENT_START -/

/-- Whether the oldest segment of a strand may start: 4 clocks after its STRAND, and in a later clock than the AEND of
its predecessor (R45, R47). -/
def Strand.startDue (st : Strand) (clock : Nat) : Bool :=
  match st.segs with
  | g :: _ => !g.started && g.at_ + 4 ≤ clock && st.earliest ≤ clock
  | [] => false

/-- SEGMENT_START: the oldest segment of the strand named in `State.cur` starts; its KIND takes effect with its first
parcel (R34, R45, R47). A frozen strand starts none (R22). -/
def execSegmentStart (s : State) : Out :=
  let v := s.me
  let st := v.strand s.k
  .next (if st.startDue s.clock && !v.handler && v.trap.isNone then
    s.modMe fun v => v.modStrand s.k fun st =>
      { st with segs := match st.segs with
          | g :: l => { g with started := true } :: l
          | [] => [] }
  else s)

end Sys2Proof.Machine
end

