-- ==== Sys2Proof/Machine/StrandInstr.lean ====
section
/-! DEFINITION. The parcels of a strand: ANOP to ASTS, and parcels that are no instruction (R85, R131 to R149). -/

namespace Sys2Proof.Machine

/-! ## ANOP, AEND, AREP (R132 to R134) -/

/-- ANOP (R132). -/
def execAnop (s : State) : Out := .next (s.parcelOp {} false fun _ st s => s.commit .anop st)

/-- The oldest segment of a strand leaves the queue (R35, R36). -/
def Warp.popSegment (v : Warp) (k : Nat) (clock : Nat) : Warp :=
  match (v.strand k).segs with
  | [] => v
  | g :: l => (v.modStrand k fun st => { st with segs := l, arep := 0, earliest := clock + 1, age := clock + 1 }).endSegment g

/-- AEND: the segment ends, and its outputs that were not put become full (R35, R36, R47, R119, R132). -/
def execAend (s : State) : Out :=
  .next (s.parcelOp {} false fun _ st s =>
    (s.modMe fun v => { (v.modStrand s.k fun _ => st).popSegment s.k s.clock with wparcel := v.wparcel + 1 }).stepped)

/-- Parcels that no AREP may have as its body: ANOP, AEND, AREP, AMOVI and APUT (R133). -/
def badBody (x : BitVec 16) : Bool := sopOf x ≤ 2 || sopOf x == 4 || sopOf x == 7

/-- AREP: the next parcel issues `n` + 1 times (R133). -/
def execArep (n : BitVec 6) (s : State) : Out :=
  .next (s.parcelOp {} false fun e st s =>
    let g := st.seg
    let body := s.parcel s.cur.warp (g.pc + 2)
    if segLen g.hdr ≤ g.index + 1 || body.any badBody then s.raise .segment e
    else
      (s.modMe fun v =>
        { v.modStrand s.k fun _ => { st.moveOn 2 s.clock with arep := n.toNat + 1 } with
          wparcel := v.wparcel + 1 }).stepped)

/-! ## Moves (R135, R140, R141) -/

/-- AMOV (R135). -/
def execAmov (m : PMod) (w : BitVec 3) (s : State) : Out :=
  .next (s.parcelOp (valueReads m w false) m.q fun e st s =>
    s.commit (.amov m w) (st.setAcc e fun l => negWord m.n (st.source m.c w l)))

/-- AMOVI (R140). -/
def execAmovi (hi keep : Bool) (imm : BitVec 16) (s : State) : Out :=
  .next (s.parcelOp { acc := keep } false fun e st s =>
    s.commitN (.amovi hi keep imm) 4 (st.setAcc e fun l =>
      let a := st.acc.at' l
      if hi then imm ++ (if keep then bitsAt a 0 16 else 0#16)
      else (if keep then bitsAt a 16 16 else 0#16) ++ imm))

/-- MOVC (R135). -/
def execMovc (m : PMod) (w : BitVec 3) (s : State) : Out :=
  .next (s.parcelOp (valueReads m w false) m.q fun e st s =>
    s.commit (.movc m w) (st.setCarry e fun l => negWord m.n (st.source false w l)))

/-- AXCH (R135). -/
def execAxch (m : PMod) (s : State) : Out :=
  .next (s.parcelOp { acc := true, carry := true, q := m.q } m.q fun e st s =>
    s.commit (.axch m) ((st.setAcc e st.carry.at').setCarry e st.acc.at'))

/-- ASEL (R135): every lane of the mask reads the source, and those with q set take it. -/
def execAsel (m : PMod) (w : BitVec 3) (s : State) : Out :=
  .next (s.parcelOp { valueReads m w false with q := true } false fun e st s =>
    s.commit (.asel m w) (st.setAcc (e &&& st.q) fun l => negWord m.n (st.source m.c w l)))

/-- APUT: the accumulator goes to an output register, whose broadcast is delivered 6 clocks later
(R35, R43, R141). -/
def execAput (o : BitVec 2) (s : State) : Out :=
  .next (
    let g := (s.me.strand s.k).seg
    let r := segOut g.hdr o.toNat
    if !segOutv g.hdr o.toNat || bitAt g.puts o.toNat then s.raise .segment g.mask
    else s.parcelOp { acc := true } false fun e st s =>
      let segs := match st.segs with
        | g :: l => { g with puts := g.puts ||| (1#4 <<< o.toNat) } :: l
        | [] => []
      (s.modMe fun v =>
        { v.setReg r e st.acc.at' with bcasts := v.bcasts ++ [{ r := r, k := s.k, due := s.clock + 6 }] }).commit
          (.aput o) { st with segs := segs })

/-! ## f32 parcels (R135 to R139) -/

/-- An f32 word as a value, flushed under FTZ (R136). -/
def flushed (k : RndCtl) (w : Word) : FP := f32Src false k.ftz w

/-- AFADD: a + s (R135, R136). -/
def execAfadd (m : PMod) (w : BitVec 3) (s : State) : Out :=
  .next (s.floatParcel (.afadd m w) m w false fun k a x _ => f32F.add k (flushed k a) (flushed k x))

/-- AFSUB: a - s (R135, R136). -/
def execAfsub (m : PMod) (w : BitVec 3) (s : State) : Out :=
  .next (s.floatParcel (.afsub m w) m w false fun k a x _ => f32F.add k (flushed k a) (flushed k x).negate)

/-- AFRSUB: s - a (R135, R136). -/
def execAfrsub (m : PMod) (w : BitVec 3) (s : State) : Out :=
  .next (s.floatParcel (.afrsub m w) m w false fun k a x _ => f32F.add k (flushed k x) (flushed k a).negate)

/-- AFMUL: a * s (R135, R136). -/
def execAfmul (m : PMod) (w : BitVec 3) (s : State) : Out :=
  .next (s.floatParcel (.afmul m w) m w false fun k a x _ => f32F.mul k (flushed k a) (flushed k x))

/-- AFMAC: a + c * s (R135, R136). -/
def execAfmac (m : PMod) (w : BitVec 3) (s : State) : Out :=
  .next (s.floatParcel (.afmac m w) m w true fun k a x c => f32F.fma k (flushed k c) (flushed k x) (flushed k a))

/-- AFMSC: a - c * s (R135, R136). -/
def execAfmsc (m : PMod) (w : BitVec 3) (s : State) : Out :=
  .next (s.floatParcel (.afmsc m w) m w true fun k a x c => f32F.fma k (flushed k c).negate (flushed k x) (flushed k a))

/-- AFMIN: min(a, s) (R135, R137). -/
def execAfmin (m : PMod) (w : BitVec 3) (s : State) : Out :=
  .next (s.floatParcel (.afmin m w) m w false fun k a x _ => minMax32 false (flushWord k.ftz a) (flushWord k.ftz x))

/-- AFMAX: max(a, s) (R135, R137). -/
def execAfmax (m : PMod) (w : BitVec 3) (s : State) : Out :=
  .next (s.floatParcel (.afmax m w) m w false fun k a x _ => minMax32 true (flushWord k.ftz a) (flushWord k.ftz x))

/-- AFDIV: a / s (R135, R136). -/
def execAfdiv (m : PMod) (w : BitVec 3) (s : State) : Out :=
  .next (s.floatParcel (.afdiv m w) m w false fun k a x _ => f32F.div k (flushed k a) (flushed k x))

/-- AEXP2: exp2(a * c - s) (R135, R139). -/
def execAexp2 (m : PMod) (w : BitVec 3) (s : State) : Out :=
  .next (s.floatParcel (.aexp2 m w) m w true fun k a x c => expOf k (flushed k a) (flushed k c) (flushed k x))

/-- A result negated after rounding, a NaN excepted (R138). -/
def negRes (n : Bool) (r : FRes) : FRes :=
  if n && !(f32F.val r.code).isNan then { r with code := r.code ^^^ f32F.signBit } else r

/-- AFABS: the sign of the accumulator is cleared, or set under N (R135, R136). -/
def execAfabs (m : PMod) (s : State) : Out :=
  .next (s.unaryParcel (.afabs m) m fun _ a =>
    { code := (if m.n then a ||| 0x80000000 else a &&& 0x7FFFFFFF).toNat, fl := 0 })

/-- AFRCP (R135, R138). -/
def execAfrcp (m : PMod) (s : State) : Out :=
  .next (s.unaryParcel (.afrcp m) m fun k a => negRes m.n (rcp k (flushWord k.ftz a)))

/-- AFRSQ (R135, R138). -/
def execAfrsq (m : PMod) (s : State) : Out :=
  .next (s.unaryParcel (.afrsq m) m fun k a => negRes m.n (rsq k (flushWord k.ftz a)))

/-- ALOG2 (R135, R138). -/
def execAlog2 (m : PMod) (s : State) : Out :=
  .next (s.unaryParcel (.alog2 m) m fun k a => negRes m.n (log2f k (flushWord k.ftz a)))

/-! ## Integer parcels (R130, R135) -/

/-- The two's complement and the bitwise complement that N makes of a source (R130). -/
def twos (x : Word) : Word := 0 - x
def ones (x : Word) : Word := ~~~x

/-- AIADD: a + s (R135). -/
def execAiadd (m : PMod) (w : BitVec 3) (s : State) : Out :=
  .next (s.plainParcel (.aiadd m w) m w twos fun a x => a + x)

/-- AISUB: a - s (R135). -/
def execAisub (m : PMod) (w : BitVec 3) (s : State) : Out :=
  .next (s.plainParcel (.aisub m w) m w twos fun a x => a - x)

/-- AIMUL: bits 31:0 of a * s (R135). -/
def execAimul (m : PMod) (w : BitVec 3) (s : State) : Out :=
  .next (s.plainParcel (.aimul m w) m w twos fun a x => a * x)

/-- AIMULH: bits 63:32 of a * s (R135). -/
def execAimulh (m : PMod) (w : BitVec 3) (s : State) : Out :=
  .next (s.plainParcel (.aimulh m w) m w twos fun a x => mulHigh (intOf m.sg a) (intOf m.sg x))

/-- AAND: a AND s (R135). -/
def execAand (m : PMod) (w : BitVec 3) (s : State) : Out :=
  .next (s.plainParcel (.aand m w) m w ones fun a x => a &&& x)

/-- AOR: a OR s (R135). -/
def execAor (m : PMod) (w : BitVec 3) (s : State) : Out :=
  .next (s.plainParcel (.aor m w) m w ones fun a x => a ||| x)

/-- AXOR: a XOR s (R135). -/
def execAxor (m : PMod) (w : BitVec 3) (s : State) : Out :=
  .next (s.plainParcel (.axor m w) m w ones fun a x => a ^^^ x)

/-- The count of a shift parcel in lane `l` (R142). -/
def Strand.shiftCount (st : Strand) (cnt : BitVec 5) (w : BitVec 3) (l : Nat) : Nat :=
  if cnt = 0 then (bitsAt (st.source false w l) 0 5).toNat else cnt.toNat

/-- What a shift parcel reads (R142). -/
def shiftReads (cnt : BitVec 5) (w : BitVec 3) : Reads := { win := if cnt = 0 then some w else none, acc := true }

/-- ASHL (R142). -/
def execAshl (sg : Bool) (cnt : BitVec 5) (w : BitVec 3) (s : State) : Out :=
  .next (s.parcelOp (shiftReads cnt w) false fun e st s =>
    s.commit (.ashl sg cnt w) (st.setAcc e fun l => st.acc.at' l <<< st.shiftCount cnt w l))

/-- ASHR (R142). -/
def execAshr (sg : Bool) (cnt : BitVec 5) (w : BitVec 3) (s : State) : Out :=
  .next (s.parcelOp (shiftReads cnt w) false fun e st s =>
    s.commit (.ashr sg cnt w) (st.setAcc e fun l =>
      if sg then shiftArith (st.acc.at' l) (st.shiftCount cnt w l) else st.acc.at' l >>> st.shiftCount cnt w l))

/-! ## Compare and convert (R143 to R145) -/

/-- A compare of two words under a type: f32, s32, n32 (R143). -/
def acmpRes (ty : BitVec 2) (cond : BitVec 3) (ftz : Bool) (a x : Word) : Bool × Byte :=
  match ty.toNat with
  | 0 => fpCompare cond (f32Src false ftz a) (f32Src false ftz x)
  | 1 => (intCompare cond a.toInt x.toInt, 0)
  | _ => (intCompare cond a.toNat x.toNat, 0)

/-- ACMP (R143). -/
def execAcmp (c : Bool) (ty : BitVec 2) (cond : BitVec 3) (w : BitVec 3) (s : State) : Out :=
  .next (s.parcelOp { win := if c then none else some w, acc := true, carry := c } false fun e st s =>
    let r := fun l => acmpRes ty cond (modeFtz s.me.mode) (st.acc.at' l) (st.source c w l)
    s.flagged (.acmp c ty cond w) e (fun l => (r l).2) fun s =>
      s.commit (.acmp c ty cond w) (st.setQ e fun l => (r l).1))

/-- The conversion of ACVT (R144, R145). -/
def acvtRes (code : BitVec 4) (k : RndCtl) (a : Word) : FRes :=
  let x := flushed k a
  let plain := { k with ftz := false }
  match code.toNat with
  | 0x0 => bf16F.deliver plain x
  | 0x1 => f16F.deliver plain x
  | 0x2 => Narrow.e4m3.conv .rna false x
  | 0x3 => Narrow.e5m2.conv .rna false x
  | 0x4 => f32F.deliver k (bf16F.val (bitsAt a 0 16).toNat)
  | 0x5 => f32F.deliver k (f16F.val (bitsAt a 0 16).toNat)
  | 0x6 => f32F.deliver k (Narrow.e4m3.val (bitsAt a 0 8).toNat)
  | 0x7 => f32F.deliver k (Narrow.e5m2.val (bitsAt a 0 8).toNat)
  | 0x8 => fpToInt k.rnd false true 32 x
  | 0x9 => fpToInt k.rnd false false 32 x
  | 0xA => f32F.deliver k (fpOfInt a.toInt)
  | 0xB => f32F.deliver k (fpOfInt a.toNat)
  | 0xC => fpToInt .rz false true 32 x
  | _ => fpToInt .rz false false 32 x

/-- ACVT (R144, R145). -/
def execAcvt (code : BitVec 4) (s : State) : Out :=
  .next (s.unaryParcel (.acvt code) { sg := false, c := false, n := false, q := false } (acvtRes code))

/-! ## Lanes (R146, R147) -/

/-- The source lane of ASHFL; none beyond the warp (R146). -/
def ashflLane (mode : BitVec 2) (d : Nat) (x : Word) (l : Nat) : Option Nat :=
  match mode.toNat with
  | 0 => some (l ^^^ d)
  | 1 => if d ≤ l then some (l - d) else none
  | 2 => if l + d ≤ 31 then some (l + d) else none
  | _ => some (bitsAt x 0 5).toNat

/-- ASHFL (R146). -/
def execAshfl (mode : BitVec 2) (lg : BitVec 3) (w : BitVec 3) (s : State) : Out :=
  .next (s.parcelOp { win := if mode = 3 then some w else none } false fun e st s =>
    let j := fun l => ashflLane mode (2 ^ lg.toNat) (st.source false w l) l
    let bad := maskOf fun l => e.getLsbD l && (j l).any fun i => st.accP.getLsbD i
    let takes := maskOf fun l => e.getLsbD l && (j l).isSome
    if bad ≠ 0 then s.raise .poison bad 0xFF
    else s.commit (.ashfl mode lg w) (st.setAcc takes fun l => st.acc.at' ((j l).getD l)))

/-- The combination of ARED: fadd, fmax, fmin, iadd (R147). -/
def aredOp (op : BitVec 2) (ftz : Bool) (x y : Nat) : FRes :=
  match op.toNat with
  | 0 => f32F.combine 0 ftz x y
  | 1 => f32F.combine 2 ftz x y
  | 2 => f32F.combine 1 ftz x y
  | _ => { code := (x + y) % 2 ^ 32, fl := 0 }

/-- What a lane outside the segment mask contributes to ARED (R147). -/
def aredNeutral (op : BitVec 2) : Nat :=
  match op.toNat with
  | 0 => f32F.signBit
  | 3 => 0
  | _ => f32F.nanCode

/-- ARED (R147). -/
def execAred (op : BitVec 2) (s : State) : Out :=
  .next (s.parcelOp { acc := true } false fun e st s =>
    let ftz := modeFtz s.me.mode
    let val := fun l => if op = 3 then (st.acc.at' l).toNat else f32F.flushCode ftz (st.acc.at' l).toNat
    let (r, fl) := butterfly (aredOp op ftz) (Lanes.tab fun l => if e.getLsbD l then val l else aredNeutral op)
    s.flaggedAll (.ared op) e fl fun s => s.commit (.ared op) (st.setAcc e fun l => BitVec.ofNat 32 (r.at' l)))

/-! ## Slices of the bound tile (R148 to R150) -/

/-- Whether a tile instruction on aK that precedes the segment has not retired yet (R150). -/
def Warp.tileBusy (v : Warp) (k seq : Nat) : Bool := v.matx.any fun o => o.k == k && o.id < seq

/-- A slice parcel: the traps of R149 in their order, and then its effect on the bound tile (R148). `reads` says
whether it reads the tile, and `acc` whether it reads the accumulator. -/
def State.sliceOp (s : State) (g : BitVec 3) (hi : Bool) (w : BitVec 3) (reads acc : Bool)
    (k : Tile → Mask → Strand → State → State) : State :=
  let st := s.me.strand s.k
  if segKind st.seg.hdr ≠ 2 then s.raise .segment st.seg.mask
  else match st.tile with
    | none => if s.me.tileBusy s.k st.seg.seq then s else s.raise .segment st.seg.mask
    | some t => s.parcelOp { win := some w, acc := acc } false fun e st s =>
      let row := fun l => (st.source false w l).toNat
      let bad := if t.kind.groups ≤ g.toNat || (hi && t.kind != .t64d) then e
        else maskOf fun l => e.getLsbD l && t.kind.rows ≤ row l
      let dirty := maskOf fun l => e.getLsbD l && (t.at' (row l) (32 * g.toNat + l)).poison
      let extra := BitVec.ofNat 64 s.k
      if s.me.tileBusy s.k st.seg.seq then s
      else if bad ≠ 0 then s.raise .accShape bad extra
      else if reads && t.suspect then s.raise .suspectTile e extra
      else if reads && dirty != 0#32 then s.raise .poison dirty 0xFF
      else k t e st s

/-- ASLC (R148, R149). -/
def execAslc (g : BitVec 3) (hi : Bool) (w : BitVec 3) (s : State) : Out :=
  .next (s.sliceOp g hi w true false fun t e st s =>
    s.commit (.aslc g hi w) (st.setAcc e fun l =>
      (t.at' (st.source false w l).toNat (32 * g.toNat + l)).part hi))

/-- ASTS: its elements are in the tile after its latency (R124, R125, R148, R149). -/
def execAsts (g : BitVec 3) (hi : Bool) (w : BitVec 3) (s : State) : Out :=
  .next (s.sliceOp g hi w false true fun _ e st s =>
    let i := Instr.asts g hi w
    let put := fun (l : Nat) =>
      { due := s.clock + st.latencyOf i, row := (st.source false w l).toNat, col := 32 * g.toNat + l, hi := hi
        val := st.acc.at' l : TilePut }
    s.commit i { st with tilePuts := st.tilePuts ++ (lanesOf e).map put })

/-! ## Reserved parcels -/

/-- A parcel that is no instruction raises ILLEGAL (R85, R131). -/
def execReservedSop (_ : BitVec 16) (s : State) : Out :=
  .next (s.raise .illegal (s.me.strand s.k).seg.mask)

end Sys2Proof.Machine
end

