-- ==== Sys2Proof/Machine/WarpEvents.lean ====
section
/-! DEFINITION. Events of a warp and of its half: the entry of a handler, a step without a segment, escalation and its
resolution, the fairness switch, watches, GRAPH's answer, and the swap of warps
(R20, R162, R163, R310, R343, R344, R431, R432, R435, R438, R442, R443, R449, R452, R462, R474). -/

namespace Sys2Proof.Machine

/-- HANDLER_ENTRY (R20, R435, R438). -/
def execHandlerEntry (s : State) : Out :=
  .next (match s.me.trap with
    | some t => if s.entryDue s.cur.warp t then s.takeTrap s.cur.warp t else s
    | none => s)

/-- STEP_NO_SEGMENT: an armed step of a strand without a running segment is taken when the units resume (R452). -/
def execStepNoSegment (s : State) : Out :=
  let v := s.me
  let u := v.stepUnit
  .next (if v.stepArmed && u != 0 && (v.strand (u - 1)).segs.isEmpty && v.trap.isNone && !v.handler && v.held.isNone &&
      !v.exited && v.resumeAt ≤ s.clock then
    let t : State := { s with cur := { s.cur with unit := u } }
    t.raise .step v.mask (BitVec.ofNat 64 u)
  else s)

/-- FAULT_ESCALATION (R442, R443). -/
def execFaultEscalation (s : State) : Out :=
  .next (match s.me.trap with
    | some t => if s.me.escalates then s.escalate s.cur.warp t else s
    | none => s)

/-- HANDLER_TASK_RESOLVE: when a handler task has retired, also because its launch was discarded, RESOLVE of its entry is read and
acted on (R447, R449). -/
def execHandlerTaskResolve (l : Nat) (s : State) : Out :=
  .next (match (s.launch l).task with
    | none => s
    | some q =>
      let gone := (s.launch l).phase == .discarded && (s.groupsIn l).isEmpty
      if (s.launch l).phase != .finished && !s.launchDone l 2 && !gone then s
      else (s.modLaunch l fun x => { x with task := none }).resolve q.warp q.entry (s.devNat (q.entry + 0x94) 4))

/-- FAIRNESS_SWITCH (R162, R163). -/
def execFairnessSwitch (s : State) : Out :=
  .next (if s.mayIssue s.cur.warp 0 && s.me.switchDue && !s.me.atJoin then s.switchPath else s)

/-- MON_FIRE: a write performed to a watched line fires the watch, and a waiting MWAIT goes on (R343, R344, R462). -/
def execMonFire (s : State) : Out :=
  .next (match s.watchOf s.cur.warp false with
    | some x =>
      if x.hit && s.me.watch == .armed then
        (s.dropWatch s.cur.warp false).modMe fun v => { v with watch := .fired }
      else s
    | none => s)

/-- MWAIT_TIMEOUT: the limit of a waiting MWAIT has passed on GTIME; the watch counts for nothing more (R344, R462). -/
def execMwaitTimeout (s : State) : Out :=
  .next (match s.me.mwait with
    | some q =>
      if s.me.wait == some .mwait && q.limit != 0 && q.start + q.limit ≤ s.gtime && s.watchEnd.isNone then
        (s.dropWatch s.cur.warp false).modMe fun v => { v with watch := .lost }
      else s
    | none => s)

/-- The launch processor has STATUS tested and set in one step at the home of a header (R474). -/
def State.sendClaim (s : State) (w : Nat) (q : GraphReq) (r : Run) : State :=
  let root := s.rootOf w
  let region := s.regionOf w
  let s := r.lines.foldl (fun t line => t.countLp r line) s
  (s.putOp (Write.forLp root region .put) r 4 4 (.claim w ·)).modWarp w fun v =>
    { v with graph := some { q with sent := some s.nextId } }

/-- GRAPH_ANSWER: the launch processor has STATUS tested and set in one step; once that step is performed at .dev, the walk starts where
it found STATUS idle or done, and the predicate receives the answer (R310, R474). -/
def execGraphAnswer (s : State) : Out :=
  let w := s.cur.warp
  .next (match s.me.graph with
    | none => s
    | some q =>
      let root := s.rootOf w
      let region := s.regionOf w
      let answer := fun (s : State) (ok : Bool) =>
        (s.modMe fun v => { v.givePred q.d q.lanes fun _ => ok with graph := none }).settleKill w
      match q.sent, q.won with
      | none, _ => (match s.vrange none root region q.hdr.toNat 64 true true false true with
        | (.ok [r], s) => s.sendClaim w q r
        | (_, s) => answer s false)
      | some id, some true =>
        if s.writes.any fun x => x.id == id && !s.writeDone x 3 then s
        else match s.vread root region q.hdr.toNat 8 with
          | (.error _, s) => answer s false
          | (.ok bs, s) =>
            let walk : Walk := { hdr := q.hdr, root := root, region := region,
                                 clauses := List.replicate (numOf (bs.take 4)) .idle, failed := false, ended := false }
            answer { s with walks := s.walks ++ [walk] } true
      | some _, some false => answer s false
      | some id, none => if s.writes.any fun x => x.id == id then s else answer s false)

/-- Until when a swap of a half is under way (R432). -/
def CoreSt.swapUntil (c : CoreSt) (half : Nat) : Nat := nth 0 c.swapAt half

/-- WARP_SWAP: an active warp that is blocked on long latency makes room for the pending warp that has been ready longest;
neither issues for 4 clocks (R431, R432, R477). -/
def execWarpSwap (core half out inn : Nat) (s : State) : Out :=
  let a := s.warp out
  .next (if a.core = core && a.half = half && a.active && !a.exited && (s.group a.group).resident && s.longBlocked out &&
      s.readiest core half = some inn && (s.core core).swapUntil half ≤ s.clock then
    let s := s.modWarp out fun v => { v with
      active := false, readySince := 0, wswap := v.wswap + 1, resumeAt := max v.resumeAt (s.clock + 4) }
    let s := s.modWarp inn fun v => { v with active := true, resumeAt := max v.resumeAt (s.clock + 4) }
    s.modCore core fun c => { c with swapAt := c.swapAt.set half (s.clock + 4) }
  else s)

end Sys2Proof.Machine
end

