-- ==== Sys2Proof/Machine/Dispatch.lean ====
section
/-! DEFINITION. What one instruction, parcel or event does: one arm per constructor of `Instr`. -/

namespace Sys2Proof.Machine

/-- The meaning of an instruction, parcel or event in a state. -/
def exec (i : Instr) (s : State) : Host.Outcome State Fault Refusal :=
  match i with
  | .nop h => Sys2Proof.Machine.execNop h s
  | .rep str n => Sys2Proof.Machine.execRep str n s
  | .bra h target join => Sys2Proof.Machine.execBra h target join s
  | .jmp h ovl off => Sys2Proof.Machine.execJmp h ovl off s
  | .jmpi h a => Sys2Proof.Machine.execJmpi h a s
  | .call h ovl off => Sys2Proof.Machine.execCall h ovl off s
  | .calli h a => Sys2Proof.Machine.execCalli h a s
  | .ret h => Sys2Proof.Machine.execRet h s
  | .exit h => Sys2Proof.Machine.execExit h s
  | .trap h code => Sys2Proof.Machine.execTrap h code s
  | .wsync h a => Sys2Proof.Machine.execWsync h a s
  | .yield h => Sys2Proof.Machine.execYield h s
  | .bkpt h code => Sys2Proof.Machine.execBkpt h code s
  | .eret => Sys2Proof.Machine.execEret s
  | .strand h k ovl off => Sys2Proof.Machine.execStrand h k ovl off s
  | .waits h m => Sys2Proof.Machine.execWaits h m s
  | .squash h m => Sys2Proof.Machine.execSquash h m s
  | .icmp h m cond d a b => Sys2Proof.Machine.execIcmp h m cond d a b s
  | .icmpi h cond sg d a imm => Sys2Proof.Machine.execIcmpi h cond sg d a imm s
  | .fcmp h f cond d a b => Sys2Proof.Machine.execFcmp h f cond d a b s
  | .dcmp h f cond d a b => Sys2Proof.Machine.execDcmp h f cond d a b s
  | .plop h d a b c lut => Sys2Proof.Machine.execPlop h d a b c lut s
  | .p2g h d => Sys2Proof.Machine.execP2g h d s
  | .g2p h a mask => Sys2Proof.Machine.execG2p h a mask s
  | .sel h m d a b p => Sys2Proof.Machine.execSel h m d a b p s
  | .iadd h m d a b => Sys2Proof.Machine.execIadd h m d a b s
  | .iaddi h d a imm => Sys2Proof.Machine.execIaddi h d a imm s
  | .isub h m d a b => Sys2Proof.Machine.execIsub h m d a b s
  | .imul h m d a b => Sys2Proof.Machine.execImul h m d a b s
  | .imulh h m d a b => Sys2Proof.Machine.execImulh h m d a b s
  | .imad h m d a b c => Sys2Proof.Machine.execImad h m d a b c s
  | .imadw h m d a b c => Sys2Proof.Machine.execImadw h m d a b c s
  | .idiv h m d a b => Sys2Proof.Machine.execIdiv h m d a b s
  | .irem h m d a b => Sys2Proof.Machine.execIrem h m d a b s
  | .imin h m d a b => Sys2Proof.Machine.execImin h m d a b s
  | .imax h m d a b => Sys2Proof.Machine.execImax h m d a b s
  | .iabs h m d a => Sys2Proof.Machine.execIabs h m d a s
  | .iaddx h d a b p => Sys2Proof.Machine.execIaddx h d a b p s
  | .iadd64 h m d a b => Sys2Proof.Machine.execIadd64 h m d a b s
  | .lea h sg sh d a b => Sys2Proof.Machine.execLea h sg sh d a b s
  | .isubx h d a b p => Sys2Proof.Machine.execIsubx h d a b p s
  | .and h m inv d a b => Sys2Proof.Machine.execAnd h m inv d a b s
  | .or h m inv d a b => Sys2Proof.Machine.execOr h m inv d a b s
  | .xor h m inv d a b => Sys2Proof.Machine.execXor h m inv d a b s
  | .lopi h op d a imm => Sys2Proof.Machine.execLopi h op d a imm s
  | .lsl h m d a b => Sys2Proof.Machine.execLsl h m d a b s
  | .lsr h m d a b => Sys2Proof.Machine.execLsr h m d a b s
  | .asr h m d a b => Sys2Proof.Machine.execAsr h m d a b s
  | .rot h m d a b => Sys2Proof.Machine.execRot h m d a b s
  | .shi h op d a n => Sys2Proof.Machine.execShi h op d a n s
  | .bfe h m d a b => Sys2Proof.Machine.execBfe h m d a b s
  | .bfi h m d a b c => Sys2Proof.Machine.execBfi h m d a b c s
  | .popc h m d a => Sys2Proof.Machine.execPopc h m d a s
  | .clz h m d a => Sys2Proof.Machine.execClz h m d a s
  | .ffs h m d a => Sys2Proof.Machine.execFfs h m d a s
  | .brev h m d a => Sys2Proof.Machine.execBrev h m d a s
  | .mov h m d a => Sys2Proof.Machine.execMov h m d a s
  | .movi h d imm => Sys2Proof.Machine.execMovi h d imm s
  | .movs h idx d => Sys2Proof.Machine.execMovs h idx d s
  | .sets h a => Sys2Proof.Machine.execSets h a s
  | .shfl h m mode d a b => Sys2Proof.Machine.execShfl h m mode d a b s
  | .vote h mode d a => Sys2Proof.Machine.execVote h mode d a s
  | .mbcnt h add d a b => Sys2Proof.Machine.execMbcnt h add d a b s
  | .matchLanes h ty d a => Sys2Proof.Machine.execMatchLanes h ty d a s
  | .redux h m op d a => Sys2Proof.Machine.execRedux h m op d a s
  | .fredux h op f64 fz d a => Sys2Proof.Machine.execFredux h op f64 fz d a s
  | .rdlane h first w64 d a b => Sys2Proof.Machine.execRdlane h first w64 d a b s
  | .fadd h f d a b => Sys2Proof.Machine.execFadd h f d a b s
  | .fsub h f d a b => Sys2Proof.Machine.execFsub h f d a b s
  | .fmul h f d a b => Sys2Proof.Machine.execFmul h f d a b s
  | .ffma h f d a b c => Sys2Proof.Machine.execFfma h f d a b c s
  | .fmin h f d a b => Sys2Proof.Machine.execFmin h f d a b s
  | .fmax h f d a b => Sys2Proof.Machine.execFmax h f d a b s
  | .fdiv h f d a b => Sys2Proof.Machine.execFdiv h f d a b s
  | .fsqrt h f d a => Sys2Proof.Machine.execFsqrt h f d a s
  | .frcp h f d a => Sys2Proof.Machine.execFrcp h f d a s
  | .frsq h f d a => Sys2Proof.Machine.execFrsq h f d a s
  | .fexp2 h f d a b c => Sys2Proof.Machine.execFexp2 h f d a b c s
  | .flog2 h f d a => Sys2Proof.Machine.execFlog2 h f d a s
  | .fsin h f d a => Sys2Proof.Machine.execFsin h f d a s
  | .fcos h f d a => Sys2Proof.Machine.execFcos h f d a s
  | .frnd h f x d a => Sys2Proof.Machine.execFrnd h f x d a s
  | .fclass h f64 d a => Sys2Proof.Machine.execFclass h f64 d a s
  | .dadd h f d a b => Sys2Proof.Machine.execDadd h f d a b s
  | .dmul h f d a b => Sys2Proof.Machine.execDmul h f d a b s
  | .dfma h f d a b c => Sys2Proof.Machine.execDfma h f d a b c s
  | .ddiv h f d a b => Sys2Proof.Machine.execDdiv h f d a b s
  | .dsqrt h f d a => Sys2Proof.Machine.execDsqrt h f d a s
  | .dminmax h f max d a b => Sys2Proof.Machine.execDminmax h f max d a b s
  | .pkfma h f bf d a b c => Sys2Proof.Machine.execPkfma h f bf d a b c s
  | .pkadd h f bf d a b => Sys2Proof.Machine.execPkadd h f bf d a b s
  | .pkmul h f bf d a b => Sys2Proof.Machine.execPkmul h f bf d a b s
  | .cvt h code sat fz rm slot d a => Sys2Proof.Machine.execCvt h code sat fz rm slot d a s
  | .qnt h slot d a b => Sys2Proof.Machine.execQnt h slot d a b s
  | .dqnt h slot d a => Sys2Proof.Machine.execDqnt h slot d a s
  | .scaleinit h slot d a => Sys2Proof.Machine.execScaleinit h slot d a s
  | .ld h m d a off => Sys2Proof.Machine.execLd h m d a off s
  | .st h m d a off => Sys2Proof.Machine.execSt h m d a off s
  | .ldc h m d a off => Sys2Proof.Machine.execLdc h m d a off s
  | .atom h m a b => Sys2Proof.Machine.execAtom h m a b s
  | .atomr h m d a b c => Sys2Proof.Machine.execAtomr h m d a b c s
  | .lr h m d a => Sys2Proof.Machine.execLr h m d a s
  | .sc h m d a b => Sys2Proof.Machine.execSc h m d a b s
  | .cstore h w64 ord scope a b ps => Sys2Proof.Machine.execCstore h w64 ord scope a b ps s
  | .cstoreNf h w64 ord scope d a b ps pf => Sys2Proof.Machine.execCstoreNf h w64 ord scope d a b ps pf s
  | .tload h scope d a b => Sys2Proof.Machine.execTload h scope d a b s
  | .tstore h scope d a b => Sys2Proof.Machine.execTstore h scope d a b s
  | .fence h kind scope => Sys2Proof.Machine.execFence h kind scope s
  | .mon h a => Sys2Proof.Machine.execMon h a s
  | .mwait h d a => Sys2Proof.Machine.execMwait h d a s
  | .prefCnt h a b => Sys2Proof.Machine.execPrefCnt h a b s
  | .prefCl h a b c => Sys2Proof.Machine.execPrefCl h a b c s
  | .subs h fmt a b c => Sys2Proof.Machine.execSubs h fmt a b c s
  | .upgr h fmt a b c => Sys2Proof.Machine.execUpgr h fmt a b c s
  | .copy h dir scope d a b => Sys2Proof.Machine.execCopy h dir scope d a b s
  | .gath h scope d a b c => Sys2Proof.Machine.execGath h scope d a b c s
  | .pxfer h get d a b => Sys2Proof.Machine.execPxfer h get d a b s
  | .waitc h cls n => Sys2Proof.Machine.execWaitc h cls n s
  | .bankm h mode a => Sys2Proof.Machine.execBankm h mode a s
  | .fpush h w64 j a => Sys2Proof.Machine.execFpush h w64 j a s
  | .fpop h w64 d j => Sys2Proof.Machine.execFpop h w64 d j s
  | .ovld h a => Sys2Proof.Machine.execOvld h a s
  | .lds h m d a off => Sys2Proof.Machine.execLds h m d a off s
  | .unsub h a b c => Sys2Proof.Machine.execUnsub h a b c s
  | .mma h k a b slot => Sys2Proof.Machine.execMma h k a b slot s
  | .mmap h k a b slot => Sys2Proof.Machine.execMmap h k a b slot s
  | .smv h k a b c slot => Sys2Proof.Machine.execSmv h k a b c slot s
  | .aclr h k => Sys2Proof.Machine.execAclr h k s
  | .ald h k glob scope a b => Sys2Proof.Machine.execAld h k glob scope a b s
  | .ast h k glob scope a b => Sys2Proof.Machine.execAst h k glob scope a b s
  | .batonTake h => Sys2Proof.Machine.execBatonTake h s
  | .batonPass h a => Sys2Proof.Machine.execBatonPass h a s
  | .batonPassRing h => Sys2Proof.Machine.execBatonPassRing h s
  | .batonRing h a => Sys2Proof.Machine.execBatonRing h a s
  | .abind h k kind => Sys2Proof.Machine.execAbind h k kind s
  | .afree h k => Sys2Proof.Machine.execAfree h k s
  | .bar h n => Sys2Proof.Machine.execBar h n s
  | .bara h n => Sys2Proof.Machine.execBara h n s
  | .barw h n => Sys2Proof.Machine.execBarw h n s
  | .phase h => Sys2Proof.Machine.execPhase h s
  | .launch h a => Sys2Proof.Machine.execLaunch h a s
  | .lwait h a b => Sys2Proof.Machine.execLwait h a b s
  | .graph h d a => Sys2Proof.Machine.execGraph h d a s
  | .sbnd h a => Sys2Proof.Machine.execSbnd h a s
  | .traprd h w64 d off => Sys2Proof.Machine.execTraprd h w64 d off s
  | .sysr h idx d => Sys2Proof.Machine.execSysr h idx d s
  | .sysw h idx a => Sys2Proof.Machine.execSysw h idx a s
  | .anop => Sys2Proof.Machine.execAnop s
  | .aend => Sys2Proof.Machine.execAend s
  | .arep n => Sys2Proof.Machine.execArep n s
  | .amov m w => Sys2Proof.Machine.execAmov m w s
  | .amovi hi keep imm => Sys2Proof.Machine.execAmovi hi keep imm s
  | .movc m w => Sys2Proof.Machine.execMovc m w s
  | .axch m => Sys2Proof.Machine.execAxch m s
  | .aput o => Sys2Proof.Machine.execAput o s
  | .afadd m w => Sys2Proof.Machine.execAfadd m w s
  | .afsub m w => Sys2Proof.Machine.execAfsub m w s
  | .afrsub m w => Sys2Proof.Machine.execAfrsub m w s
  | .afmul m w => Sys2Proof.Machine.execAfmul m w s
  | .afmac m w => Sys2Proof.Machine.execAfmac m w s
  | .afmsc m w => Sys2Proof.Machine.execAfmsc m w s
  | .afmin m w => Sys2Proof.Machine.execAfmin m w s
  | .afmax m w => Sys2Proof.Machine.execAfmax m w s
  | .afabs m => Sys2Proof.Machine.execAfabs m s
  | .afrcp m => Sys2Proof.Machine.execAfrcp m s
  | .afrsq m => Sys2Proof.Machine.execAfrsq m s
  | .afdiv m w => Sys2Proof.Machine.execAfdiv m w s
  | .aexp2 m w => Sys2Proof.Machine.execAexp2 m w s
  | .alog2 m => Sys2Proof.Machine.execAlog2 m s
  | .aiadd m w => Sys2Proof.Machine.execAiadd m w s
  | .aisub m w => Sys2Proof.Machine.execAisub m w s
  | .aimul m w => Sys2Proof.Machine.execAimul m w s
  | .aimulh m w => Sys2Proof.Machine.execAimulh m w s
  | .aand m w => Sys2Proof.Machine.execAand m w s
  | .aor m w => Sys2Proof.Machine.execAor m w s
  | .axor m w => Sys2Proof.Machine.execAxor m w s
  | .ashl sg cnt w => Sys2Proof.Machine.execAshl sg cnt w s
  | .ashr sg cnt w => Sys2Proof.Machine.execAshr sg cnt w s
  | .acmp c ty cond w => Sys2Proof.Machine.execAcmp c ty cond w s
  | .asel m w => Sys2Proof.Machine.execAsel m w s
  | .acvt code => Sys2Proof.Machine.execAcvt code s
  | .ashfl mode lg w => Sys2Proof.Machine.execAshfl mode lg w s
  | .ared op => Sys2Proof.Machine.execAred op s
  | .aslc g hi w => Sys2Proof.Machine.execAslc g hi w s
  | .asts g hi w => Sys2Proof.Machine.execAsts g hi w s
  | .loadDataArrive id => Sys2Proof.Machine.execLoadDataArrive id s
  | .aputDelivery w r => Sys2Proof.Machine.execAputDelivery w r s
  | .handlerTaskResolve l => Sys2Proof.Machine.execHandlerTaskResolve l s
  | .warpSwap core half out inn => Sys2Proof.Machine.execWarpSwap core half out inn s
  | .launchRecordCheck q => Sys2Proof.Machine.execLaunchRecordCheck q s
  | .groupPlace l slots => Sys2Proof.Machine.execGroupPlace l slots s
  | .staggerRelease g => Sys2Proof.Machine.execStaggerRelease g s
  | .candidateReserve l cores => Sys2Proof.Machine.execCandidateReserve l cores s
  | .versionCommit g => Sys2Proof.Machine.execVersionCommit g s
  | .launchFinish l => Sys2Proof.Machine.execLaunchFinish l s
  | .groupEvict g => Sys2Proof.Machine.execGroupEvict g s
  | .groupRestore g slots => Sys2Proof.Machine.execGroupRestore g slots s
  | .matxStart w id => Sys2Proof.Machine.execMatxStart w id s
  | .smvStreamStart w id => Sys2Proof.Machine.execSmvStreamStart w id s
  | .selfTest core bad badFollower => Sys2Proof.Machine.execSelfTest core bad badFollower s
  | .engineOpComplete w cls => Sys2Proof.Machine.execEngineOpComplete w cls s
  | .cstoreNfComplete id => Sys2Proof.Machine.execCstoreNfComplete id s
  | .scAnswer id => Sys2Proof.Machine.execScAnswer id s
  | .clauseStart walk clause => Sys2Proof.Machine.execClauseStart walk clause s
  | .clauseFinish walk clause => Sys2Proof.Machine.execClauseFinish walk clause s
  | .bankSwitchComplete core bank => Sys2Proof.Machine.execBankSwitchComplete core bank s
  | .fillServed id answer => Sys2Proof.Machine.execFillServed id answer s
  | .writeAtHome id => Sys2Proof.Machine.execWriteAtHome id s
  | .joinList id => Sys2Proof.Machine.execJoinList id s
  | .leaveRequest core line => Sys2Proof.Machine.execLeaveRequest core line s
  | .upgradeResend id => Sys2Proof.Machine.execUpgradeResend id s
  | .hostMemwr line mask data => Sys2Proof.Machine.execHostMemwr line mask data s
  | .birsps line dirty => Sys2Proof.Machine.execBirsps line dirty s
  | .birspi line dirty => Sys2Proof.Machine.execBirspi line dirty s
  | .hostOwnershipGrant line answer => Sys2Proof.Machine.execHostOwnershipGrant line answer s
  | .bisnpinv pa => Sys2Proof.Machine.execBisnpinv pa s
  | .bisnpdata pa => Sys2Proof.Machine.execBisnpdata pa s
  | .bisnpcur pa => Sys2Proof.Machine.execBisnpcur pa s
  | .poolLinkLoss port => Sys2Proof.Machine.execPoolLinkLoss port s
  | .poolWindowReopen win => Sys2Proof.Machine.execPoolWindowReopen win s
  | .hostPortDown port => Sys2Proof.Machine.execHostPortDown port s
  | .peerLinkDown q => Sys2Proof.Machine.execPeerLinkDown q s
  | .linkLaneFail q => Sys2Proof.Machine.execLinkLaneFail q s
  | .tlbiPage psz => Sys2Proof.Machine.execTlbiPage psz s
  | .heldWritePerform id => Sys2Proof.Machine.execHeldWritePerform id s
  | .rtailWrite n v => Sys2Proof.Machine.execRtailWrite n v s
  | .regbaseWrite n v => Sys2Proof.Machine.execRegbaseWrite n v s
  | .controlRegisterWrite off v => Sys2Proof.Machine.execControlRegisterWrite off v s
  | .powerLevelUp draw => Sys2Proof.Machine.execPowerLevelUp draw s
  | .powerLevelDown draw => Sys2Proof.Machine.execPowerLevelDown draw s
  | .attestComplete stateWriteFails => Sys2Proof.Machine.execAttestComplete stateWriteFails s
  | .alarm sensor => Sys2Proof.Machine.execAlarm sensor s
  | .alarmcfgWrite v => Sys2Proof.Machine.execAlarmcfgWrite v s
  | .notReadyAccess k => Sys2Proof.Machine.execNotReadyAccess k s
  | .uncorrectableError u => Sys2Proof.Machine.execUncorrectableError u s
  | .coreRepair core => Sys2Proof.Machine.execCoreRepair core s
  | .l2SliceRepair die slice => Sys2Proof.Machine.execL2SliceRepair die slice s
  | .hbmRowRepair stack bank row => Sys2Proof.Machine.execHbmRowRepair stack bank row s
  | .overlay0LoadComplete core slot => Sys2Proof.Machine.execOverlay0LoadComplete core slot s
  | .hostWriteAck id => Sys2Proof.Machine.execHostWriteAck id s
  | .poolExclusiveGrant line answer => Sys2Proof.Machine.execPoolExclusiveGrant line answer s
  | .hostPortUp port => Sys2Proof.Machine.execHostPortUp port s
  | .reservedOpcode raw => Sys2Proof.Machine.execReservedOpcode raw s
  | .reservedSop raw => Sys2Proof.Machine.execReservedSop raw s
  | .segmentStart => Sys2Proof.Machine.execSegmentStart s
  | .handlerEntry => Sys2Proof.Machine.execHandlerEntry s
  | .stepNoSegment => Sys2Proof.Machine.execStepNoSegment s
  | .faultEscalation => Sys2Proof.Machine.execFaultEscalation s
  | .fairnessSwitch => Sys2Proof.Machine.execFairnessSwitch s
  | .matxRetire => Sys2Proof.Machine.execMatxRetire s
  | .graphAnswer => Sys2Proof.Machine.execGraphAnswer s
  | .monFire => Sys2Proof.Machine.execMonFire s
  | .mwaitTimeout => Sys2Proof.Machine.execMwaitTimeout s
  | .lwaitWake => Sys2Proof.Machine.execLwaitWake s
  | .lwaitPoll => Sys2Proof.Machine.execLwaitPoll s
  | .hbmFetchInstall => Sys2Proof.Machine.execHbmFetchInstall s
  | .updateAtNode => Sys2Proof.Machine.execUpdateAtNode s
  | .writeAck => Sys2Proof.Machine.execWriteAck s
  | .upgradeInstall => Sys2Proof.Machine.execUpgradeInstall s
  | .observationWindowEnd => Sys2Proof.Machine.execObservationWindowEnd s
  | .merge => Sys2Proof.Machine.execMerge s
  | .recall => Sys2Proof.Machine.execRecall s
  | .hostMemrdSnpdata => Sys2Proof.Machine.execHostMemrdSnpdata s
  | .hostMemrdSnpinv => Sys2Proof.Machine.execHostMemrdSnpinv s
  | .snpdata => Sys2Proof.Machine.execSnpdata s
  | .snpinv => Sys2Proof.Machine.execSnpinv s
  | .snpcur => Sys2Proof.Machine.execSnpcur s
  | .poolWriteAck => Sys2Proof.Machine.execPoolWriteAck s
  | .tlbiRoot => Sys2Proof.Machine.execTlbiRoot s
  | .tlbiAll => Sys2Proof.Machine.execTlbiAll s
  | .tlbiReservedOp => Sys2Proof.Machine.execTlbiReservedOp s
  | .tlbiComplete => Sys2Proof.Machine.execTlbiComplete s
  | .attestGo => Sys2Proof.Machine.execAttestGo s
  | .reset => Sys2Proof.Machine.execReset s
  | .correctableError => Sys2Proof.Machine.execCorrectableError s

end Sys2Proof.Machine
end

