-- ==== Sys2Proof/Machine/Step.lean ====
section
/-! DEFINITION. One step of the device, and the placing of one instruction where the next step fetches (log 2). -/

namespace Sys2Proof.Machine

/-- One step: the next turn, with `exec` for what its instruction or event does, and then what the turn wakes and makes
ready (R411, R432). -/
def step (s : State) : Host.Outcome State Fault Refusal :=
  match s.runTurn exec with
  | .next t => .next t.settleTurn
  | .fault f => .fault f
  | .refused r => .refused r

/-- The state with one instruction stored where `step` fetches its next one, and nothing placed but the warp that
fetches it (log 2). -/
def State.withFetchWord (s : State) (nbits w : Nat) : State := s.placeWord nbits w

end Sys2Proof.Machine
end

