-- ==== Sys2Proof/Safety.lean ====
section
/-! DEFINITION. The terms that claims are stated in: when an instruction or a parcel can have its effect, what it leaves
as it was, what a result leaves, and the clocks of a run (R19, R20, R69 to R74, R86, R114, R124, R198, R454). -/

namespace Sys2Proof.Machine

/-! ## Bytes -/

/-- The byte at a physical address with its poison mark, as the device holds it: at its home, or in memory. -/
def State.byteAt (s : State) (pa : Nat) : MarkedByte := markedByte (s.homeLine (lineNo pa)) (pa % 128)

/-- The byte of a group's scratch at a position and an offset, with its poison mark. -/
def State.scratchAt (s : State) (g pos off : Nat) : MarkedByte := (s.group g).peek pos off

/-- Memory, the lines at their homes and every group's scratch hold the same bytes. -/
structure SameBytes (s t : State) : Prop where
  global : ∀ pa, t.byteAt pa = s.byteAt pa
  scratch : ∀ g pos off, t.scratchAt g pos off = s.scratchAt g pos off

/-- Everything that the device holds by address is in its canonical form: memory and scratch with their poison marks, the lines of
L2 and the lists of nodes whose line has left it (R290, R382, R404). -/
structure State.Formed (s : State) : Prop where
  mem : Memory.wf s.mem ∧ Sparse.wf false s.memP
  scratch : ∀ g ∈ s.groups, Sparse.wf (0 : Byte) g.scratch ∧ Sparse.wf false g.scratchP
  lines : s.l2.Pairwise (fun x y => x.1 < y.1) ∧ s.apart.Pairwise fun x y => x.1 < y.1

/-! ## When a long-form instruction has its effect -/

/-- Whether every register of a list is full (R39, R41). -/
def Warp.allFull (v : Warp) (l : List Nat) : Bool := l.all fun r => (v.reg r).full

/-- Whether every predicate of a list has been written (R336, R474); numbers from 12 on are no storage. -/
def Warp.allReady (v : Warp) (l : List Nat) : Bool := l.all fun p => !(p < 12) || (v.predAt p).ready

/-- Nothing stops an instruction of the executing warp's spine before its own effect: its guard and its predicates are
written, its encoding is legal in the warp's mode, its registers exist and are full, its own early checks pass, and no
operand that it consumes is poisoned (R39, R40, R41, R69, R86, R114, R454). -/
def State.ready (s : State) (i : Instr) : Bool :=
  let v := s.me
  s.cur.warp < s.warps.length && s.cur.unit == 0 && v.allReady [(guardOf i).toNat] &&
    i.legal && (s.usesOf i).inRange v.regs.length && !i.barred v.handler &&
    (v.mask &&& (v.pred (guardOf i)).poison) == 0#32 && (s.early i (v.activeSet i.hd)).isNone &&
    v.allFull ((s.usesOf i).list.flatMap Use.dests) && v.allFull ((s.usesOf i).list.flatMap Use.sources) &&
    v.allReady i.predsUsed && (s.poisonOf i (v.activeSet i.hd)).isEmpty

/-- An instruction is ready and executes in the lanes of `e`. -/
abbrev State.Ready (s : State) (i : Instr) (e : Mask) : Prop := s.ready i = true ∧ e = s.me.activeSet i.hd

/-- The same with at least one lane. -/
abbrev State.ReadySome (s : State) (i : Instr) (e : Mask) : Prop := s.Ready i e ∧ e ≠ 0

/-! ## What an instruction leaves as it was -/

/-- The PC after an instruction that does not transfer control: a repetition of REP keeps it (R176). -/
def Warp.pcAfter (v : Warp) : Word :=
  match v.rep with
  | none => v.pc + 8
  | some r => if r.left ≤ 1 then v.pc + 8 else v.pc

/-- A warp keeps every register but those of `rs` and every predicate but those of `ps`, its path and its stacks, its
special registers, its strands with their tiles, and what it has outstanding. -/
structure KeepsWarp (v u : Warp) (rs ps : List Nat) : Prop where
  regs : ∀ r, r ∉ rs → u.reg r = v.reg r
  preds : ∀ p, p ∉ ps → u.predAt p = v.predAt p
  count : u.regs.length = v.regs.length
  path : u.mask = v.mask ∧ u.join = v.join ∧ u.pid = v.pid
  saved : u.dstack = v.dstack ∧ u.cstack = v.cstack
  special : u.mode = v.mode ∧ u.modeDue = v.modeDue ∧ u.fpfl = v.fpfl ∧ u.trapBase = v.trapBase ∧ u.tableBase = v.tableBase ∧
    u.dstkBase = v.dstkBase ∧ u.stepCtl = v.stepCtl
  strands : u.strands = v.strands
  engine : u.eng = v.eng ∧ u.matx = v.matx ∧ u.fails = v.fails ∧ u.bcasts = v.bcasts
  mode : u.handler = v.handler ∧ u.opened = v.opened ∧ u.held = v.held ∧ u.exited = v.exited
  waits : u.watch = v.watch ∧ u.phase = v.phase ∧ u.barPhase = v.barPhase ∧ u.acqIds = v.acqIds

/-- Everything beyond the executing warp stays: the other warps, every byte, the cores, the requests under way and the
control window. -/
structure KeepsRest (s t : State) : Prop where
  cur : t.cur = s.cur
  warps : ∀ w, w ≠ s.cur.warp → t.warp w = s.warp w
  bytes : SameBytes s t
  cores : t.cores = s.cores
  traffic : t.loads = s.loads ∧ t.fills = s.fills ∧ t.writes = s.writes ∧ t.watches = s.watches
  ctl : t.ctl = s.ctl

/-- The flags that an instruction adds to FPFL, with the clock at which they are in it (R225). -/
def queued (fl : Byte) (due : Nat) : List (Nat × Byte) := if fl = 0 then [] else [(due, fl)]

/-- The spine has issued an instruction that does not transfer control: the PC, MODW and the flags on their way to
FPFL, the trap of a step that was armed, and the registers it has written, which later instructions see only after its
latency (R89, R174, R225, R239, R452). -/
structure Issued (s t : State) (i : Instr) (fl : Byte) : Prop where
  pc : t.me.pc = s.me.pcAfter
  modw : t.me.modw = s.me.modw ||| i.fallback.setWidth 32
  flags : t.me.flagQ = s.me.flagQ ++ queued fl (s.clock + i.latency)
  count : t.me.wissue = s.me.wissue + 1
  trap : s.me.stepArmed = false → t.me.trap = s.me.trap
  later : ∀ r ∈ i.uses.list.flatMap Use.dests, (t.me.reg r).full = true →
    ∀ c, c < s.clock + i.latency → t.me.onWay c r = true

/-! ## Results -/

/-- The registers that a result takes. -/
def destRegs (wide : Bool) (d : GReg) : List Nat := if wide then [d.toNat, d.toNat + 1] else [d.toNat]

/-- An instruction has written the result `f` to register `d`, under `wide` to the pair, in the lanes of `e`, with no
poison there, and nothing else (R69, R74, R454). -/
structure WritesReg (s t : State) (i : Instr) (wide : Bool) (d : GReg) (e : Mask) (f : Nat → DWord) (fl : Byte) :
    Prop where
  low : ∀ l, l < 32 → t.me.lane d l = if e.getLsbD l then (f l).setWidth 32 else s.me.lane d l
  high : wide = true → ∀ l, l < 32 →
    (t.me.reg (d.toNat + 1)).val.at' l = if e.getLsbD l then (f l >>> 32).setWidth 32
      else (s.me.reg (d.toNat + 1)).val.at' l
  clean : ∀ r ∈ destRegs wide d, (t.me.reg r).poison = (s.me.reg r).poison &&& ~~~e
  full : ∀ r ∈ destRegs wide d, (t.me.reg r).full = true
  issued : Issued s t i fl
  warp : KeepsWarp s.me t.me (destRegs wide d) []
  rest : KeepsRest s t

/-- An instruction has written `f` to predicate `d` in the lanes of `e`, and nothing else; pt discards it
(R69, R73). -/
structure WritesPred (s t : State) (i : Instr) (d : PNum) (e : Mask) (f : Nat → Bool) (fl : Byte) : Prop where
  value : d ≠ 15#4 → ∀ l, l < 32 →
    (t.me.predAt d.toNat).val.getLsbD l = if e.getLsbD l then f l else (s.me.predAt d.toNat).val.getLsbD l
  clean : d ≠ 15#4 → (t.me.predAt d.toNat).poison = (s.me.predAt d.toNat).poison &&& ~~~e
  issued : Issued s t i fl
  warp : KeepsWarp s.me t.me [] (if d = 15#4 then [] else [d.toNat])
  rest : KeepsRest s t

/-- An instruction has issued and changed nothing but the PC and the counts of an issue. -/
structure OnlyIssued (s t : State) (i : Instr) : Prop where
  issued : Issued s t i 0
  warp : KeepsWarp s.me t.me [] []
  rest : KeepsRest s t

/-- A unit has raised a trap and nothing is written: no register, no predicate, no byte, and the PC stands; the warp's
reservations are cleared, those on their way with them (R19, R20, R337). -/
structure Raised (s t : State) (c : Cause) (lanes : Mask) (extra faddr : DWord) : Prop where
  trap : ∃ x, t.me.trap = some x ∧ x.cause = c ∧ x.lmask = lanes ∧ x.extra = extra ∧ x.faddr = faddr ∧
    x.unit = s.cur.unit ∧ x.spc = s.me.pc ∧ x.xmask = s.me.mask ∧ x.at_ = s.clock
  pc : t.me.pc = s.me.pc
  resv : (∀ r ∈ t.resv, r.1 ≠ s.cur.warp) ∧ t.me.resvFrom = List.replicate 32 s.nextId
  warp : KeepsWarp s.me t.me [] []
  rest : KeepsRest s t

/-! ## Parcels -/

/-- A parcel of the executing strand meets nothing before its own effect: its segment runs, and its window, its
accumulator, its carry and its predicate, as far as it reads them, are written and clean (R35, R40, R124, R131). -/
def State.parcelReady (s : State) (r : Reads) (q : Bool) : Bool :=
  let st := (s.me.strand s.k).view
  let e := st.lanes q
  s.cur.warp < s.warps.length && 1 ≤ s.cur.unit && s.cur.unit ≤ 8 && !(s.me.strand s.k).segs.isEmpty &&
    st.poisoned r e == 0#32 && (match r.win with
      | none => true
      | some n => segInv st.seg.hdr n.toNat && (st.seg.slot n).ready && ((st.seg.slot n).poison &&& e) == 0#32)

/-- A parcel of `n` bytes has issued, leaves its strand as `st` with the strand PC moved on, and changes nothing
else (R89, R124, R477). -/
structure ParcelDone (s t : State) (i : Instr) (n : Nat) (st : Strand) (fl : Byte) : Prop where
  strand : t.me.strand s.k = (st.moveOn n s.clock).post i s.clock
  strands : ∀ j, j ≠ s.k → t.me.strand j = s.me.strand j
  regs : t.me.regs = s.me.regs ∧ t.me.preds = s.me.preds
  path : t.me.pc = s.me.pc ∧ t.me.mask = s.me.mask ∧ t.me.dstack = s.me.dstack ∧ t.me.cstack = s.me.cstack
  special : t.me.mode = s.me.mode ∧ t.me.fpfl = s.me.fpfl
  modw : t.me.modw = s.me.modw ||| i.fallback.setWidth 32
  flags : t.me.flagQ = s.me.flagQ ++ queued fl (s.clock + i.latency)
  count : t.me.wparcel = s.me.wparcel + 1
  rest : KeepsRest s t

/-! ## Accesses -/

/-- An access may issue: no acquire holds it back, and the core has request entries left (R302, R367). -/
def State.canAccess (s : State) : Bool := !s.acquiring s.cur.warp && s.requests s.me.core < 768

/-- Every access of a list translates, none meets a trap of R327, and none must wait: the places, and the state
that the translations leave (R260, R302, R312 to R327). -/
def State.Places (s : State) (e : Mask) (rd wr scope : Bool) (accs : List Acc) (ps : List Placed) (t : State) : Prop :=
  s.placeAll s.cur.warp rd wr accs = ((ps, []), t) ∧ t.conditions e wr scope ps = none ∧
    t.placesWait ps = false

/-! ## Clocks (R198, R486) -/

/-- GTIME counts the nanoseconds of CLOCK: at 850 MHz at most and 475 MHz at least, with the part of a nanosecond that
is kept. -/
def State.Clocked (s : State) : Prop :=
  475 * s.gtime + s.gfrac ≤ 1000 * s.clock ∧ 1000 * s.clock ≤ 850 * s.gtime + s.gfrac ∧ s.gfrac < 850

end Sys2Proof.Machine
end

