-- ==== Sys2Proof/Safety/Results.lean ====
section
/-! DEFINITION. The results of the spine instructions that only compute, written from the rules of each and not from its
meaning: which register, pair or predicate each one writes, and its value in a lane (R136 to R147, R170, R185 to R206,
R213 to R255, R477). -/

namespace Sys2Proof.Machine

/-- A word as a result, with zeros above it. -/
def word (x : Word) : DWord := x.setWidth 64

/-- A result: whether it goes to a pair, the register, and the value in a lane. -/
abbrev Written := Bool × GReg × (Nat → DWord)
/-- A result with flags. -/
abbrev Flagged := Bool × GReg × (Nat → FRes)
/-- A predicate result. -/
abbrev Decided := PNum × (Nat → Bool)
/-- A predicate result with flags. -/
abbrev Judged := PNum × (Nat → Bool × Byte)

/-! ## Integer arithmetic (R189 to R193) -/

/-- A word read as natural (SG 1) or signed and extended to 64 bits (R173). -/
def extended (sg : BitVec 2) (x : Word) : DWord := if sg = 1#2 then x.setWidth 64 else x.signExtend 64
/-- Whether a word is below another or equal to it, natural (SG 1) or signed. -/
def notAbove (sg : BitVec 2) (x y : Word) : Bool := if sg = 1#2 then x.ule y else x.sle y

/-- The integer instructions without SAT: arithmetic modulo 2^32, or modulo 2^64 on pairs (R189, R191, R193). -/
def integerResult (v : Warp) : Instr → Option Written
  | .iadd _ m d a b => if m.sat then none else some (false, d, fun l => word (v.lane a l + v.lane b l))
  | .iaddi _ d a imm => some (false, d, fun l => word (v.lane a l + imm.signExtend 32))
  | .isub _ m d a b => if m.sat then none else some (false, d, fun l => word (v.lane a l - v.lane b l))
  | .imul _ m d a b => if m.sat then none else some (false, d, fun l => word (v.lane a l * v.lane b l))
  | .imulh _ m d a b => some (false, d, fun l => (extended m.sg (v.lane a l) * extended m.sg (v.lane b l)) >>> 32)
  | .imad _ m d a b c =>
    if m.sat then none else some (false, d, fun l => word (v.lane a l * v.lane b l + v.lane c l))
  | .imadw _ m d a b c =>
    if m.sat then none
    else some (true, d, fun l => extended m.sg (v.lane a l) * extended m.sg (v.lane b l) + v.lane2 c l)
  | .imin _ m d a b =>
    some (false, d, fun l => word (if notAbove m.sg (v.lane a l) (v.lane b l) then v.lane a l else v.lane b l))
  | .imax _ m d a b =>
    some (false, d, fun l => word (if notAbove m.sg (v.lane a l) (v.lane b l) then v.lane b l else v.lane a l))
  | .iabs _ m d a =>
    if m.sat then none else some (false, d, fun l => word (if (v.lane a l).msb then -v.lane a l else v.lane a l))
  | .iadd64 _ m d a b => if m.sat then none else some (true, d, fun l => v.lane2 a l + v.lane2 b l)
  | .lea _ sg sh d a b =>
    some (true, d, fun l =>
      v.lane2 a l + (if sg then (v.lane b l).signExtend 64 else word (v.lane b l)) * BitVec.ofNat 64 (2 ^ sh.toNat))
  | _ => none

/-- The exact value of an operand, natural (SG 1) or signed (R173). -/
def exact (sg : BitVec 2) {n : Nat} (x : BitVec n) : Int := if sg = 1#2 then (x.toNat : Int) else x.toInt

/-- An exact value clamped to the range of its type, with SAT where it was outside (R173). -/
def saturated (sg : BitVec 2) (n : Nat) (x : Int) : BitVec n × Bool :=
  let lo : Int := if sg = 1#2 then 0 else -2 ^ (n - 1)
  let hi : Int := if sg = 1#2 then 2 ^ n - 1 else 2 ^ (n - 1) - 1
  if x < lo then (BitVec.ofInt n lo, true) else if hi < x then (BitVec.ofInt n hi, true) else (BitVec.ofInt n x, false)

/-- A saturating result of 32 bits, where SAT is set. -/
def sat32 (m : MByte) (d : GReg) (f : Nat → Word × Bool) : Option (Bool × GReg × (Nat → DWord × Bool)) :=
  if m.sat then some (false, d, fun l => (word (f l).1, (f l).2)) else none
/-- A saturating result of 64 bits, where SAT is set. -/
def sat64 (m : MByte) (d : GReg) (f : Nat → DWord × Bool) : Option (Bool × GReg × (Nat → DWord × Bool)) :=
  if m.sat then some (true, d, f) else none

/-- The integer instructions with SAT: the exact value clamped, per lane (R173, R189, R191). -/
def saturatedResult (v : Warp) : Instr → Option (Bool × GReg × (Nat → DWord × Bool))
  | .iadd _ m d a b => sat32 m d fun l => saturated m.sg 32 (exact m.sg (v.lane a l) + exact m.sg (v.lane b l))
  | .isub _ m d a b => sat32 m d fun l => saturated m.sg 32 (exact m.sg (v.lane a l) - exact m.sg (v.lane b l))
  | .imul _ m d a b => sat32 m d fun l => saturated m.sg 32 (exact m.sg (v.lane a l) * exact m.sg (v.lane b l))
  | .imad _ m d a b c =>
    sat32 m d fun l =>
      saturated m.sg 32 (exact m.sg (v.lane a l) * exact m.sg (v.lane b l) + exact m.sg (v.lane c l))
  | .iabs _ m d a => sat32 m d fun l => saturated 2#2 32 (v.lane a l).toInt.natAbs
  | .imadw _ m d a b c =>
    sat64 m d fun l =>
      saturated m.sg 64 (exact m.sg (v.lane a l) * exact m.sg (v.lane b l) + exact m.sg (v.lane2 c l))
  | .iadd64 _ m d a b => sat64 m d fun l => saturated m.sg 64 (exact m.sg (v.lane2 a l) + exact m.sg (v.lane2 b l))
  | _ => none
/-- The flags of a saturated result: SAT in FPFL where a lane of `e` was clamped (R173, R224). -/
def satFlags (e : Mask) (f : Nat → DWord × Bool) : Byte :=
  if (lanesOf e).any fun l => (f l).2 then 0x20 else 0

/-- The quotient of IDIV and the remainder of IREM for a divisor that is not zero: towards zero, the remainder with
the sign of the dividend (R190). -/
def quotRem (sg : BitVec 2) (a b : Word) : Word × Word :=
  if sg = 1#2 then (a.udiv b, a.umod b) else (a.sdiv b, a.srem b)

/-! ## Logic, shifts and bit fields (R194, R195) -/

/-- The second operand of a logical operation under .not (R194). -/
def complemented (inv : Bool) (x : DWord) : DWord := if inv then ~~~x else x

/-- A shift or rotation of a word by any count: 0 left, 1 right, 2 right with the sign, 3 rotation left (R194). -/
def shifted (op : Nat) (x : Word) (n : Nat) : Word :=
  match op with
  | 0 => if n < 32 then x <<< n else 0
  | 1 => if n < 32 then x >>> n else 0
  | 2 => if n < 32 then x.sshiftRight n else if x.msb then BitVec.allOnes 32 else 0
  | _ => x <<< (n % 32) ||| x >>> (32 - n % 32)

/-- The count of a shift: bits 7:0 of the second operand (R194). -/
def countOf (x : Word) : Nat := x.toNat % 256

/-- Where a field starts, and where it ends: cut at bit 31 (R195). -/
def fieldFrom (b : Word) : Nat := b.toNat % 256
def fieldTo (b : Word) : Nat := min 32 (b.toNat % 256 + b.toNat / 256 % 256)

/-- The field of a word, with zeros or copies of its highest bit above it (R195). -/
def extracted (signed : Bool) (a b : Word) : Word :=
  let p := fieldFrom b
  let q := fieldTo b
  maskOf fun i => if p + i < q then a.getLsbD (p + i) else signed && decide (p < q) && a.getLsbD (q - 1)
/-- A word with a field taken from the low bits of another (R195). -/
def inserted (a b c : Word) : Word :=
  maskOf fun i => if fieldFrom b ≤ i ∧ i < fieldTo b then a.getLsbD (i - fieldFrom b) else c.getLsbD i

/-- How many of the low `n` bits are ones. -/
def onesBelow (n : Nat) (x : DWord) : Nat := (List.range n).countP fun i => x.getLsbD i
/-- How many of the low `n` bits are zeros above the highest one. -/
def zerosAbove (n : Nat) (x : DWord) : Nat := ((List.range n).takeWhile fun i => !x.getLsbD (n - 1 - i)).length
/-- The position of the lowest one among the low `n` bits. -/
def firstOne (n : Nat) (x : DWord) : Option Nat := (List.range n).find? fun i => x.getLsbD i

/-- Logic, shifts, bit fields and bit counts (R194, R195). -/
def logicResult (v : Warp) : Instr → Option Written
  | .and _ m inv d a b => some (m.w64, d, fun l => v.wide m.w64 a l &&& complemented inv (v.wide m.w64 b l))
  | .or _ m inv d a b => some (m.w64, d, fun l => v.wide m.w64 a l ||| complemented inv (v.wide m.w64 b l))
  | .xor _ m inv d a b => some (m.w64, d, fun l => v.wide m.w64 a l ^^^ complemented inv (v.wide m.w64 b l))
  | .lopi _ op d a imm =>
    let c : Word := imm.signExtend 32
    some (false, d, fun l => word (
      if op = 0#2 then v.lane a l &&& c else if op = 1#2 then v.lane a l ||| c
      else if op = 2#2 then v.lane a l ^^^ c else v.lane a l &&& ~~~c))
  | .lsl _ _ d a b => some (false, d, fun l => word (shifted 0 (v.lane a l) (countOf (v.lane b l))))
  | .lsr _ _ d a b => some (false, d, fun l => word (shifted 1 (v.lane a l) (countOf (v.lane b l))))
  | .asr _ _ d a b => some (false, d, fun l => word (shifted 2 (v.lane a l) (countOf (v.lane b l))))
  | .rot _ _ d a b => some (false, d, fun l => word (shifted 3 (v.lane a l) (countOf (v.lane b l))))
  | .shi _ op d a n => some (false, d, fun l => word (shifted op.toNat (v.lane a l) n.toNat))
  | .bfe _ m d a b => some (false, d, fun l => word (extracted (m.sg == 2#2) (v.lane a l) (v.lane b l)))
  | .bfi _ _ d a b c => some (false, d, fun l => word (inserted (v.lane a l) (v.lane b l) (v.lane c l)))
  | .popc _ m d a => some (false, d, fun l => BitVec.ofNat 64 (onesBelow (if m.w64 then 64 else 32) (v.wide m.w64 a l)))
  | .clz _ m d a =>
    some (false, d, fun l => BitVec.ofNat 64 (zerosAbove (if m.w64 then 64 else 32) (v.wide m.w64 a l)))
  | .ffs _ m d a =>
    some (false, d, fun l =>
      match firstOne (if m.w64 then 64 else 32) (v.wide m.w64 a l) with
      | some i => BitVec.ofNat 64 i
      | none => 0xFFFFFFFF)
  | .brev _ m d a =>
    some (m.w64, d, fun l => if m.w64 then (v.lane2 a l).reverse else word (v.lane a l).reverse)
  | _ => none

/-! ## Moves, selections and exchanges (R188, R196 to R206, R477) -/

/-- Moves, reads of special and system registers, selections, and the exchanges that consume each lane's own operands,
in the lanes of `e` (R187, R188, R196, R197, R202 to R205, R245, R477). -/
def moveResult (s : State) (e : Mask) : Instr → Option Written
  | .mov _ m d a => some (m.w64, d, s.me.wide m.w64 a)
  | .movi _ d imm => some (false, d, fun _ => word imm)
  | .movs _ idx d => some (movsWide idx, d, s.special idx)
  | .sysr _ idx d =>
    -- the counters from 0x10 on are read as accesses, after what is ordered before them (R368, R378, R477)
    if s.sysrWaits idx e then none else some (sysWide idx, d, fun _ => s.sysReg idx)
  | .sel _ m d a b p =>
    some (m.w64, d, fun l =>
      if (s.me.pred p.p).val.getLsbD l = !p.neg then s.me.wide m.w64 a l else s.me.wide m.w64 b l)
  | .p2g _ d => some (false, d, fun l => word (maskOf fun i => decide (i < 12) && (s.me.predAt i).val.getLsbD l))
  | .vote _ mode d a =>
    if mode = 0#2 then
      some (false, d, fun _ => word (maskOf fun j => e.getLsbD j && (s.me.pred a.p).val.getLsbD j != a.neg))
    else none
  | .mbcnt _ add d a b =>
    some (false, d, fun l =>
      word (BitVec.ofNat 32 (onesBelow l (word (s.me.lane a l))) + if add then s.me.lane b l else 0))
  | .matchLanes _ ty d a =>
    some (false, d, fun l => word (maskOf fun j => e.getLsbD j && s.me.sameKey ty a l j))
  | .redux _ m op d a =>
    let xs := (lanesOf e).map (s.me.lane a)
    some (false, d, fun _ => word (
      match op.toNat with
      | 0 => xs.foldl (· + ·) 0
      | 1 => xs.foldl (fun x y => if notAbove m.sg x y then x else y) (xs.headD 0)
      | 2 => xs.foldl (fun x y => if notAbove m.sg x y then y else x) (xs.headD 0)
      | 3 => xs.foldl (· &&& ·) (BitVec.allOnes 32)
      | 4 => xs.foldl (· ||| ·) 0
      | _ => xs.foldl (· ^^^ ·) 0))
  | .fclass _ f64 d a =>
    some (false, d, fun l =>
      word (if f64 then f64F.classOf (s.me.lane2 a l).toNat else f32F.classOf (s.me.lane a l).toNat))
  | _ => none

/-- The lane that SHFL reads in lane `l` for the count `n`: a lane number, `n` lanes down or up, or the lanes exchanged
by an exclusive or; outside 0 to 31 the lane itself (R201). -/
def shflFrom (mode : BitVec 2) (n l : Nat) : Nat :=
  if mode = 0#2 then n else if mode = 1#2 then (if n ≤ l then l - n else l)
  else if mode = 2#2 then (if l + n < 32 then l + n else l) else l ^^^ n

/-! ## Reductions across lanes (R147, R231, R250) -/

/-- The value of each lane after `k` steps of a butterfly: step `j` combines the lanes at distance `2 ^ j`. -/
def exchanged (op : Nat → Nat → FRes) (x : Nat → Nat) : Nat → Nat → Nat
  | 0, l => x l
  | k + 1, l => (op (exchanged op x k l) (exchanged op x k (l ^^^ 2 ^ k))).code

/-- The flags of the combinations of all 32 lanes in the five steps. -/
def exchangeFlags (op : Nat → Nat → FRes) (x : Nat → Nat) : Byte :=
  (List.range 5).foldl (fun f k => (List.range 32).foldl
    (fun f l => f ||| (op (exchanged op x k l) (exchanged op x k (l ^^^ 2 ^ k))).fl) f) 0

/-- The combination of a floating reduction: a sum rounded to nearest even, or minimumNumber or maximumNumber. -/
def combined (f : BinFmt) (add max ftz : Bool) (x y : Nat) : FRes :=
  if add then f.add { rnd := .rne, sat := false, ftz := ftz } (f.val x) (f.val y)
  else f.minMax max x y (f.val x) (f.val y)

/-- What a lane outside the active set gives: −0.0 to a sum, a NaN to a minimum or maximum. -/
def identityOf (f64 add : Bool) : Nat :=
  if add then (if f64 then 2 ^ 63 else 2 ^ 31) else if f64 then 0x7FF8000000000000 else 0x7FC00000

/-! ## Compares and predicates (R143, R185, R186, R202) -/

/-- A relation of integers by its code: eq, ne, lt, le, gt, ge (R185). -/
def related (cond : BitVec 3) (x y : Int) : Bool :=
  if cond = 0#3 then x = y else if cond = 1#3 then x ≠ y else if cond = 2#3 then x < y
  else if cond = 3#3 then x ≤ y else if cond = 4#3 then y < x else y ≤ x

/-- Compares of integers and operations on predicates, in the lanes of `e` (R185, R186, R202). -/
def decidedResult (v : Warp) (e : Mask) : Instr → Option Decided
  | .icmp _ m cond d a b =>
    some (d, fun l =>
      if m.w64 then related cond (exact m.sg (v.lane2 a l)) (exact m.sg (v.lane2 b l))
      else related cond (exact m.sg (v.lane a l)) (exact m.sg (v.lane b l)))
  | .icmpi _ cond sg d a imm =>
    some (d, fun l => related cond (exact sg (v.lane a l)) (exact sg imm))
  | .plop _ d a b c lut =>
    some (d, fun l =>
      let i := (v.pred a.p).val.getLsbD l != a.neg
      lut.getLsbD (4 * i.toNat + 2 * ((v.pred b).val.getLsbD l).toNat + ((v.pred c).val.getLsbD l).toNat))
  | .vote _ mode d a =>
    let t := (lanesOf e).filter fun j => (v.pred a.p).val.getLsbD j != a.neg
    if mode = 0#2 then none
    else some (d.setWidth 4, fun _ =>
      if mode = 1#2 then !t.isEmpty else if mode = 2#2 then t == lanesOf e else t == lanesOf e || t.isEmpty)
  | _ => none

/-- Floating compares, with IV for a signalling NaN, and for any NaN under lt, le, gt and ge (R143, R246). -/
def judgedResult (v : Warp) : Instr → Option Judged
  | .fcmp _ f cond d a b => some (d, fun l => fpCompare cond (v.f32 f f.na a l) (v.f32 f f.nb b l))
  | .dcmp _ f cond d a b => some (d, fun l => fpCompare cond (v.f64 f.na a l) (v.f64 f.nb b l))
  | _ => none

/-! ## Floating point (R136 to R139, R213 to R255) -/

/-- One-operand results of f32 that never saturate (R237). -/
def unsaturated (k : RndCtl) : RndCtl := { k with sat := false }

/-- f32 arithmetic and special functions (R136 to R139, R240 to R244). -/
def f32Result (v : Warp) : Instr → Option Flagged
  | .fadd _ f d a b => some (false, d, fun l => f32F.add (fctl f v.mode) (v.f32 f f.na a l) (v.f32 f f.nb b l))
  | .fsub _ f d a b =>
    some (false, d, fun l => f32F.add (fctl f v.mode) (v.f32 f f.na a l) (v.f32 f f.nb b l).negate)
  | .fmul _ f d a b => some (false, d, fun l => f32F.mul (fctl f v.mode) (v.f32 f f.na a l) (v.f32 f f.nb b l))
  | .ffma _ f d a b c =>
    some (false, d, fun l => f32F.fma (fctl f v.mode) (v.f32 f f.na a l) (v.f32 f f.nb b l) (v.f32 f f.nc c l))
  | .fmin _ f d a b => some (false, d, fun l => minMax32 false (v.f32Code f f.na a l) (v.f32Code f f.nb b l))
  | .fmax _ f d a b => some (false, d, fun l => minMax32 true (v.f32Code f f.na a l) (v.f32Code f f.nb b l))
  | .fdiv _ f d a b => some (false, d, fun l => f32F.div (fctl f v.mode) (v.f32 f f.na a l) (v.f32 f f.nb b l))
  | .fsqrt _ f d a => some (false, d, fun l => f32F.sqrt (unsaturated (fctl f v.mode)) (v.f32 f f.na a l))
  | .frcp _ f d a => some (false, d, fun l => rcp (fctl f v.mode) (v.f32Code f f.na a l))
  | .frsq _ f d a => some (false, d, fun l => rsq (unsaturated (fctl f v.mode)) (v.f32Code f f.na a l))
  | .fexp2 _ f d a b c =>
    some (false, d, fun l => expOf (fctl f v.mode) (v.f32 f f.na a l) (v.f32 f f.nb b l) (v.f32 f f.nc c l))
  | .flog2 _ f d a => some (false, d, fun l => log2f (unsaturated (fctl f v.mode)) (v.f32Code f f.na a l))
  | .fsin _ f d a => some (false, d, fun l => sinCos true (unsaturated (fctl f v.mode)) (v.f32Code f f.na a l))
  | .fcos _ f d a => some (false, d, fun l => sinCos false (unsaturated (fctl f v.mode)) (v.f32Code f f.na a l))
  | .frnd _ f x d a => some (false, d, fun l => f32F.roundInt (fctl f v.mode).rnd x (v.f32 f f.na a l))
  | _ => none

/-- f64 and packed arithmetic (R137, R247 to R249). -/
def wideResult (v : Warp) : Instr → Option Flagged
  | .dadd _ f d a b => some (true, d, fun l => f64F.add (fctlRne f) (v.f64 f.na a l) (v.f64 f.nb b l))
  | .dmul _ f d a b => some (true, d, fun l => f64F.mul (fctlRne f) (v.f64 f.na a l) (v.f64 f.nb b l))
  | .dfma _ f d a b c =>
    some (true, d, fun l => f64F.fma (fctlRne f) (v.f64 f.na a l) (v.f64 f.nb b l) (v.f64 f.nc c l))
  | .ddiv _ f d a b => some (true, d, fun l => f64F.div (fctlRne f) (v.f64 f.na a l) (v.f64 f.nb b l))
  | .dsqrt _ f d a => some (true, d, fun l => f64F.sqrt (unsaturated (fctlRne f)) (v.f64 f.na a l))
  | .dminmax _ f mx d a b =>
    some (true, d, fun l => f64F.minMax mx (v.f64Code f.na a l).toNat (v.f64Code f.nb b l).toNat
      (v.f64 f.na a l) (v.f64 f.nb b l))
  | .pkadd _ f bf d a b =>
    some (false, d, fun l => packTwo fun i =>
      (packedFmt bf).add (fctlRne f) (packedElem bf f.na (v.lane a l) i) (packedElem bf f.nb (v.lane b l) i))
  | .pkmul _ f bf d a b =>
    some (false, d, fun l => packTwo fun i =>
      (packedFmt bf).mul (fctlRne f) (packedElem bf f.na (v.lane a l) i) (packedElem bf f.nb (v.lane b l) i))
  | .pkfma _ f bf d a b c =>
    some (false, d, fun l => packTwo fun i =>
      (packedFmt bf).fma (fctlRne f) (packedElem bf f.na (v.lane a l) i) (packedElem bf f.nb (v.lane b l) i)
        (packedElem bf f.nc (v.lane c l) i))
  | _ => none

/-- Conversions and quantisation (R220 to R223, R251 to R255). -/
def convertResult (s : State) (e : Mask) : Instr → Option Flagged
  | .cvt _ code sat fz rm slot d a =>
    some (cvtDst2 code, d, fun l =>
      cvtRes code.toNat (s.myLaunch.slot slot.toNat)
        { rnd := rmRnd rm (modeRnd s.me.mode), sat := sat, ftz := modeFtz s.me.mode || fz }
        { rnd := rmRnd rm .rne, sat := false, ftz := false } (s.me.wide (cvtSrc2 code) a l))
  | .qnt _ slot d a b =>
    some (false, d, qntRes (s.myLaunch.slot slot.toNat) e
      (fun l => f32Src false (modeFtz s.me.mode) (s.me.lane a l)) (s.me.lane b))
  | .dqnt _ slot d a => some (false, d, fun l => dqntRes (s.myLaunch.slot slot.toNat) (s.me.lane a l))
  | .scaleinit _ slot d a =>
    some (false, d, fun l =>
      scaleOf (narrowOf (slotA (s.myLaunch.slot slot.toNat)))
        ((blockLanes e 8 l).map fun j => f32Src false (modeFtz s.me.mode) (s.me.lane a j)))
  | _ => none

/-- The floating results together. -/
def floatResult (s : State) (e : Mask) (i : Instr) : Option Flagged :=
  ((f32Result s.me i).or (wideResult s.me i)).or (convertResult s e i)

/-- The code of a result as 64 bits. -/
def codes (f : Nat → FRes) (l : Nat) : DWord := BitVec.ofNat 64 (f l).code

end Sys2Proof.Machine
end

