-- ==== Sys2Proof/Safety/Parcels.lean ====
section
/-! DEFINITION. The results of the parcels that only compute, written from the rules of each: what a parcel reads, and
the new value of the accumulator in a lane (R128, R130, R135 to R147). -/

namespace Sys2Proof.Machine

/-- What a parcel with a source reads: its window or the carry, and for Q the strand predicate (R128, R130). -/
def sourceReads (m : PMod) (w : BitVec 3) (acc carry : Bool) : Reads :=
  if m.c then { win := none, acc := acc, carry := true, q := m.q }
  else { win := some w, acc := acc, carry := carry, q := m.q }

/-- The source of a parcel in a lane: the carry, or the word of its window (R128). -/
def Strand.operand (st : Strand) (m : PMod) (w : BitVec 3) (l : Nat) : Word :=
  if m.c then st.carry.at' l else (st.seg.slot w).val.at' l

/-- The source with its sign bit flipped by N, its two's complement, or its complement (R130). -/
def Strand.flipped (st : Strand) (m : PMod) (w : BitVec 3) (l : Nat) : Word :=
  if m.n then st.operand m w l ^^^ BitVec.twoPow 32 31 else st.operand m w l
def Strand.negated (st : Strand) (m : PMod) (w : BitVec 3) (l : Nat) : Word :=
  if m.n then -st.operand m w l else st.operand m w l
def Strand.inverted (st : Strand) (m : PMod) (w : BitVec 3) (l : Nat) : Word :=
  if m.n then ~~~st.operand m w l else st.operand m w l

/-- What a parcel reads, whether it executes under the strand predicate, its length in bytes, and the word that the
accumulator takes in a lane: moves, integer arithmetic, logic and shifts, without flags (R130, R135, R140, R142). -/
def accumulated (st : Strand) : Instr → Option (Reads × Bool × Nat × (Nat → Word))
  | .amov m w => some (sourceReads m w false false, m.q, 2, st.flipped m w)
  | .amovi hi keep imm =>
    some ({ acc := keep }, false, 4, fun l =>
      let a := st.acc.at' l
      if hi then (imm.setWidth 32 <<< 16) ||| (if keep then a &&& 0xFFFF else 0)
      else imm.setWidth 32 ||| (if keep then a &&& 0xFFFF0000 else 0))
  | .afabs m =>
    some ({ acc := true, q := m.q }, m.q, 2, fun l =>
      maskOf fun b => if b = 31 then m.n else (st.acc.at' l).getLsbD b)
  | .aiadd m w => some (sourceReads m w true false, m.q, 2, fun l => st.acc.at' l + st.negated m w l)
  | .aisub m w => some (sourceReads m w true false, m.q, 2, fun l => st.acc.at' l - st.negated m w l)
  | .aimul m w => some (sourceReads m w true false, m.q, 2, fun l => st.acc.at' l * st.negated m w l)
  | .aimulh m w =>
    some (sourceReads m w true false, m.q, 2, fun l =>
      let sg := if m.sg then 2#2 else 1#2
      ((extended sg (st.acc.at' l) * extended sg (st.negated m w l)) >>> 32).setWidth 32)
  | .aand m w => some (sourceReads m w true false, m.q, 2, fun l => st.acc.at' l &&& st.inverted m w l)
  | .aor m w => some (sourceReads m w true false, m.q, 2, fun l => st.acc.at' l ||| st.inverted m w l)
  | .axor m w => some (sourceReads m w true false, m.q, 2, fun l => st.acc.at' l ^^^ st.inverted m w l)
  | .ashl _ cnt w =>
    some ({ win := if cnt = 0#5 then some w else none, acc := true }, false, 2, fun l =>
      shifted 0 (st.acc.at' l) (if cnt = 0#5 then ((st.seg.slot w).val.at' l).toNat % 32 else cnt.toNat))
  | .ashr sg cnt w =>
    some ({ win := if cnt = 0#5 then some w else none, acc := true }, false, 2, fun l =>
      shifted (if sg then 2 else 1) (st.acc.at' l)
        (if cnt = 0#5 then ((st.seg.slot w).val.at' l).toNat % 32 else cnt.toNat))
  | _ => none

/-- An f32 word as a value under the flushing of MODE (R136). -/
def f32Of (mode x : Word) : FP := f32Src false (modeFtz mode) x
/-- How a parcel rounds: as MODE says, never saturating (R15, R136). -/
def parcelCtl (mode : Word) : RndCtl := { rnd := modeRnd mode, sat := false, ftz := modeFtz mode }

/-- The same for the f32 parcels and the conversions, with flags (R135 to R139, R144, R145). -/
def accumulatedFl (mode : Word) (st : Strand) : Instr → Option (Reads × Bool × (Nat → FRes))
  | .afadd m w =>
    some (sourceReads m w true false, m.q, fun l =>
      f32F.add (parcelCtl mode) (f32Of mode (st.acc.at' l)) (f32Of mode (st.flipped m w l)))
  | .afsub m w =>
    some (sourceReads m w true false, m.q, fun l =>
      f32F.add (parcelCtl mode) (f32Of mode (st.acc.at' l)) (f32Of mode (st.flipped m w l)).negate)
  | .afrsub m w =>
    some (sourceReads m w true false, m.q, fun l =>
      f32F.add (parcelCtl mode) (f32Of mode (st.flipped m w l)) (f32Of mode (st.acc.at' l)).negate)
  | .afmul m w =>
    some (sourceReads m w true false, m.q, fun l =>
      f32F.mul (parcelCtl mode) (f32Of mode (st.acc.at' l)) (f32Of mode (st.flipped m w l)))
  | .afmac m w =>
    some (sourceReads m w true true, m.q, fun l =>
      f32F.fma (parcelCtl mode) (f32Of mode (st.carry.at' l)) (f32Of mode (st.flipped m w l))
        (f32Of mode (st.acc.at' l)))
  | .afmsc m w =>
    some (sourceReads m w true true, m.q, fun l =>
      f32F.fma (parcelCtl mode) (f32Of mode (st.carry.at' l)).negate (f32Of mode (st.flipped m w l))
        (f32Of mode (st.acc.at' l)))
  | .afdiv m w =>
    some (sourceReads m w true false, m.q, fun l =>
      f32F.div (parcelCtl mode) (f32Of mode (st.acc.at' l)) (f32Of mode (st.flipped m w l)))
  | .afmin m w =>
    some (sourceReads m w true false, m.q, fun l =>
      minMax32 false (flushWord (modeFtz mode) (st.acc.at' l)) (flushWord (modeFtz mode) (st.flipped m w l)))
  | .afmax m w =>
    some (sourceReads m w true false, m.q, fun l =>
      minMax32 true (flushWord (modeFtz mode) (st.acc.at' l)) (flushWord (modeFtz mode) (st.flipped m w l)))
  | .aexp2 m w =>
    some (sourceReads m w true true, m.q, fun l =>
      expOf (parcelCtl mode) (f32Of mode (st.acc.at' l)) (f32Of mode (st.carry.at' l)) (f32Of mode (st.flipped m w l)))
  | .afrcp m =>
    some ({ acc := true, q := m.q }, m.q, fun l =>
      negRes m.n (rcp (parcelCtl mode) (flushWord (modeFtz mode) (st.acc.at' l))))
  | .afrsq m =>
    some ({ acc := true, q := m.q }, m.q, fun l =>
      negRes m.n (rsq (parcelCtl mode) (flushWord (modeFtz mode) (st.acc.at' l))))
  | .alog2 m =>
    some ({ acc := true, q := m.q }, m.q, fun l =>
      negRes m.n (log2f (parcelCtl mode) (flushWord (modeFtz mode) (st.acc.at' l))))
  | .acvt code => some ({ acc := true }, false, fun l => acvtRes code (parcelCtl mode) (st.acc.at' l))
  | _ => none

/-- The accumulator, the carry or the strand predicate has taken a value in the lanes of `m`, with no poison there, and
the rest of the strand stands. -/
def accSet (st : Strand) (m : Mask) (f : Nat → Word) : Strand :=
  { st with acc := Lanes.tab fun l => if m.getLsbD l then f l else st.acc.at' l, accP := st.accP &&& ~~~m }
def carrySet (st : Strand) (m : Mask) (f : Nat → Word) : Strand :=
  { st with carry := Lanes.tab fun l => if m.getLsbD l then f l else st.carry.at' l, carryP := st.carryP &&& ~~~m }
def predSet (st : Strand) (m : Mask) (f : Nat → Bool) : Strand :=
  { st with q := maskOf fun l => if m.getLsbD l then f l else st.q.getLsbD l, qP := st.qP &&& ~~~m }

end Sys2Proof.Machine
end

