-- ==== Sys2Proof/Safety/Steps.lean ====
section
/-! DEFINITION. More terms that claims are stated in: what transfers of control, moves of bytes and events leave
(R89, R154, R167, R302, R330, R388). -/

namespace Sys2Proof.Machine

/-! ## Transfers -/

/-- A warp keeps what a transfer of control does not touch: registers, predicates, special registers and strands. -/
structure KeepsState (v u : Warp) : Prop where
  regs : u.regs = v.regs ∧ u.preds = v.preds
  special : u.mode = v.mode ∧ u.fpfl = v.fpfl ∧ u.trapBase = v.trapBase ∧ u.tableBase = v.tableBase ∧
    u.dstkBase = v.dstkBase ∧ u.stepCtl = v.stepCtl
  strands : u.strands = v.strands

/-- The spine has issued an instruction after which it goes on at `pc` with the call stack `calls`, on the path that it
was on (R89, R154, R167). -/
structure WentTo (s t : State) (i : Instr) (pc : Word) (calls : List CEntry) : Prop where
  pc : t.me.pc = pc
  calls : t.me.cstack = calls
  path : t.me.mask = s.me.mask ∧ t.me.join = s.me.join ∧ t.me.pid = s.me.pid ∧ t.me.dstack = s.me.dstack
  modw : t.me.modw = s.me.modw ||| i.fallback.setWidth 32
  count : t.me.wissue = s.me.wissue + 1
  trap : s.me.stepArmed = false → t.me.trap = s.me.trap
  state : KeepsState s.me t.me
  rest : KeepsRest s t

/-- A code address at which the spine can go on: a multiple of 8 below 64 KiB in a resident overlay (R82). -/
def State.codeAt (s : State) (a : Word) : Prop :=
  offOf a % 8 = 0 ∧ offOf a < 0x10000 ∧ (s.overlay s.cur.warp (ovlOf a)).isSome = true

/-! ## Memory -/

/-- The executing warp keeps its registers but for the presence of those of `rs`, its predicates but those of `ps`, and
its path; every other warp stays as it was, but for one whose save area is overwritten outside its handler, which loses its control
flow (R168). -/
structure KeepsRegs (s t : State) (rs ps : List Nat) : Prop where
  values : ∀ r, (t.me.reg r).val = (s.me.reg r).val ∧ (t.me.reg r).poison = (s.me.reg r).poison
  full : ∀ r, r ∉ rs → (t.me.reg r).full = (s.me.reg r).full
  preds : ∀ p, p ∉ ps → t.me.predAt p = s.me.predAt p
  path : t.me.mask = s.me.mask ∧ t.me.join = s.me.join ∧ t.me.pid = s.me.pid ∧ t.me.dstack = s.me.dstack ∧
    t.me.cstack = s.me.cstack
  special : t.me.mode = s.me.mode ∧ t.me.fpfl = s.me.fpfl
  others : ∀ w, w ≠ s.cur.warp → { t.warp w with flowLost := (s.warp w).flowLost } = s.warp w

/-- A load under way that answers an instruction (R17, R330). -/
def State.Loads (t : State) (id w : Nat) (q : LoadReq) (e : Mask) (p : Load → Prop) : Prop :=
  ∃ x ∈ t.loads, x.id = id ∧ x.warp = w ∧ x.kind = q.kind ∧ x.d = q.d ∧ x.wide = q.wide ∧ x.bytes = q.bytes ∧ x.sext = q.sext ∧
    x.lanes = e ∧ p x

/-- A part of a load stands for a part of an access. -/
def LPiece.standsFor (y : LPiece) (p : Placed) : Prop :=
  y.lane = p.acc.lane ∧ y.off = p.acc.off ∧ y.len = p.acc.len ∧ y.pa = p.pa

/-- An instruction of `s`, whose translations left `u`, has started a load of the placed accesses: its destination is
empty until the data arrive, and no other register, predicate or path changes (R17, R302, R330). -/
structure StartsLoad (s u t : State) (q : LoadReq) (e : Mask) (ps : List Placed) : Prop where
  pc : t.me.pc = s.me.pcAfter
  load : t.Loads u.nextId s.cur.warp q e fun x => ∀ p ∈ ps, ∃ y ∈ x.pieces, y.standsFor p
  empty : ∀ r ∈ destRegs q.wide q.d, (t.me.reg r).full = false
  keeps : KeepsRegs s t (destRegs q.wide q.d) []
  bytes : (∀ p ∈ ps, pteAcc p.pte = false) → SameBytes u t

/-- The parts of accesses lie each in one line and share no byte. -/
def Apart (ps : List Placed) : Prop :=
  (∀ p ∈ ps, p.pa % 128 + p.acc.len ≤ 128) ∧ ps.Pairwise fun a b => a.pa + a.acc.len ≤ b.pa ∨ b.pa + b.acc.len ≤ a.pa

/-- A write of the executing warp under way that carries the bytes of a part of a store (R302, R331). -/
def State.Stores (t : State) (w : Nat) (p : Placed) (rel : Bool) (scope : BitVec 3) (nf : Option Nat) (x : Word) : Prop :=
  ∃ y ∈ t.writes, y.warp = some w ∧ y.line = lineNo p.pa ∧ y.kind = .store ∧ y.rel = rel ∧ y.scope = scope ∧ y.nf = nf ∧
    y.lanes.getLsbD p.acc.lane = true ∧
    ∀ i, i < p.acc.len → y.mask.getLsbD (p.pa % 128 + i) = true ∧
      lineByte y.data.bits (p.pa % 128 + i) = x.extractLsb' (8 * i) 8

/-- The stores that `t` has and `u` has not are those of the placed accesses: each carries bytes of its lanes alone, and a line has one,
but for pages under WB, where one written by two virtual lines has one for each (R302, R322, R388). -/
def OneWriteEach (u t : State) (ps : List Placed) : Prop :=
  ∃ new, t.writes = u.writes ++ new ∧
    (∀ y ∈ new, y.kind = .store →
      (∀ i, y.mask.getLsbD i = true → ∃ p ∈ ps, lineNo p.pa = y.line ∧ y.lanes.getLsbD p.acc.lane = true ∧
        p.pa % 128 ≤ i ∧ i < p.pa % 128 + p.acc.len) ∧
      ∀ l, y.lanes.getLsbD l = true → ∃ p ∈ ps, lineNo p.pa = y.line ∧ p.acc.lane = l) ∧
    ∀ p ∈ ps, (∀ q ∈ ps, lineNo q.pa = lineNo p.pa → pteWb q.pte = false) →
      (new.filter fun y => y.kind == .store && y.line == lineNo p.pa).length = 1

/-- An instruction of `s`, whose translations left `u`, has sent its writes; no register but those of `rs`, and no byte,
changes before they are performed at their homes. -/
structure SendsWrites (s u t : State) (ps : List Placed) (rs qs : List Nat) : Prop where
  pc : t.me.pc = s.me.pcAfter
  keeps : KeepsRegs s t rs qs
  bytes : (∀ p ∈ ps, pteAcc p.pte = false) → SameBytes u t

/-- A release at .pool or .sys has nothing to wait for and no lost write to report (R375, R376). -/
def State.mayRelease (s : State) (rel : Bool) (scope : BitVec 3) : Bool :=
  !rel || scope.toNat < 4 || (s.me.lostWrite.isNone && s.allPerformed s.cur.warp s.nextId scope)

/-- The place of each lane of E in the scratch of the executing warp's group: every address is a multiple of the size
and lies whole in a bank in SCRATCH mode that has no switch to make, and no MATX operation has still to move a byte of it; and the
core has a request entry for each of their lines (R260, R291, R292, R300, R302, R326). -/
def State.InScratch (s : State) (e : Mask) (n : Nat) (f : Nat → Word) (at_ : Nat → Nat × Nat) : Prop :=
  (∀ l, l < 32 → e.getLsbD l = true → (f l).toNat % n = 0 ∧ s.scratchRange s.me.group (f l) n = some (at_ l) ∧
    s.scratchWaits s.me.group (at_ l).1 (at_ l).2 n = false ∧ s.matxMeetsScr (at_ l).1 (at_ l).2 n = false) ∧
  s.lacksEntries ((lanesOf e).map fun l => lineNo (scratchKey (at_ l).1 (at_ l).2)) = false

/-! ## Engine and matrix operations -/

/-- The checks of an instruction pass: they leave `u` and hand on `x`. -/
def Passes {α : Type} (check : (α → State → State) → State) (x : α) (u : State) : Prop := ∀ k, check k = k x u
/-- The checks of an instruction pass: they leave `u`. -/
def PassesOn (check : (State → State) → State) (u : State) : Prop := ∀ k, check k = k u

/-- E holds every lane that has not exited, no acquire holds the instruction back, and its class has room
(R305, R339, R351, R367). -/
def State.mayQueue (s : State) (cls : Nat) : Bool := !s.acquiring s.cur.warp && s.me.outstanding cls < 63

/-- An engine operation has entered its class, and nothing else has changed for the warp (R304, R305). -/
structure Queues (s u t : State) (cls : Nat) (scope : BitVec 3) (work : EngWork) : Prop where
  pc : t.me.pc = s.me.pcAfter
  eng : t.me.eng = s.me.eng ++ [{ id := u.nextId, cls := cls, scope := scope, work := work, pages := work.named.filterMap Run.range }]
  matx : t.me.matx = s.me.matx
  keeps : KeepsRegs s t [] []

/-- An engine operation of a warp goes on with other work. -/
def State.working (t : State) (w id : Nat) (x : EngWork) : State := t.modEng w id fun o => { o with work := x }

/-- A part of an engine operation has been done, which took `v` to `u`: it is over, as `done` says, where it has left no write on its
way, and otherwise goes on as `next` says once those are performed (R305, R340, R372). -/
def Moved (v u : State) (w id : Nat) (next : EngNext) (done t : State) : Prop :=
  (u.newWrites v.nextId = [] → t = done) ∧
  ∀ i l, u.newWrites v.nextId = i :: l → t = u.working w id (.writing (i :: l) next)

/-- A MATX operation has entered its class, and nothing else has changed for the warp (R259, R305). -/
structure QueuesMatx (s u t : State) (k : AccNum) (scope : BitVec 3) (due : Nat) (work : MatxWork) : Prop where
  pc : t.me.pc = s.me.pcAfter
  matx : t.me.matx = s.me.matx ++ [{ id := u.nextId, k := k.toNat, work := work, started := false, streamed := false,
                                     due := due, out := none, flags := 0, scope := scope, sent := none }]
  eng : t.me.eng = s.me.eng
  strands : t.me.strands = s.me.strands
  keeps : KeepsRegs s t [] []

/-- The bytes are on their way to their home as writes of the device, which is all that `t` has and `s` has not (R3, R435). -/
structure Sends (s t : State) (pa : Nat) (bs : List MarkedByte) : Prop where
  bytes : ∀ i, i < bs.length → ∃ y ∈ t.writes, s.nextId ≤ y.id ∧ y.id < t.nextId ∧ y.kind = .dev .put ∧ y.warp = none ∧
    y.line = lineNo (pa + i) ∧ y.mask.getLsbD ((pa + i) % 128) = true ∧
    lineByte y.data.bits ((pa + i) % 128) = (bs.getD i (0, false)).1
  rest : { t with writes := s.writes, nextId := s.nextId } = s ∧ s.writes <+: t.writes

/-- A warp other than by its wait, its counts and its special fields stays as it was: registers, predicates, path,
strands and what it has outstanding. -/
structure Untouched (s t : State) (w : Nat) : Prop where
  regs : (t.warp w).regs = (s.warp w).regs ∧ (t.warp w).preds = (s.warp w).preds
  path : (t.warp w).pc = (s.warp w).pc ∧ (t.warp w).mask = (s.warp w).mask ∧ (t.warp w).join = (s.warp w).join ∧
    (t.warp w).pid = (s.warp w).pid ∧ (t.warp w).dstack = (s.warp w).dstack ∧ (t.warp w).cstack = (s.warp w).cstack
  strands : (t.warp w).strands = (s.warp w).strands
  others : ∀ v, v ≠ w → t.warp v = s.warp v

/-- Every warp stays as it was but for what holds its engine and MATX operations under WB (R322). -/
def SameButHolds (s t : State) : Prop :=
  ∀ w, (t.warp w).eng.map EngOp.id = (s.warp w).eng.map EngOp.id ∧ (t.warp w).matx.map MatxOp.id = (s.warp w).matx.map MatxOp.id ∧
    { t.warp w with eng := (s.warp w).eng, matx := (s.warp w).matx } = s.warp w

end Sys2Proof.Machine
end

