-- ==== Sys2Proof/Certificates/Slice0/Obligations.lean ====
section
/-! DEFINITION. The statements about the model that are to be proved. -/

open Sys2Proof Sys2Proof.Machine

/-! ## Decoding -/

/-- The words that R68, R72 and R75 spell out bit by bit, and words of other families written out from their encodings,
decode to the instructions they stand for. -/
def Obligations.WordsDecode : Prop :=
  decodeWord 0x40F0080040000000 = .movi { gp := 15, gn := false, fe := 0 } 8 0x40000000 ∧
  decodeWord 0x0238000000500009 = .bra { gp := 3, gn := true, fe := 0 } 5 9 ∧
  decodeWord 0x02F000FFFFD00001 = .bra { gp := 15, gn := false, fe := 0 } 0xFFFFD 1 ∧
  decodeWord (0x20#8 ++ 15#4 ++ 0#1 ++ 0#3 ++ 6#8 ++ 2#8 ++ 4#8 ++ 0#8 ++ (0#1 ++ 0#1 ++ 0#3 ++ 1#1 ++ 2#2) ++ 0#8) =
    .iadd { gp := 15, gn := false, fe := 0 } { w64 := false, fz := false, rm := 0, sat := true, sg := 2 } 6 2 4 ∧
  decodeShort (0x08#7 ++ 3#3 ++ 0#6) 0 = .afadd { sg := false, c := false, n := false, q := false } 3 ∧
  decodeShort (0x04#7 ++ 0#3 ++ 0#6) 0x1234 = .amovi false false 0x1234 ∧
  decodeWord (0xFF#8 ++ 0#56) = .reservedOpcode (0xFF#8 ++ 0#56) ∧
  decodeShort 0xFFFF 0 = .reservedSop 0xFFFF

/-- R86: decoding the word of a well-formed long-form instruction gives it back, with every operand. -/
def Obligations.LongFormRoundTrip : Prop :=
  ∀ (i : Instr) (w : LongWord), i.WellFormed → encodeLong i = some w → decodeWord w.toBits = i

/-- R85: decoding the parcel of a well-formed strand instruction, with its extension parcel, gives it back. -/
def Obligations.ParcelRoundTrip : Prop :=
  ∀ (i : Instr) (x : BitVec 16) (l : List (BitVec 16)), i.WellFormed → encodeParcels i = x :: l →
    decodeShort x (l.headD 0) = i ∧ l.length = (if isAmovi x then 1 else 0)

/-- R84 to R86, R131: a word or a parcel that decodes is well formed, and one that does not raises ILLEGAL: a code word
in the lanes that a valid guard field selects, a parcel in its segment's lanes. That a word whose guard field is 12 to 14 raises it in all
lanes of the execution mask is the model's reading (log 21). -/
def Obligations.ReservedCodeRaisesIllegal : Prop :=
  (∀ x i, decodeLong (LongWord.ofBits x) = some i → i.WellFormed) ∧
  (∀ x y i, decodeParcel x y = some i → i.WellFormed) ∧
  (∀ (s : State) (x : BitVec 64), decodeLong (LongWord.ofBits x) = none → s.cur.warp < s.warps.length →
    s.cur.unit = 0 → s.me.allReady [(bitsAt x 52 4).toNat] = true →
    ∃ t, exec (decodeWord x) s = .next t ∧
      Raised s t .illegal
        (if (bitsAt x 52 4).toNat < 12 ∨ bitsAt x 52 4 = 15#4 then
          s.me.activeSet (some { gp := bitsAt x 52 4, gn := bitAt x 51, fe := 0 }) else s.me.mask)
        (BitVec.ofNat 64 ((s.me.rep.map fun r => r.idx).getD 0)) 0) ∧
  (∀ (s : State) (x y : BitVec 16), decodeParcel x y = none → s.cur.warp < s.warps.length →
    ∃ t, exec (decodeShort x y) s = .next t ∧ Raised s t .illegal (s.me.strand s.k).seg.mask 0 0)

/-! ## One step -/

/-- R69, R81, R106, R158, R174, R176, R239, R433: when the spine of the warp whose turn it is may issue, its path
neither ends nor gives way, and its PC stands at a loaded code word, the step executes the instruction that the word
decodes to (in a REP, with the fields that it moves), notes the unit as the one that its cluster chose and the cluster as used in this
clock, writes the stack entries that leave the chip (R160), and then keeps the clocks and settles what waits; while a result
that the instruction reads or writes is on its way, or the unit of the cluster that it needs is held, it does not issue, and neither
does it while a unit is ready that its cluster takes before it. Whose turn it is, the model takes from its agenda or from a free
value (log 2). -/
def Obligations.StepRunsTheSpine : Prop :=
  ∀ (s a b u : State) (dt w : Nat) (x : BitVec 64) (c : ClusterUnit), s.nextTurn = ((dt, .spine w), a) → b = a.tick dt →
    c = b.clusterUnit w none → u = { b with cur := { b.cur with warp := w, unit := 0 } } →
    ((b.unitsAhead c).all (b.passes exec) = false → step s = .next (State.keepClocks (.spine w) b b).settleTurn) ∧
    ((b.unitsAhead c).all (b.passes exec) = true → u.mayIssue w 0 = true → u.me.flowLost = false → (u.me.badArea && !u.me.handler) = false → u.me.atJoin = false →
    u.me.switchDue = false → offOf u.me.pc % 8 = 0 → (u.me.resumed = true → offOf u.me.pc < 0x10000) →
    u.code w u.me.pc = some x →
    ∃ i, (u.me.rep = none → i = decodeWord x) ∧
      (∀ r, u.me.rep = some r → i = match repeatedWord (LongWord.ofBits x) r.str r.idx with
        | some y => decodeWord y.toBits
        | none => .reservedOpcode x) ∧
      (u.me.awaits (u.usesOf i) i u.clock = false → u.unitBusy w 0 i = false →
        ∃ t, exec i (u.useOverlay w (ovlOf u.me.pc)) = .next t ∧
          step s = .next (State.keepClocks (.spine w) b (b.spillStacks (b.credit t c))).settleTurn) ∧
      (u.me.awaits (u.usesOf i) i u.clock = true ∨ u.unitBusy w 0 i = true →
        step s = .next (State.keepClocks (.spine w) b u).settleTurn))

/-- R76 to R78, R106, R124 to R126: when a started segment is the oldest of a strand that may issue, and its PC stands
at a parcel of it, the step executes the parcel, unless strand state that the parcel reads or writes has still to
receive a result, or the unit of the cluster that it needs is held, or a unit is ready that its cluster takes before it: then it does
not issue; an event of the device whose turn it is has its meaning; and then the clocks are kept and what waits is settled. Whose turn
it is, the model takes from its agenda or from a free value (log 2). -/
def Obligations.StepRunsTheParcelOrEvent : Prop :=
  (∀ (s a b u v : State) (dt w k : Nat) (g : Segment) (r : List Segment) (x : BitVec 16) (c : ClusterUnit),
     s.nextTurn = ((dt, .strand w k), a) → b = a.tick dt → c = b.clusterUnit w (some k) →
     (b.unitsAhead c).all (b.passes exec) = true →
     u = { b with cur := { b.cur with warp := w, unit := k + 1 } } →
     u.mayIssue w (k + 1) = true → u.me.handler = false → (u.me.strand k).segs = g :: r → g.started = true →
     (u.me.strand k).earliest ≤ u.clock → bitAt u.me.badStpc k = false → g.index < segLen g.hdr →
     u.parcel w g.pc = some x → (isAmovi x = true → g.index + 1 < segLen g.hdr) →
     v = u.useOverlay w (ovlOf g.pc) → ∀ i, i = decodeShort x ((u.parcel w (g.pc + 2)).getD 0) →
     ((u.me.strand k).awaits i u.clock = false → u.unitBusy w (k + 1) i = false →
       ∃ t, exec i v = .next t ∧ step s = .next (State.keepClocks (.strand w k) b (b.spillStacks (b.credit t c))).settleTurn) ∧
     ((u.me.strand k).awaits i u.clock = true ∨ u.unitBusy w (k + 1) i = true →
       step s = .next (State.keepClocks (.strand w k) b u).settleTurn)) ∧
  (∀ (s a b : State) (dt w k line : Nat) (i : Instr), s.nextTurn = ((dt, .event w k line i), a) → b = a.tick dt →
     Instr.isEvent i = true →
     ∃ t, exec i { b with cur := { warp := w, unit := k + 1, line := line } } = .next t ∧
       step s = .next (State.keepClocks (.event w k line i) b (b.spillStacks t)).settleTurn)

/-- Every step gives a next state, but for a spine whose turn it is after its warp's save area was written by a program outside the
warp's handler (R168): only there does a run stop, with `controlFlowUndefined`, in that spine's turn or in one that its cluster gives
to a spine, never in a strand's or an event's. That the model stops there, and at the spine's turn, is its reading of a rule that calls
the control flow undefined (log 19). -/
def Obligations.OnlyLostControlFlowStops : Prop :=
  (∀ i s, ∃ t, exec i s = .next t) ∧
  (∀ s, (∃ t, step s = .next t) ∨ step s = .fault .controlFlowUndefined) ∧
  (∀ s dt x a, s.nextTurn = ((dt, x), a) → step s = .fault .controlFlowUndefined →
     match x with
     | .spine w => (s.warp w).flowLost = true
     | .cluster core half k => ∃ u ∈ (a.tick dt).unitOrder core half k, u.strand = none
     | .strand .. | .event .. => False)

/-- R197, R198, R486: a step keeps GTIME at the nanoseconds of CLOCK, at 850 MHz at most and 475 MHz at least. -/
def Obligations.EveryStepKeepsTheClocks : Prop :=
  ∀ s t : State, s.Clocked → step s = .next t → t.Clocked

/-! ## Before an effect -/

/-- R39, R40, R69, R86, R114, R336, R454: what stops a long-form instruction before its effect, in this order: it waits
for a guard predicate that is still to be written; a word that is illegal in itself, in its registers or in the warp's
mode raises ILLEGAL; a poisoned guard raises POISON with extra 0xFE in the lanes of the mask that it poisons; and after
the checks of its lanes and its format slot an instruction waits for an empty destination, raises EMPTY for an empty
source whose FE bit is set and waits for another, waits for a predicate, and raises POISON for a poisoned operand. The
order of the checks is the model's reading (log 20). -/
def Obligations.PrologueStops : Prop :=
  ∀ (s t : State) (i : Instr) (e : Mask), (encodeLong i).isSome = true → e = s.me.activeSet i.hd → exec i s = .next t →
    (s.me.allReady [(guardOf i).toNat] = false → t = s.block (.pred (guardOf i).toNat)) ∧
    (s.me.allReady [(guardOf i).toNat] = true →
      ((i.legal && (s.usesOf i).inRange s.me.regs.length && !i.barred s.me.handler) = false → t = s.illegal e) ∧
      ((i.legal && (s.usesOf i).inRange s.me.regs.length && !i.barred s.me.handler) = true →
        let p := s.me.mask &&& (s.me.pred (guardOf i)).poison
        (p ≠ 0 → t = s.raise .poison p 0xFE) ∧
        (p = 0 → ∀ u, s.early i e = some u → t = u) ∧
        (p = 0 → s.early i e = none →
          (∀ r, ((s.usesOf i).list.flatMap Use.dests).find? (fun r => !(s.me.reg r).full) = some r → t = s.block (.reg r)) ∧
          (s.me.allFull ((s.usesOf i).list.flatMap Use.dests) = true →
            (∀ b r, s.me.emptySource (s.usesOf i) ((i.hd.map fun h => h.fe).getD 0) = some (b, r) →
              t = if b then s.raise .empty e (BitVec.ofNat 64 r) else s.block (.reg r)) ∧
            (s.me.allFull ((s.usesOf i).list.flatMap Use.sources) = true →
              (s.me.allReady i.predsUsed = false → ∃ p ∈ i.predsUsed, t = s.block (.pred p)) ∧
              (s.me.allReady i.predsUsed = true → ∀ x l, s.poisonOf i e = x :: l →
                t = s.raise .poison x.2 x.1))))))

/-! ## Integer and logical results -/

/-- R189, R191, R193: IADD, IADDI, ISUB, IMUL, IMULH, IMAD, IMADW, IMIN, IMAX, IABS, IADD64 and LEA complete with their
exact results modulo 2^32 or 2^64 where SAT is clear; with SAT, IADD, ISUB, IMUL, IMAD, IABS, IMADW and IADD64 clamp
their exact results to the range of their type, and SAT enters FPFL when a lane was clamped; nothing else changes. -/
def Obligations.IntegerResults : Prop :=
  (∀ (s : State) (i : Instr) (e : Mask) (w : Bool) (d : GReg) (f : Nat → DWord), s.Ready i e →
     integerResult s.me i = some (w, d, f) → ∃ t, exec i s = .next t ∧ WritesReg s t i w d e f 0) ∧
  (∀ (s : State) (i : Instr) (e : Mask) (w : Bool) (d : GReg) (f : Nat → DWord × Bool), s.Ready i e →
     saturatedResult s.me i = some (w, d, f) →
     ∃ t, exec i s = .next t ∧ WritesReg s t i w d e (fun l => (f l).1) (satFlags e f))

/-- R190: IDIV and IREM truncate towards zero, the remainder with the sign of the dividend; a zero divisor gives all
ones and the dividend, or under MODE.EIDZ raises IDIV0 in the lanes that divide by zero and writes nothing; -2^31 / -1
gives -2^31, or with SAT 2^31 - 1. -/
def Obligations.Division : Prop :=
  ∀ (s : State) (h : Hd) (m : MByte) (d a b : GReg) (e z : Mask),
    z = (maskOf fun l => e.getLsbD l && s.me.lane b l == 0#32) →
    (s.Ready (.idiv h m d a b) e →
      (z ≠ 0 → bitAt s.me.mode 8 = true → ∃ t, exec (.idiv h m d a b) s = .next t ∧ Raised s t .idiv0 z 0 0) ∧
      ((z = 0 ∨ bitAt s.me.mode 8 = false) →
        let top := fun l => m.sat && m.sg != 1#2 && s.me.lane a l == 0x80000000#32 && s.me.lane b l == 0xFFFFFFFF#32
        ∃ t, exec (.idiv h m d a b) s = .next t ∧
          WritesReg s t (.idiv h m d a b) false d e
            (fun l => word (if s.me.lane b l = 0 then 0xFFFFFFFF else if top l then 0x7FFFFFFF
              else (quotRem m.sg (s.me.lane a l) (s.me.lane b l)).1))
            (if (lanesOf e).any top then 0x20 else 0))) ∧
    (s.Ready (.irem h m d a b) e →
      (z ≠ 0 → bitAt s.me.mode 8 = true → ∃ t, exec (.irem h m d a b) s = .next t ∧ Raised s t .idiv0 z 0 0) ∧
      ((z = 0 ∨ bitAt s.me.mode 8 = false) →
        ∃ t, exec (.irem h m d a b) s = .next t ∧
          WritesReg s t (.irem h m d a b) false d e
            (fun l => word (if s.me.lane b l = 0 then s.me.lane a l
              else (quotRem m.sg (s.me.lane a l) (s.me.lane b l)).2)) 0))

/-- R192: IADDX and ISUBX add three numbers, the second operand of ISUBX complemented, and the carry from the named
predicate; the low 32 bits go to D and bit 32 back to the predicate, in the lanes of E. -/
def Obligations.CarryChain : Prop :=
  ∀ (s : State) (h : Hd) (d a b : GReg) (p : PNum) (e : Mask) (sub : Bool) (i : Instr),
    i = (if sub then .isubx h d a b p else .iaddx h d a b p) → s.Ready i e →
    ∃ t, exec i s = .next t ∧
      (let sum := fun l => (s.me.lane a l).toNat +
          (if sub then 2 ^ 32 - 1 - (s.me.lane b l).toNat else (s.me.lane b l).toNat) +
          ((s.me.pred p).val.getLsbD l).toNat
       (∀ l, l < 32 → t.me.lane d l = if e.getLsbD l then BitVec.ofNat 32 (sum l) else s.me.lane d l) ∧
       (p ≠ 15#4 → ∀ l, l < 32 → (t.me.predAt p.toNat).val.getLsbD l =
         if e.getLsbD l then decide (2 ^ 32 ≤ sum l) else (s.me.predAt p.toNat).val.getLsbD l)) ∧
      Issued s t i 0 ∧ KeepsWarp s.me t.me [d.toNat] (if p = 15#4 then [] else [p.toNat]) ∧ KeepsRest s t

/-- R194, R195: AND, OR, XOR, LOPI, LSL, LSR, ASR, ROT, SHI, BFE, BFI, POPC, CLZ, FFS and BREV complete with their
results: shifts by any count from 0 to 255, and fields cut at bit 31. -/
def Obligations.LogicResults : Prop :=
  ∀ (s : State) (i : Instr) (e : Mask) (w : Bool) (d : GReg) (f : Nat → DWord), s.Ready i e →
    logicResult s.me i = some (w, d, f) → ∃ t, exec i s = .next t ∧ WritesReg s t i w d e f 0

/-- R187, R188, R196, R197, R202 to R205, R245, R477: MOV, MOVI, MOVS, SYSR, SEL, P2G, VOTE.ballot, MBCNT, MATCH, REDUX
and FCLASS complete with their results; a SYSR of a counter waits for what is ordered before it, as an access does: for the acquires
of its warp, and that of SUBUPD and SUBSKIP for the writes that a join or a WSYNC orders before it. Where that wait stands is the
model's reading (log 9). -/
def Obligations.MoveResults : Prop :=
  (∀ (s : State) (i : Instr) (e : Mask) (w : Bool) (d : GReg) (f : Nat → DWord), s.Ready i e →
    moveResult s e i = some (w, d, f) → ∃ t, exec i s = .next t ∧ WritesReg s t i w d e f 0) ∧
  (∀ (s : State) (h : Hd) (idx : Byte) (d : GReg) (e : Mask), s.ReadySome (.sysr h idx d) e →
     (0x10 ≤ idx.toNat ∧ s.acquiring s.cur.warp = true ∨ s.sysrWaits idx e = true) →
     exec (.sysr h idx d) s = .next (s.block .fence))

/-- R185 to R187, R202: ICMP, ICMPI, PLOP and VOTE.any, .all and .uni complete with a predicate in the lanes of E, and
G2P writes each predicate that its mask names from the bit of its number in each lane of E, and no other. -/
def Obligations.PredicateResults : Prop :=
  (∀ (s : State) (i : Instr) (e : Mask) (d : PNum) (f : Nat → Bool), s.Ready i e →
     decidedResult s.me e i = some (d, f) → ∃ t, exec i s = .next t ∧ WritesPred s t i d e f 0) ∧
  (∀ (s : State) (h : Hd) (a : GReg) (m : BitVec 12) (e : Mask), s.Ready (.g2p h a m) e →
     ∃ t, exec (.g2p h a m) s = .next t ∧
       (∀ p, p < 12 → m.getLsbD p = true → ∀ l, l < 32 → (t.me.predAt p).val.getLsbD l =
         if e.getLsbD l then (s.me.lane a l).getLsbD p else (s.me.predAt p).val.getLsbD l) ∧
       Issued s t (.g2p h a m) 0 ∧
       KeepsWarp s.me t.me [] ((List.range 12).filter fun p => m.getLsbD p) ∧ KeepsRest s t)

/-- R200, R201, R206, R454: SHFL gives each lane of E the word or pair of the lane that its mode and count name, and
RDLANE gives every lane of E that of the lane named, or of the lowest lane of E; a poisoned word of another lane raises
POISON in the lanes that would receive it, with its register, the low word of a pair before the high one, and a poisoned lane number of
RDLANE raises it in the lowest lane of E, which reads it. -/
def Obligations.LaneExchange : Prop :=
  (∀ (s : State) (h : Hd) (m : MByte) (mode : BitVec 2) (d a b : GReg) (e : Mask),
    s.Ready (.shfl h m mode d a b) e → (s.me.reg b.toNat).poison &&& e = 0 →
    let j := fun l => shflFrom mode ((s.me.lane b l).toNat % 32) l
    let bad := fun r => maskOf fun l => e.getLsbD l && (s.me.reg r).poison.getLsbD (j l)
    ((bad a.toNat ≠ 0) → ∃ t, exec (.shfl h m mode d a b) s = .next t ∧
      Raised s t .poison (bad a.toNat) (a.setWidth 64) 0) ∧
    (bad a.toNat = 0 → m.w64 = true → bad (a.toNat + 1) ≠ 0 → ∃ t, exec (.shfl h m mode d a b) s = .next t ∧
      Raised s t .poison (bad (a.toNat + 1)) (BitVec.ofNat 64 (a.toNat + 1)) 0) ∧
    (bad a.toNat = 0 → (m.w64 = true → bad (a.toNat + 1) = 0) →
      ∃ t, exec (.shfl h m mode d a b) s = .next t ∧
        WritesReg s t (.shfl h m mode d a b) m.w64 d e (fun l => s.me.wide m.w64 a (j l)) 0)) ∧
  (∀ (s : State) (h : Hd) (first w64 : Bool) (d a b : GReg) (e : Mask),
    s.ReadySome (.rdlane h first w64 d a b) e →
    (first = false → (s.me.reg b.toNat).poison.getLsbD (lowest e) = false) →
    let j := if first then lowest e else (s.me.lane b (lowest e)).toNat % 32
    (s.me.reg a.toNat).poison.getLsbD j = false →
    (w64 = true → (s.me.reg (a.toNat + 1)).poison.getLsbD j = false) →
    ∃ t, exec (.rdlane h first w64 d a b) s = .next t ∧
      WritesReg s t (.rdlane h first w64 d a b) w64 d e (fun _ => s.me.wide w64 a j) 0) ∧
  (∀ (s : State) (h : Hd) (first w64 : Bool) (d a b : GReg) (e : Mask),
    s.ReadySome (.rdlane h first w64 d a b) e →
    let j := if first then lowest e else (s.me.lane b (lowest e)).toNat % 32
    let bad := fun r => (s.me.reg r).poison.getLsbD j
    (bad a.toNat = true → ∃ t, exec (.rdlane h first w64 d a b) s = .next t ∧ Raised s t .poison e (a.setWidth 64) 0) ∧
    (bad a.toNat = false → w64 = true → bad (a.toNat + 1) = true → ∃ t, exec (.rdlane h first w64 d a b) s = .next t ∧
      Raised s t .poison e (BitVec.ofNat 64 (a.toNat + 1)) 0) ∧
    (bad a.toNat = false → (w64 = true → bad (a.toNat + 1) = false) → first = false →
      (s.me.reg b.toNat).poison.getLsbD (lowest e) = true → ∃ t, exec (.rdlane h first w64 d a b) s = .next t ∧
        Raised s t .poison (1#32 <<< lowest e) (b.setWidth 64) 0)) ∧
  (∀ (s : State) (h : Hd) (first w64 : Bool) (d a b : GReg), s.Ready (.rdlane h first w64 d a b) 0 →
    ∃ t, exec (.rdlane h first w64 d a b) s = .next t ∧ OnlyIssued s t (.rdlane h first w64 d a b))

/-! ## Floating point -/

/-- R19, R136 to R139, R143, R225, R240 to R255: every f32, f64, packed, conversion and quantisation instruction
completes with its result and its flags when no lane of E raises an exception that MODE enables, and otherwise raises
FPEXC in exactly those lanes, with their flags in the extra field, and writes nothing; FCMP and DCMP do the same with a
predicate. -/
def Obligations.FloatingResults : Prop :=
  (∀ (s : State) (i : Instr) (e : Mask) (w : Bool) (d : GReg) (f : Nat → FRes), s.Ready i e →
     floatResult s e i = some (w, d, f) →
     let bad := raisingLanes s.me.mode e fun l => (f l).fl
     (bad = 0 → ∃ t, exec i s = .next t ∧ WritesReg s t i w d e (codes f) (orFlags e fun l => (f l).fl)) ∧
     (bad ≠ 0 → ∃ t, exec i s = .next t ∧
       Raised s t .fpexc bad ((orFlags bad (fun l => (f l).fl) &&& 0x1F).setWidth 64) 0)) ∧
  (∀ (s : State) (i : Instr) (e : Mask) (d : PNum) (f : Nat → Bool × Byte), s.Ready i e →
     judgedResult s.me i = some (d, f) →
     let bad := raisingLanes s.me.mode e fun l => (f l).2
     (bad = 0 → ∃ t, exec i s = .next t ∧ WritesPred s t i d e (fun l => (f l).1) (orFlags e fun l => (f l).2)) ∧
     (bad ≠ 0 → ∃ t, exec i s = .next t ∧
       Raised s t .fpexc bad ((orFlags bad (fun l => (f l).2) &&& 0x1F).setWidth 64) 0))

/-- R19: a lane raises FPEXC exactly where it is active and one of its flags is enabled in MODE. -/
def Obligations.FpexcLanes : Prop :=
  ∀ (mode : Word) (e : Mask) (fl : Nat → Byte) (l : Nat), l < 32 →
    ((raisingLanes mode e fl).getLsbD l = true ↔
      e.getLsbD l = true ∧ ∃ k, k < 5 ∧ (fl l).getLsbD k = true ∧ mode.getLsbD (3 + k) = true)

/-- R147, R231, R250: FREDUX and ARED combine the lanes in five steps, at distances 1, 2, 4, 8 and 16, a lane outside the active
set counting as -0.0 in a sum and as a NaN in a minimum or maximum, and every active lane receives the value of its own lane; a sum
rounds to nearest even at every step, and subnormal f32 words are flushed where flushing is in force. While MODE enables no flag, and
more widely while no combination raises an enabled one, they complete, the flags of every combination entering FPFL; a flag that is
enabled raises FPEXC in every active lane, with all flags of the combinations in its extra field. ARED.iadd gives the sum of the
accumulators modulo 2^32, without a flag. -/
def Obligations.Reductions : Prop :=
  (∀ (s : State) (h : Hd) (op : BitVec 2) (f64 fz : Bool) (d a : GReg) (e : Mask) (g : Nat → Nat → FRes) (x : Nat → Nat),
     let ftz := !f64 && (modeFtz s.me.mode || fz)
     s.ReadySome (.fredux h op f64 fz d a) e →
     g = combined (if f64 then f64F else f32F) (op == 0#2) (op == 2#2) ftz →
     (x = fun l => if e.getLsbD l then (if f64 then (s.me.lane2 a l).toNat else (flushWord ftz (s.me.lane a l)).toNat)
       else identityOf f64 (op == 0#2)) →
     (enabledFlags s.me.mode = 0 → ∃ t, exec (.fredux h op f64 fz d a) s = .next t ∧
       WritesReg s t (.fredux h op f64 fz d a) f64 d e (fun l => BitVec.ofNat 64 (exchanged g x 5 l)) (exchangeFlags g x)) ∧
     ((exchangeFlags g x &&& enabledFlags s.me.mode) = 0 → ∃ t, exec (.fredux h op f64 fz d a) s = .next t ∧
       WritesReg s t (.fredux h op f64 fz d a) f64 d e (fun l => BitVec.ofNat 64 (exchanged g x 5 l)) (exchangeFlags g x)) ∧
     ((exchangeFlags g x &&& enabledFlags s.me.mode) ≠ 0 → ∃ t, exec (.fredux h op f64 fz d a) s = .next t ∧
       Raised s t .fpexc e ((exchangeFlags g x &&& 0x1F).setWidth 64) 0)) ∧
  (∀ (s : State) (st : Strand) (op : BitVec 2) (e : Mask), st = (s.me.strand s.k).view → e = st.lanes false →
     s.parcelReady { acc := true } false = true →
     (op = 3#2 → ∃ t, exec (.ared op) s = .next t ∧
       ParcelDone s t (.ared op) 2 (accSet st e fun _ => ((lanesOf e).map st.acc.at').foldl (· + ·) 0) 0) ∧
     (op ≠ 3#2 → e ≠ 0 → ∀ (g : Nat → Nat → FRes) (x : Nat → Nat),
       g = combined f32F (op == 0#2) (op == 1#2) (modeFtz s.me.mode) →
       (x = fun l => if e.getLsbD l then (flushWord (modeFtz s.me.mode) (st.acc.at' l)).toNat else identityOf false (op == 0#2)) →
       (enabledFlags s.me.mode = 0 → ∃ t, exec (.ared op) s = .next t ∧
         ParcelDone s t (.ared op) 2 (accSet st e fun l => BitVec.ofNat 32 (exchanged g x 5 l)) (exchangeFlags g x)) ∧
       ((exchangeFlags g x &&& enabledFlags s.me.mode) = 0 → ∃ t, exec (.ared op) s = .next t ∧
         ParcelDone s t (.ared op) 2 (accSet st e fun l => BitVec.ofNat 32 (exchanged g x 5 l)) (exchangeFlags g x)) ∧
       ((exchangeFlags g x &&& enabledFlags s.me.mode) ≠ 0 → ∃ t, exec (.ared op) s = .next t ∧
         Raised s t .fpexc e ((exchangeFlags g x &&& 0x1F).setWidth 64) 0)))

/-- R213, R215 to R217, R219, R241: every code of a format that is no NaN names a value that the format delivers back as
that code, without a flag, under every direction of rounding; a magnitude rounded to an integer lies within one unit of
it, within half a unit under the directions to nearest, a tie going to the even neighbour or away from zero, and on the
side that a directed rounding names; and the integer root under the square root is exact. -/
def Obligations.NumberFormats : Prop :=
  (∀ (f : BinFmt) (c : RndCtl) (x : Nat), f = f64F ∨ f = f32F ∨ f = f16F ∨ f = bf16F → c.ftz = false →
     x < 2 ^ f.width → (f.val x).isNan = false → f.deliver c (f.val x) = { code := x, fl := 0 }) ∧
  (∀ (rnd : Rnd) (neg : Bool) (m k r : Nat) (exact : Bool), (r, exact) = roundShift rnd neg m k →
     (exact = true ↔ m = r * 2 ^ k) ∧
     m < (r + 1) * 2 ^ k ∧ r * 2 ^ k < m + 2 ^ k ∧
     (rnd = .rz → r * 2 ^ k ≤ m) ∧ (rnd = .ru → if neg then r * 2 ^ k ≤ m else m ≤ r * 2 ^ k) ∧
     (rnd = .rd → if neg then m ≤ r * 2 ^ k else r * 2 ^ k ≤ m) ∧
     ((rnd = .rne ∨ rnd = .rna) → 2 * m ≤ (2 * r + 1) * 2 ^ k ∧ 2 * r * 2 ^ k ≤ 2 * m + 2 ^ k) ∧
     (rnd = .rne → exact = false → (2 * m = (2 * r + 1) * 2 ^ k ∨ 2 * r * 2 ^ k = 2 * m + 2 ^ k) → r % 2 = 0) ∧
     (rnd = .rna → exact = false → 2 * m ≠ (2 * r + 1) * 2 ^ k)) ∧
  (∀ n : Nat, isqrt n * isqrt n ≤ n ∧ n < (isqrt n + 1) * (isqrt n + 1))

/-! ## Parcels -/

/-- R124, R130, R135, R140, R142: AMOV, AMOVI, AFABS, AIADD, AISUB, AIMUL, AIMULH, AAND, AOR, AXOR, ASHL and ASHR
complete with a new accumulator in their lanes, and the strand moves on. -/
def Obligations.AccumulatorResults : Prop :=
  ∀ (s : State) (i : Instr) (st : Strand) (r : Reads) (q : Bool) (n : Nat) (f : Nat → Word),
    st = (s.me.strand s.k).view → accumulated st i = some (r, q, n, f) → s.parcelReady r q = true →
    ∃ t, exec i s = .next t ∧ ParcelDone s t i n (accSet st (st.lanes q) f) 0

/-- R19, R130, R135 to R139, R144, R145: the f32 parcels AFADD to ALOG2 and ACVT complete with a new accumulator and
their flags when no lane raises an exception that MODE enables, and otherwise raise FPEXC in exactly those lanes. -/
def Obligations.FloatParcelResults : Prop :=
  ∀ (s : State) (i : Instr) (st : Strand) (r : Reads) (q : Bool) (f : Nat → FRes),
    st = (s.me.strand s.k).view → accumulatedFl s.me.mode st i = some (r, q, f) → s.parcelReady r q = true →
    let e := st.lanes q
    let bad := raisingLanes s.me.mode e fun l => (f l).fl
    (bad = 0 → ∃ t, exec i s = .next t ∧
      ParcelDone s t i 2 (accSet st e fun l => BitVec.ofNat 32 (f l).code) (orFlags e fun l => (f l).fl)) ∧
    (bad ≠ 0 → ∃ t, exec i s = .next t ∧
      Raised s t .fpexc bad ((orFlags bad (fun l => (f l).fl) &&& 0x1F).setWidth 64) 0)

/-- R130, R135, R143, R146: MOVC writes the carry, AXCH exchanges it with the accumulator, ASEL takes its source where q
is set, ACMP writes q, and ASHFL takes the accumulator of another lane, staying where none is named; a poisoned one
raises POISON in the lanes that would take it. -/
def Obligations.StrandStateResults : Prop :=
  ∀ (s : State) (st : Strand) (m : PMod) (w : BitVec 3), st = (s.me.strand s.k).view →
    (m.c = false → s.parcelReady { win := some w, q := m.q } m.q = true →
      ∃ t, exec (.movc m w) s = .next t ∧
        ParcelDone s t (.movc m w) 2 (carrySet st (st.lanes m.q) (st.flipped m w)) 0) ∧
    (s.parcelReady { acc := true, carry := true, q := m.q } m.q = true →
      ∃ t, exec (.axch m) s = .next t ∧
        ParcelDone s t (.axch m) 2 (carrySet (accSet st (st.lanes m.q) st.carry.at') (st.lanes m.q) st.acc.at') 0) ∧
    (s.parcelReady { sourceReads m w false false with q := true } false = true →
      ∃ t, exec (.asel m w) s = .next t ∧
        ParcelDone s t (.asel m w) 2 (accSet st (st.lanes false &&& st.q) (st.flipped m w)) 0) ∧
    (∀ ty cond, s.parcelReady (sourceReads { m with q := false } w true false) false = true →
      let x := st.operand m w
      let r : Nat → Bool × Byte := fun l =>
        if ty = 0#2 then fpCompare cond (f32Of s.me.mode (st.acc.at' l)) (f32Of s.me.mode (x l))
        else (related cond (if ty = 1#2 then (st.acc.at' l).toInt else (st.acc.at' l).toNat)
          (if ty = 1#2 then (x l).toInt else (x l).toNat), 0)
      raisingLanes s.me.mode (st.lanes false) (fun l => (r l).2) = 0 →
      ∃ t, exec (.acmp m.c ty cond w) s = .next t ∧
        ParcelDone s t (.acmp m.c ty cond w) 2 (predSet st (st.lanes false) fun l => (r l).1)
          (orFlags (st.lanes false) fun l => (r l).2)) ∧
    (∀ (mode : BitVec 2) (lg : BitVec 3),
      s.parcelReady { win := if mode = 3#2 then some w else none } false = true →
      let d := 2 ^ lg.toNat
      let j : Nat → Option Nat := fun l =>
        if mode = 0#2 then some (l ^^^ d) else if mode = 1#2 then (if d ≤ l then some (l - d) else none)
        else if mode = 2#2 then (if l + d < 32 then some (l + d) else none)
        else some (((st.seg.slot w).val.at' l).toNat % 32)
      let bad := maskOf fun l => (st.lanes false).getLsbD l && (j l).any fun i => st.accP.getLsbD i
      (bad = 0 → ∃ t, exec (.ashfl mode lg w) s = .next t ∧
        ParcelDone s t (.ashfl mode lg w) 2
          (accSet st (maskOf fun l => (st.lanes false).getLsbD l && (j l).isSome) fun l => st.acc.at' ((j l).getD l)) 0) ∧
      (bad ≠ 0 → ∃ t, exec (.ashfl mode lg w) s = .next t ∧ Raised s t .poison bad 0xFF 0))

/-- R35, R43, R132 to R134, R141: ANOP only moves the strand on; AREP arms its body, or raises SEGMENT for a body that
no repetition may have; APUT writes the accumulator to a valid output that it has not put, marks it as put and
broadcasts it, to be delivered 6 clocks later; and for any other output it raises SEGMENT. -/
def Obligations.StrandFlow : Prop :=
  ∀ (s : State) (st : Strand), st = (s.me.strand s.k).view →
    (s.parcelReady {} false = true →
      (∃ t, exec .anop s = .next t ∧ ParcelDone s t .anop 2 st 0) ∧
      ∀ n : BitVec 6,
        let body := s.parcel s.cur.warp (st.seg.pc + 2)
        (st.seg.index + 1 < segLen st.seg.hdr → body.any badBody = false →
          ∃ t, exec (.arep n) s = .next t ∧ (t.me.strand s.k).arep = n.toNat + 1 ∧
            (t.me.strand s.k).acc = st.acc ∧ (t.me.strand s.k).seg.pc = st.seg.pc + (if 1 < st.arep then 0 else 2) ∧
            t.me.regs = s.me.regs ∧ t.me.pc = s.me.pc ∧ KeepsRest s t) ∧
        ((segLen st.seg.hdr ≤ st.seg.index + 1 ∨ body.any badBody = true) →
          ∃ t, exec (.arep n) s = .next t ∧ Raised s t .segment (st.lanes false) 0 0)) ∧
    (s.parcelReady { acc := true } false = true → ∀ o : BitVec 2,
      let r := segOut st.seg.hdr o.toNat
      ((segOutv st.seg.hdr o.toNat && !bitAt st.seg.puts o.toNat) = true → r.toNat < s.me.regs.length →
        ∃ t, exec (.aput o) s = .next t ∧
          (∀ l, l < 32 → t.me.lane r l = if (st.lanes false).getLsbD l then st.acc.at' l else s.me.lane r l) ∧
          (t.me.reg r.toNat).full = (s.me.reg r.toNat).full ∧
          (∀ q, q ≠ r.toNat → t.me.reg q = s.me.reg q) ∧
          t.me.bcasts = s.me.bcasts ++ [{ r := r, k := s.k, due := s.clock + 6 }] ∧
          bitAt (t.me.strand s.k).seg.puts o.toNat = true ∧ t.me.pc = s.me.pc ∧ KeepsRest s t) ∧
      ((segOutv st.seg.hdr o.toNat && !bitAt st.seg.puts o.toNat) = false →
        ∃ t, exec (.aput o) s = .next t ∧ Raised s t .segment st.seg.mask 0 0))

/-! ## Segments and slices -/

/-- R124, R125, R148 to R150: on a bound tile that no earlier tile instruction still writes, with row numbers and a column group
that the tile has, ASLC reads its element of each lane into the accumulator and ASTS writes the accumulator to it, where it stands from
4 clocks later on, in groups 4 to 7 of a t128p from 16 later on; a row or a group outside the tile raises ACC_SHAPE, and a slice
without a bound tile raises SEGMENT, but waits while an earlier tile instruction of its accumulator has still to be executed. -/
def Obligations.TileSlices : Prop :=
  (∀ (s : State) (st : Strand) (g : BitVec 3) (hi : Bool) (w : BitVec 3),
    st = (s.me.strand s.k).view →
    (let busy := s.me.tileBusy s.k (s.me.strand s.k).seg.seq
     let kind := segKind (s.me.strand s.k).seg.hdr
     (kind ≠ 2 ∨ (s.me.strand s.k).tile = none ∧ busy = false → s.cur.warp < s.warps.length →
       (∃ t, exec (.aslc g hi w) s = .next t ∧ Raised s t .segment (s.me.strand s.k).seg.mask 0 0) ∧
       ∃ t, exec (.asts g hi w) s = .next t ∧ Raised s t .segment (s.me.strand s.k).seg.mask 0 0) ∧
     (kind = 2 → (s.me.strand s.k).tile = none → busy = true →
       exec (.aslc g hi w) s = .next s ∧ exec (.asts g hi w) s = .next s)) ∧
    (∀ x : Tile, (s.me.strand s.k).tile = some x → segKind (s.me.strand s.k).seg.hdr = 2 →
      s.me.tileBusy s.k (s.me.strand s.k).seg.seq = false →
      let row := fun l => ((st.seg.slot w).val.at' l).toNat
      let e := st.lanes false
      let far := maskOf fun l => e.getLsbD l && decide (x.kind.rows ≤ row l)
      let shape := decide (x.kind.groups ≤ g.toNat) || (hi && x.kind != .t64d)
      (s.parcelReady { win := some w, acc := false } false = true → e ≠ 0 → (shape = true ∨ far ≠ 0) →
        ∃ t, exec (.aslc g hi w) s = .next t ∧
          Raised s t .accShape (if shape then e else far) (BitVec.ofNat 64 s.k) 0) ∧
      (s.parcelReady { win := some w, acc := false } false = true → shape = false → far = 0 → x.suspect = false →
        (∀ l, e.getLsbD l = true → (x.at' (row l) (32 * g.toNat + l)).poison = false) →
        ∃ t, exec (.aslc g hi w) s = .next t ∧
          ParcelDone s t (.aslc g hi w) 2
            (accSet st e fun l => (x.at' (row l) (32 * g.toNat + l)).bits.extractLsb' (if hi then 32 else 0) 32) 0) ∧
      (s.parcelReady { win := some w, acc := true } false = true → shape = false → far = 0 →
        st.tilePuts = [] → x.elems.Pairwise (fun a b => a.1 < b.1) →
        ∃ t, exec (.asts g hi w) s = .next t ∧ (t.me.strand s.k).tile = some x ∧
          (t.me.strand s.k).acc = st.acc ∧ t.me.regs = s.me.regs ∧ t.me.pc = s.me.pc ∧ KeepsRest s t ∧
          (let late := if x.kind = .t128p ∧ 4 ≤ g.toNat then 16 else 4
           (∀ c, c < s.clock + late → ((t.me.strand s.k).land c).tile = some x) ∧
           ∀ c, s.clock + late ≤ c → ((t.me.strand s.k).land c).tilePuts = [] ∧
             ∃ u, ((t.me.strand s.k).land c).tile = some u ∧ u.kind = x.kind ∧
             (∀ l, l < 32 → e.getLsbD l = true →
               (u.at' (row l) (32 * g.toNat + l)).bits.extractLsb' (if hi then 32 else 0) 32 = st.acc.at' l) ∧
             (∀ r c, r < x.kind.rows → c < x.kind.cols → (∀ l, l < 32 → e.getLsbD l = true → (r, c) ≠ (row l, 32 * g.toNat + l)) →
               u.at' r c = x.at' r c))))) ∧
  (∀ (s : State) (dt w k : Nat), w < s.warps.length → k < 8 → ((s.tick dt).warp w).strand k = ((s.warp w).strand k).land (s.clock + dt))

/-- R31, R33, R79, R80, R116 to R118: STRAND queues a segment whose header passes its checks: it is the youngest of its
accumulator, it has the active lanes, its valid outputs are empty, and each valid input that is full is captured in its
window while an empty one stays pending. -/
def Obligations.StrandQueuesASegment : Prop :=
  ∀ (s : State) (h : Hd) (k : AccNum) (ovl : Byte) (off : BitVec 16) (e : Mask) (x : BitVec 128),
    s.ReadySome (.strand h k ovl off) e → s.headerAt (codeAddr ovl off) = some x →
    (s.overlay s.cur.warp ovl.toNat).isSome = true →
    (s.headerOk k.toNat (codeAddr ovl off) x = false →
      ∃ t, exec (.strand h k ovl off) s = .next t ∧ Raised s t .segment e 0 0) ∧
    (s.headerOk k.toNat (codeAddr ovl off) x = true → (s.me.strand k.toNat).segs.length < 2 →
      (∀ r ∈ validOut x, (s.me.reg r.toNat).full = true) →
      ∃ t g, exec (.strand h k ovl off) s = .next t ∧
        (t.me.strand k.toNat).segs = (s.me.strand k.toNat).segs ++ [g] ∧
        g.hdr = x ∧ g.mask = e ∧ g.started = false ∧ g.pc = codeAddr ovl off + 16 ∧ g.puts = 0 ∧
        (∀ n, n < 8 → segInv x n = true → (s.me.reg (segIn x n).toNat).full = true →
          ∃ y, g.win[n]? = some y ∧ y.ready = true ∧ y.val = (s.me.reg (segIn x n).toNat).val) ∧
        (∀ n, n < 8 → segInv x n = true → (s.me.reg (segIn x n).toNat).full = false →
          ∃ y, g.win[n]? = some y ∧ y.ready = false ∧ y.src = segIn x n) ∧
        (∀ r ∈ validOut x, (t.me.reg r.toNat).full = false) ∧
        (∀ r, (∀ q ∈ validOut x, q.toNat ≠ r) → t.me.reg r = s.me.reg r) ∧
        t.me.pc = s.me.pcAfter ∧ KeepsRest s t)

/-- R35, R36, R43, R45, R47 to R49, R119, R121, R122, R132: SEGMENT_START starts the oldest segment of a strand, 4
clocks after its STRAND and after its predecessor; WAITS completes when every segment and broadcast that it names is
done, and waits otherwise; SQUASH cancels the segments that it names, and completes at once; AEND takes its segment from
the queue and marks the outputs that it did not put as full, and no other register; and APUT_DELIVERY marks the register
of a broadcast that is due as full. -/
def Obligations.SegmentControl : Prop :=
  ((∀ (s : State) (g : Segment) (l : List Segment), s.cur.warp < s.warps.length → 1 ≤ s.cur.unit → s.cur.unit ≤ 8 →
     (s.me.strand s.k).segs = g :: l → g.started = false → g.at_ + 4 ≤ s.clock → (s.me.strand s.k).earliest ≤ s.clock →
     s.me.handler = false → s.me.trap = none →
     ∃ t, exec .segmentStart s = .next t ∧ (t.me.strand s.k).segs = { g with started := true } :: l ∧
       t.me.regs = s.me.regs ∧ t.me.pc = s.me.pc ∧ KeepsRest s t) ∧
   (∀ (s : State) (h : Hd) (m : Byte) (e : Mask), s.Ready (.waits h m) e →
     (e = 0 ∨ s.me.segmentsDone m = true → ∃ t, exec (.waits h m) s = .next t ∧ OnlyIssued s t (.waits h m)) ∧
     (e ≠ 0 → s.me.segmentsDone m = false → exec (.waits h m) s = .next (s.block .segments))) ∧
   (∀ (s : State) (h : Hd) (m : Byte) (e : Mask), s.ReadySome (.squash h m) e →
     ∃ t, exec (.squash h m) s = .next t ∧ (∀ k, k < 8 → m.getLsbD k = true → (t.me.strand k).segs = []) ∧
       (∀ k, k < 8 → m.getLsbD k = true → ∀ g ∈ (s.me.strand k).segs, ∀ r ∈ g.unput, r.toNat < s.me.regs.length →
         (t.me.reg r.toNat).full = true) ∧
       (∀ r, (t.me.reg r).val = (s.me.reg r).val) ∧ t.me.pc = s.me.pcAfter ∧ KeepsRest s t)) ∧
  ((∀ (s : State) (g : Segment) (l : List Segment), s.parcelReady {} false = true → (s.me.strand s.k).segs = g :: l →
     ∃ t, exec .aend s = .next t ∧ (t.me.strand s.k).segs.length = l.length ∧ (t.me.strand s.k).arep = 0 ∧
       (∀ r ∈ g.unput, r.toNat < s.me.regs.length → (t.me.reg r.toNat).full = true) ∧
       (∀ r, (∀ x ∈ g.unput, x.toNat ≠ r) → t.me.reg r = s.me.reg r) ∧
       (∀ r l, ((t.me.reg r).val.at' l) = (s.me.reg r).val.at' l) ∧ t.me.pc = s.me.pc ∧ KeepsRest s t) ∧
   (∀ (s : State) (w r : Nat), w < s.warps.length → r < (s.warp w).regs.length →
     ((s.warp w).bcasts.any fun b => b.r.toNat == r && b.due ≤ s.clock) = true →
     ∃ t, exec (.aputDelivery w r) s = .next t ∧ ((t.warp w).reg r).full = true ∧
       ((t.warp w).reg r).val = ((s.warp w).reg r).val ∧ (∀ q, q ≠ r → (t.warp w).reg q = (s.warp w).reg q) ∧
       (∀ b ∈ (t.warp w).bcasts, b.r.toNat ≠ r)))

/-! ## Control flow -/

/-- R69: with an empty E an instruction has no effect; its checks still apply, and BRA's those of its own word. That its
checks still apply is the model's reading (log 18). -/
def Obligations.EmptyMaskHasNoEffect : Prop :=
  ∀ (s : State) (i : Instr), i.hd.isSome = true → (∀ h t j, i ≠ .bra h t j) → s.Ready i 0 →
    ∃ t, exec i s = .next t ∧ OnlyIssued s t i

/-- R82, R154, R155, R167, R175 to R177, R180 to R182: NOP only issues; JMP, JMPI, CALL, CALLI and RET go on at their
targets, a call with its return address pushed under the number of its path, and a return with the newest entry of that
number removed; a part of the mask, lanes that disagree, a target or a return address that is misplaced or in an overlay that is not
resident, a full call stack and a return without an entry raise their traps; REP has the next word issue N + 1 times, and raises ILLEGAL
before a body that may not repeat or whose moving fields name no register or predicate. -/
def Obligations.Transfers : Prop :=
  ((∀ s h e, s.Ready (.nop h) e → ∃ t, exec (.nop h) s = .next t ∧ OnlyIssued s t (.nop h)) ∧
   (∀ (s : State) (h : Hd) (i : Instr) (a : GReg) (ovl : Byte) (off : BitVec 16) (x : Word) (e : Mask) (c : Bool),
     ((i = .jmp h ovl off ∧ x = codeAddr ovl off ∧ c = false) ∨ (i = .call h ovl off ∧ x = codeAddr ovl off ∧ c = true) ∨
       (i = .jmpi h a ∧ x = s.me.lane a (lowest e) ∧ c = false) ∨ (i = .calli h a ∧ x = s.me.lane a (lowest e) ∧ c = true)) →
     s.ReadySome i e →
     let uses := i = .jmpi h a ∨ i = .calli h a
     let bad := maskOf fun l => e.getLsbD l && s.me.lane a l != s.me.lane a (lowest e)
     (e ≠ s.me.mask → ∃ t, exec i s = .next t ∧ Raised s t .targetMismatch e ((s.me.mask &&& ~~~e).setWidth 64) 0) ∧
     (e = s.me.mask →
       (uses → bad ≠ 0 → ∃ t, exec i s = .next t ∧ Raised s t .targetMismatch e (bad.setWidth 64) 0) ∧
       ((uses → bad = 0) →
         (offOf x % 8 ≠ 0 ∨ 0x10000 ≤ offOf x → ∃ t, exec i s = .next t ∧ Raised s t .align e 0 (x.setWidth 64)) ∧
         (offOf x % 8 = 0 → offOf x < 0x10000 → s.overlay s.cur.warp (ovlOf x) = none →
           ∃ t, exec i s = .next t ∧ Raised s t .ovmiss e (BitVec.ofNat 64 (ovlOf x)) 0) ∧
         (s.codeAt x → c = false → ∃ t, exec i s = .next t ∧ WentTo s t i x s.me.cstack) ∧
         (s.codeAt x → c = true → s.me.cstack.length < 4096 →
           ∃ t, exec i s = .next t ∧ WentTo s t i x ({ pc := s.me.pc + 8, pid := s.me.pid } :: s.me.cstack)) ∧
         (s.codeAt x → c = true → 4096 ≤ s.me.cstack.length →
           ∃ t, exec i s = .next t ∧ Raised s t .stackOverflow e 1 0)))) ∧
   (∀ (s : State) (h : Hd) (e : Mask), s.ReadySome (.ret h) e → e = s.me.mask →
     ((∀ c ∈ s.me.cstack, c.pid ≠ s.me.pid) → ∃ t, exec (.ret h) s = .next t ∧ Raised s t .targetMismatch e 0 0) ∧
     (∀ l c r, s.me.cstack = l ++ c :: r → c.pid = s.me.pid → (∀ y ∈ l, y.pid ≠ s.me.pid) →
       (offOf c.pc % 8 ≠ 0 ∨ 0x10000 ≤ offOf c.pc → ∃ t, exec (.ret h) s = .next t ∧ Raised s t .align e 0 (c.pc.setWidth 64)) ∧
       (offOf c.pc % 8 = 0 → offOf c.pc < 0x10000 → s.overlay s.cur.warp (ovlOf c.pc) = none →
         ∃ t, exec (.ret h) s = .next t ∧ Raised s t .ovmiss e (BitVec.ofNat 64 (ovlOf c.pc)) 0) ∧
       (s.codeAt c.pc → ∃ t, exec (.ret h) s = .next t ∧ WentTo s t (.ret h) c.pc (l ++ r)))) ∧
   (∀ (s : State) (h : Hd) (e : Mask), s.ReadySome (.ret h) e → e ≠ s.me.mask →
     ∃ t, exec (.ret h) s = .next t ∧ Raised s t .targetMismatch e ((s.me.mask &&& ~~~e).setWidth 64) 0)) ∧
  (∀ (s : State) (str : BitVec 4) (n : BitVec 8) (e : Mask), s.Ready (.rep str n) e →
     let word := s.code s.cur.warp (s.me.pc + 8)
     let may := fun (x : BitVec 64) =>
       let w := LongWord.ofBits x
       let u := (w.dropFe.spell.map Instr.uses).getD {}
       !(w.op.toNat ≤ 0x12 || (0xA0 ≤ w.op.toNat && w.op.toNat ≤ 0xAA)) && (!bitAt str 0 || u.d != .none) &&
         (!bitAt str 1 || u.a != .none) && (!bitAt str 2 || u.b != .none) && (!bitAt str 3 || u.c != .none)
     ((word.any fun x => !may x) = true → exec (.rep str n) s = .next (s.illegal e)) ∧
     ((word.any fun x => !may x) = false → ∃ t, exec (.rep str n) s = .next t ∧
       t.me.rep = some { left := n.toNat + 1, idx := 0, str := str } ∧ WentTo s t (.rep str n) (s.me.pc + 8) s.me.cstack))

/-- R156, R157, R179: a BRA that every lane takes goes to its target, one that none takes goes on, and any other splits
its path: the lanes that take it go to the target on a path with a fresh number, the others wait at the next instruction
on another, both to meet at JOIN, and the entry below them holds the whole path; a full stack raises STACK_OVERFLOW. -/
def Obligations.Branches : Prop :=
  ∀ (s : State) (h : Hd) (target join : BitVec 20) (e : Mask) (x j : Word), s.Ready (.bra h target join) e →
    s.branchTo target = some x → s.branchTo join = some j → s.me.mask ≠ 0 →
    let i := Instr.bra h target join
    (e = s.me.mask → ∃ t, exec i s = .next t ∧ WentTo s t i x s.me.cstack) ∧
    (e = 0 → ∃ t, exec i s = .next t ∧ OnlyIssued s t i) ∧
    (e ≠ 0 → e ≠ s.me.mask → 1022 < s.me.dstack.length →
      ∃ t, exec i s = .next t ∧ Raised s t .stackOverflow e 0 0) ∧
    (e ≠ 0 → e ≠ s.me.mask → s.me.dstack.length ≤ 1022 → s.me.pids.length < 65000 →
      ∃ t p q, exec i s = .next t ∧ t.me.pc = x ∧ t.me.mask = e ∧ t.me.join = j ∧ t.me.pid = p ∧
        p.toNat ∉ s.me.pids ∧ q.toNat ∉ s.me.pids ∧ p ≠ 0 ∧ p.toNat < q.toNat ∧
        t.me.dstack =
          { pc := s.me.pc + 8, mask := s.me.mask &&& ~~~e, join := j, path := true, park := false, pid := q, rejoin := 0 } ::
          { pc := j, mask := s.me.mask, join := s.me.join, path := false, park := false, pid := s.me.pid, rejoin := 0 } ::
          s.me.dstack ∧
        t.me.cstack = s.me.cstack ∧ KeepsState s.me t.me ∧ KeepsRest s t)

/-- R158, R162 to R166, R183, R184, R468: EXIT takes its lanes out of every mask, and a path that keeps lanes goes on; one that keeps
none ends, while lanes of other paths remain;
the last EXIT waits for segments and engine operations and then the warp has exited. A path ends at its join too, before the
instruction there, while it holds no call entry of its own. The newest entry of the divergence stack then goes on, JOIN entries without
lanes and their call entries being dropped first; where it is parked, the unparked PATH entry that lies deepest; REJOIN_CYCLE is raised
where there is none; and with no entry left the warp has exited. That a path does not end at its join within a REP, and that a warp with
an empty stack exits at its join, are the model's choices (log 48). WSYNC goes on when every lane of
its set that has not exited is in its path or parked at it with the same set, and releases those; else it parks its
path. After 2048 issues of one path the fairness switch runs the deepest unparked path of the divergence stack, and the
current one takes its place as the newest entry; YIELD has the count stand at its limit. -/
def Obligations.PathsEndRejoinAndSwitch : Prop :=
  ((∀ (s a b u : State) (dt w : Nat) (c : ClusterUnit), s.nextTurn = ((dt, .spine w), a) → b = a.tick dt →
     c = b.clusterUnit w none → (b.unitsAhead c).all (b.passes exec) = true →
     u = { b with cur := { b.cur with warp := w, unit := 0 } } → u.mayIssue w 0 = true → u.me.flowLost = false →
     (u.me.badArea && !u.me.handler) = false → u.me.pc = u.me.join → (∀ x ∈ u.me.cstack, x.pid ≠ u.me.pid) → u.me.rep = none →
     step s = .next (State.keepClocks (.spine w) b (b.spillStacks (u.endPath.settleExit w))).settleTurn) ∧
   (∀ (s t : State) (l r : List DEntry), s.cur.warp < s.warps.length → s.me.dstack = l ++ r → t = s.endPath →
     (∀ y ∈ l, y.path = false ∧ y.mask = 0) →
     (∀ x v, r = x :: v → (x.path = false ∧ x.mask ≠ 0 ∨ (x.path && !x.park) = true) →
       t.me.pc = x.pc ∧ t.me.mask = x.mask ∧ t.me.join = x.join ∧ t.me.pid = x.pid ∧ t.me.dstack = v ∧
       t.me.cstack = s.me.cstack.filter (fun c => l.all fun y => y.pid != c.pid) ∧ t.me.exited = s.me.exited ∧
       KeepsState s.me t.me ∧ KeepsRest s t) ∧
     (∀ y z, r = y :: z → (y.path && y.park) = true →
       (∀ p x v, r = p ++ x :: v → (x.path && !x.park) = true → v.any (fun y => y.path && !y.park) = false →
         t.me.pc = x.pc ∧ t.me.mask = x.mask ∧ t.me.join = x.join ∧ t.me.pid = x.pid ∧ t.me.dstack = p ++ v ∧
         KeepsState s.me t.me ∧ KeepsRest s t) ∧
       (r.any (fun y => y.path && !y.park) = false → t.me.pc = y.pc ∧ t.me.mask = y.mask ∧ t.me.dstack = z ∧
         (∃ x, t.me.trap = some x ∧ x.cause = .rejoinCycle ∧ x.lmask = y.mask ∧ x.extra.setWidth 32 = y.rejoin) ∧
         KeepsState s.me t.me ∧ KeepsRest s t)) ∧
     (r = [] → t.me.exited = true ∧ t.me.mask = 0 ∧ t.me.dstack = [] ∧ KeepsState s.me t.me ∧ KeepsRest s t)) ∧
   (∀ (s : State) (h : Hd) (e : Mask) (cut : List DEntry), s.ReadySome (.exit h) e → s.me.mask &&& ~~~e = 0 →
     s.me.live &&& ~~~e ≠ 0 →
     cut = (s.me.dstack.map fun x => { x with mask := x.mask &&& ~~~e, rejoin := x.rejoin &&& ~~~e }).filter
       (fun x => !x.path || x.mask != 0) →
     ∃ t, exec (.exit h) s = .next t ∧ t.me.live = s.me.live &&& ~~~e ∧ t.me.exited = s.me.exited ∧
       t.me.wissue = s.me.wissue + 1 ∧ KeepsState s.me t.me ∧ KeepsRest s t ∧
       ∀ l x r, cut = l ++ x :: r → (∀ y ∈ cut, y.park = false) → (∀ y ∈ l, y.path = false ∧ y.mask = 0) →
         (x.path = true ∨ x.mask ≠ 0) →
         t.me.pc = x.pc ∧ t.me.mask = x.mask ∧ t.me.join = x.join ∧ t.me.pid = x.pid ∧ t.me.dstack = r) ∧
   (∀ (s : State) (h : Hd) (e : Mask), s.ReadySome (.exit h) e →
     (s.me.mask &&& ~~~e ≠ 0 → ∃ t, exec (.exit h) s = .next t ∧ t.me.mask = s.me.mask &&& ~~~e ∧
       (∀ x ∈ t.me.dstack, x.mask &&& e = 0) ∧ t.me.pc = s.me.pcAfter ∧ KeepsState s.me t.me ∧ KeepsRest s t) ∧
     (s.me.live &&& ~~~e = 0 → s.me.handler = false → s.me.segmentsDone 0xFF = false →
       exec (.exit h) s = .next (s.block .segments)) ∧
     (s.me.live &&& ~~~e = 0 → (s.me.handler = true ∨ s.me.segmentsDone 0xFF = true) →
       (s.me.eng ≠ [] ∨ s.me.matx ≠ [] → exec (.exit h) s = .next (s.block .engine)) ∧
       (s.me.eng = [] → s.me.matx = [] → ∀ f r, s.me.fails = f :: r → ∃ t, exec (.exit h) s = .next t ∧
         t.me.fails = r ∧ ∃ x, t.me.trap = some x ∧ x.cause = .memfault ∧ x.engine = true ∧ x.extra = f.extra ∧
           x.faddr = f.faddr ∧ x.lmask = e) ∧
       (s.me.eng = [] → s.me.matx = [] → s.me.fails = [] → ∃ t, exec (.exit h) s = .next t ∧ t.me.exited = true ∧
         t.me.mask = 0 ∧ t.me.trap = none))) ∧
   (∀ (s : State) (h : Hd) (a : GReg) (e : Mask), s.ReadySome (.wsync h a) e →
     let bad := maskOf fun l => e.getLsbD l && s.me.lane a l != s.me.lane a (lowest e)
     bad ≠ 0 → ∃ t, exec (.wsync h a) s = .next t ∧ Raised s t .targetMismatch e (bad.setWidth 64) 0) ∧
   (∀ (s : State) (h : Hd) (a : GReg) (e : Mask), s.ReadySome (.wsync h a) e →
     (∀ l, l < 32 → e.getLsbD l = true → s.me.lane a l = s.me.lane a (lowest e)) →
     let r := (s.me.lane a (lowest e) ||| e) &&& s.me.live
     let mate := fun (x : DEntry) => x.path && x.park && x.pc == s.me.pc && x.rejoin == r
     ((∀ l, l < 32 → r.getLsbD l = true → s.me.mask.getLsbD l = true ∨ ∃ x ∈ s.me.dstack, mate x = true ∧ x.mask.getLsbD l = true) →
       ∃ t, exec (.wsync h a) s = .next t ∧ t.me.pc = s.me.pcAfter ∧ t.me.mask = s.me.mask ∧
         t.me.dstack = s.me.dstack.map (fun x => if mate x then { x with pc := x.pc + 8, park := false, rejoin := 0 } else x) ∧
         KeepsState s.me t.me ∧ KeepsRest s t) ∧
     (∀ l, l < 32 → r.getLsbD l = true → s.me.mask.getLsbD l = false →
       (∀ x ∈ s.me.dstack, mate x = true → x.mask.getLsbD l = false) →
       let parked : DEntry :=
         { pc := s.me.pc, mask := s.me.mask, join := s.me.join, path := true, park := true, pid := s.me.pid, rejoin := r }
       (∀ u x v, s.me.dstack = u ++ x :: v → (x.path && !x.park) = true → v.any (fun y => y.path && !y.park) = false →
         ∃ t, exec (.wsync h a) s = .next t ∧ t.me.pc = x.pc ∧ t.me.mask = x.mask ∧ t.me.join = x.join ∧ t.me.pid = x.pid ∧
           t.me.dstack = parked :: (u ++ v) ∧ KeepsState s.me t.me ∧ KeepsRest s t) ∧
       (s.me.dstack.any (fun y => y.path && !y.park) = false → ∃ t y, exec (.wsync h a) s = .next t ∧
         t.me.trap = some y ∧ y.cause = .rejoinCycle ∧ y.lmask = s.me.mask ∧ y.extra.setWidth 32 = r ∧
         t.me.pc = s.me.pc ∧ t.me.mask = s.me.mask ∧ t.me.dstack = s.me.dstack ∧ KeepsState s.me t.me ∧ KeepsRest s t)))) ∧
  ((∀ (s : State) (x : DEntry) (l r : List DEntry), s.mayIssue s.cur.warp 0 = true → s.me.switchDue = true →
     s.me.atJoin = false → s.me.dstack = l ++ x :: r → (x.path && !x.park) = true → r.any (fun y => y.path && !y.park) = false →
     s.cur.warp < s.warps.length →
     ∃ t, exec .fairnessSwitch s = .next t ∧ t.me.pc = x.pc ∧ t.me.mask = x.mask ∧ t.me.join = x.join ∧ t.me.pid = x.pid ∧
       t.me.dstack = { pc := s.me.pc, mask := s.me.mask, join := s.me.join, path := true, park := false, pid := s.me.pid,
                       rejoin := 0 } :: (l ++ r) ∧
       t.me.fairCount = 0 ∧ (∀ y ∈ t.resv, y.1 = s.cur.warp → s.me.mask.getLsbD y.2.1 = false) ∧
       KeepsState s.me t.me ∧ KeepsRest s t) ∧
   (∀ (s : State) (h : Hd) (e : Mask), s.ReadySome (.yield h) e → ∃ t, exec (.yield h) s = .next t ∧
     OnlyIssued s t (.yield h) ∧ (s.me.handler = false → s.me.dstack.any (fun y => y.path && !y.park) = true →
       2048 ≤ t.me.fairCount)))

/-! ## Traps and system registers -/

/-- R20, R168, R178, R435, R438, R440, R465, R466: TRAP and BKPT raise SOFTWARE and BRK with the PC past them; ten
clocks later the device writes the save area and the record and starts the handler at TRAPBASE; ERET takes the path, the
stacks and the PC that these hold, and the units resume 4 clocks later. That the save area and the record are written in
one step is the model's choice (log 11). -/
def Obligations.TrapsAndReturn : Prop :=
  (∀ (s : State) (h : Hd) (code : BitVec 24) (e : Mask) (i : Instr) (c : Cause),
    (i = .trap h code ∧ c = .software) ∨ (i = .bkpt h code ∧ c = .brk) → s.ReadySome i e →
    ∃ t x, exec i s = .next t ∧ t.me.pc = s.me.pcAfter ∧ t.me.trap = some x ∧ x.cause = c ∧ x.lmask = e ∧
      x.extra = code.setWidth 64 ∧ x.unit = 0 ∧ x.spc = s.me.pcAfter ∧ x.at_ = s.clock ∧
      t.me.wissue = s.me.wissue + 1 ∧ KeepsWarp s.me t.me [] [] ∧ KeepsRest s t) ∧
  (∀ (s u : State) (x : Trap) (v : Warp) (parts : List (Nat × List MarkedByte)),
    v = s.me → s.cur.warp < s.warps.length → v.trap = some x → v.handler = false → v.trapBase ≠ 0xFFFFFFFF →
    v.escalating = false → v.held = none → x.at_ + 10 ≤ s.clock →
    parts = v.saveParts (if x.cause = .rejoinCycle then some (x.extra.setWidth 32) else none) ++
      [(0x14100, s.record s.cur.warp (x.seen v) v.snap none)] →
    (s.vwriteParts s.cur.warp v.dstkBase.toNat parts).1 = .ok u →
    ∃ t, exec .handlerEntry s = .next t ∧ t.me.pc = v.trapBase ∧ t.me.handler = true ∧ t.me.trap = none ∧
      t.me.opened = some (x.seen v, v.snap) ∧ t.me.rep = none ∧ t.me.repAside = u.me.rep ∧ t.me.mask = u.me.mask ∧
      t.me.dstack = u.me.dstack ∧ t.me.cstack = u.me.cstack ∧ KeepsState u.me t.me ∧ KeepsRest u t) ∧
  (∀ (s : State) (e : Mask) (x : Reload) (o : Trap × Snap), s.Ready .eret e → s.areaPending s.cur.warp = false →
    s.readArea s.cur.warp = .ok x → s.me.opened = some o →
    ∃ t, exec .eret s = .next t ∧ t.me.pc = x.spc ∧ t.me.mask = x.mask ∧ t.me.join = x.join ∧ t.me.pid = x.pid ∧
      t.me.dstack = x.dstack ∧ t.me.cstack = x.cstack ∧ t.me.handler = false ∧ t.me.trap = none ∧ t.me.opened = none ∧
      t.me.resumeAt = s.clock + 4 ∧ t.me.rep = (if x.spc = o.1.spc then s.me.repAside else none) ∧
      t.me.stepArmed = bitAt s.me.stepCtl 0 ∧ (∀ r, (t.me.reg r).val = (s.me.reg r).val) ∧ t.me.preds = s.me.preds ∧
      t.me.mode = s.me.mode ∧ KeepsRest s t)

/-- R436, R437, R442 to R444, R446, R447, R452: FAULT_ESCALATION of a trap raised in the handler, or where there is none, completes:
the next entry of the fault ring is written, with the interrupt of the host port to follow; a group that may be run again starts
anew with one try more; a handler task leaves the warp held on its entry, the other warps untouched; and the other policies discard
the launch or stop the region. STEP_NO_SEGMENT completes once the units resume: it raises STEP for the armed strand, and without an
armed step nothing happens. An entry of a trap raised in a handler shows the record that opened it, as it was then. The 128 bytes of
a trap record are laid out field by field. That an entry is written by one write a line, and that its ENTRY field has a free value
where the region's tables map the entry nowhere, are the model's choices (log 11, log 32), and so are the lane mask of a STEP and
the extra field of an error in control state inside the handler (log 23). -/
def Obligations.EscalationStepAndRecord : Prop :=
  ((∀ (s u z : State) (x x0 : Trap) (st : Snap) (nested : Option Cause) (y : LaunchSt) (tries entry : Nat) (retry : Bool),
     s.me.trap = some x → s.me.held = none → s.me.exited = false →
     (s.me.handler = true ∨ s.me.escalating = true ∨ s.me.trapBase = 0xFFFFFFFF) → s.cur.warp < s.warps.length →
     s.me.group < s.groups.length → (x0, st, nested) = s.me.escalated x → y = s.launch (s.group s.me.group).launch →
     tries = (s.group s.me.group).tries → y.task = none → retry = (y.versioned && decide (tries < s.eff y.region 5 0x21 1)) →
     (entry, u) = s.faultEntry y.region (s.group s.me.group).launch (s.record s.cur.warp x0 st nested) (if retry then 2 else 1) tries →
     z = (if y.versioned then
        (u.modWarp s.cur.warp fun v => v.hold x0 st entry).modGroup s.me.group fun g => { g with version := [], vresv := [] }
      else u.modWarp s.cur.warp fun v => v.hold x0 st entry) →
     ∃ t, exec .faultEscalation s = .next t ∧
       (retry = true → (t.group s.me.group).phase = .waiting ∧ (t.group s.me.group).version = [] ∧
         (t.group s.me.group).tries = tries + 1) ∧
       (retry = false → z.eff y.region 5 0x22 1 = 0 →
         t.me.held = some { entry := entry, resolve := none } ∧ t.me.trap = none ∧ t.me.opened = some (x0, st) ∧
         KeepsState s.me t.me ∧ t.me.pc = s.me.pc ∧ t.me.mask = s.me.mask ∧ t.me.exited = false ∧
         ∀ w, w ≠ s.cur.warp → t.warp w = s.warp w) ∧
       (retry = false → z.eff y.region 5 0x22 1 = 1 → t = z.discardLaunch (s.group s.me.group).launch) ∧
       (retry = false → 1 < z.eff y.region 5 0x22 1 → t = z.stopRegion y.region)) ∧
   (∀ (s : State) (x : Trap) (q : TaskFor), s.me.trap = some x → s.me.held = none → s.me.exited = false →
     (s.me.handler = true ∨ s.me.escalating = true ∨ s.me.trapBase = 0xFFFFFFFF) →
     (s.launch (s.group s.me.group).launch).task = some q → ∃ t, exec .faultEscalation s = .next t ∧
       ((s.group s.me.group).launch < s.launches.length → (t.launch (s.group s.me.group).launch).task = none)) ∧
   (∀ (s u : State) (region launch kind tries entry base n : Nat) (rec : List MarkedByte), rec.length = 128 →
     base = s.eff region 2 0x18 8 → n = alGet 0 base s.ctl.ringSeq → (entry, u) = s.faultEntry region launch rec kind tries →
     entry = base + 256 * (n % 256) ∧ alGet 0 base u.ctl.ringSeq = n + 1 ∧ u.warps = s.warps ∧ u.groups = s.groups ∧
       (∃ va, (∀ vas, vas = s.vasOf entry 4 (s.eff region 6 0x30 8) 0 → vas ≠ [] → va ∈ vas) ∧
         Sends { s with ctl := u.ctl, free := u.free } u entry
         (rec ++ bytesOf 4 n ++ bytesOf 4 launch ++ bytesOf 8 va ++ bytesOf 4 kind ++ bytesOf 4 0 ++ bytesOf 4 n ++
           bytesOf 4 tries ++ bytesOf 96 0)) ∧
       ∀ y ∈ u.writes, s.nextId ≤ y.id → y ∉ s.writes → y.note = some (s.nextId, .irqFault)) ∧
   (∀ (v : Warp) (x : Trap) (st : Snap) (entry : Nat), let u := v.hold x st entry
     u.held = some { entry := entry, resolve := none } ∧ u.trap = none ∧ u.escalating = false ∧
       u.opened = some (x, st) ∧ KeepsState v u ∧ u.pc = v.pc ∧ u.mask = v.mask ∧ u.dstack = v.dstack) ∧
   (∀ (v : Warp) (x y : Trap) (st : Snap), v.handler = true → v.opened = some (y, st) →
     v.escalated x = (if v.escalating then { y with extra := x.extra } else y, st, some x.cause)) ∧
   (∀ (s : State) (u : Nat), s.cur.warp < s.warps.length → u = (bitsAt s.me.stepCtl 4 4).toNat → 1 ≤ u → u ≤ 8 →
     s.me.stepArmed = true → (s.me.strand (u - 1)).segs = [] → s.me.trap = none → s.me.handler = false → s.me.held = none →
     s.me.exited = false → s.me.resumeAt ≤ s.clock →
     ∃ t x, exec .stepNoSegment s = .next t ∧ t.me.trap = some x ∧ x.cause = .step ∧ x.unit = u ∧
       x.extra = BitVec.ofNat 64 u ∧ x.lmask = s.me.mask ∧ x.xmask = s.me.mask ∧ x.spc = s.me.pc ∧ x.at_ = s.clock ∧
       t.me.stepArmed = false ∧ t.me.wissue = s.me.wissue ∧ t.me.stpc (u - 1) = 0xFFFFFFFF ∧
       t.me.pc = s.me.pc ∧ KeepsState s.me t.me ∧ SameBytes s t) ∧
   (∀ s : State, s.me.stepArmed = false → exec .stepNoSegment s = .next s)) ∧
  (∀ (s : State) (w : Nat) (t : Trap) (x : Snap) (nested : Option Cause), x.stpc.length = 8 → x.sbase.length = 8 → t.unit ≤ 8 →
     let b := s.record w t x nested
     let f := fun (off n : Nat) => numOf ((b.drop off).take n)
     b.length = 128 ∧ (∀ x ∈ b, x.2 = false) ∧
     f 0 1 = t.cause.code ∧ f 1 1 = t.unit ∧
     f 2 1 = (if t.engine then 1 else 0) + (if t.rept then 2 else 0) + (if t.stepped then 4 else 0) + (if nested.isSome then 8 else 0) ∧
     f 3 1 = (nested.map Cause.code).getD 0 ∧ f 0x04 4 = t.lmask.toNat ∧ f 0x08 4 = t.spc.toNat ∧
     f 0x0C 4 = t.xmask.toNat ∧ (∀ k, k < 8 → f (0x10 + 4 * k) 4 = (x.stpc.getD k 0).toNat) ∧
     (∀ k, k < 8 → f (0x30 + 4 * k) 4 = (x.sbase.getD k 0).toNat) ∧ f 0x50 8 = t.faddr.toNat ∧ f 0x58 8 = t.extra.toNat ∧
     (let g := s.group (s.warp w).group
      f 0x60 4 = g.launch % 2 ^ 32 ∧ f 0x64 4 = g.gx % 2 ^ 32 ∧ f 0x70 2 = g.gy % 2 ^ 16 ∧ f 0x72 2 = g.gz % 2 ^ 16) ∧
     f 0x68 2 = (s.warp w).index % 2 ^ 16 ∧ f 0x6A 1 = x.core % 256 ∧ f 0x6B 1 = x.core / 64 % 256 ∧
     f 0x6C 1 = x.slot % 256 ∧ f 0x6D 1 = x.half % 256 ∧ f 0x6E 2 = t.pid.toNat ∧ f 0x74 12 = 0)

/-- R15, R16, R88, R174, R199, R224, R451, R467, R476 to R480: SETS writes MODE, which every unit sees from the next clock on; SYSW writes the bits that a system register
has, STCFG within its bounds, and a counter not at all; DSTKBASE cannot change while stack entries lie in the save area;
TRAPRD starts a load of the record, after the warp's own writes to it. -/
def Obligations.SystemRegisters : Prop :=
  (∀ (s : State) (h : Hd) (a : GReg) (e : Mask), s.ReadySome (.sets h a) e → ∃ t, exec (.sets h a) s = .next t ∧
    t.me.modeDue = some (s.clock, s.me.lane a (lowest e) &&& 0x1FF) ∧ t.me.mode = s.me.mode ∧ t.me.pc = s.me.pcAfter ∧ t.me.regs = s.me.regs ∧
    t.me.preds = s.me.preds ∧ t.me.fpfl = s.me.fpfl ∧ t.me.trapBase = s.me.trapBase ∧ t.me.mask = s.me.mask ∧ KeepsRest s t) ∧
  (∀ (s : State) (h : Hd) (idx : Byte) (a : GReg) (e : Mask), s.ReadySome (.sysw h idx a) e →
    let i := Instr.sysw h idx a
    let x := s.me.wide (sysWide idx) a (lowest e)
    let y : Word := x.setWidth 32
    ((idx = 5 ∧ (16 < s.me.dstack.length ∨ 8 < s.me.cstack.length)) → exec i s = .next (s.illegal e)) ∧
    (¬ (idx = 5 ∧ (16 < s.me.dstack.length ∨ 8 < s.me.cstack.length)) → ∃ t, exec i s = .next t ∧
      t.me.pc = s.me.pcAfter ∧ t.me.regs = s.me.regs ∧ t.me.preds = s.me.preds ∧ t.me.mask = s.me.mask ∧ SameBytes s t ∧
      t.me.mode = s.me.mode ∧ t.me.modeDue = (if idx = 0 then some (s.clock, y &&& 0x1FF) else s.me.modeDue) ∧
      t.me.fpfl = (if idx = 1 then y &&& 0xFF else s.me.fpfl) ∧
      t.me.modw = (if idx = 2 then y &&& 0x3F else s.me.modw) ∧
      t.me.trapBase = (if idx = 3 then y else s.me.trapBase) ∧
      t.me.tableBase = (if idx = 4 then x else s.me.tableBase) ∧
      t.me.dstkBase = (if idx = 5 then x &&& ~~~0xFF else s.me.dstkBase) ∧
      t.me.stepCtl = (if idx = 6 then y &&& 0xF3 else s.me.stepCtl) ∧
      (s.me.core < s.cores.length → (t.core s.me.core).stcfg.toNat =
        if idx = 7 then min 65536 (max 256 (x.toNat % 2 ^ 17)) else (s.core s.me.core).stcfg.toNat) ∧
      (idx ≠ 7 → KeepsRest s t))) ∧
  (∀ (s u : State) (h : Hd) (w64 : Bool) (d : GReg) (off : Byte) (e : Mask) (ps : List Placed),
    s.ReadySome (.traprd h w64 d off) e → s.areaPending s.cur.warp = false → s.canAccess = true →
    s.Places e true false false (s.me.recordParts e w64 off) ps u →
    let q : LoadReq := { kind := .traprd, acq := false, scope := 0, nc := false, d := d, wide := w64,
                         bytes := if w64 then 8 else 4, sext := false }
    ∃ t, exec (.traprd h w64 d off) s = .next t ∧ StartsLoad s u t q e ps) ∧
  (∀ (s : State) (dt w c : Nat) (m : Word), w < s.warps.length → (s.warp w).modeDue = some (c, m) →
    ((s.tick dt).warp w).mode = if c < s.clock + dt then m else (s.warp w).mode)

/-! ## Memory -/

/-- R68, R329, R330: bytes are little-endian; a write changes exactly the bytes of its mask; a word that takes a byte of
poisoned data is poisoned, one that is written whole with clean data is clean, and any other keeps its mark. -/
def Obligations.BytesOfALine : Prop :=
  (∀ (x : BitVec 1024) (off n i : Nat), off + n ≤ 128 → n ≤ 8 → i < 8 →
    (lineRead x off n).extractLsb' (8 * i) 8 = if i < n then lineByte x (off + i) else 0) ∧
  (∀ (old new : LineData) (m : BitVec 128) (i : Nat), i < 128 →
    lineByte (lineWrite old new m).bits i = if m.getLsbD i then lineByte new.bits i else lineByte old.bits i) ∧
  (∀ (old new : LineData) (m : BitVec 128) (w : Nat), w < 32 →
    (lineWrite old new m).poison.getLsbD w =
      if (List.range 4).any (fun j => m.getLsbD (4 * w + j)) && new.poison.getLsbD w then true
      else if (List.range 4).all fun j => m.getLsbD (4 * w + j) then false else old.poison.getLsbD w) ∧
  (∀ n v : Nat, numOf (bytesOf n v) = v % 256 ^ n) ∧
  (∀ (bs : List MarkedByte), (bytesOf bs.length (numOf bs)).map Prod.fst = bs.map Prod.fst)

/-- R290, R330, R382: every step keeps the canonical form of memory, of scratch, of the lines of L2 and of the lists of nodes; so do
the operations on bytes; a line that is stored is the line that is read, and what the device itself writes goes to its home as
writes. That a byte that nothing has written reads as zero is the model's choice (log 1). -/
def Obligations.MemoryForm : Prop :=
  State.reset.Formed ∧
  (∀ (s t : State), s.Formed → step s = .next t → t.Formed) ∧
  (∀ (s : State) (line : Nat) (d : LineData), Memory.wf s.mem → Sparse.wf false s.memP →
    Memory.wf (s.storeMem line d).mem ∧ Sparse.wf false (s.storeMem line d).memP ∧
    (s.storeMem line d).memAt line = d ∧ ∀ k, k ≠ line → (s.storeMem line d).memAt k = s.memAt k) ∧
  (∀ (s : State) (pa : Nat) (bs : List MarkedByte), Sends s (s.devWrite pa bs) pa bs) ∧
  (∀ (g : GroupSt) (pos off : Nat) (bs : List MarkedByte), Sparse.wf (0 : Byte) g.scratch → Sparse.wf false g.scratchP →
    Sparse.wf (0 : Byte) (g.poke pos off bs).scratch ∧ Sparse.wf false (g.poke pos off bs).scratchP ∧
    ∀ p o, ((g.poke pos off bs).peek p o).1 =
      match if scratchKey p o < scratchKey pos off then none else bs[scratchKey p o - scratchKey pos off]? with
      | some b => b.1
      | none => (g.peek p o).1)

/-- R17, R302, R325, R326, R330, R332, R335, R348: LD, LDS, LDC, LDC.got and LR start a load of the bytes that they
name: the destination is empty until the data arrive. A lane whose global address is no multiple of the size raises
ALIGN with the address of the lowest one, and a lane that cannot be translated raises MEMFAULT. That an access issues
while no acquire of the warp is open is the model's choice (log 9). -/
def Obligations.LoadsStart : Prop :=
  (∀ (s u : State) (h : Hd) (m : AccMod) (d a : GReg) (off : BitVec 16) (e : Mask) (ps : List Placed) (lds : Bool),
    let i := if lds then Instr.lds h m d a off else Instr.ld h m d a off
    let n := AccMod.size m
    s.ReadySome i e → (lds = true ∨ m.space ≠ 1) → s.canAccess = true →
    ((lanesOf e).all fun l => !s.me.misaligned m a off n l) = true →
    s.Places e true false false ((lanesOf e).flatMap (s.me.laneParts m a off n)) ps u →
    (lds = true → ((ps.map fun p => lineNo p.pa).any (u.ldsWaits (m.ord != 0#2 && atDie m.scope) ps)) = false) →
    ∃ t, exec i s = .next t ∧ StartsLoad s u t (ldReq (if lds then .lds else .ld) m d) e ps) ∧
  (∀ (s : State) (h : Hd) (m : AccMod) (d a : GReg) (off : BitVec 16) (e bad : Mask), s.ReadySome (.ld h m d a off) e →
    m.space = 0 → s.canAccess = true →
    bad = (maskOf fun l => e.getLsbD l && (s.me.addr64 a off l).toNat % AccMod.size m != 0) → bad ≠ 0 →
    ∃ t, exec (.ld h m d a off) s = .next t ∧ Raised s t .align bad 0 (s.me.addr64 a off (lowest bad))) ∧
  (∀ (s u : State) (h : Hd) (m : AccMod) (d a : GReg) (off : BitVec 16) (e : Mask) (ps : List Placed) (x : Acc × DWord)
      (l : List (Acc × DWord)), s.ReadySome (.ld h m d a off) e → m.space ≠ 1 → s.canAccess = true →
    ((lanesOf e).all fun k => !s.me.misaligned m a off (AccMod.size m) k) = true →
    s.placeAll s.cur.warp true false ((lanesOf e).flatMap (s.me.laneParts m a off (AccMod.size m))) = ((ps, x :: l), u) →
    ∃ t code, exec (.ld h m d a off) s = .next t ∧
      Raised u t .memfault (accLanes ((x :: l).map Prod.fst)) code (firstVa ((x :: l).map Prod.fst)) ∧
      ∃ y ∈ x :: l, y.2 = code ∧ y.1.lane = lowest (accLanes ((x :: l).map Prod.fst))) ∧
  (∀ (s : State) (h : Hd) (m : AccMod) (d a : GReg) (off : BitVec 16) (e : Mask), s.ReadySome (.ldc h m d a off) e →
    m.space ≠ 1 → s.canAccess = true →
    let f := s.me.addr32 m.nb a off
    let ps := s.myLaunch.imagePieces (AccMod.size m) e f
    (∀ l, l < 32 → e.getLsbD l = true → (f l).toNat % AccMod.size m = 0 ∧ (f l).toNat < 0x10000) →
    (s.lacksEntries (ps.map fun p => lineNo p.pa) = true → exec (.ldc h m d a off) s = .next (s.block .access)) ∧
    (s.lacksEntries (ps.map fun p => lineNo p.pa) = false → ∃ t, exec (.ldc h m d a off) s = .next t ∧ t.me.pc = s.me.pcAfter ∧
      t.Loads s.nextId s.cur.warp (ldcReq m d) e (fun x => x.pieces = ps) ∧
      (∀ r ∈ destRegs m.wide d, (t.me.reg r).full = false) ∧ KeepsRegs s t (destRegs m.wide d) [] ∧ SameBytes s t)) ∧
  (∀ (s u : State) (h : Hd) (m : AccMod) (d a : GReg) (off : BitVec 16) (e : Mask) (ps : List Placed),
    s.ReadySome (.ldc h m d a off) e → m.space = 1 → s.canAccess = true →
    let f := s.me.addr32 m.nb a off
    (∀ l, l < 32 → e.getLsbD l = true → (f l).toNat % AccMod.size m = 0) → s.me.tableBase.toNat % AccMod.size m = 0 →
    s.Places e true false false
      ((lanesOf e).flatMap fun l => accParts l ((s.me.tableBase + (f l).setWidth 64).toNat) (AccMod.size m)) ps u →
    ∃ t, exec (.ldc h m d a off) s = .next t ∧ StartsLoad s u t (ldcReq m d) e ps) ∧
  (∀ (s u : State) (h : Hd) (m : AtomMod) (d a : GReg) (e : Mask) (ps : List Placed), s.ReadySome (.lr h m d a) e →
    s.canAccess = true → (s.me.atomMis (atomBytes m.w64) a e) = [] →
    s.Places e true false (m.scope != 0#3) ((lanesOf e).flatMap fun l => accParts l (s.me.lane2 a l).toNat (atomBytes m.w64)) ps u →
    ∃ t, exec (.lr h m d a) s = .next t ∧ StartsLoad s u t (atomReq .lr m (m.ord != 0#2) d) e ps ∧
      (s.me.fairCount < 2048 → t.me.lrCount = some 0))

/-- R17, R282, R303, R329, R330, R335, R336, R366, R495: a fill that its home serves gives its loads the bytes of its
line, and an LR the reservations that its lanes have not lost since (log 42); a line that is fetched is installed with
the bytes of memory; the data of a load that has been performed fill its registers in its lanes, extended as the load
says; SC_ANSWER writes the predicate of an SC once every lane is judged, and CSTORE_NF_COMPLETE the count and the
predicate of a CSTORE.nf once its elements are stored, or at once where its loop has stopped before the last. Fills that share a load
whose value lies in two lines are served together (R362), and a load of a line whose write is still on its way down the list is kept as
an early read of its warp, which is the model's way to order what follows an acquire (log 58). -/
def Obligations.DataAndAnswersArrive : Prop :=
  ((∀ (s : State) (id : Nat) (answer : LineData) (f : Fill) (x : L2Line), s.fills.find? (fun f => f.id == id) = some f →
     s.tiedFills f = [f] → s.fillReady f = true → s.l2At f.line = some x → x.host ≠ .he →
     (∀ y, (s.core f.core).l1At f.line = some y → y.pst ≠ .privatised) →
     ∃ t, exec (.fillServed id answer) s = .next t ∧ (∀ g ∈ t.fills, g.id ≠ id) ∧ SameBytes s t ∧
       (s.flowOf f.line = none → t.warps = s.warps) ∧
       (∀ w, { t.warp w with early := (s.warp w).early, acqEarly := (s.warp w).acqEarly } = s.warp w) ∧
       (∀ n, s.flowOf f.line = some n → ∀ y ∈ s.loads, f.loads.contains y.id = true → y.warp < s.warps.length →
         (f.line, n) ∈ (t.warp y.warp).early ∧ (y.acq = true → (f.line, n) ∈ (t.warp y.warp).acqEarly)) ∧
       (∀ y ∈ s.loads, f.loads.contains y.id = true → ∃ z ∈ t.loads, z.id = y.id ∧ z.d = y.d ∧ z.lanes = y.lanes ∧
         z.pieces = y.pieces.map fun p => if lineNo p.pa = f.line && !p.got then p.take (s.readsLine y f.line x.data) else p) ∧
       (∀ y ∈ s.loads, f.loads.contains y.id = false → y ∈ t.loads) ∧
       (∀ y ∈ s.loads, f.loads.contains y.id = true → y.kind = .lr → s.versionedOf y.warp = false →
         ∀ l, l < 32 → (y.lanesAt f.line).getLsbD l = true → nth 0 (s.warp y.warp).resvFrom l ≤ y.id → (y.warp, l, f.line) ∈ t.resv)) ∧
   (∀ (s : State) (id : Nat) (answer : LineData) (f g : Fill) (x : L2Line) (ids : List Nat),
     s.fills.find? (fun f => f.id == id) = some f → ids = (s.tiedFills f).flatMap (fun g => g.loads) →
     s.fillReady f ids = true → s.l2At f.line = some x → x.host ≠ .he → 2 ≤ (s.tiedFills f).length →
     g ∈ s.tiedFills f → (s.fillReady g ids = false ∨ s.atHand g.line = false) → exec (.fillServed id answer) s = .next s) ∧
   (∀ s : State, s.frame (128 * s.cur.line) = .hbm → s.l2At s.cur.line = none → s.named s.cur.line = true →
     (s.sliceLines s.cur.line).length < sliceCap →
     ∃ t x, exec .hbmFetchInstall s = .next t ∧ t.l2At s.cur.line = some x ∧ x.data = s.memAt s.cur.line ∧ SameBytes s t ∧
       ∀ w, { t.warp w with early := (s.warp w).early, acqEarly := (s.warp w).acqEarly } = s.warp w) ∧
   (∀ (s : State) (id : Nat) (x : Load), s.loads.find? (fun x => x.id == id && x.performed) = some x →
     x.warp < s.warps.length → (∀ r ∈ destRegs x.wide x.d, r < (s.warp x.warp).regs.length) →
     ∃ t, exec (.loadDataArrive id) s = .next t ∧ (∀ y ∈ t.loads, y.id ≠ id) ∧
       (∀ i, i < (if x.wide then 2 else 1) → ((t.warp x.warp).reg (x.d.toNat + i)).full = true ∧
         ∀ l, l < 32 → ((t.warp x.warp).reg (x.d.toNat + i)).val.at' l =
           if x.lanes.getLsbD l then x.word l i else ((s.warp x.warp).reg (x.d.toNat + i)).val.at' l) ∧
       (∀ r, r ∉ destRegs x.wide x.d → (t.warp x.warp).reg r = (s.warp x.warp).reg r) ∧
       (t.warp x.warp).preds = (s.warp x.warp).preds ∧ (t.warp x.warp).pc = (s.warp x.warp).pc ∧
       (∀ w, w ≠ x.warp → t.warp w = s.warp w) ∧ SameBytes s t)) ∧
  ((∀ (s : State) (id : Nat) (x : ScReq), s.scs.find? (fun x => x.id == id) = some x → x.warp < s.warps.length →
     (∀ y ∈ s.writes, ∀ l, y.kind = .sc id l → y.phase = .propagating ∨ y.phase = .remote) →
     ∃ t, exec (.scAnswer id) s = .next t ∧ (∀ y ∈ t.scs, y.id ≠ id) ∧
       (x.d.toNat < 12 → ((t.warp x.warp).predAt x.d.toNat).ready = true ∧
         ∀ l, l < 32 → ((t.warp x.warp).predAt x.d.toNat).val.getLsbD l =
           if x.lanes.getLsbD l then x.ok.getLsbD l else ((s.warp x.warp).predAt x.d.toNat).val.getLsbD l) ∧
       (∀ p, p ≠ x.d.toNat → (t.warp x.warp).predAt p = (s.warp x.warp).predAt p) ∧
       (t.warp x.warp).regs = (s.warp x.warp).regs ∧ (t.warp x.warp).pc = (s.warp x.warp).pc ∧
       (∀ w, w ≠ x.warp → t.warp w = s.warp w) ∧ SameBytes s t) ∧
   (∀ (s : State) (id : Nat) (x : NfReq), s.nfs.find? (fun x => x.id == id) = some x → x.warp < s.warps.length →
     x.d.toNat < (s.warp x.warp).regs.length →
     (x.complete = false ∨ ∀ y ∈ s.writes, y.nf = some id → s.writeDone y 3 = true) →
     ∃ t, exec (.cstoreNfComplete id) s = .next t ∧ (∀ y ∈ t.nfs, y.id ≠ id) ∧
       ((t.warp x.warp).reg x.d.toNat).full = true ∧
       (∀ l, l < 32 → ((t.warp x.warp).reg x.d.toNat).val.at' l =
         if x.lanes.getLsbD l then BitVec.ofNat 32 x.count else ((s.warp x.warp).reg x.d.toNat).val.at' l) ∧
       (x.pf.toNat < 12 → ((t.warp x.warp).predAt x.pf.toNat).ready = true ∧
         ∀ l, l < 32 → ((t.warp x.warp).predAt x.pf.toNat).val.getLsbD l =
           if x.lanes.getLsbD l then x.complete else ((s.warp x.warp).predAt x.pf.toNat).val.getLsbD l) ∧
       (∀ r, r ≠ x.d.toNat → (t.warp x.warp).reg r = (s.warp x.warp).reg r) ∧
       (∀ w, w ≠ x.warp → t.warp w = s.warp w) ∧ SameBytes s t))

/-- R302, R325, R326, R331, R373, R388: ST sends one write for every line, which carries the bytes of its lanes and no others; in a
versioned group the bytes enter the version at once. Nothing in memory changes before the writes are performed. A
release at .pool or .sys waits where it issues, which is the model's choice (log 10). -/
def Obligations.StoresStart : Prop :=
  ∀ (s u : State) (h : Hd) (m : AccMod) (d a : GReg) (off : BitVec 16) (e : Mask) (ps : List Placed),
    s.ReadySome (.st h m d a off) e → m.space ≠ 1 → s.canAccess = true →
    ((lanesOf e).all fun l => !s.me.misaligned m a off (AccMod.size m) l) = true →
    s.Places e false true false ((lanesOf e).flatMap (s.me.laneParts m a off (AccMod.size m))) ps u →
    u.mayRelease (m.ord != 0#2) m.scope = true → Apart ps →
    (s.versioned = false → ∃ t, exec (.st h m d a off) s = .next t ∧ SendsWrites s u t ps [] [] ∧ OneWriteEach u t ps ∧
      ∀ p ∈ ps, t.Stores s.cur.warp p (m.ord != 0#2) m.scope none
        ((s.me.reg (d.toNat + p.acc.off / 4)).val.at' p.acc.lane)) ∧
    (s.versioned = true → s.me.group < s.groups.length → u.versionWaits e (m.ord != 0#2) ps = false →
      ∃ t, exec (.st h m d a off) s = .next t ∧ SendsWrites s u t [] [] [] ∧ t.writes = u.writes ∧
        ∀ p ∈ ps, ∃ y, alFind (lineNo p.pa) (t.group s.me.group).version = some y ∧ ∀ i, i < p.acc.len →
          y.written.getLsbD (p.pa % 128 + i) = true ∧ lineByte y.data.bits (p.pa % 128 + i) =
            ((s.me.reg (d.toNat + p.acc.off / 4)).val.at' p.acc.lane).extractLsb' (8 * i) 8)

/-- R327, R329 to R331, R333, R334: an LD of scratch reads the bytes at its addresses when it issues, and an ST writes exactly those of
its lanes; ATOM and ATOMR write the value that their operation gives for the bytes of the bank, and ATOMR returns the old ones; a misaligned
address raises ALIGN, and one that lies outside the group's scratch MEMFAULT with code 5. That scratch is read and written when the
instruction issues is the model's choice (log 8), and that an atomic under W64 takes its address from the first register of the pair in A
is its reading (log 53). -/
def Obligations.ScratchAccesses : Prop :=
  (∀ (s : State) (h : Hd) (m : AccMod) (d a : GReg) (off : BitVec 16) (e : Mask) (at_ : Nat → Nat × Nat),
    s.ReadySome (.ld h m d a off) e → m.space = 1 → s.canAccess = true →
    s.InScratch e (AccMod.size m) (s.me.addr32 m.nb a off) at_ →
    ∃ t, exec (.ld h m d a off) s = .next t ∧ t.me.pc = s.me.pcAfter ∧ KeepsRegs s t (destRegs m.wide d) [] ∧ SameBytes s t ∧
      (∀ r ∈ destRegs m.wide d, (t.me.reg r).full = false) ∧
      t.Loads s.nextId s.cur.warp (ldReq .ld m d) e (fun x => x.performed = true ∧
        ∀ l i, l < 32 → e.getLsbD l = true → i < AccMod.size m →
          (x.value l).extractLsb' (8 * i) 8 = (s.scratchAt s.me.group (at_ l).1 ((at_ l).2 + i)).1)) ∧
  (∀ (s : State) (h : Hd) (m : AccMod) (d a : GReg) (off : BitVec 16) (e : Mask) (at_ : Nat → Nat × Nat),
    s.ReadySome (.st h m d a off) e → m.space = 1 → s.canAccess = true →
    s.InScratch e (AccMod.size m) (s.me.addr32 m.nb a off) at_ → s.readsOpen s.cur.warp s.nextId e = false →
    (m.ord = 0 ∨ s.allPerformed s.cur.warp s.nextId 0 = true) → s.me.group < s.groups.length →
    Sparse.wf (0 : Byte) s.myGroup.scratch → Sparse.wf false s.myGroup.scratchP →
    (∀ l k, l < 32 → k < 32 → l ≠ k → e.getLsbD l = true → e.getLsbD k = true → at_ l ≠ at_ k) →
    let n := AccMod.size m
    ∃ t, exec (.st h m d a off) s = .next t ∧ t.me.pc = s.me.pcAfter ∧ KeepsRegs s t [] [] ∧
      (∀ pa, t.byteAt pa = s.byteAt pa) ∧ t.writes = s.writes ∧
      (∀ l i, l < 32 → e.getLsbD l = true → i < n →
        (t.scratchAt s.me.group (at_ l).1 ((at_ l).2 + i)).1 =
          ((s.me.reg (d.toNat + i / 4)).val.at' l).extractLsb' (8 * (i % 4)) 8 ∧
        (4 ≤ n → (t.scratchAt s.me.group (at_ l).1 ((at_ l).2 + i)).2 = (s.me.reg (d.toNat + i / 4)).poison.getLsbD l)) ∧
      (∀ g p o, (g = s.me.group → ∀ l i, l < 32 → e.getLsbD l = true → i < n →
          scratchKey p o ≠ scratchKey (at_ l).1 ((at_ l).2 + i)) →
        (t.scratchAt g p o).1 = (s.scratchAt g p o).1)) ∧
  (∀ (s : State) (h : Hd) (m : AtomMod) (d a b c : GReg) (ret : Bool) (e : Mask) (at_ : Nat → Nat × Nat),
    let i := if ret then Instr.atomr h m d a b c else Instr.atom h m a b
    let c := if ret then c else b
    let n := atomBytes m.w64
    let at' := fun (s : State) (l j : Nat) => s.scratchAt s.me.group (at_ l).1 ((at_ l).2 + j)
    let old := fun l => numOf ((List.range n).map (at' s l))
    let new := fun l => atomNew m.aop m.w64 (m.sg != 1#2) (old l) ((s.me.wide m.w64 b l).toNat % 2 ^ (8 * n))
      ((s.me.wide m.w64 c l).toNat % 2 ^ (8 * n))
    s.ReadySome i e → m.space = 1 → s.canAccess = true → s.InScratch e n (s.me.lane a) at_ →
    s.readsOpen s.cur.warp s.nextId e = false → (releases m.ord = false ∨ s.allPerformed s.cur.warp s.nextId 0 = true) →
    s.me.group < s.groups.length → Sparse.wf (0 : Byte) s.myGroup.scratch → Sparse.wf false s.myGroup.scratchP →
    (∀ l k, l < 32 → k < 32 → l ≠ k → e.getLsbD l = true → e.getLsbD k = true → at_ l ≠ at_ k) →
    ∃ t, exec i s = .next t ∧ t.me.pc = s.me.pcAfter ∧ KeepsRegs s t (if ret then destRegs m.w64 d else []) [] ∧
      (∀ pa, t.byteAt pa = s.byteAt pa) ∧ t.writes = s.writes ∧
      (∀ l j, l < 32 → e.getLsbD l = true → j < n →
        at' t l j = (BitVec.ofNat 8 (new l / 256 ^ j), m.aop != 6 && (at' s l j).2)) ∧
      (∀ g p o, (g = s.me.group → ∀ l j, l < 32 → e.getLsbD l = true → j < n →
          scratchKey p o ≠ scratchKey (at_ l).1 ((at_ l).2 + j)) →
        (t.scratchAt g p o).1 = (s.scratchAt g p o).1) ∧
      (ret = true → (∀ r ∈ destRegs m.w64 d, (t.me.reg r).full = false) ∧
        t.Loads s.nextId s.cur.warp (atomReq .atomr m (acquires m.ord) d) e fun x => x.performed = true ∧
          ∀ l, l < 32 → e.getLsbD l = true → (x.value l).toNat % 2 ^ (8 * n) = old l)) ∧
  (∀ (s : State) (h : Hd) (m : AtomMod) (d a b c : GReg) (e bad : Mask) (i : Instr),
    i = .atom h m a b ∨ i = .atomr h m d a b c → s.ReadySome i e → m.space = 1 → s.canAccess = true →
    let f := s.me.lane a
    let n := atomBytes m.w64
    let mis := maskOf fun l => e.getLsbD l && (f l).toNat % n != 0
    (mis ≠ 0 → ∃ t, exec i s = .next t ∧ Raised s t .align mis 0 ((f (lowest mis)).setWidth 64)) ∧
    (mis = 0 → bad = (maskOf fun l => e.getLsbD l && (s.scratchRange s.me.group (f l) n).isNone) → bad ≠ 0 →
      ∃ t, exec i s = .next t ∧ Raised s t .memfault bad 5 ((f (lowest bad)).setWidth 64))) ∧
  (∀ (s : State) (h : Hd) (m : AccMod) (d a : GReg) (off : BitVec 16) (e bad : Mask) (i : Instr),
    i = .ld h m d a off ∨ i = .st h m d a off → s.ReadySome i e → m.space = 1 → s.canAccess = true →
    let f := s.me.addr32 m.nb a off
    let mis := maskOf fun l => e.getLsbD l && (f l).toNat % AccMod.size m != 0
    (mis ≠ 0 → ∃ t, exec i s = .next t ∧ Raised s t .align mis 0 ((f (lowest mis)).setWidth 64)) ∧
    (mis = 0 → bad = (maskOf fun l => e.getLsbD l && (s.scratchRange s.me.group (f l) (AccMod.size m)).isNone) → bad ≠ 0 →
      ∃ t, exec i s = .next t ∧ Raised s t .memfault bad 5 ((f (lowest bad)).setWidth 64)))

/-- R329, R333, R334: the values that the atomic operations write, and where; the sum of a floating add is rounded to nearest even, with
subnormals kept and a NaN canonical. -/
def Obligations.AtomicValues : Prop :=
  (∀ (w64 sg : Bool) (old b c : Nat), let n := if w64 then 64 else 32
    old < 2 ^ n → b < 2 ^ n → c < 2 ^ n →
    let lt := fun (x y : Nat) => if sg then (BitVec.ofNat n x).toInt < (BitVec.ofNat n y).toInt else x < y
    atomNew 0 w64 sg old b c = (old + b) % 2 ^ n ∧
    (lt old b → atomNew 1 w64 sg old b c = old ∧ atomNew 2 w64 sg old b c = b) ∧
    (¬ lt old b → atomNew 1 w64 sg old b c = b ∧ atomNew 2 w64 sg old b c = old) ∧
    BitVec.ofNat n (atomNew 3 w64 sg old b c) = BitVec.ofNat n old &&& BitVec.ofNat n b ∧
    BitVec.ofNat n (atomNew 4 w64 sg old b c) = BitVec.ofNat n old ||| BitVec.ofNat n b ∧
    BitVec.ofNat n (atomNew 5 w64 sg old b c) = BitVec.ofNat n old ^^^ BitVec.ofNat n b ∧
    atomNew 6 w64 sg old b c = b ∧ atomNew 7 w64 sg old b c = (if old = c then b else old) ∧
    atomNew 9 w64 sg old b c = (if b ≤ old then 0 else old + 1) ∧
    atomNew 10 w64 sg old b c = (if old = 0 ∨ b < old then b else old - 1) ∧
    (let f := if w64 then f64F else f32F
     let k : RndCtl := { rnd := .rne, sat := false, ftz := false }
     atomNew 8 w64 sg old b c = (f.add k (f.val old) (f.val b)).code ∧
     ((f.val old).isNan = true ∨ (f.val b).isNan = true → atomNew 8 w64 sg old b c = f.nanCode) ∧
     ∀ neg x y q, f.val old = .fin neg x q → f.val b = .fin neg y q → x + y ≠ 0 →
       atomNew 8 w64 sg old b c = (f.round k neg (x + y) q).code)) ∧
  (∀ (aop : BitVec 4) (w64 sg : Bool) (off : Nat) (b c : DWord) (d : LineData), let n := atomBytes w64
    off + n ≤ 128 → off % n = 0 → aop.toNat ≤ 10 →
    let new := atomNew aop w64 sg (lineRead d.bits off n).toNat (b.toNat % 2 ^ (8 * n)) (c.toNat % 2 ^ (8 * n))
    let t := atomLine aop w64 sg off b c d
    (lineRead t.bits off n).toNat = new ∧
    (∀ i, i < 128 → (i < off ∨ off + n ≤ i) → lineByte t.bits i = lineByte d.bits i) ∧
    (aop ≠ 6 → t.poison = d.poison) ∧
    (aop = 6 → ∀ w, w < 32 → t.poison.getLsbD w = if off / 4 ≤ w ∧ w < (off + n) / 4 then false else d.poison.getLsbD w))

/-- R281, R282, R327, R334, R336, R367, R373, R497: ATOM, ATOMR and SC send one write for each lane, also in a versioned group, an ATOMR
with a load that takes the old values and an SC with an answer that its predicate waits for; CSTORE and CSTORE.nf store the selected lanes
one after another from their base, in a versioned group into its version, and CSTORE raises MEMFAULT at the first that it cannot store,
with its number. In a versioned group a scope above the group and a write to pool or host memory raise SCOPE, and a write beyond the limits
of a version VERSION_OVERFLOW. -/
def Obligations.AtomicsStart : Prop :=
  (∀ (s u : State) (h : Hd) (m : AtomMod) (d a b c : GReg) (ret : Bool) (e : Mask) (ps : List Placed),
    let i := if ret then Instr.atomr h m d a b c else Instr.atom h m a b
    let c := if ret then c else b
    s.ReadySome i e → m.space ≠ 1 → s.canAccess = true → s.me.atomMis (atomBytes m.w64) a e = [] →
    s.Places e true true (m.scope != 0#3) (s.me.atomAccs (atomBytes m.w64) a e) ps u →
    u.versionWaits e (releases m.ord) ps = false → u.mayRelease (releases m.ord) m.scope = true →
    ∃ t q, exec i s = .next t ∧ u.nextId ≤ q ∧ ((∀ p ∈ ps, pteAcc p.pte = false) → q = u.nextId) ∧
      (ret = false → SendsWrites s u t ps [] []) ∧
      (ret = true → SendsWrites s u t ps (destRegs m.w64 d) [] ∧
        (∀ r ∈ destRegs m.w64 d, (t.me.reg r).full = false) ∧
        t.Loads q s.cur.warp (atomReq .atomr m (acquires m.ord) d) e fun x => x.pieces = atomPieces ps) ∧
      ∀ p ∈ ps, ∃ y ∈ t.writes, y.warp = some s.cur.warp ∧ y.line = lineNo p.pa ∧ y.lanes = 1#32 <<< p.acc.lane ∧
        y.mask = byteRun (p.pa % 128) p.acc.len ∧ y.rel = releases m.ord ∧ y.scope = m.scope ∧
        y.kind = .atom m.aop m.w64 (m.sg != 1#2) (p.pa % 128) (s.me.wide m.w64 b p.acc.lane) (s.me.wide m.w64 c p.acc.lane)
          p.acc.lane (if ret then some q else none)) ∧
  (∀ (s u : State) (h : Hd) (m : AtomMod) (d : PNum) (a b : GReg) (e : Mask) (ps : List Placed),
    s.ReadySome (.sc h m d a b) e → s.canAccess = true → s.me.atomMis (atomBytes m.w64) a e = [] →
    s.Places e false true (m.scope != 0#3) (s.me.atomAccs (atomBytes m.w64) a e) ps u →
    u.versionWaits e (m.ord != 0#2) ps = false → u.mayRelease (m.ord != 0#2) m.scope = true →
    ∃ t, exec (.sc h m d a b) s = .next t ∧ SendsWrites s u t ps [] (if d = 15#4 then [] else [d.toNat]) ∧
      (d.toNat < 12 → (t.me.predAt d.toNat).ready = false ∧ (t.me.predAt d.toNat).val = (s.me.predAt d.toNat).val) ∧
      { id := u.nextId, warp := s.cur.warp, d := d, lanes := e, ok := 0 } ∈ t.scs ∧
      ∀ p ∈ ps, ∃ y ∈ t.writes, y.line = lineNo p.pa ∧ y.lanes = 1#32 <<< p.acc.lane ∧ y.kind = .sc u.nextId p.acc.lane ∧
        y.mask = byteRun (p.pa % 128) p.acc.len ∧
        y.data = s.me.scData m.w64 b p.acc.lane (p.pa % 128) (atomBytes m.w64)) ∧
  (∀ (s u : State) (h : Hd) (w64 : Bool) (ord : BitVec 2) (scope : BitVec 3) (a b d : GReg) (ps pf : PNum) (nf : Bool)
      (e : Mask) (places : List Placed) (stop : Option (List Nat × Nat × Nat)),
    let i := if nf then Instr.cstoreNf h w64 ord scope d a b ps pf else Instr.cstore h w64 ord scope a b ps
    let n := atomBytes w64
    let base := (s.me.lane2 a (lowest e)).toNat
    let s' : State := if nf then { s with nextId := s.nextId + 1 } else s
    let sel := lanesOf (e &&& (s.me.pred ps).val)
    s.ReadySome i e → base % n = 0 → s.canAccess = true →
    s'.cstoreGo n base sel 0 = (places, stop, u) → u.conditions e true false places = none →
    u.versionWaits e (ord != 0#2) places = false → u.placesWait places = false → u.mayRelease (ord != 0#2) scope = true → Apart places →
    (stop = none → (places.filter fun p => p.acc.off == 0).map (fun p => (p.acc.lane, p.acc.va)) =
      sel.zipIdx.map fun x => (x.1, (base + n * x.2) % 2 ^ 64)) ∧
    ∃ t, exec i s = .next t ∧
      (s.versioned = false → ∀ p ∈ places, t.Stores s.cur.warp p (ord != 0#2) scope (if nf then some s.nextId else none)
        ((s.me.reg (b.toNat + p.acc.off / 4)).val.at' p.acc.lane)) ∧
      (s.versioned = true → t.writes = u.writes ∧ (s.me.group < s.groups.length →
        ∀ p ∈ places, ∃ y, alFind (lineNo p.pa) (t.group s.me.group).version = some y ∧ ∀ j, j < p.acc.len →
          y.written.getLsbD (p.pa % 128 + j) = true ∧ lineByte y.data.bits (p.pa % 128 + j) =
            ((s.me.reg (b.toNat + p.acc.off / 4)).val.at' p.acc.lane).extractLsb' (8 * j) 8)) ∧
      (nf = false → stop = none → SendsWrites s u t places [] []) ∧
      (nf = false → ∀ ls va k, stop = some (ls, va, k) → ∃ x, t.me.trap = some x ∧ x.cause = .memfault ∧
        x.lmask = (maskOf fun l => ls.contains l) ∧ x.extra = BitVec.ofNat 64 k ∧ x.faddr = BitVec.ofNat 64 va ∧
        t.me.pc = s.me.pc) ∧
      (nf = true → SendsWrites s u t places [d.toNat] (if pf = 15#4 then [] else [pf.toNat]) ∧ (t.me.reg d.toNat).full = false ∧
        { id := s.nextId, warp := s.cur.warp, d := d, pf := pf, lanes := e, count := (places.filter fun p => p.acc.off == 0).length,
          complete := stop.isNone } ∈ t.nfs)) ∧
  (∀ (s u : State) (h : Hd) (m : AtomMod) (k : AccMod) (p : PNum) (d a b c : GReg) (off : BitVec 16) (e : Mask) (i : Instr)
      (rd wr scope : Bool) (accs : List Acc) (ps : List Placed),
    let n := atomBytes m.w64
    let lanes := ps.map Placed.acc
    let bad := (ps.filter u.outsideVersion).map Placed.acc
    ((i = .atom h m a b ∨ i = .atomr h m d a b c) ∧ m.space ≠ 1 ∧ s.me.atomMis n a e = [] ∧ rd = true ∧ wr = true ∧
        scope = (m.scope != 0#3) ∧ accs = s.me.atomAccs n a e ∨
      i = .lr h m d a ∧ s.me.atomMis n a e = [] ∧ rd = true ∧ wr = false ∧ scope = (m.scope != 0#3) ∧
        accs = (lanesOf e).flatMap (fun l => accParts l (s.me.lane2 a l).toNat n) ∨
      i = .sc h m p a b ∧ s.me.atomMis n a e = [] ∧ rd = false ∧ wr = true ∧ scope = (m.scope != 0#3) ∧
        accs = s.me.atomAccs n a e ∨
      i = .st h k d a off ∧ k.space ≠ 1 ∧ ((lanesOf e).all fun l => !s.me.misaligned k a off (AccMod.size k) l) = true ∧
        rd = false ∧ wr = true ∧ scope = false ∧ accs = (lanesOf e).flatMap (s.me.laneParts k a off (AccMod.size k))) →
    s.ReadySome i e → s.canAccess = true → s.versioned = true → s.placeAll s.cur.warp rd wr accs = ((ps, []), u) →
    (scope = true → ∃ t, exec i s = .next t ∧ Raised u t .scope e 0 (firstVa lanes)) ∧
    (scope = false → wr = true → bad ≠ [] → ∃ t, exec i s = .next t ∧ Raised u t .scope (accLanes bad) 0 (firstVa bad)) ∧
    ∀ x, scope = false → wr = true → bad = [] → u.overflows s.me.group (ps.map fun p => lineNo p.pa) = some x →
      ∃ t, exec i s = .next t ∧ Raised u t .versionOverflow e x (firstVa lanes)) ∧
  (∀ (s u : State) (h : Hd) (w64 : Bool) (ord : BitVec 2) (scope : BitVec 3) (d a b : GReg) (q pf : PNum) (nf : Bool) (e : Mask)
      (places : List Placed) (stop : Option (List Nat × Nat × Nat)),
    let i := if nf then Instr.cstoreNf h w64 ord scope d a b q pf else Instr.cstore h w64 ord scope a b q
    let s' : State := if nf then { s with nextId := s.nextId + 1 } else s
    let bad := (places.filter u.outsideVersion).map Placed.acc
    s.ReadySome i e → (s.me.lane2 a (lowest e)).toNat % atomBytes w64 = 0 → s.canAccess = true → s.versioned = true →
    s'.cstoreGo (atomBytes w64) (s.me.lane2 a (lowest e)).toNat (lanesOf (e &&& (s.me.pred q).val)) 0 = (places, stop, u) →
    (bad ≠ [] → ∃ t, exec i s = .next t ∧ Raised u t .scope (accLanes bad) 0 (firstVa bad)) ∧
    ∀ x, bad = [] → u.overflows s.me.group (places.map fun p => lineNo p.pa) = some x →
      ∃ t, exec i s = .next t ∧ Raised u t .versionOverflow e x (firstVa (places.map Placed.acc)))

/-! ## Lines at their homes -/

/-- R315, R333 to R337, R343, R387 to R389, R497: a write that its home performs gives the line its new value, clears the
reservations on it, and is complete or goes down the list, a page with STACKL having it written through to its stack, as also a write of
the host or of the device itself, which is the model's choice (log 57); an SC without a
reservation changes nothing; an atomic step or an SC of a versioned group acts on the line as the group sees it, and on its version
alone; a node takes an update with the words of the write; the tail's acknowledgement completes the write, has the D bit of its page set
and frees the line; and a write held under WB is translated anew once the switch of its page is over, with the reads that wait behind
it, held again where the leaf has WB, and lost with a pool window that is lost. That its reads go with it, and that a write of which the
new leaf does not allow stays held, are the model's readings (log 58). -/
def Obligations.WritesAtHome : Prop :=
  (∀ (s : State) (id : Nat) (x : Write) (l : L2Line) (new : LineData),
    s.writes.find? (fun x => x.id == id && x.phase == .pending) = some x → s.writeOrdered x = true →
    (x.warp.any s.versionedOf = false ∨ x.kind.inVersion = false) → s.l2At x.line = some l → s.lineBusy x.line = false →
    l.priv = false → l.host ≠ .he → (s.frame (128 * x.line) = .hbm ∨ l.st = .m ∨ l.st = .e) →
    s.reaches x.line = true → (x.warp = none ∨ s.tied x = [x]) →
    Memory.wf s.mem → Sparse.wf false s.memP → (s.writeValue x l.data).1 = some new →
    let hbm : Bool := s.frame (128 * x.line) = .hbm
    let through := l.through || (x.through && hbm)
    let direct := through || (x.kind.direct && hbm)
    ∃ t y, exec (.writeAtHome id) s = .next t ∧ t.l2At x.line = some y ∧ y.data = new ∧ y.dirty = !direct ∧ y.through = through ∧
      y.st = .m ∧ (direct = true → t.memAt x.line = new) ∧
      (∀ r ∈ t.resv, r.2.2 ≠ x.line) ∧
      ((∀ q k, x.kind ≠ .sc q k) → (∀ w off, x.kind ≠ .dev (.claim w off)) → t.warps = s.warps) ∧
      (∀ w, (t.warp w).regs = (s.warp w).regs ∧ (t.warp w).preds = (s.warp w).preds ∧ (t.warp w).pc = (s.warp w).pc) ∧
      (∀ pa, lineNo pa ≠ x.line → t.byteAt pa = s.byteAt pa) ∧
      (l.sends new (wordsOf x.mask) = true → y.busy = true ∧ ∃ f, y.prop = some f ∧ f.write = x.id ∧ f.nodes = l.nodes) ∧
      (l.sends new (wordsOf x.mask) = false → ∀ w ∈ t.watches, w.line = x.line → w.hit = true)) ∧
  (∀ (s : State) (x : Write) (old : LineData), (x.kind = .store ∨ x.kind = .engine ∨ x.kind = .commit ∨ x.kind = .host) →
    s.writeValue x old = (some (lineWrite old x.data x.mask), s)) ∧
  (∀ (s : State) (x : Write) (old : LineData) aop w64 sg off b c lane ret, x.kind = .atom aop w64 sg off b c lane ret →
    (s.writeValue x old).1 = some (atomLine aop w64 sg off b c old) ∧
    ∀ r y, ret = some r → y ∈ s.loads → y.id = r → ∃ z ∈ (s.writeValue x old).2.loads, z.id = r ∧
      z.pieces = y.pieces.map fun p => if p.lane = lane ∧ lineNo p.pa = x.line then p.take old else p) ∧
  (∀ (s : State) (x : Write) (old : LineData) (q lane w : Nat), x.kind = .sc q lane → x.warp = some w →
    s.versionedOf w = false →
    ((w, lane, x.line) ∈ s.resv → (s.writeValue x old).1 = some (lineWrite old x.data x.mask) ∧
      ∀ y ∈ s.scs, y.id = q → ∃ z ∈ (s.writeValue x old).2.scs, z.id = q ∧ z.ok = y.ok ||| (1#32 <<< lane)) ∧
    ((w, lane, x.line) ∉ s.resv → (s.writeValue x old).1 = none ∧ (s.writeValue x old).2.scs = s.scs)) ∧
  (∀ (s : State) (id w : Nat) (x : Write), s.writes.find? (fun x => x.id == id && x.phase == .pending) = some x →
    s.writeOrdered x = true → x.warp = some w → s.versionedOf w = true → x.kind.inVersion = true → s.versionReady x = true →
    (∀ l, s.l2At x.line = some l → l.host ≠ .he) → (s.warp w).group < s.groups.length →
    let old := s.viewLine w x.line (s.homeLine x.line)
    ∃ t, exec (.writeAtHome id) s = .next t ∧ (∀ y ∈ t.writes, y.id ≠ id) ∧ (∀ pa, t.byteAt pa = s.byteAt pa) ∧
      (∀ new, (s.writeValue x old).1 = some new → (∀ r ∈ (t.group (s.warp w).group).vresv, r.2.2 ≠ x.line) ∧
        ∀ i, i < 128 → lineByte (t.viewLine w x.line (t.homeLine x.line)).bits i =
          if x.mask.getLsbD i then lineByte new.bits i else lineByte old.bits i) ∧
      ((s.writeValue x old).1 = none → (t.group (s.warp w).group).version = (s.group (s.warp w).group).version) ∧
      ∀ q lane, x.kind = .sc q lane → ((s.writeValue x old).1 = none ↔
        (w, lane, x.line) ∉ (s.group (s.warp w).group).vresv)) ∧
  (∀ (s : State) (x : L2Line) (f : Flow) (n : Node) (r : List Node), s.l2At s.cur.line = some x → x.prop = some f →
    f.upgrade = none → f.hostLeft = false → f.nodes = n :: r → n.core < s.cores.length →
    ∃ t y, exec .updateAtNode s = .next t ∧ t.l2At s.cur.line = some y ∧ y.prop = some { f with nodes := r } ∧
      y.data = x.data ∧ t.warps = s.warps ∧ SameBytes s t ∧
      ∀ c, (s.core n.core).l1At s.cur.line = some c → c.pst ≠ .leaving → c.pst ≠ .detached →
        ∃ d, (t.core n.core).l1At s.cur.line = some d ∧
          d.data = lineWrite c.data (codeLine n.fmt x.data) (wordBytes f.words)) ∧
  (∀ (s : State) (x : L2Line) (f : Flow) (y : Write), s.l2At s.cur.line = some x → x.prop = some f → f.upgrade = none →
    f.hostLeft = false → f.nodes = [] → s.writes.find? (fun y => y.id == f.write) = some y → s.committed s.cur.line = false →
    y.id < s.nextId →
    ∃ t, exec .writeAck s = .next t ∧ t.lineBusy s.cur.line = false ∧ t.warps = s.warps ∧
      (∀ w ∈ t.watches, w.line = y.line → w.hit = true) ∧ SameBytes s t ∧
      (∀ p ∈ y.ptes, (s.devNat p 8).testBit 7 = false → ∃ z ∈ t.writes, z.kind = .dev .set ∧ z.line = lineNo p) ∧
      (s.frame (128 * y.line) = .hbm → ∀ z ∈ t.writes, z.id ≠ y.id)) ∧
  (∀ (s u : State) (id pa root region : Nat) (x : Write) (e : TlbEnt),
    s.writes.find? (fun x => x.id == id && x.phase == .held && x.wb == .over) = some x →
    (∀ w, x.warp = some w → root = s.rootOf w ∧ region = s.regionOf w) → (x.warp = none → root = x.root ∧ region = x.region) →
    s.translate x.core root region x.va false true = (.ok pa e, u) →
    ∃ t, exec (.heldWritePerform id) s = .next t ∧ SameBytes u t ∧
      (∀ w, (t.warp w).regs = (s.warp w).regs ∧ (t.warp w).preds = (s.warp w).preds ∧ (t.warp w).pc = (s.warp w).pc) ∧
      (pteWb e.pte = true → t.warps = s.warps ∧ ∃ y ∈ t.writes, y.id = id ∧ y.phase = .held ∧ y.wb = .waiting) ∧
      (pteWb e.pte = false → u.poolLost pa = none → ∃ y ∈ t.writes, y.id = id ∧ y.phase = .pending ∧ y.line = lineNo pa ∧
        y.ptes = [e.ptr] ∧ y.kind = x.kind ∧ y.data = x.data ∧ y.mask = x.mask ∧
        ∀ z ∈ u.loads, ∃ z' ∈ t.loads, z'.id = z.id ∧ z'.pieces = z.pieces.map fun p =>
          if x.takesAlong z p then { p with pa := 128 * lineNo pa + p.pa % 128 } else p) ∧
      (pteWb e.pte = false → ∀ port w, u.poolLost pa = some port → x.counter = none → x.warp = some w → w < s.warps.length →
        (∀ y ∈ t.writes, y.id ≠ id) ∧ (t.warp w).lostWrite.isSome = true)) ∧
  (∀ (s u : State) (id root region : Nat) (x : Write) (r : DWord),
    s.writes.find? (fun x => x.id == id && x.phase == .held && x.wb == .over) = some x →
    (∀ w, x.warp = some w → root = s.rootOf w ∧ region = s.regionOf w) → (x.warp = none → root = x.root ∧ region = x.region) →
    s.translate x.core root region x.va false true = (.fault r, u) → x.counter = none → (∀ w off, x.kind ≠ .dev (.claim w off)) →
    exec (.heldWritePerform id) s = .next u)

/-- R346 to R350, R385, R386, R393 to R396, R404: SUBS, UPGR and UNSUB act on the lines of their range; a node joins a
line's list at its head with a copy in its format, and leaves it; a resend holds the line until the node has it in its
new format; an observation window that ends starts the next, and the fourth disjoint one in a row has privatised copies granted;
MERGE and RECALL bring a line together and take it from the cache, but for a host or pool line while no port carries traffic (R491).
That a subscribed copy holds all four sectors (log 13), that a SUBS joins in place of a plain FULL copy and a detached line joins again at
its own format where that has no lower rank, and that a window which ends late is judged as it stood at its end (log 29), are the model's
readings. -/
def Obligations.SharedLines : Prop :=
  (∀ (s u : State) (h : Hd) (fmt : BitVec 2) (a b c : GReg) (e : Mask) (ls : List Nat), s.me.group < s.groups.length →
    Passes (fun k => s.subRange e a b c k) ls u →
    (s.ReadySome (.subs h fmt a b c) e → ∃ t, exec (.subs h fmt a b c) s = .next t ∧ t.me.pc = s.me.pcAfter ∧
      KeepsRegs s t [] [] ∧ (∀ line ∈ ls, (t.group s.me.group).subs.contains (s.me.core, line) = true) ∧
      ∀ line ∈ ls, (∀ x, u.l2At line = some x → x.priv = false) →
        (u.heldFmt s.me.core line = none → ∃ j ∈ t.joins, j.core = s.me.core ∧ j.line = line ∧
          j.fmt = match u.detachedFmt s.me.core line with
            | some g => if g.rank < (fmtOf fmt).rank then fmtOf fmt else g
            | none => fmtOf fmt) ∧
        ∀ g, u.heldFmt s.me.core line = some g → g.rank < (fmtOf fmt).rank →
          ∃ x ∈ t.upgs, x.core = s.me.core ∧ x.line = line ∧ x.fmt = fmtOf fmt) ∧
    (s.ReadySome (.upgr h fmt a b c) e → ∃ t, exec (.upgr h fmt a b c) s = .next t ∧ t.me.pc = s.me.pcAfter ∧
      KeepsRegs s t [] [] ∧ (∀ g, (t.group g).subs = (u.group g).subs) ∧
      ∀ line ∈ ls, u.subscribed s.me.core line = true → ∀ g,
        (u.heldFmt s.me.core line = some g ∨ u.heldFmt s.me.core line = none ∧ u.detachedFmt s.me.core line = some g) →
        (g.rank < (fmtOf fmt).rank → ∃ x ∈ t.upgs, x.core = s.me.core ∧ x.line = line ∧ x.fmt = fmtOf fmt) ∧
        ((fmtOf fmt).rank ≤ g.rank → u.heldFmt s.me.core line = none →
          ∃ j ∈ t.joins, j.core = s.me.core ∧ j.line = line ∧ j.fmt = g)) ∧
    (s.ReadySome (.unsub h a b c) e → ∃ t, exec (.unsub h a b c) s = .next t ∧ t.me.pc = s.me.pcAfter ∧
      KeepsRegs s t [] [] ∧ ∀ line ∈ ls, (t.group s.me.group).subs.contains (s.me.core, line) = false)) ∧
  (∀ (s : State) (id : Nat) (j : Join) (x : L2Line), s.joins.find? (fun j => j.id == id) = some j → j.core < s.cores.length →
    s.leaving j.core j.line = false → s.lineBusy j.line = false → (j.fmt = .full ∨ s.subscribed j.core j.line = true) →
    s.l2At j.line = some x → x.priv = false → x.host ≠ .he → x.nodes.length < 16 →
    (((s.core j.core).l1At j.line = none ∧
        (j.fmt = .full → ∀ k ∈ s.joins, k.core = j.core → k.line = j.line → k.fmt = .full) ∧
        ∃ i ∈ (s.core j.core).cacheBanks, ∀ y ∈ (s.core j.core).l1, y.line % 256 = j.line % 256 → y.bank ≠ i) ∨
      (j.fmt ≠ .full ∧ ∃ y, (s.core j.core).l1At j.line = some y ∧ y.pst = .listed ∧ y.fmt = .full)) →
    ∃ t y d, exec (.joinList id) s = .next t ∧ t.l2At j.line = some y ∧ y.data = x.data ∧
      y.nodes = { core := j.core, fmt := j.fmt } :: x.nodes.filter (fun n => n.core != j.core) ∧
      (t.core j.core).l1At j.line = some d ∧ d.fmt = j.fmt ∧ d.pst = .listed ∧ d.data = codeLine j.fmt x.data ∧
      d.sectors = (if j.fmt = .full then j.sectors else 15) ∧ (∀ k ∈ t.joins, k.id ≠ id) ∧ t.warps = s.warps) ∧
  (∀ (s : State) (core line : Nat) (x : L2Line), s.leaving core line = true → s.lineBusy line = false →
    s.l2At line = some x → core < s.cores.length →
    ∃ t y, exec (.leaveRequest core line) s = .next t ∧ t.l2At line = some y ∧ (∀ n ∈ y.nodes, n.core ≠ core) ∧
      y.data = x.data ∧ (t.core core).l1At line = none ∧ t.warps = s.warps ∧ SameBytes s t) ∧
  (∀ (s : State) (id : Nat) (u : Upg) (x : L2Line) (c : L1Line), s.upgs.find? (fun u => u.id == id && !u.sent) = some u →
    s.lineBusy u.line = false → (s.joins.any fun j => j.core == u.core && j.line == u.line && j.id < id) = false →
    s.l2At u.line = some x → (s.core u.core).l1At u.line = some c → c.pst ≠ .leaving → x.host ≠ .he →
    (x.nodes.any fun n => n.core == u.core) = true →
    ∃ t y f, exec (.upgradeResend id) s = .next t ∧ t.l2At u.line = some y ∧ y.busy = true ∧ y.prop = some f ∧
      f.upgrade = some id ∧ f.nodes = [{ core := u.core, fmt := u.fmt }] ∧ y.data = x.data ∧ t.warps = s.warps ∧ SameBytes s t) ∧
  (∀ (s : State) (x : L2Line) (f : Flow) (n : Node) (r : List Node) (id : Nat) (c : L1Line), s.l2At s.cur.line = some x →
    x.prop = some f → f.upgrade = some id → f.nodes = n :: r → (s.core n.core).l1At s.cur.line = some c → n.core < s.cores.length →
    ∃ t d, exec .upgradeInstall s = .next t ∧ t.lineBusy s.cur.line = false ∧ (t.core n.core).l1At s.cur.line = some d ∧
      d.fmt = n.fmt ∧ d.data = codeLine n.fmt x.data ∧ (∀ u ∈ t.upgs, u.id ≠ id) ∧ t.warps = s.warps ∧ SameBytes s t) ∧
  (∀ (s : State) (x : L2Line), s.l2At s.cur.line = some x → x.obs.start + 1024 ≤ s.clock → x.priv = false →
    s.lineBusy s.cur.line = false →
    ((x.obs.disjoint && s.grantable s.cur.line x) = false →
      ∃ t y, exec .observationWindowEnd s = .next t ∧ t.l2At s.cur.line = some y ∧ y.priv = false ∧ y.obs.streak = 0 ∧
        y.obs.start = x.obs.start + 1024 * ((s.clock - x.obs.start) / 1024) ∧ y.data = x.data ∧ SameBytes s t) ∧
    ((x.obs.disjoint && s.grantable s.cur.line x) = true → s.clock < x.obs.start + 2048 →
      (x.obs.streak = 0 → ∃ t y, exec .observationWindowEnd s = .next t ∧ t.l2At s.cur.line = some y ∧ y.priv = false ∧
        y.obs.streak = 1 ∧ y.obs.start = x.obs.start + 1024 ∧ y.data = x.data ∧ SameBytes s t) ∧
      (x.obs.streak = 3 → sharesNone (joinMasks x.obs.wr x.obs.union) = true →
        ∃ t y, exec .observationWindowEnd s = .next t ∧ t.l2At s.cur.line = some y ∧ y.priv = true ∧ y.data = x.data ∧
          y.nodes = (joinMasks x.obs.wr x.obs.union).map (fun m => { core := m.1, fmt := .full }) ∧ t.warps = s.warps))) ∧
  (∀ (s : State) (x : L2Line), s.named s.cur.line = true → s.lineBusy s.cur.line = false → s.l2At s.cur.line = some x →
    x.priv = true → ∃ t y, exec .merge s = .next t ∧ t.l2At s.cur.line = some y ∧ y.priv = false ∧ y.nodes = [] ∧
      t.warps = s.warps ∧ ∀ pa, lineNo pa ≠ s.cur.line → t.byteAt pa = s.byteAt pa) ∧
  (∀ (s : State) (x : L2Line), s.l2At s.cur.line = some x → s.lineBusy s.cur.line = false → x.host = .hi → x.priv = false →
    x.dirty = true → s.lineLost s.cur.line = false → s.l2.Pairwise (fun a b => a.1 < b.1) → Memory.wf s.mem → Sparse.wf false s.memP →
    (s.reaches s.cur.line = false → exec .recall s = .next s) ∧
    (s.reaches s.cur.line = true → ∃ t, exec .recall s = .next t ∧ t.l2At s.cur.line = none ∧ t.warps = s.warps ∧ SameBytes s t ∧
      ∀ r ∈ t.resv, r.2.2 ≠ s.cur.line))

/-! ## Fences, watches, barriers, banks -/

/-- R305, R342 to R344, R355, R369, R376, R469 to R472: FENCE.rel and FENCE.sc wait until every earlier access is performed at
their scope, and FENCE.acq and FENCE.sc note the warp's open reads, for which later accesses wait; WAITC waits while its
class has more than N operations outstanding, and then raises a failure that it holds; MON places a watch; MWAIT ends
when the watch has fired or its limit has passed, and waits otherwise. What a fence waits for where it issues is the
model's choice (log 9, log 10); so is that an acquiring fence notes the reads of values that are still on their way to others, and that
a releasing one at .pool or wider reports a pool write that was lost before it (log 58). -/
def Obligations.FencesAndWatches : Prop :=
  (∀ (s : State) (h : Hd) (kind : BitVec 2) (scope : BitVec 3) (e : Mask), s.ReadySome (.fence h kind scope) e →
    (∀ va port, kind ≠ 0 → 4 ≤ scope.toNat → s.me.lostWrite = some (va, port) → ∃ t, exec (.fence h kind scope) s = .next t ∧
      Raised s t .poolRegion e (BitVec.ofNat 64 port) (BitVec.ofNat 64 va) ∧ t.me.lostWrite = none) ∧
    ((scope.toNat < 4 ∨ s.me.lostWrite = none) → kind ≠ 0 → s.allPerformed s.cur.warp s.nextId scope = false →
      exec (.fence h kind scope) s = .next (s.block .fence)) ∧
    ((kind = 0 ∨ (scope.toNat < 4 ∨ s.me.lostWrite = none) ∧ s.allPerformed s.cur.warp s.nextId scope = true) →
      ∃ t, exec (.fence h kind scope) s = .next t ∧
        Issued s t (.fence h kind scope) 0 ∧ KeepsRegs s t [] [] ∧ KeepsRest s t ∧
        t.me.acqIds = s.me.acqIds ++ (if kind = 1 then [] else s.openReads s.cur.warp) ∧
        (kind ≠ 1 → ∀ x, x ∈ s.stillEarly s.me.early → x ∈ t.me.acqEarly) ∧ ∀ x ∈ s.me.acqEarly, x ∈ t.me.acqEarly)) ∧
  (∀ (s : State) (h : Hd) (cls : BitVec 2) (n : BitVec 6) (e : Mask), s.ReadySome (.waitc h cls n) e →
    let i := Instr.waitc h cls n
    (n.toNat < s.me.outstanding cls.toNat → exec i s = .next (s.block .engine)) ∧
    (s.me.outstanding cls.toNat ≤ n.toNat →
      ((∀ f ∈ s.me.fails, f.cls ≠ cls.toNat) → ∃ t, exec i s = .next t ∧ OnlyIssued s t i) ∧
      ∀ l f r, s.me.fails = l ++ f :: r → f.cls = cls.toNat → (∀ g ∈ l, g.cls ≠ cls.toNat) → ∃ t x, exec i s = .next t ∧
        t.me.fails = l ++ r ∧ t.me.trap = some x ∧ x.cause = .memfault ∧ x.engine = true ∧ x.extra = f.extra ∧
        x.faddr = f.faddr ∧ x.lmask = e ∧ t.me.pc = s.me.pc ∧ KeepsRegs s t [] [] ∧ KeepsRest s t)) ∧
  (∀ (s u : State) (h : Hd) (a : GReg) (e : Mask) (p : Placed), s.ReadySome (.mon h a) e → s.watches.length < 256 →
    s.Places e true false false [{ lane := 0, off := 0, len := 1, va := (s.me.lane2 a 0).toNat }] [p] u →
    ∃ t x, exec (.mon h a) s = .next t ∧ t.me.pc = s.me.pcAfter ∧ t.me.watch = .armed ∧ KeepsRegs s t [] [] ∧
      t.watchOf s.cur.warp false = some x ∧ x.line = lineNo p.pa ∧ x.hit = false) ∧
  (∀ (s : State) (h : Hd) (d : PNum) (a : GReg) (e : Mask), s.ReadySome (.mwait h d a) e →
    let i := Instr.mwait h d a
    let q := s.me.mwait.getD { limit := (s.me.lane a 0).toNat, start := s.gtime }
    (∀ ok, s.watchEnd = some ok ∨ (s.watchEnd = none ∧ ok = false ∧ q.limit ≠ 0 ∧ q.start + q.limit ≤ s.gtime) →
      ∃ t, exec i s = .next t ∧ t.me.pc = s.me.pcAfter ∧ t.me.watch = .none ∧ t.watchOf s.cur.warp false = none ∧
        t.me.regs = s.me.regs ∧ SameBytes s t ∧
        (d ≠ 15#4 → ∀ l, l < 32 → (t.me.predAt d.toNat).val.getLsbD l =
          if e.getLsbD l then ok else (s.me.predAt d.toNat).val.getLsbD l)) ∧
    (s.watchEnd = none → (q.limit = 0 ∨ s.gtime < q.start + q.limit) →
      ∃ t, exec i s = .next t ∧ t.me.pc = s.me.pc ∧ t.me.wait = some .mwait ∧ t.me.mwait = some q ∧ KeepsRegs s t [] [] ∧
        KeepsRest s t)) ∧
  (∀ (s : State) (x : Watch), s.watchOf s.cur.warp false = some x → x.hit = true → s.me.watch = .armed →
    s.cur.warp < s.warps.length →
    ∃ t, exec .monFire s = .next t ∧ t.me.watch = .fired ∧ t.watchOf s.cur.warp false = none ∧
      Untouched s t s.cur.warp ∧ SameBytes s t) ∧
  (∀ (s : State) (q : MwaitReq), s.me.mwait = some q → s.me.wait = some .mwait → q.limit ≠ 0 → q.start + q.limit ≤ s.gtime →
    s.watchEnd = none → ∃ t, exec .mwaitTimeout s = .next t ∧ t.me.watch = .lost ∧
      t.watchOf s.cur.warp false = none ∧ Untouched s t s.cur.warp ∧ SameBytes s t)

/-- R285, R430 to R432, R469 to R472: BARA arrives at a barrier, once in a phase, and never waits; the phase completes with the last
live warp; BARW waits for the phase of its last arrival, and for the accesses that its warps had issued before they arrived, and BAR
does both; PHASE counts once, and waits while the warp leads; a swap puts the pending warp that has been ready longest in the place of
one that is blocked on long latency. That the accesses are waited for where BARW ends is the model's choice (log 23). -/
def Obligations.BarriersAndPhases : Prop :=
  (∀ (s : State) (h : Hd) (n : BitVec 4) (e : Mask) (b : Bar), b = s.myGroup.bar n.toNat → s.me.group < s.groups.length →
    s.me.barPhase.length = 16 → s.myGroup.bars.length ≤ 16 →
    let live := s.liveWarps s.me.group
    let last := live.all fun w => (b.arrived ++ [s.cur.warp]).contains w
    let since := b.since ++ [(s.cur.warp, s.nextId)]
    let after : Bar := if last then { phase := b.phase + 1, arrived := [], since := [], before := since }
      else { b with arrived := b.arrived ++ [s.cur.warp], since := since }
    let done := last && since.all fun x => s.allPerformed x.1 x.2 0
    (s.ReadySome (.bara h n) e → s.cur.warp ∈ live → s.cur.warp ∉ b.arrived →
      ∃ t, exec (.bara h n) s = .next t ∧ t.me.pc = s.me.pcAfter ∧ KeepsRegs s t [] [] ∧ SameBytes s t ∧
        t.me.barPhase[n.toNat]? = some (some b.phase) ∧ (t.group s.me.group).bar n.toNat = after) ∧
    (s.ReadySome (.bara h n) e → s.cur.warp ∈ b.arrived → ∃ t, exec (.bara h n) s = .next t ∧ OnlyIssued s t (.bara h n)) ∧
    (s.ReadySome (.bar h n) e → s.cur.warp ∈ live → s.cur.warp ∉ b.arrived → s.me.begun ≠ some s.me.pc →
      ∃ t, exec (.bar h n) s = .next t ∧ KeepsRegs s t [] [] ∧ SameBytes s t ∧ (t.group s.me.group).bar n.toNat = after ∧
        (done = true → t.me.pc = s.me.pcAfter) ∧ (done = false → t.me.pc = s.me.pc ∧ t.me.wait = some (.bar n.toNat))) ∧
    (∀ i, (i = .barw h n ∨ (i = .bar h n ∧ s.me.begun = some s.me.pc)) → s.ReadySome i e →
      let past := match s.me.barPhase[n.toNat]? with
        | some (some p) => decide (p < b.phase) && b.before.all fun x => s.allPerformed x.1 x.2 0
        | _ => true
      (past = true → ∃ t, exec i s = .next t ∧ OnlyIssued s t i) ∧ (past = false → exec i s = .next (s.block (.bar n.toNat))))) ∧
  (∀ (s : State) (h : Hd) (e : Mask), s.ReadySome (.phase h) e →
    let v : Warp := if s.me.begun = some s.me.pc then s.me else { s.me with phase := s.me.phase + 1, begun := some s.me.pc }
    let u := s.modMe fun _ => v
    (u.leads = false → ∃ t, exec (.phase h) s = .next t ∧ t.me.pc = s.me.pcAfter ∧ t.me.phase = v.phase ∧
      KeepsRegs s t [] [] ∧ KeepsRest s t) ∧
    (u.leads = true → ∃ t, exec (.phase h) s = .next t ∧ t.me.pc = s.me.pc ∧ t.me.phase = v.phase ∧
      t.me.wait = some .phase ∧ KeepsRegs s t [] [] ∧ KeepsRest s t)) ∧
  (∀ (s : State) (core half out inn : Nat), out < s.warps.length → inn < s.warps.length → out ≠ inn →
    (s.warp out).core = core → (s.warp out).half = half → (s.warp out).active = true → (s.warp out).exited = false →
    (s.group (s.warp out).group).phase = .resident → s.longBlocked out = true → s.readiest core half = some inn →
    (s.core core).swapUntil half ≤ s.clock →
    ∃ t, exec (.warpSwap core half out inn) s = .next t ∧ (t.warp out).active = false ∧ (t.warp inn).active = true ∧
      (t.warp out).wswap = (s.warp out).wswap + 1 ∧ s.clock + 4 ≤ (t.warp out).resumeAt ∧
      s.clock + 4 ≤ (t.warp inn).resumeAt ∧ (t.warp out).regs = (s.warp out).regs ∧ (t.warp inn).regs = (s.warp inn).regs ∧
      (∀ w, w ≠ out → w ≠ inn → t.warp w = s.warp w) ∧ SameBytes s t)

/-- R106, R297, R298, R300, R356 to R360: BANKM has a switch made later, which drains the bank; FPUSH appends the words
of its lanes to a FIFO bank with room, and FPOP takes the oldest; a bank that is not the group's, and for FPUSH and FPOP one that is not
in FIFO mode, raises MEMFAULT with code 5; OVLD has the overlay loaded into a slot, is done at once where it is resident, shares a load
that is under way, and raises MEMFAULT with code 5 for a number that the binary does not hold; and overlay 0 is there when its load is
complete. That a slot takes no more than 64 KiB is the model's choice (log 51). -/
def Obligations.BanksAndOverlays : Prop :=
  (∀ (s : State) (h : Hd) (mode : BitVec 2) (a : GReg) (e : Mask), s.ReadySome (.bankm h mode a) e →
    let j := (s.me.lane a 0).toNat
    (∀ n b, j < s.myLaunch.nb → s.bankAt s.me.group s.me.pos j = some (n, b) → s.me.core < s.cores.length →
      ∃ t, exec (.bankm h mode a) s = .next t ∧ t.me.pc = s.me.pcAfter ∧ KeepsRegs s t [] [] ∧ SameBytes s t ∧
        (t.core s.me.core).banks = (s.core s.me.core).banks.modify n fun b => { b with pending := b.pending ++ [bankMode mode] }) ∧
    (s.myLaunch.nb ≤ j → ∃ t, exec (.bankm h mode a) s = .next t ∧ Raised s t .memfault e 5 (BitVec.ofNat 64 j))) ∧
  (∀ (s : State) (h : Hd) (w64 : Bool) (j : Byte) (a : GReg) (e : Mask) (k : Nat) (b : Bank), s.ReadySome (.fpush h w64 j a) e →
    j.toNat < s.myLaunch.nb → s.bankAt s.me.group s.me.pos j.toNat = some (k, b) → b.pending = [] → b.mode = .fifo →
    (s.me.core < s.cores.length) → s.allPerformed s.cur.warp s.nextId 0 = true →
    let n := if w64 then 8 else 4
    (b.fifo.length + n ≤ 1024 → ∃ t es, exec (.fpush h w64 j a) s = .next t ∧ t.me.pc = s.me.pcAfter ∧ KeepsRegs s t [] [] ∧
      SameBytes s t ∧ es.length = n ∧
      (t.core s.me.core).banks = (s.core s.me.core).banks.modify k (fun b => { b with fifo := b.fifo ++ es }) ∧
      ∀ i, i < 8 * n → entryWord es i = s.me.pushWords w64 a i) ∧
    (1024 < b.fifo.length + n → exec (.fpush h w64 j a) s = .next (s.block .fpush))) ∧
  (∀ (s : State) (h : Hd) (w64 : Bool) (d : GReg) (j : Byte) (e : Mask) (k : Nat) (b : Bank), s.ReadySome (.fpop h w64 d j) e →
    j.toNat < s.myLaunch.nb → s.bankAt s.me.group s.me.pos j.toNat = some (k, b) → b.pending = [] → b.mode = .fifo →
    s.me.core < s.cores.length →
    let n := if w64 then 8 else 4
    (n ≤ b.fifo.length → 768 ≤ s.requests s.me.core → exec (.fpop h w64 d j) s = .next (s.block .access)) ∧
    (n ≤ b.fifo.length → s.requests s.me.core < 768 → ∃ t, exec (.fpop h w64 d j) s = .next t ∧ t.me.pc = s.me.pcAfter ∧
      KeepsRegs s t (destRegs w64 d) [] ∧ SameBytes s t ∧ (∀ r ∈ destRegs w64 d, (t.me.reg r).full = false) ∧
      (t.core s.me.core).banks = (s.core s.me.core).banks.modify k (fun b => { b with fifo := b.fifo.drop n }) ∧
      ∃ x ∈ t.loads, x.id = s.nextId ∧ x.lanes = e ∧ x.performed = true ∧ ∀ l, l < 32 → e.getLsbD l = true →
        (x.word l 0 = (entryWord (b.fifo.take n) (if w64 then 2 * l else l)).1 ∧
          (w64 = true → x.word l 1 = (entryWord (b.fifo.take n) (2 * l + 1)).1))) ∧
    (b.fifo.length < n → exec (.fpop h w64 d j) s = .next (s.block .fpop))) ∧
  (∀ (s : State) (h : Hd) (w64 : Bool) (d : GReg) (j : Byte) (e : Mask) (i : Instr), i = .fpush h w64 j d ∨ i = .fpop h w64 d j →
    s.ReadySome i e →
    (s.myLaunch.nb ≤ j.toNat ∨
      (∃ k b, s.bankAt s.me.group s.me.pos j.toNat = some (k, b) ∧ b.pending = [] ∧ b.mode ≠ .fifo) →
      ∃ t, exec i s = .next t ∧ Raised s t .memfault e 5 (BitVec.ofNat 64 j.toNat)) ∧
    (∀ k b, j.toNat < s.myLaunch.nb → s.bankAt s.me.group s.me.pos j.toNat = some (k, b) → b.pending ≠ [] →
      exec i s = .next (s.block (match i with
        | .fpush .. => .fpush
        | _ => .fpop)))) ∧
  (∀ (s : State) (core bank g j : Nat) (b : Bank) (m : BankMode) (r : List BankMode), (s.core core).banks[bank]? = some b →
    b.pending = m :: r → b.owner = some (g, j) → b.mode ≠ .cache → core < s.cores.length → g < s.groups.length →
    s.bankUsed g (((s.group g).cores.findIdx? fun c => c == core).getD 0) j = false →
    ∃ t, exec (.bankSwitchComplete core bank) s = .next t ∧
      (t.core core).banks[bank]? = some { b with mode := m, fifo := [], pending := r } ∧ t.warps = s.warps ∧
      (∀ pa, t.byteAt pa = s.byteAt pa) ∧ (m = .scratch → b.mode ≠ .scratch → ∀ o, 32768 * j ≤ o → o < 32768 * (j + 1) →
        t.scratchAt g (((s.group g).cores.findIdx? fun c => c == core).getD 0) o = (0, false))) ∧
  (∀ (s u y v : State) (h : Hd) (a : GReg) (e : Mask) (va len k : Nat) (runs : List Run), s.ReadySome (.ovld h a) e →
    s.mayQueue 0 = true → let n := (bitsAt (s.me.lane a 0) 0 8).toNat
    s.overlayEntry (some s.me.core) (s.rootOf s.cur.warp) (s.regionOf s.cur.warp) (s.binary s.cur.warp) n = (.ok (va, len), u) →
    len ≠ 0 → Passes (fun k => u.transRange e va len true false k) runs y → PassesOn (y.globConds e 0 false runs []) v →
    (∀ o ∈ (v.core s.me.core).overlays, ∀ x, o = some x → ¬ (x.binary = s.binary s.cur.warp ∧ x.num = n)) →
    v.overlaySlot s.me.core (fun o => o.num != 0 && !v.protects s.me.core o) = some k → s.me.core < v.cores.length →
    let z := v.ownRuns runs
    ∃ t, exec (.ovld h a) s = .next t ∧ Queues s z t 0 3 (.ovld s.me.core k) ∧
      (k < (v.core s.me.core).overlays.length → (t.core s.me.core).overlays[k]? = some (some
        { binary := s.binary s.cur.warp, num := n, code := (codeWords (z.readRuns runs)).take 8192, loading := true,
          used := s.clock }))) ∧
  (∀ (s u : State) (h : Hd) (a : GReg) (e : Mask), s.ReadySome (.ovld h a) e → s.mayQueue 0 = true →
    let n := (bitsAt (s.me.lane a 0) 0 8).toNat
    let entry := s.overlayEntry (some s.me.core) (s.rootOf s.cur.warp) (s.regionOf s.cur.warp) (s.binary s.cur.warp) n
    (∀ va, entry = (.ok (va, 0), u) → ∃ t, exec (.ovld h a) s = .next t ∧ Raised u t .memfault e 5 0) ∧
    (∀ x c, entry = (.error (.fault x c), u) → ∃ t, exec (.ovld h a) s = .next t ∧ Raised u t .memfault e c (BitVec.ofNat 64 x)) ∧
    ∀ (y v : State) (va len k : Nat) (runs : List Run) (o : Overlay), entry = (.ok (va, len), u) → len ≠ 0 →
      Passes (fun k => u.transRange e va len true false k) runs y → PassesOn (y.globConds e 0 false runs []) v →
      (v.core s.me.core).overlays[k]? = some (some o) → o.binary = s.binary s.cur.warp → o.num = n →
      (∀ j, j < k → ∀ x, (v.core s.me.core).overlays[j]? = some (some x) → ¬ (x.binary = s.binary s.cur.warp ∧ x.num = n)) →
      ∃ t, exec (.ovld h a) s = .next t ∧ Queues s v t 0 3 (if o.loading then .loaded s.me.core k else .none) ∧
        t.cores = v.cores) ∧
  (∀ (s : State) (core slot : Nat) (o : Overlay), core < s.cores.length → (s.core core).overlays[slot]? = some (some o) →
    o.num = 0 → ∃ t, exec (.overlay0LoadComplete core slot) s = .next t ∧
      (t.core core).overlays[slot]? = some (some { o with loading := false }) ∧ t.warps = s.warps ∧ SameBytes s t)

/-! ## Engine and matrix operations -/

/-- R304 to R306, R311, R327, R339, R345, R351 to R353: an engine instruction whose ranges pass their checks enters its
class with the bytes that it is to move, and nothing else changes; with a lane missing it raises PARTIAL_MASK; a clause
or a tile that is not aligned raises ALIGN; and in a versioned group a PXFER, a TSTORE.all above the group's scope and a destination in
pool or host memory raise SCOPE, and a destination beyond the limits of a version VERSION_OVERFLOW. A count or a size outside its
range raises ILLEGAL, which is the model's choice (log 27); the scope of a COPY into scratch and of a GATH is the model's reading
(log 21). -/
def Obligations.EngineOperationsQueue : Prop :=
  (∀ (s u : State) (h : Hd) (a b : GReg) (e : Mask) (ls : List Nat), s.ReadySome (.prefCnt h a b) e → s.mayQueue 0 = true →
    Passes (fun k => s.prefLines e (s.me.lane2 a 0).toNat (s.me.lane b 0).toNat k) ls u →
    ∃ t, exec (.prefCnt h a b) s = .next t ∧ Queues s u t 0 3 (.pref ls none)) ∧
  (∀ (s u v : State) (h : Hd) (a b c : GReg) (e : Mask) (rs : List Run) (ls : List Nat), s.ReadySome (.prefCl h a b c) e →
    ((s.me.lane2 c 0).toNat % 64 = 0 → s.mayQueue 4 = true →
      Passes (fun k => s.clausePlace e (s.me.lane2 c 0).toNat k) rs u →
      Passes (fun k => u.prefLines e (s.me.lane2 a 0).toNat (s.me.lane b 0).toNat k) ls v →
      ∃ t, exec (.prefCl h a b c) s = .next t ∧ Queues s v t 4 3 (.pref ls rs.head?)) ∧
    ((s.me.lane2 c 0).toNat % 64 ≠ 0 → ∃ t, exec (.prefCl h a b c) s = .next t ∧
      Raised s t .align e 0 (s.me.lane2 c 0))) ∧
  (∀ (s u v : State) (h : Hd) (dir : BitVec 2) (scope : BitVec 3) (d a b : GReg) (e : Mask) (src dst : List Run),
    s.ReadySome (.copy h dir scope d a b) e → s.me.live &&& ~~~e = 0 → s.mayQueue 0 = true →
    Passes (fun k => s.engRange e (dir == 0#2 || dir == 1#2) a (s.me.lane b 0).toNat true false k) src u →
    Passes (fun k => u.engRange e (dir == 0#2 || dir == 2#2) d (s.me.lane b 0).toNat false true k) dst v →
    (∀ w, PassesOn (v.globConds e (s.me.lane2 d 0) false (globRuns src) (globRuns dst)) w →
      ∃ t, exec (.copy h dir scope d a b) s = .next t ∧ Queues s w t 0 (copyScope dir scope) (.copy src dst)) ∧
    (∀ r l, s.versioned = true → (globRuns dst).filter v.remoteRun = r :: l →
      ∃ t, exec (.copy h dir scope d a b) s = .next t ∧ Raised v t .scope e 0 (BitVec.ofNat 64 r.va)) ∧
    ∀ x r l, s.versioned = true → (globRuns dst).filter v.remoteRun = [] → globRuns dst = r :: l →
      v.overflows s.me.group ((globRuns dst).flatMap Run.lines) = some x →
      ∃ t, exec (.copy h dir scope d a b) s = .next t ∧ Raised v t .versionOverflow e x (BitVec.ofNat 64 r.va)) ∧
  (∀ (s u v w x : State) (h : Hd) (scope : BitVec 3) (d a b c : GReg) (e : Mask) (list dst src : List Run) (pos off : Nat),
    let rows := (bitsAt (s.me.lane c 0) 0 16).toNat
    let size := (bitsAt (s.me.lane c 0) 16 16).toNat
    s.ReadySome (.gath h scope d a b c) e → s.me.live &&& ~~~e = 0 → s.mayQueue 1 = true →
    1 ≤ rows → rows ≤ 4096 → 32 ≤ size → size ≤ 4096 → size % 32 = 0 →
    Passes (fun k => s.scrRange e (s.me.lane b 0) (4 * rows) k) list u → (∀ r ∈ list, r.place = .scr pos off) → list.length = 1 →
    Passes (fun k => u.scrRange e (s.me.lane d 0) (rows * size) k) dst v →
    Passes (fun k => v.gathRows e (s.me.lane2 a 0).toNat size k (v.myGroup.words pos off rows) []) src w →
    PassesOn (w.globConds e (s.me.lane2 a 0) false src []) x →
    ∃ t, exec (.gath h scope d a b c) s = .next t ∧ Queues s x t 1 0 (.copy src dst)) ∧
  (∀ (s u v w : State) (h : Hd) (get : Bool) (d a b : GReg) (e : Mask) (q : Nat) (far near : List Run),
    let there := (s.me.lane2 (if get then a else d) 0).toNat
    let here := (s.me.lane2 (if get then d else a) 0).toNat
    s.ReadySome (.pxfer h get d a b) e → s.me.live &&& ~~~e = 0 → s.mayQueue 3 = true →
    (∀ k, s.peerRange e there (s.me.lane b 0).toNat get (!get) k = k q far u) →
    Passes (fun k => u.transRange e here (s.me.lane b 0).toNat (!get) get k) near v →
    (PassesOn (v.globConds e (s.me.lane2 d 0) true (if get then [] else near) (if get then near else [])) w →
      ∃ t, exec (.pxfer h get d a b) s = .next t ∧ Queues s w t 3 5 (.pxfer get (BitVec.ofNat 64 there) q near far)) ∧
    (s.versioned = true → ∃ t, exec (.pxfer h get d a b) s = .next t ∧ Raised v t .scope e 0 (s.me.lane2 d 0))) ∧
  (∀ (s u : State) (h : Hd) (scope : BitVec 3) (d a b : GReg) (e : Mask) (sr vr dr : List Run),
    s.me.live &&& ~~~e = 0 → s.mayQueue 0 = true →
    (s.ReadySome (.tload h scope d a b) e →
      (∀ k, s.tileRange e (s.me.lane2 a 0) (s.me.lane d 0) (s.me.lane b 0).toNat false false k = k sr vr dr u) →
      ∃ t, exec (.tload h scope d a b) s = .next t ∧ Queues s u t 0 scope (.tload (s.me.lane2 a 0) vr dr sr 0 none)) ∧
    (s.ReadySome (.tstore h scope d a b) e →
      (∀ k, s.tileRange e (s.me.lane2 d 0) (s.me.lane a 0) (s.me.lane b 0).toNat true (scope != 0#3) k = k sr vr dr u) →
      ∃ t, exec (.tstore h scope d a b) s = .next t ∧ Queues s u t 0 scope (.tstore vr sr dr)) ∧
    (∀ x y, s.ReadySome (.tstore h scope d a b) e → s.versioned = true → (s.me.lane2 d 0).toNat % 128 = 0 →
      (let n := (s.me.lane b 0).toNat
       n ≠ 0 ∧ n % 128 = 0 ∧ n ≤ 65536 ∧ Passes (fun k => s.scrRange e (s.me.lane a 0) n k) sr x ∧
       Passes (fun k => x.transRange e (s.me.lane2 d 0).toNat 8 true true k) vr y ∧
       Passes (fun k => y.transRange e (((s.me.lane2 d 0).toNat + 128) % 2 ^ 64) n false true k) dr u) →
      (scope ≠ 0#3 → ∃ t, exec (.tstore h scope d a b) s = .next t ∧ Raised u t .scope e 0 (s.me.lane2 d 0)) ∧
      (∀ r l, scope = 0#3 → (vr ++ dr).filter u.remoteRun = r :: l →
        ∃ t, exec (.tstore h scope d a b) s = .next t ∧ Raised u t .scope e 0 (BitVec.ofNat 64 r.va)) ∧
      ∀ x r l, scope = 0#3 → (vr ++ dr).filter u.remoteRun = [] → vr ++ dr = r :: l →
        u.overflows s.me.group ((vr ++ dr).flatMap Run.lines) = some x →
        ∃ t, exec (.tstore h scope d a b) s = .next t ∧ Raised u t .versionOverflow e x (BitVec.ofNat 64 r.va)) ∧
    (s.ReadySome (.tload h scope d a b) e → (s.me.lane2 a 0).toNat % 128 ≠ 0 →
      ∃ t, exec (.tload h scope d a b) s = .next t ∧ Raised s t .align e 0 (s.me.lane2 a 0)) ∧
    (s.ReadySome (.tstore h scope d a b) e → (s.me.lane2 d 0).toNat % 128 ≠ 0 →
      ∃ t, exec (.tstore h scope d a b) s = .next t ∧ Raised s t .align e 0 (s.me.lane2 d 0))) ∧
  (∀ (s : State) (h : Hd) (get : Bool) (dir : BitVec 2) (scope : BitVec 3) (d a b c : GReg) (e : Mask) (i : Instr),
    (i = .copy h dir scope d a b ∨ i = .gath h scope d a b c ∨ i = .pxfer h get d a b ∨ i = .tload h scope d a b ∨
      i = .tstore h scope d a b) → s.ReadySome i e → s.me.live &&& ~~~e ≠ 0 →
    ∃ t, exec i s = .next t ∧ Raised s t .partialMask e ((s.me.live &&& ~~~e).setWidth 64) 0) ∧
  (∀ (s : State) (h : Hd) (scope : BitVec 3) (d a b c : GReg) (e : Mask), s.me.live &&& ~~~e = 0 →
    (let rows := (bitsAt (s.me.lane c 0) 0 16).toNat
     let size := (bitsAt (s.me.lane c 0) 16 16).toNat
     s.ReadySome (.gath h scope d a b c) e → s.mayQueue 1 = true →
     (rows = 0 ∨ 4096 < rows ∨ size = 0 ∨ 4096 < size ∨ size % 32 ≠ 0) →
     exec (.gath h scope d a b c) s = .next (s.illegal e)) ∧
    ∀ i v, ((i = .tload h scope d a b ∧ v = s.me.lane2 a 0) ∨ (i = .tstore h scope d a b ∧ v = s.me.lane2 d 0)) →
      s.ReadySome i e → s.mayQueue 0 = true → v.toNat % 128 = 0 →
      (let n := (s.me.lane b 0).toNat
       n = 0 ∨ n % 128 ≠ 0 ∨ 65536 < n) → exec i s = .next (s.illegal e))

/-- R304, R305, R311, R339 to R341, R345, R351, R353, R355, R360, R372, R485, R491: the oldest operation of a class does its next part: a COPY
or a GATH moves its bytes, and is complete once its writes are performed at its scope; a TLOAD reads the version word, moves the data
where it is even, and reads it again: where it has changed, or was odd, the next pass begins, and the last one fails with code 8; a
TSTORE.all waits while the version word is odd, exchanges it for the next number, in a versioned group as the group's version holds it,
writes the data and, as a release, the version plus 2; a PREF installs its lines and reports on its clause; a load of an overlay is
done; and a transfer on a link that is down fails with code 12, while one of a module that is not READY waits. What each step moves at
once is the model's choice (log 12). -/
def Obligations.EngineOperationsComplete : Prop :=
  (∀ (s : State) (w : Nat) (cls : BitVec 2) (o : EngOp) (r : List EngOp), cls ≠ 2 →
    (s.warp w).eng.filter (fun o => o.cls == cls.toNat) = o :: r → (s.group (s.warp w).group).phase ≠ .killed →
    let ex := exec (.engineOpComplete w cls) s
    let bulk := s.bulk w o.id o.scope
    (∀ src dst u, o.work = .copy src dst → PassesOn (bulk src dst) u →
      let m := u.writeGroup w o.scope dst (u.readGroup w src)
      ∃ t, ex = .next t ∧ Moved u m w o.id .done (m.dropEng w o.id) t) ∧
    (∀ va ver src dst passes pass, o.work = .tload va ver src dst passes pass →
      let again := fun (u : State) =>
        if 4095 ≤ passes then u.failEng w o 8 va else u.working w o.id (.tload va ver src dst (passes + 1) none)
      (∀ u, pass = none → PassesOn (bulk ver []) u → let n := numOf (u.readGroup w ver)
        (n % 2 = 0 → ex = .next (u.working w o.id (.tload va ver src dst passes (some (n, false))))) ∧
        (n % 2 = 1 → ex = .next (again u))) ∧
      (∀ u n, pass = some (n, false) → PassesOn (bulk src dst) u →
        ex = .next ((u.writeGroup w o.scope dst (u.readGroup w src)).working w o.id (.tload va ver src dst passes (some (n, true))))) ∧
      (∀ u n, pass = some (n, true) → PassesOn (bulk ver []) u →
        (numOf (u.readGroup w ver) = n → ex = .next (u.dropEng w o.id)) ∧
        (numOf (u.readGroup w ver) ≠ n → ex = .next (again u)))) ∧
    (∀ ver src dst, o.work = .tstore ver src dst →
      (∀ u x l, s.versionedOf w = false → (∀ q ∈ ver ++ dst, q.held = false) → ver = x :: l → PassesOn (bulk ver []) u →
        u.unlinked (firstPa ver) = false → let n := numOf (u.readGroup w ver)
        (n % 2 = 1 → ex = .next u) ∧
        (n % 2 = 0 → ∃ t, ex = .next t ∧ Moved u (u.sendCas w o x n) w o.id (.data ver src dst n) (u.sendCas w o x n) t)) ∧
      (∀ u, s.versionedOf w = true → PassesOn (bulk ver ver) u → let n := numOf (u.readGroup w ver)
        (n % 2 = 1 → ex = .next u) ∧
        (n % 2 = 0 → ex = .next ((u.writeGroup w o.scope ver (bytesOf 8 (n + 1))).working w o.id (.writing [] (.data ver src dst n)))))) ∧
    (∀ ids next, o.work = .writing ids next →
      (s.allDone ids o.scope = false → ex = .next s) ∧
      (s.allDone ids o.scope = true →
        (next = .done → ex = .next (s.dropEng w o.id)) ∧
        (∀ code a, next = .fail code a → ex = .next (s.failEng w o code a)) ∧
        (∀ ver src dst n u, next = .data ver src dst n → PassesOn (bulk src dst) u →
          let m := u.writeGroup w o.scope dst (u.readGroup w src)
          ∃ t, ex = .next t ∧ Moved u m w o.id (.version ver n) (m.working w o.id (.writing [] (.version ver n))) t) ∧
        (∀ ver n, next = .version ver n →
          let m := s.writeGroup w o.scope ver (bytesOf 8 ((n + 2) % 2 ^ 64))
          (s.allPerformed w o.id o.scope = false → ex = .next s) ∧
          (s.allPerformed w o.id o.scope = true → ∃ t, ex = .next t ∧ Moved s m w o.id .done (m.dropEng w o.id) t)))) ∧
    (∀ core slot, o.work = .ovld core slot → w < s.warps.length → ∃ t, ex = .next t ∧
      (t.warp w).eng = (s.warp w).eng.filter (fun p => p.id != o.id) ∧ SameBytes s t ∧
      ∀ x, core < s.cores.length → (s.core core).overlays[slot]? = some (some x) →
        (t.core core).overlays[slot]? = some (some { x with loading := false })) ∧
    (∀ lines u, o.work = .pref lines none → s.linesPending w o.id o.scope lines = false → s.installAll lines = ([], u) →
      ex = .next (u.dropEng w o.id)) ∧
    (∀ get va link near far u, o.work = .pxfer get va link near far → 1 ≤ runsLen far → w < u.warps.length →
      PassesOn (bulk (if get then [] else near) (if get then near else [])) u →
      (s.carries = false → ex = .next s) ∧
      (s.carries = true → nth true u.ctl.peerUp link = true → ∃ t, ex = .next t ∧ let m := u.peerMove w get link (runsLen far) near far
        Moved u m w o.id .done (m.dropEng w o.id) t) ∧
      (s.carries = true → nth true u.ctl.peerUp link = false → ∃ t n, ex = .next t ∧ n < runsLen far ∧ let a := va + BitVec.ofNat 64 n
        ((∀ p ∈ (t.warp w).eng, p.id ≠ o.id) ∧
          ∃ f ∈ (t.warp w).fails, f.cls = o.cls ∧ f.id = o.id ∧ f.extra = faultCode 12 0 ∧ f.faddr = a) ∨
        (get = true ∧ ∃ ids, ∃ p ∈ (t.warp w).eng, p.id = o.id ∧ p.work = .writing ids (.fail 12 a))))) ∧
  (∀ (s u : State) (w : Nat) (o : EngOp) (lines : List Nat) (r : Run),
    (s.warp w).eng.filter (fun o => o.cls == 4) = [o] → o.work = .pref lines (some r) → (s.group (s.warp w).group).phase ≠ .killed →
    s.linesPending w o.id o.scope lines = false → State.installAll { s with free := s.free + 1 } lines = ([], u) →
    ∃ t, exec (.engineOpComplete w 2) s = .next t ∧
      Moved u (u.reportClause w r) w o.id .done ((u.reportClause w r).dropEng w o.id) t) ∧
  (∀ (s : State) (w pa : Nat) (r : Run), r.place = .phys pa → ∃ y ∈ (s.reportClause w r).writes, y.id = s.nextId ∧ y.warp = some w ∧
    y.line = lineNo (pa + 2) ∧ y.mask = byteRun ((pa + 2) % 128) 2 ∧ y.kind = .dev (.dec ((pa + 2) % 128))) ∧
  (∀ (s : State) (x : Write) (old : LineData) (off : Nat), x.kind = .dev (.dec off) → x.mask = byteRun off 2 → off + 2 ≤ 128 →
    let n := (lineRead old.bits off 2).toNat
    (n = 0 → (s.writeValue x old).1 = none) ∧
    (n ≠ 0 → ∃ new, (s.writeValue x old).1 = some new ∧ (lineRead new.bits off 2).toNat = n - 1 ∧
      ∀ i, i < 128 → (i < off ∨ off + 2 ≤ i) → lineByte new.bits i = lineByte old.bits i)) ∧
  (∀ (s : State) (w : Nat) (scope : BitVec 3) (r : Run) (bs : List MarkedByte), bs.length = r.len →
    let t := s.writeGroup w scope [r] bs
    (∀ pos off, r.place = .scr pos off → (s.warp w).group < s.groups.length →
      Sparse.wf (0 : Byte) (s.group (s.warp w).group).scratch →
      ∀ i, i < r.len → (t.scratchAt (s.warp w).group pos (off + i)).1 = (bs.getD i (0, false)).1) ∧
    (∀ pa, r.place = .phys pa → s.unlinked pa = false → s.versionedOf w = false → ∀ i, i < r.len →
      ∃ y ∈ t.writes, y.kind = .engine ∧ y.warp = some w ∧ y.scope = scope ∧ y.line = lineNo (pa + i) ∧
        y.mask.getLsbD ((pa + i) % 128) = true ∧ lineByte y.data.bits ((pa + i) % 128) = (bs.getD i (0, false)).1))

/-- R207, R210, R258, R259, R262 to R269, R272 to R276: a matrix instruction whose checks pass enters the MATX class of its warp;
without a bound tile of its kind it raises ACC_SHAPE with the accumulator's number; a suspect tile raises SUSPECT_TILE;
ABIND binds a cleared tile and takes its granules, and AFREE gives them back, at once or, behind other tile instructions of the
accumulator, when these have retired; and the baton goes to the warp that BATON names. That an ABIND without free granules waits for
an AFREE of the same accumulator is the model's reading (log 50). -/
def Obligations.MatrixOperationsQueue : Prop :=
  (∀ (s u v : State) (h : Hd) (k : AccNum) (a b : GReg) (slot : BitVec 3) (e : Mask) (t : Tile) (oa ob : Nat) (pair : Bool),
    let i := if pair then Instr.mmap h k a b slot else Instr.mma h k a b slot
    let x := s.myLaunch.slot slot.toNat
    s.ReadySome i e → s.me.bound k.toNat = some t → t.kind = (if pair then .t128p else shapeKind x) →
    t.suspect = false →
    Passes (fun k => s.ownBlock e true (s.me.lane a 0) (blockBytes x (slotA x) (slotRows x)) k) oa u →
    Passes (fun k => u.ownBlock e true (s.me.lane b 0) (blockBytes x (slotB x) (if pair then 256 else slotRows x)) k) ob v →
    v.mayQueue 2 = true → s.me.core < s.cores.length →
    ((v.holdsBaton = true ∨ ((v.core v.me.core).baton = none ∧ (v.core v.me.core).batonQ = [])) →
      ∃ w, exec i s = .next w ∧ QueuesMatx s v w k 0 0 (.mma pair oa ob x) ∧ (w.core s.me.core).baton = some s.cur.warp) ∧
    (v.holdsBaton = false → (v.core v.me.core).baton ≠ none → ∃ w, exec i s = .next w ∧ w.me.pc = s.me.pc ∧
      w.me.wait = some .baton ∧ w.me.matx = s.me.matx ∧ s.cur.warp ∈ (w.core s.me.core).batonQ ∧ KeepsRegs s w [] [])) ∧
  (∀ (s u v : State) (h : Hd) (k : AccNum) (a b c : GReg) (slot : BitVec 3) (e : Mask) (t : Tile) (ox stack : Nat) (runs : List Run),
    let i := Instr.smv h k a b c slot
    let x := s.myLaunch.slot slot.toNat
    let g := s.me.lane c 0
    let r := (bitsAt g 0 4).toNat
    let n := (bitsAt g 16 7).toNat
    s.ReadySome i e → s.me.bound k.toNat = some t → t.kind = .t128 → t.suspect = false →
    (1 ≤ r → r ≤ 8 → 1 ≤ n → n ≤ 64 → g &&& 0xFF80FFF0 = 0 → (s.me.lane a 0).toNat % 128 = 0 →
      (s.me.lane2 b 0).toNat % 128 = 0 → Passes (fun k => s.ownBlock e false (s.me.lane a 0) (128 * n * r) k) ox u →
      (∀ f, u.stackRange e f (rangeParts (s.me.lane2 b 0).toNat (n * blockBytes x (slotB x) 128)) [] 0 = f runs stack v) →
      v.mayQueue 2 = true → ∃ w, exec i s = .next w ∧ QueuesMatx s v w k 0 (v.clock + 350) (.smv ox runs r n x stack)) ∧
    ((r = 0 ∨ 8 < r ∨ n = 0 ∨ 64 < n ∨ g &&& 0xFF80FFF0 ≠ 0) →
      ∃ w, exec i s = .next w ∧ Raised s w .accShape e (g.setWidth 64) 0)) ∧
  (∀ (s u : State) (h : Hd) (k : AccNum) (glob : Bool) (scope : BitVec 3) (a b : GReg) (e : Mask) (t : Tile) (rows : List (List Run)),
    s.me.bound k.toNat = some t →
    (s.ReadySome (.aclr h k) e → s.mayQueue 2 = true →
      ∃ w, exec (.aclr h k) s = .next w ∧ QueuesMatx s s w k 0 0 .aclr) ∧
    (s.ReadySome (.ald h k glob scope a b) e → Passes (fun k => s.tilePlace e t glob a b false k) rows u →
      u.mayQueue 2 = true → ∃ w, exec (.ald h k glob scope a b) s = .next w ∧
        QueuesMatx s u w k (if glob then scope else 0) 0 (.ald rows glob)) ∧
    (s.ReadySome (.ast h k glob scope a b) e → Passes (fun k => s.tilePlace e t glob a b true k) rows u →
      (t.suspect = false → u.mayQueue 2 = true → ∃ w, exec (.ast h k glob scope a b) s = .next w ∧
        QueuesMatx s u w k (if glob then scope else 0) 0 (.ast rows glob)) ∧
      (t.suspect = true → ∃ w, exec (.ast h k glob scope a b) s = .next w ∧ Raised u w .suspectTile e (k.setWidth 64) 0))) ∧
  (∀ (s : State) (h : Hd) (k : AccNum) (glob : Bool) (scope : BitVec 3) (a b c : GReg) (slot : BitVec 3) (e : Mask) (i : Instr),
    (i = .mma h k a b slot ∨ i = .mmap h k a b slot ∨ i = .smv h k a b c slot ∨ i = .aclr h k ∨ i = .ald h k glob scope a b ∨
      i = .ast h k glob scope a b) → s.ReadySome i e → s.me.bound k.toNat = none →
    ∃ t, exec i s = .next t ∧ Raised s t .accShape e (k.setWidth 64) 0) ∧
  (∀ (s : State) (h : Hd) (k : AccNum) (a b c : GReg) (slot : BitVec 3) (e : Mask) (i : Instr) (t : Tile),
    ((i = .mma h k a b slot ∧ t.kind ≠ shapeKind (s.myLaunch.slot slot.toNat)) ∨ (i = .mmap h k a b slot ∧ t.kind ≠ .t128p) ∨
      (i = .smv h k a b c slot ∧ t.kind ≠ .t128)) → s.ReadySome i e → s.me.bound k.toNat = some t →
    ∃ u, exec i s = .next u ∧ Raised s u .accShape e (k.setWidth 64) 0) ∧
  (∀ (s : State) (h : Hd) (k : AccNum) (a b c : GReg) (slot : BitVec 3) (e : Mask) (i : Instr) (t : Tile),
    ((i = .mma h k a b slot ∧ t.kind = shapeKind (s.myLaunch.slot slot.toNat)) ∨ (i = .mmap h k a b slot ∧ t.kind = .t128p) ∨
      (i = .smv h k a b c slot ∧ t.kind = .t128)) → s.ReadySome i e → s.me.bound k.toNat = some t → t.suspect = true →
    ∃ u, exec i s = .next u ∧ Raised s u .suspectTile e (k.setWidth 64) 0) ∧
  (∀ (s : State) (h : Hd) (k : AccNum) (kind : BitVec 2) (e : Mask), s.me.group < s.groups.length →
    let free := s.granulesFree s.cur.warp (tileKind kind)
    let idle := s.me.accIdle k.toNat
    (s.ReadySome (.abind h k kind) e → s.me.bound k.toNat = none →
      (free = true → ∃ t, exec (.abind h k kind) s = .next t ∧ t.me.pc = s.me.pcAfter ∧ KeepsRegs s t [] [] ∧ SameBytes s t ∧
        (idle = true → (t.me.strand k.toNat).tile = some (Tile.clear (tileKind kind)) ∧ t.me.matx = s.me.matx ∧
          ∀ j, j ≠ k.toNat → t.me.strand j = s.me.strand j) ∧
        (idle = false → QueuesMatx s s t k 0 0 (.bind (tileKind kind))) ∧
        (s.me.pos < s.myGroup.granUsed.length →
          (t.group s.me.group).granAt s.me.pos = s.myGroup.granAt s.me.pos + (tileKind kind).granules)) ∧
      (free = false → (∀ o ∈ s.me.matx, o.k = k.toNat → o.work ≠ .free) →
        ∃ t, exec (.abind h k kind) s = .next t ∧ Raised s t .accShape e (k.setWidth 64) 0) ∧
      (free = false → (∃ o ∈ s.me.matx, o.k = k.toNat ∧ o.work = .free) → exec (.abind h k kind) s = .next (s.block .segments))) ∧
    (∀ x, s.ReadySome (.abind h k kind) e → s.me.bound k.toNat = some x →
      ∃ t, exec (.abind h k kind) s = .next t ∧ Raised s t .accShape e (k.setWidth 64) 0) ∧
    (∀ x, s.ReadySome (.afree h k) e → s.me.bound k.toNat = some x →
      (idle = true → ∃ t, exec (.afree h k) s = .next t ∧ t.me.pc = s.me.pcAfter ∧ (t.me.strand k.toNat).tile = none ∧
        KeepsRegs s t [] [] ∧ SameBytes s t ∧ (∀ j, j ≠ k.toNat → t.me.strand j = s.me.strand j) ∧
        (s.me.pos < s.myGroup.granUsed.length →
          (t.group s.me.group).granAt s.me.pos = s.myGroup.granAt s.me.pos - x.kind.granules)) ∧
      (idle = false → ∃ t, exec (.afree h k) s = .next t ∧ QueuesMatx s s t k 0 0 .free)) ∧
    (s.ReadySome (.afree h k) e → s.me.bound k.toNat = none → ∃ t, exec (.afree h k) s = .next t ∧
      OnlyIssued s t (.afree h k))) ∧
  (∀ (s : State) (h : Hd) (a : GReg) (e : Mask), s.me.core < s.cores.length → s.me.group < s.groups.length →
    let c := s.core s.me.core
    (s.ReadySome (.batonTake h) e → (c.baton = some s.cur.warp ∨ (c.baton = none ∧ c.batonQ = [])) →
      ∃ t, exec (.batonTake h) s = .next t ∧ t.me.pc = s.me.pcAfter ∧ (t.core s.me.core).baton = some s.cur.warp ∧
        KeepsRegs s t [] [] ∧ SameBytes s t) ∧
    (∀ i next, ((i = .batonPass h a ∧ next = s.localWarp (bitsAt (s.me.lane a 0) 0 6).toNat) ∨
        (i = .batonPassRing h ∧ next = s.ringNext)) → s.ReadySome i e →
      (s.holdsBaton = true → ∃ t, exec i s = .next t ∧ t.me.pc = s.me.pcAfter ∧ KeepsRegs s t [] [] ∧ SameBytes s t ∧
        (t.core s.me.core).array.testDue = true ∧ (t.core s.me.core).baton = next.or c.batonQ.head? ∧
        (∀ j, j ≠ s.me.core → t.core j = s.core j)) ∧
      (s.holdsBaton = false → ∃ t, exec i s = .next t ∧ OnlyIssued s t i)) ∧
    (s.ReadySome (.batonRing h a) e → ∃ t, exec (.batonRing h a) s = .next t ∧ t.me.pc = s.me.pcAfter ∧
      KeepsRegs s t [] [] ∧ SameBytes s t ∧ nth 0 (t.group s.me.group).rings s.me.pos = s.me.lane2 a 0))

/-- R228, R258 to R260, R263 to R272, R275, R277, R278: an operation starts when the operations before it on its
accumulator let it: ACLR with a clear tile, ALD with the tile that it reads, an MMA when the array is free with the
products added to its tile, and an MMAP on the arrays of its pair, or in twice the clocks on the leader's where one of the pair is
excluded; an SMV is queued at its stack, before those whose operands arrive later, and reads x after the ASTs before it; an ABIND and an
AFREE have their effect; the oldest operation of a warp retires with its tile, an AST once its bytes are performed; and a self-test that
a core and, in a pair, its follower pass clears the doubt about its tiles, while one that either fails makes them suspect. That an ALD
or an AST moves its bytes in one step is the model's choice (log 12). -/
def Obligations.MatrixOperationsComplete : Prop :=
  (∀ (s : State) (w id : Nat) (o : MatxOp) (t : Tile),
    (s.warp w).matx.find? (fun o => o.id == id && !o.started) = some o → (s.warp w).startTile o = some t →
    (o.work = .aclr → exec (.matxStart w id) s = .next (s.modMatx w id fun o =>
      { o with started := true, due := s.clock + 16, out := some { Tile.clear t.kind with untested := t.untested } })) ∧
    (∀ src glob u, o.work = .ald src glob → PassesOn (s.bulk w o.id o.scope src.flatten []) u →
      exec (.matxStart w id) s = .next (u.modMatx w id fun o =>
        { o with started := true, due := u.clock, out := some (t.ofBytes (u.readGroup w src.flatten)) })) ∧
    (∀ dst glob, o.work = .ast dst glob → exec (.matxStart w id) s =
      .next (s.modMatx w id fun o => { o with started := true, due := s.clock })) ∧
    (∀ ox runs r n x stack, o.work = .smv ox runs r n x stack → exec (.matxStart w id) s =
      .next { s.modMatx w id fun o => { o with started := true } with smvQ := s.insertSmv (stack, w, id) o.due s.smvQ }) ∧
    (∀ pair a b x, o.work = .mma pair a b x → w < s.warps.length →
      let v := s.warp w
      let both := pair && s.pairWorks v.core
      (s.astMeets w id (o.pending v.pos) = true → exec (.matxStart w id) s = .next s) ∧
      ((s.core v.core).arrayFree s.clock = false → exec (.matxStart w id) s = .next s) ∧
      (both = true → (s.core (v.core + 1)).arrayFree s.clock = false → exec (.matxStart w id) s = .next s) ∧
      (s.astMeets w id (o.pending v.pos) = false → (s.core v.core).arrayFree s.clock = true → v.core < s.cores.length →
        (both = true → (s.core (v.core + 1)).arrayFree s.clock = true ∧ v.core + 1 < s.cores.length) →
        let g := s.group v.group
        let cols := if pair then 256 else slotRows x
        let q := t.addProduct (slotO x)
          (blockLines x (slotA x) (slotRows x) (g.peekN v.pos a (blockBytes x (slotA x) (slotRows x))).toArray)
          (blockLines x (slotB x) cols (g.peekN v.pos b (blockBytes x (slotB x) cols)).toArray)
        let c := mmaClocks x !(s.core v.core).array.fenced.isEmpty
        let till := s.clock + if pair && !both then 2 * c else c
        ∃ u, exec (.matxStart w id) s = .next u ∧ SameBytes s u ∧ (u.core v.core).array.busy = till ∧
          (u.core v.core).array.count = (s.core v.core).array.count + 1 ∧ (u.warp w).regs = v.regs ∧
          (u.warp w).matx = (v.matx.map fun p => if p.id = id then
            { p with started := true, due := till + 20, out := some { q.1 with untested := true }, flags := q.2 } else p) ∧
          (∀ j, j ≠ v.core → (both = true → j ≠ v.core + 1) → u.core j = s.core j) ∧
          (both = true → (u.core (v.core + 1)).array.busy = till ∧
            (u.core (v.core + 1)).array.count = (s.core (v.core + 1)).array.count)))) ∧
  (∀ (s : State) (stack w id due : Nat) (q : List (Nat × Nat × Nat)),
    (s.insertSmv (stack, w, id) due q).Perm ((stack, w, id) :: q) ∧
    ((∀ x ∈ q, x.1 = stack → ∀ o ∈ (s.warp x.2.1).matx, o.id = x.2.2 → o.due ≤ due) →
      s.insertSmv (stack, w, id) due q = q ++ [(stack, w, id)])) ∧
  (∀ (s : State) (w id : Nat) (o : MatxOp), (s.warp w).matx.find? (fun o => o.id == id && !o.started) = some o →
    (s.warp w).mayBind o = true → w < s.warps.length → o.k < 8 → (s.group (s.warp w).group).phase ≠ .killed →
    (∀ kind, o.work = .bind kind → ∃ t, exec (.matxStart w id) s = .next t ∧ SameBytes s t ∧
      ((t.warp w).strand o.k).tile = some (Tile.clear kind) ∧ (t.warp w).matx = (s.warp w).matx.filter (fun p => p.id != id) ∧
      (t.warp w).regs = (s.warp w).regs ∧ ∀ v, v ≠ w → t.warp v = s.warp v) ∧
    (o.work = .free → ∃ t, exec (.matxStart w id) s = .next t ∧ SameBytes s t ∧
      ((t.warp w).strand o.k).tile = none ∧ (t.warp w).matx = (s.warp w).matx.filter (fun p => p.id != id) ∧
      (t.warp w).regs = (s.warp w).regs ∧ (∀ v, v ≠ w → t.warp v = s.warp v) ∧
      ∀ x, ((s.warp w).strand o.k).tile = some x → (s.warp w).group < s.groups.length →
        (s.warp w).pos < (s.group (s.warp w).group).granUsed.length →
        (t.group (s.warp w).group).granAt (s.warp w).pos =
          (s.group (s.warp w).group).granAt (s.warp w).pos - x.kind.granules)) ∧
  (∀ (s u : State) (w id : Nat) (o : MatxOp) (t : Tile) (ox r n stack : Nat) (x : Slot) (runs : List Run),
    (s.warp w).matx.find? (fun o => o.id == id && o.started && !o.streamed) = some o → o.work = .smv ox runs r n x stack →
    (s.warp w).startTile o = some t →
    s.smvQ.find? (fun q => q.1 == stack && (s.warp q.2.1).matx.any fun p => p.id == q.2.2) = some (stack, w, id) →
    o.due ≤ s.clock → nth 0 s.stackFree stack ≤ s.clock →
    (s.astMeets w id (o.pending (s.warp w).pos) = true → exec (.smvStreamStart w id) s = .next s) ∧
    (s.astMeets w id (o.pending (s.warp w).pos) = false → PassesOn (s.bulk w id o.scope runs []) u →
    w < u.warps.length → stack < u.stackFree.length →
    let till := u.clock + smvClocks (blockBytes x (slotB x) 128 * n)
    ∃ v, exec (.smvStreamStart w id) s = .next v ∧ nth 0 v.stackFree stack = till ∧ (stack, w, id) ∉ v.smvQ ∧
      (v.warp w).regs = (u.warp w).regs ∧ SameBytes u v ∧
      ∀ p ∈ (v.warp w).matx, p.id = id → p.streamed = true ∧ p.due = till + 350 ∧ p.out ≠ none)) ∧
  (∀ (s : State) (o : MatxOp), s.me.matx.find? MatxOp.counted = some o → o.finished s.clock = true → s.myGroup.phase ≠ .killed →
    ((∀ dst glob, o.work ≠ .ast dst glob) →
      exec .matxRetire s = .next (s.modMe fun v => v.retireMatx o s.clock)) ∧
    (∀ dst glob t u, o.work = .ast dst glob → (s.me.strand o.k).tile = some t → o.sent = none →
      PassesOn (s.bulk s.cur.warp o.id o.scope [] dst.flatten) u →
      let m := u.writeGroup s.cur.warp o.scope dst.flatten t.bytes
      let ids := m.newWrites u.nextId
      (m.allDone ids o.scope = true → exec .matxRetire s = .next (m.modWarp s.cur.warp fun v => v.retireMatx o m.clock)) ∧
      (m.allDone ids o.scope = false →
        exec .matxRetire s = .next (m.modMatx s.cur.warp o.id fun p => { p with sent := some ids }))) ∧
    (∀ dst glob ids, o.work = .ast dst glob → o.sent = some ids →
      (s.allDone ids o.scope = true → exec .matxRetire s = .next (s.modMe fun v => v.retireMatx o s.clock)) ∧
      (s.allDone ids o.scope = false → exec .matxRetire s = .next s))) ∧
  (∀ (s : State) (o : MatxOp), s.me.matx.find? MatxOp.counted = some o → o.finished s.clock = false → exec .matxRetire s = .next s) ∧
  (∀ (v : Warp) (o : MatxOp) (clock : Nat), o.k < 8 →
    let u := v.retireMatx o clock
    u.matx = v.matx.filter (fun p => p.id != o.id) ∧ u.regs = v.regs ∧ u.preds = v.preds ∧ u.flagQ = v.flagQ ++ queued o.flags clock ∧
      (u.strand o.k).tile = o.out.or (v.strand o.k).tile ∧ (∀ j, j ≠ o.k → u.strand j = v.strand j)) ∧
  (∀ (s : State) (core : Nat) (bad : Option Nat), core < s.cores.length → (s.core core).array.testDue = true →
    (s.core core).array.busy ≤ s.clock → (s.core (core + 1)).followerOf ≠ some core →
    ∃ t, exec (.selfTest core bad none) s = .next t ∧ (t.core core).array.testDue = false ∧ (t.core core).array.count = 0 ∧
      (t.core core).array.busy = s.clock + 4 ∧ SameBytes s t ∧
      (∀ n, bad = some n → n % 16 ∈ (t.core core).array.fenced ∧ (t.core core).array.excluded = true) ∧
      (bad = none → (t.core core).array.fenced = (s.core core).array.fenced) ∧
      ∀ w k x, w < s.warps.length → k < 8 → (s.warp w).core = core → (s.group (s.warp w).group).resident = true →
        ((s.warp w).strand k).tile = some x → ∃ y, ((t.warp w).strand k).tile = some y ∧ y.kind = x.kind ∧ y.elems = x.elems ∧
          (x.untested = true → y.suspect = (x.suspect || bad.isSome) ∧ y.untested = bad.isSome) ∧
          (x.untested = false → y = x)) ∧
  (∀ (s : State) (core : Nat) (bad badF : Option Nat), core + 1 < s.cores.length → (s.core core).array.testDue = true →
    (s.core core).array.busy ≤ s.clock → (s.core (core + 1)).followerOf = some core →
    (s.clock < (s.core (core + 1)).array.busy → exec (.selfTest core bad badF) s = .next s) ∧
    ((s.core (core + 1)).array.busy ≤ s.clock → ∃ t, exec (.selfTest core bad badF) s = .next t ∧ SameBytes s t ∧
      (t.core core).array.testDue = false ∧ (t.core core).array.count = 0 ∧
      (∀ c ∈ [core, core + 1], (t.core c).array.busy = s.clock + 4) ∧
      (∀ n c, (c = core ∧ bad = some n) ∨ (c = core + 1 ∧ badF = some n) →
        n % 16 ∈ (t.core c).array.fenced ∧ (t.core c).array.excluded = true) ∧
      (bad = none → (t.core core).array.fenced = (s.core core).array.fenced) ∧
      (badF = none → (t.core (core + 1)).array.fenced = (s.core (core + 1)).array.fenced) ∧
      ∀ w k x, w < s.warps.length → k < 8 → (s.warp w).core = core → (s.group (s.warp w).group).resident = true →
        ((s.warp w).strand k).tile = some x → x.untested = true → ∃ y, ((t.warp w).strand k).tile = some y ∧
          y.suspect = (x.suspect || bad.isSome || badF.isSome) ∧ y.untested = (bad.isSome || badF.isSome)))

/-! ## Launches and sentences -/

/-- R405 to R407, R409, R429, R473 to R475: LAUNCH puts the record that memory holds into its core's queue once its warp's writes are
performed, waits while the queue is full, and raises SCOPE in a versioned group and ALIGN off a multiple of 256; LWAIT goes on when the
counter has reached its target and otherwise watches it at its home; GRAPH leaves its predicate to the launch processor; SBND raises the
step of the launch and never lowers it; and a waiting LWAIT reads its counter again after a write to it, or 10 µs later where it has no
watch. That it reads it again after 10 µs too while L2 does not hold the counter's line of host or pool memory, and that a counter is
changed in one step, are the model's choices (logs 46, 11). -/
def Obligations.LaunchesAndCounters : Prop :=
  (∀ (s : State) (h : Hd) (a : GReg) (e : Mask), s.ReadySome (.launch h a) e →
    let rec_ := s.me.lane2 a (lowest e)
    (∀ u v runs, s.versioned = false → rec_.toNat % 256 = 0 →
      Passes (fun k => s.instrRange e rec_.toNat 256 true false k) runs u → u.acquiring s.cur.warp = false →
      u.allWritten s.cur.warp u.nextId 3 = true →
      ((u.core s.me.core).queue.length < 4 → PassesOn ((u.countIfReady runs).bulk s.cur.warp u.nextId 3 runs []) v →
        s.me.core < v.cores.length → ∃ t, exec (.launch h a) s = .next t ∧ t.me.pc = s.me.pcAfter ∧ KeepsRegs s t [] [] ∧
          (t.core s.me.core).queue = (v.core s.me.core).queue ++
            [{ record := recordOf (v.readGroup s.cur.warp runs), region := v.regionOf s.cur.warp, age := v.clock,
               warp := s.cur.warp, id := v.nextId }]) ∧
      (4 ≤ (u.core s.me.core).queue.length → ∃ t, exec (.launch h a) s = .next t ∧ t.me.pc = s.me.pc ∧
        t.me.wait = some .launch ∧ KeepsRegs s t [] [])) ∧
    (s.versioned = true → ∃ t, exec (.launch h a) s = .next t ∧ Raised s t .scope e 0 0) ∧
    (s.versioned = false → rec_.toNat % 256 ≠ 0 → ∃ t, exec (.launch h a) s = .next t ∧ Raised s t .align e 0 rec_)) ∧
  (∀ (s u v : State) (h : Hd) (a b : GReg) (e : Mask) (runs : List Run), s.ReadySome (.lwait h a b) e →
    let addr := s.me.lane2 a (lowest e)
    let target := s.me.lane2 b (lowest e)
    s.watches.length < 256 → s.me.wait ≠ some .lwait → addr.toNat % 8 = 0 → Passes (fun k => s.instrRange e addr.toNat 8 true false k) runs u →
    u.acquiring s.cur.warp = false → u.matxMeets addr.toNat (firstPa runs) 8 = false →
    PassesOn ((u.countIfReady runs).bulk s.cur.warp u.nextId 5 runs []) v →
    let n := numOf ((v.dropWatch s.cur.warp true).readGroup s.cur.warp runs)
    (target.toNat ≤ n → ∃ t, exec (.lwait h a b) s = .next t ∧ t.me.pc = s.me.pcAfter ∧ KeepsRegs s t [] []) ∧
    (n < target.toNat → ∃ t, exec (.lwait h a b) s = .next t ∧ t.me.pc = s.me.pc ∧ t.me.wait = some .lwait ∧
      t.me.lwaitAt = v.gtime ∧ t.me.lwaitFor = some (addr.toNat, target.toNat) ∧ KeepsRegs s t [] [] ∧
      ∃ x, t.watchOf s.cur.warp true = some x ∧ x.line = lineNo (firstPa runs) ∧ x.hit = false)) ∧
  (∀ (s : State) (h : Hd) (d : PNum) (a : GReg) (e : Mask), s.ReadySome (.graph h d a) e →
    let hdr := s.me.lane2 a (lowest e)
    (∀ u runs, s.versioned = false → hdr.toNat % 64 = 0 →
      Passes (fun k => s.instrRange e hdr.toNat 64 true true k) runs u → u.acquiring s.cur.warp = false →
      u.allWritten s.cur.warp u.nextId 3 = true → s.me.graph = none → ∃ t, exec (.graph h d a) s = .next t ∧
        t.me.pc = s.me.pcAfter ∧ t.me.graph = some { hdr := hdr, d := d, lanes := e, sent := none, won := none } ∧ KeepsRegs s t [] [d.toNat] ∧
        (d ≠ 15#4 → (t.me.predAt d.toNat).ready = false)) ∧
    (s.versioned = true → ∃ t, exec (.graph h d a) s = .next t ∧ Raised s t .scope e 0 0)) ∧
  (∀ (s : State) (h : Hd) (a : GReg) (e : Mask), s.ReadySome (.sbnd h a) e → s.myGroup.launch < s.launches.length →
    let l := s.myGroup.launch
    (s.me.lane a 0 ≤ (s.launch l).step → ∃ t, exec (.sbnd h a) s = .next t ∧ OnlyIssued s t (.sbnd h a)) ∧
    ((s.launch l).step < s.me.lane a 0 → ∃ t, exec (.sbnd h a) s = .next t ∧ t.me.pc = s.me.pcAfter ∧ KeepsRegs s t [] [] ∧
      SameBytes s t ∧ (t.launch l).step = s.me.lane a 0)) ∧
  (∀ (s : State) (x : Watch), s.cur.warp < s.warps.length → s.me.inLwait = true → (s.group s.me.group).phase ≠ .evicted →
    (s.group s.me.group).phase ≠ .leaving →
    (s.watchOf s.cur.warp true = some x → x.hit = true → ∃ t, exec .lwaitWake s = .next t ∧ t.me.wait = none ∧
      t.watchOf s.cur.warp true = none ∧ Untouched s t s.cur.warp ∧ SameBytes s t) ∧
    (s.watchOf s.cur.warp true = some x → x.hit = false → exec .lwaitWake s = .next s) ∧
    ((∀ y, s.watchOf s.cur.warp true = some y → s.unseen y.line = true) → s.me.lwaitAt + 10000 ≤ s.gtime →
      ∃ t, exec .lwaitPoll s = .next t ∧ t.me.wait = none ∧ Untouched s t s.cur.warp ∧ SameBytes s t) ∧
    (s.watchOf s.cur.warp true = some x → s.unseen x.line = false → exec .lwaitPoll s = .next s) ∧
    (s.gtime < s.me.lwaitAt + 10000 → exec .lwaitPoll s = .next s))

/-- R308 to R311, R449, R474: the launch processor tests and sets the STATUS of a header in one step at its home; GRAPH is answered
false where that finds the walk running or failed, and true, with the walk started, once it has found it idle or done and its write is
performed at .dev; a clause whose PRED is 0 starts, copies, launches or signals, and one that is malformed fails; a running clause
finishes, and one that launches waits for its launch, and fails where that is rejected; one that writes finishes once its writes are
performed at its scope; and a handler task that is done, or whose launch is discarded, resolves its warp. How the launch processor's
writes are cut is the model's choice (log 11); that a malformed clause leaves its own address as FADDR and one whose launch is rejected the
record's, and the scope for a SCOPE above 5, are its readings and choice (log 30). -/
def Obligations.SentencesAndTasks : Prop :=
  (∀ (s : State) (q : GraphReq), s.me.graph = some q → s.cur.warp < s.warps.length → s.myGroup.phase ≠ .killed →
    let root := s.rootOf s.cur.warp
    let region := s.regionOf s.cur.warp
    (∀ u r pa, q.sent = none → s.vrange none root region q.hdr.toNat 64 true true false true = (.ok [r], u) → r.place = .phys pa →
      s.cur.warp < u.warps.length → ∃ t id, exec .graphAnswer s = .next t ∧ t.me.graph = some { q with sent := some id } ∧
        ∃ y ∈ t.writes, y.id = id ∧ y.line = lineNo (pa + 4) ∧ y.kind = .dev (.claim s.cur.warp ((pa + 4) % 128)) ∧
          y.mask = byteRun ((pa + 4) % 128) 4) ∧
    (∀ id, q.sent = some id →
      (q.won = none → (∃ x ∈ s.writes, x.id = id) → exec .graphAnswer s = .next s) ∧
      (q.won = some false → exec .graphAnswer s =
        .next (s.modMe fun v => { v.givePred q.d q.lanes (fun _ => false) with graph := none })) ∧
      (q.won = some true → (∃ x ∈ s.writes, x.id = id ∧ s.writeDone x 3 = false) → exec .graphAnswer s = .next s) ∧
      (∀ bs v, q.won = some true → (∀ x ∈ s.writes, x.id = id → s.writeDone x 3 = true) →
        s.vread root region q.hdr.toNat 8 = (.ok bs, v) → s.cur.warp < v.warps.length → v.myGroup.phase ≠ .killed →
        let x : Walk := { hdr := q.hdr, root := root, region := region,
                          clauses := List.replicate (numOf (bs.take 4)) .idle, failed := false, ended := false }
        ∃ t, exec .graphAnswer s = .next t ∧ t.me.graph = none ∧ t.walks = v.walks ++ [x] ∧
          (q.d.toNat < 12 → ∀ l, l < 32 → q.lanes.getLsbD l = true → (t.me.predAt q.d.toNat).val.getLsbD l = true)))) ∧
  (∀ (s : State) (x : Write) (old : LineData) (w off : Nat) (q : GraphReq), x.kind = .dev (.claim w off) → x.mask = byteRun off 4 →
    off + 4 ≤ 128 → w < s.warps.length → (s.warp w).graph = some q →
    let v := s.writeValue x old
    (old.bits.getLsbD (8 * off) = true → v.1 = none ∧ (v.2.warp w).graph = some { q with won := some false }) ∧
    (old.bits.getLsbD (8 * off) = false → (v.2.warp w).graph = some { q with won := some true } ∧
      ∃ new, v.1 = some new ∧ lineRead new.bits off 4 = 1 ∧
        ∀ i, i < 128 → (i < off ∨ off + 4 ≤ i) → lineByte new.bits i = lineByte old.bits i)) ∧
  (∀ (s u : State) (n i : Nat) (c : List MarkedByte), (s.walk n).ended = false → (s.walk n).failed = false →
    (s.walk n).clauses[i]? = some .idle → s.readClause (s.walk n) i = (.ok c, u) →
    (clauseField c 2 2 ≠ 0 → exec (.clauseStart n i) s = .next u) ∧
    (clauseField c 2 2 = 0 →
      ((12 < clauseField c 6 2 ∨ 4 ≤ clauseField c 0 1) →
        exec (.clauseStart n i) s = .next (u.failClause n i ((s.walk n).clauseAt i))) ∧
      (clauseField c 6 2 ≤ 12 → (∀ j ∈ clauseSuccs c, j < (s.walk n).clauses.length) →
        (clauseField c 0 1 = 0 → exec (.clauseStart n i) s = .next (u.runClause n i none)) ∧
        (∀ src dst v w, clauseField c 0 1 = 1 →
          Passes (fun k => u.clauseRange n i (clauseField c 0x20 8) (clauseField c 0x30 8) false k) src v →
          Passes (fun k => v.clauseRange n i (clauseField c 0x28 8) (clauseField c 0x30 8) true k) dst w →
          let y := w.lpRuns src
          let z := y.writeRuns (y.walk n).root (y.walk n).region dst (y.readRuns src)
          exec (.clauseStart n i) s = .next (z.modWalk n fun x => x.setClause i (.writing (z.newWrites y.nextId) (clauseScope c)))) ∧
        (∀ runs v w, clauseField c 0 1 = 2 →
          Passes (fun k => u.clauseRange n i (clauseField c 0x20 8) 256 false k) runs v →
          let from_ := (u.walk n).region
          let y := v.lpRuns runs
          let r := recordOf (y.readRuns runs)
          let l := LaunchSt.ofRecord r (regionOfRecord r from_) from_ y.clock y.gtime
          (y.checkRecord l false = (none, w) → exec (.clauseStart n i) s = .next
            ({ w with launches := w.launches ++ [{ l with clause := some (n, i) }] }.runClause n i (some w.launches.length))) ∧
          (∀ code, y.checkRecord l false = (some code, w) → exec (.clauseStart n i) s = .next
            ((w.reject l code).failClause n i (clauseField c 0x20 8)))) ∧
        (∀ runs v, clauseField c 0 1 = 3 → Passes (fun k => u.clauseRange n i (clauseField c 0x20 8) 8 true k) runs v →
          let sent := fun (y z : State) => z.modWalk n fun x => x.setClause i (.writing (z.newWrites y.nextId) (clauseScope c))
          (clauseField c 0x30 8 = 0 → exec (.clauseStart n i) s = .next
            (sent v (v.writeRuns (v.walk n).root (v.walk n).region runs (bytesOf 8 (clauseField c 0x28 8 % 2 ^ 64))))) ∧
          (clauseField c 0x30 8 = 1 → let y := v.lpRuns runs
            exec (.clauseStart n i) s = .next
              (sent y (y.addOne (v.walk n).root (v.walk n).region (clauseScope c) runs (clauseField c 0x28 8)))))))) ∧
  (∀ (s : State) (n i : Nat) (ids : List Nat) (scope : BitVec 3), (s.walk n).clauses[i]? = some (.writing ids scope) →
    (s.allDone ids scope = true → exec (.clauseFinish n i) s = .next (s.finishClause n i)) ∧
    (s.allDone ids scope = false → exec (.clauseFinish n i) s = .next s)) ∧
  (∀ (s : State) (n i : Nat),
    ((s.walk n).clauses[i]? = some (.running none) → exec (.clauseFinish n i) s = .next (s.finishClause n i)) ∧
    ∀ l, (s.walk n).clauses[i]? = some (.running (some l)) →
      ((s.launch l).phase = .finished → exec (.clauseFinish n i) s = .next (s.finishClause n i)) ∧
      (∀ c u, (s.launch l).phase = .rejected → s.readClause (s.walk n) i = (.ok c, u) →
        exec (.clauseFinish n i) s = .next (u.failClause n i (clauseField c 0x20 8))) ∧
      (((s.launch l).phase = .checked ∨ (s.launch l).phase = .accepted) → exec (.clauseFinish n i) s = .next s)) ∧
  (∀ (s : State) (l : Nat) (q : TaskFor) (x : Held), (s.launch l).task = some q →
    ((s.launch l).phase ≠ .finished → s.launchDone l 2 = false → ((s.launch l).phase ≠ .discarded ∨ s.groupsIn l ≠ []) →
      exec (.handlerTaskResolve l) s = .next s) ∧
    (((s.launch l).phase = .finished ∨ s.launchDone l 2 = true ∨ (s.launch l).phase = .discarded ∧ s.groupsIn l = []) → (s.warp q.warp).held = some x → x.entry = q.entry →
      let u := s.modLaunch l fun x => { x with task := none }
      let g := (s.warp q.warp).group
      (s.devNat (q.entry + 0x94) 4 = 3 → exec (.handlerTaskResolve l) s = .next (u.discardLaunch (s.group g).launch)) ∧
      (s.devNat (q.entry + 0x94) 4 = 1 → (u.launch (s.group g).launch).versioned = true →
        exec (.handlerTaskResolve l) s = .next (u.restartGroup g false)) ∧
      (s.devNat (q.entry + 0x94) 4 = 2 → exec (.handlerTaskResolve l) s = .next (u.killGroup g))))

/-- R27, R66, R67, R373, R408, R410, R411, R415 to R417, R424 to R428, R456 to R462: a record is rejected with its code
or becomes a candidate; a candidate whose turn it is is placed; a new warp starts as the spec says; a group waits for
its stagger; a version is committed; a launch finishes when its groups have retired, and its counter is incremented by an atomic add
that is a release; and a group whose warps are all at a blocking point stops, and once it is quiet leaves its cores with the registers of
its warps kept. How the launch processor's writes are cut, the number of a launch as its place in the list, and that groups of a launch
whose first group never issues stay held are the model's choices (logs 11, 52, 55); which candidate is served, when the fields of a region
are read, and whether the image of a group finds a place are its readings (logs 30, 33). -/
def Obligations.LaunchProcessor : Prop :=
  (∀ (s z u : State) (q : QueueRef) (e : QEntry), z = s.readQueue q → z.front q = some e → z.checkedRef q = false →
    (z.allLoaded e.warp e.id = false → exec (.launchRecordCheck q) s = .next z) ∧
    (z.allLoaded e.warp e.id = true →
      let l := LaunchSt.ofRecord e.record e.launchRegion e.region e.age z.gtime
      (∀ c, z.checkRecord l false = (some c, u) → exec (.launchRecordCheck q) s = .next ((u.reject l c).freeEntry q)) ∧
      (z.checkRecord l false = (none, u) → exec (.launchRecordCheck q) s =
        .next { u with launches := u.launches ++ [{ l with queue := some q }] }))) ∧
  (∀ (s z : State) (l : Nat) (a : Cand) (cores slots : List Nat), z = s.readRegion (s.launch l).region →
    (z.cands.filter (z.candOf l)).findSome? (fun a => (z.serves a).map fun cs => (a, cs)) = some (a, cores) →
    (∀ g, a.kind = .again g → exec (.groupPlace l slots) s = .next (z.startGroup (.again g) l g cores slots)) ∧
    (∀ k, a.kind = .next k → (z.launch l).phase = .accepted → (z.launch l).pin = false → (z.launch l).dies ≠ [] →
      ∃ t, exec (.groupPlace l slots) s = .next t ∧ t.groups.length = z.groups.length + 1 ∧
        t = (z.modLaunch l fun x => { x with dies := (z.launch l).dies }).placeNext l cores slots)) ∧
  (∀ (s : State) (l g c k pos loc : Nat) (ask : Option Nat),
    let t := s.newWarp l g c k pos loc ask
    let v := t.warp s.warps.length
    v.pc = (s.launch l).entry ∧ v.regs = List.replicate (s.launch l).nregs Reg.zero ∧ v.preds = (Preds.tab fun _ => PReg.clear) ∧
      v.mask = BitVec.allOnes 32 ∧ v.join = 0xFFFFFFFF ∧ v.dstack = [] ∧ v.cstack = [] ∧ v.mode = 0 ∧ v.fpfl = 0 ∧
      v.handler = false ∧ v.exited = false ∧ v.core = c ∧ (∀ a, a < 8 → v.strand a = Strand.clear) ∧
      v.tableBase = BitVec.ofNat 64 ((s.launch l).f 0x40 8) ∧ (∀ w, w < s.warps.length → t.warp w = s.warp w)) ∧
  (∀ (s : State) (g t : Nat), (s.launch (s.group g).launch).t0 = some t → (s.group g).staggered = true → g < s.groups.length →
    let due := t + 16 * (s.launch (s.group g).launch).stagger * (s.group g).rank
    (due ≤ s.clock → ∃ u, exec (.staggerRelease g) s = .next u ∧ u.group g = { s.group g with staggered := false } ∧
      u.warps = s.warps ∧ SameBytes s u) ∧
    (s.clock < due → exec (.staggerRelease g) s = .next s)) ∧
  (∀ (s : State) (l : Nat) (cores : List Nat),
    (∀ a ∈ s.cands, s.launchOf a = l → (∀ c ∈ s.cores, c.reserved ≠ some a.kind) → s.whereTo a = none →
      s.neededCores a cores = true → s.waitOf a + 1000000 ≤ s.gtime → (∀ c ∈ cores, c < s.cores.length) →
      ∃ t, ∃ b ∈ s.cands, exec (.candidateReserve l cores) s = .next t ∧ s.launchOf b = l ∧ s.waitOf b + 1000000 ≤ s.gtime ∧
        s.neededCores b cores = true ∧ (∀ c ∈ cores, (t.core c).reserved = some b.kind) ∧ (∀ c, c ∉ cores → t.core c = s.core c) ∧
        t.warps = s.warps ∧ SameBytes s t) ∧
    ((∀ a ∈ s.cands, s.launchOf a = l → s.gtime < s.waitOf a + 1000000) → exec (.candidateReserve l cores) s = .next s)) ∧
  (∀ (s : State) (g : Nat), (s.group g).phase = .retired → (s.group g).version ≠ [] →
    let lines := (s.group g).version.map Prod.fst
    ((s.group g).committing = true → s.commitOpen g = true → exec (.versionCommit g) s = .next s) ∧
    ((s.group g).committing = true → s.commitOpen g = false → g < s.groups.length → ∃ t, exec (.versionCommit g) s = .next t ∧
      (t.group g).version = [] ∧ (t.group g).committing = false ∧ (∀ line ∈ lines, (∀ x, s.l2At line = some x → x.prop = none) → t.lineBusy line = false) ∧
      t.warps = s.warps ∧ ∀ pa, t.byteAt pa = s.byteAt pa) ∧
    ((s.group g).committing = false → ((lines.any s.lineBusy) = true ∨ s.versionOpen g = true) →
      exec (.versionCommit g) s = .next s) ∧
    ((s.group g).committing = false → (lines.any s.lineBusy) = false → s.versionOpen g = false →
      (∀ line ∈ lines, ∀ x, s.l2At line = some x → x.host ≠ .he) →
      (s.holdLines lines = none → exec (.versionCommit g) s = .next s) ∧
      ∀ u, s.holdLines lines = some u → exec (.versionCommit g) s = .next ((s.group g).version.foldl
        (fun (t : State) v => t.commitLine v.1 v.2) (u.modGroup g fun y => { y with committing := true })))) ∧
  (∀ (s : State) (l : Nat), (s.launchDone l (s.launch l).endScope = false → exec (.launchFinish l) s = .next s) ∧
    (s.launchDone l (s.launch l).endScope = true → ∃ t, exec (.launchFinish l) s = .next t ∧
      (l < s.launches.length → (t.launch l).phase = .finished) ∧
      t = (s.modLaunch l fun y => { y with phase := .finished }).addCounter (s.eff (s.launch l).region 6 0x30 8)
        (s.launch l).region (s.launch l).endScope (some l) (s.launch l).cmpl)) ∧
  (∀ (s u : State) (root region addr pa : Nat) (scope : BitVec 3) (launch : Option Nat) (r : Run), addr ≠ 0 →
    s.vrange none root region addr 8 true true false true = (.ok [r], u) → r.place = .phys pa → pa % 128 ≤ 120 →
    ∃ y ∈ (s.addCounter root region scope launch addr).writes, u.nextId ≤ y.id ∧ y.line = lineNo pa ∧ y.rel = true ∧ y.scope = scope ∧
      y.kind = .dev (.inc (pa % 128) 8 1) ∧ y.mask = byteRun (pa % 128) 8) ∧
  (∀ (s : State) (x : Write) (old : LineData) (off v : Nat), x.kind = .dev (.inc off 8 v) → off + 8 ≤ 128 →
    ∃ new, (s.writeValue x old).1 = some new ∧ lineRead new.bits off 8 = lineRead old.bits off 8 + BitVec.ofNat 64 v ∧
      ∀ i, i < 128 → (i < off ∨ off + 8 ≤ i) → lineByte new.bits i = lineByte old.bits i) ∧
  (∀ (s t : State) (g : Nat), g < s.groups.length →
    ((s.group g).phase = .resident → s.liveWarps g ≠ [] → (∀ w ∈ s.liveWarps g, s.atBlockingPoint w = true) →
      (∃ w ∈ s.liveWarps g, (s.warp w).canWake = true) → s.askedToLeave g = true → s.imageFits g = true →
      ∃ u, exec (.groupEvict g) s = .next u ∧ (u.group g).phase = .leaving ∧ u.warps = s.warps ∧ SameBytes s u) ∧
    ((s.group g).phase = .resident → s.askedToLeave g = false → exec (.groupEvict g) s = .next s) ∧
    ((s.group g).phase = .leaving → s.quiet g = false → exec (.groupEvict g) s = .next s) ∧
    (s.evictGroup g = some t → ((s.group g).phase = .leaving → s.quiet g = true → exec (.groupEvict g) s = .next t) ∧
      (t.group g).phase = .evicted ∧ (t.group g).cores = [] ∧
      ∀ w, (t.warp w).regs = (s.warp w).regs ∧ (t.warp w).preds = (s.warp w).preds ∧ (t.warp w).strands = (s.warp w).strands ∧
        (t.warp w).pc = (s.warp w).pc)) ∧
  (∀ (s z : State) (g : Nat) (a : Cand) (cores slots : List Nat), z = s.readRegion (s.launch (s.group g).launch).region →
    z.cands.find? (fun a => a.kind == .back g) = some a →
    (z.serves a = some cores → exec (.groupRestore g slots) s = .next ((z.putBack g cores slots).resumeResolved g)) ∧
    (z.serves a = none → exec (.groupRestore g slots) s = .next z))

/-! ## The host, the pool and the links -/

/-- R375, R388, R389, R398, R399, R403, R405, R481, R493: a write of the host to a line of HBM gives the line its bytes, and a line that
the host holds shared stays so until the host has answered; an answer to a call-back frees the line, with dirty data as a write; a read of
the host is answered with the line, and takes ownership under SnpInv; a snoop of a line of host memory is answered as its state says, and
SnpInv takes the line from the device; an ownership grant has the oldest waiting write performed; and the host's acknowledgement of an
uncached write merges its bytes into host memory and performs it. Outside READY the host's accesses are only counted, and a read gives
poisoned data. That a write of the host waits for those before it is the model's choice (log 58), and so is what other agents hold of
memory and that a forwarded dirty line stands there at once (logs 46, 29). -/
def Obligations.HostTraffic : Prop :=
  (∀ (s : State) (line : Nat) (mask : BitVec 128) (data : BitVec 1024), s.carries = true → s.hostUp = true →
    s.frame (128 * line) = .hbm → s.lineBusy line = false → s.hostWriting = false →
    (∀ x, s.l2At line = some x → x.priv = false) → (s.l2At line = none → (s.sliceLines line).length < sliceCap) →
    ∃ t y, exec (.hostMemwr line mask data) s = .next t ∧ t.l2At line = some y ∧
      (∀ x, s.l2At line = some x → x.host = .hs → y.host = .hs ∧ y.busy = true ∧ ∃ f, y.prop = some f ∧ f.hostLeft = true) ∧
      ((∀ x, s.l2At line = some x → x.host ≠ .hs) → y.host = .hi) ∧
      y.data = lineWrite (s.homeLine line) { bits := data, poison := 0 } mask ∧ (∀ r ∈ t.resv, r.2.2 ≠ line) ∧
      t.warps = s.warps ∧ (Memory.wf s.mem → Sparse.wf false s.memP → ∀ pa, lineNo pa ≠ line → t.byteAt pa = s.byteAt pa)) ∧
  (∀ (s : State) (line : Nat) (mask : BitVec 128) (data : BitVec 1024),
    (s.carries = true → (s.hostUp = false ∨ s.hostWriting = true) → exec (.hostMemwr line mask data) s = .next s) ∧
    (s.carries = false → exec (.hostMemwr line mask data) s = .next s.notReady ∧
      exec .hostMemrdSnpdata s = .next (s.notReady.send (.readData s.cur.line LineData.poisoned)) ∧
      exec .hostMemrdSnpinv s = .next (s.notReady.send (.readData s.cur.line LineData.poisoned)))) ∧
  (∀ (s : State) (line p w : Nat) (f : Nat → LinkMsg),
    (s.frame (128 * line) = .host p → s.sendLink line f = s.send (.host p (f ((128 * line - (2 ^ 48 + 2 ^ 47 * p)) / 128)))) ∧
    (s.frame (128 * line) = .pool p w → s.sendLink line f = s.send (.pool p (f ((128 * line - (2 + p) * 2 ^ 48) / 128))))) ∧
  (∀ (s : State) (line : Nat) (x : L2Line), s.carries = true → s.l2At line = some x → x.busy = true → x.prop = none → x.host = .he →
    exec (.birsps line none) s = .next (s.setL2 line { x with busy := false, host := .hs }) ∧
    exec (.birspi line none) s = .next (s.setL2 line { x with busy := false, host := .hi }) ∧
    (x.priv = false → ∀ d i after, (i = .birsps line (some d) ∧ after = .hs ∨ i = .birspi line (some d) ∧ after = .hi) →
      ∃ t y, exec i s = .next t ∧ t.l2At line = some y ∧ y.data.bits = d ∧ y.data.poison = 0 ∧ y.host = after ∧
        t.warps = s.warps ∧ (Memory.wf s.mem → Sparse.wf false s.memP → ∀ pa, lineNo pa ≠ line → t.byteAt pa = s.byteAt pa))) ∧
  (∀ (s : State) (line : Nat) (x : L2Line) (f : Flow), s.carries = true → s.l2At line = some x → x.prop = some f → f.hostLeft = true →
    f.hostAsked = true → exec (.birspi line none) s =
      .next (s.setL2 line { x with host := .hi, prop := some { f with hostLeft := false, hostAsked := false } })) ∧
  (∀ (s : State) (line : Nat) (d : Option (BitVec 1024)), s.calledBack line = false →
    exec (.birsps line d) s = .next s) ∧
  (∀ (s : State) (x : L2Line), s.l2At s.cur.line = some x → x.priv = false → x.host ≠ .he → s.lineBusy s.cur.line = false →
    s.carries = true → s.frame (128 * s.cur.line) = .hbm →
    (s.hostUp = true → exec .hostMemrdSnpdata s = .next ((s.setL2 s.cur.line
      { x with host := if s.hostCaches then .hs else x.host }).send (.readData s.cur.line x.data))) ∧
    (s.hostCaches = true → ∃ t y, exec .hostMemrdSnpinv s = .next t ∧ t.l2At s.cur.line = some y ∧ y.host = .he ∧
      y.data = x.data ∧ (∀ n ∈ y.nodes, n.fmt ≠ .full) ∧ (∀ r ∈ t.resv, r.2.2 ≠ s.cur.line) ∧
      t.outbox = s.outbox ++ [.readData s.cur.line x.data] ∧ t.warps = s.warps ∧ SameBytes s t)) ∧
  (∀ (s : State) (p : Nat), s.carries = true → s.frame (128 * s.cur.line) = .host p → (s.port p).up = true → (s.port p).cache = true →
    let line := s.cur.line
    let stored := fun (x : L2Line) => (s.storeMem line x.data).setL2 line { x with st := .s, dirty := false }
    ((s.l2At line = none ∨ ∃ x, s.l2At line = some x ∧ x.st = .i ∧ s.lineBusy line = false) →
      ∀ i, i = .snpdata ∨ i = .snpinv ∨ i = .snpcur → exec i s = .next (s.sendLink line .rspIHitI)) ∧
    ∀ x, s.l2At line = some x → s.lineBusy line = false →
      (x.st = .m → (s.port p).owned = false → exec .snpdata s = .next ((stored x).sendLink line (.rspSFwdM · x.data))) ∧
      (x.st = .m → (s.port p).owned = true →
        exec .snpdata s = .next ((s.setL2 line { x with st := .o }).sendLink line (.fwdOwned · x.data))) ∧
      (x.st = .e → exec .snpdata s = .next ((s.setL2 line { x with st := .s }).sendLink line .rspSHitSE)) ∧
      (x.st = .s → exec .snpdata s = .next (s.sendLink line .rspSHitSE)) ∧
      (x.st = .o → exec .snpdata s = .next (s.sendLink line (.fwdOwned · x.data))) ∧
      ((x.st = .m ∨ x.st = .o) → exec .snpcur s = .next (s.sendLink line (.rspVFwdV · x.data))) ∧
      ((x.st = .e ∨ x.st = .s) → exec .snpcur s = .next (s.sendLink line .rspVHitV)) ∧
      (x.st ≠ .i → x.priv = false → s.l2.Pairwise (fun a b => a.1 < b.1) → Memory.wf s.mem → Sparse.wf false s.memP →
        ∃ t, exec .snpinv s = .next t ∧ t.l2At line = none ∧ t.warps = s.warps ∧ (∀ r ∈ t.resv, r.2.2 ≠ line) ∧
          (∀ w ∈ t.watches, w.line = line → w.hit = true) ∧
          ((x.st = .m ∨ x.st = .o) → SameBytes s t ∧ t.outbox = s.outbox ++ [.host p (.rspIFwdM (linkLine line) x.data)]))) ∧
  (∀ (s : State) (line p : Nat) (answer : LineData) (x : Write) (y : L2Line), s.frame (128 * line) = .host p →
    (s.port p).cache = true → s.writes.find? (fun x => x.line == line && x.phase == .asked) = some x → x.kind = .store →
    (s.writes.filter fun y => y.warp == x.warp && y.req == x.req && y.kind == .store).length ≤ 1 →
    s.carries = true → s.lineBusy line = false → s.l2At line = some y → y.through = false →
    ∃ t z, exec (.hostOwnershipGrant line answer) s = .next t ∧ t.l2At line = some z ∧ z.st = .m ∧ z.dirty = true ∧
      z.data = lineWrite y.data x.data x.mask ∧ t.warps = s.warps) ∧
  (∀ (s : State) (id p : Nat) (x : Write), s.writes.find? (fun x => x.id == id) = some x → s.frame (128 * x.line) = .host p →
    x.phase = .remote → s.carries = true → exec (.hostWriteAck id) s =
      .next (((s.storeMem x.line (lineWrite (s.memAt x.line) x.data x.mask)).noteWrite x.line).completeWrite x))

/-- R375, R376, R401 to R403, R482 to R485: an exclusive grant has the oldest waiting write of a pool line performed;
the device's acknowledgement performs the writes of a line at .pool, a line that is M being written to the pool first
and then held as E (in one step, log 34); a probe of a line that is not held is answered BIRspI and counted in BIFP, and
one of a held line has dirty data written to the pool first; a lost pool link marks every granted window of its port as
lost, and REOPEN of a lost window whose link is up clears it; ports and links go down and up, a host port that goes down
losing its lines in L2, and one that comes up again with options that a free value chooses (log 35); and each
failure of a lane of a host or pool port is entered as a repair, and the first one of a peer link (R494; log 36). -/
def Obligations.PoolAndLinks : Prop :=
  (∀ (s : State) (line p w : Nat) (answer : LineData) (x : Write) (y : L2Line), s.frame (128 * line) = .pool p w →
    s.writes.find? (fun x => x.line == line && x.phase == .asked) = some x → x.kind = .store → s.lineBusy line = false →
    (s.writes.filter fun y => y.warp == x.warp && y.req == x.req && y.kind == .store).length ≤ 1 →
    s.carries = true → s.l2At line = some y → ∃ t z, exec (.poolExclusiveGrant line answer) s = .next t ∧ t.l2At line = some z ∧ z.st = .m ∧
      z.data = lineWrite y.data x.data x.mask ∧ t.warps = s.warps) ∧
  (∀ (s t : State) (p w : Nat) (x : Write), s.carries = true → s.frame (128 * s.cur.line) = .pool p w →
    x ∈ s.writes → x.line = s.cur.line → x.phase = .remote → s.lineBusy s.cur.line = false →
    t = (s.writes.filter fun y => y.line == s.cur.line && y.phase == .remote).foldl State.endWrite s →
    (∀ y ∈ t.writes, y.line = s.cur.line → y.phase ≠ .remote) ∧
    ((∀ y, s.l2At s.cur.line = some y → y.st ≠ .m) → exec .poolWriteAck s = .next t) ∧
    (∀ y, s.l2At s.cur.line = some y → y.st = .m → exec .poolWriteAck s =
      .next (((t.storeMem s.cur.line y.data).setL2 s.cur.line { y with st := .e, dirty := false }).sendLink s.cur.line
        (.memWr · y.data (BitVec.allOnes 128))))) ∧
  (∀ (s : State) (pa : Nat) (i : Instr), (i = .bisnpinv pa ∨ i = .bisnpdata pa ∨ i = .bisnpcur pa) → s.carries = true →
    ((∀ p w, s.frame pa ≠ .pool p w) ∨ s.l2At (lineNo pa) = none) →
    ∃ t, exec i s = .next t ∧ t = { s with bifp := s.bifp + 1, outbox := s.outbox ++ [.pool (pa / 2 ^ 48 - 2) (.birspI (pa % 2 ^ 48))] }) ∧
  (∀ (s : State) (pa p w : Nat) (x : L2Line), s.frame pa = .pool p w → s.l2At (lineNo pa) = some x → s.poolLost pa = none →
    s.lineBusy (lineNo pa) = false → x.priv = false → s.l2.Pairwise (fun a b => a.1 < b.1) → Memory.wf s.mem →
    Sparse.wf false s.memP → s.carries = true →
    let answer := fun (m : Nat → LinkMsg) => Msg.pool p (m (pa % 2 ^ 48))
    let written : List Msg := if x.st = .m then [.pool p (.memWr (pa % 2 ^ 48 / 128) x.data (BitVec.allOnes 128))] else []
    (x.st = .s → exec (.bisnpdata pa) s = .next (s.send (answer .birspS)) ∧ exec (.bisnpcur pa) s = .next (s.send (answer .birspS))) ∧
    (x.st = .m ∨ x.st = .e → ∃ t y, exec (.bisnpcur pa) s = .next t ∧ t.l2At (lineNo pa) = some y ∧ y.st = .e ∧
      y.data = x.data ∧ SameBytes s t ∧ t.outbox = s.outbox ++ written ++ [answer .birspE] ∧
      (x.st = .m → t.memAt (lineNo pa) = x.data)) ∧
    (∃ t, exec (.bisnpinv pa) s = .next t ∧ t.l2At (lineNo pa) = none ∧ t.warps = s.warps ∧
      (∀ r ∈ t.resv, r.2.2 ≠ lineNo pa) ∧ (x.st = .m → SameBytes s t) ∧
      t.outbox = s.outbox ++ written ++ [answer .birspI])) ∧
  (∀ (s : State) (port : Nat), port < 4 → ∃ t, exec (.poolLinkLoss port) s = .next t ∧
    ∀ n x, n / 8 = port → s.ctl.pwins[n]? = some x → x.grant = true → ∃ y, t.ctl.pwins[n]? = some y ∧ y.lost = true) ∧
  (∀ (s : State) (port : Nat), 4 ≤ port → exec (.poolLinkLoss port) s = .next s) ∧
  (∀ (s : State) (n : Nat), (s.carries = false ∨ (nth PoolWin.start s.ctl.pwins n).lost = false) →
    exec (.poolWindowReopen n) s = .next s) ∧
  (∀ (s : State) (n : Nat) (x : PoolWin), s.carries = true → s.ctl.pwins[n]? = some x → x.lost = true →
    nth true s.ctl.poolUp (n / 8) = true → ∃ t, exec (.poolWindowReopen n) s = .next t ∧ t.ctl.pwins[n]? = some
      { x with lost := false, regions := [], many := false } ∧ t.warps = s.warps) ∧
  (∀ (s : State) (n : Nat) (p : HostPort), s.ctl.hostPorts[n]? = some p →
    (∃ t, exec (.hostPortDown n) s = .next t ∧ t.ctl.hostPorts[n]? = some { p with up := false } ∧ t.warps = s.warps ∧
      (s.l2.Pairwise (fun a b => a.1 < b.1) → ∀ pa, s.frame pa ≠ .host n → t.byteAt pa = s.byteAt pa) ∧
      (s.l2.Pairwise (fun a b => a.1 < b.1) → ∀ x ∈ t.l2, s.frame (128 * x.1) ≠ .host n) ∧
      ∀ x ∈ t.writes, s.frame (128 * x.line) = .host n → x.phase = .held) ∧
    (∃ t q, exec (.hostPortUp n) s = .next t ∧ t.ctl.hostPorts[n]? = some q ∧ q.up = true ∧ (p.up = true → q = p) ∧
      (p.up = false → q.owned = true → q.cache = true ∧ s.ctl.flash.ownedSharing = true) ∧ t.warps = s.warps ∧
      SameBytes s t ∧ t.writes = s.writes)) ∧
  (∀ (s : State) (n : Nat), exec (.peerLinkDown n) s = .next (s.modCtl fun c => { c with peerUp := c.peerUp.set n false }) ∧
    ∃ t, exec (.linkLaneFail n) s = .next t ∧ t.ctl = { s.ctl with lanesLost := s.ctl.lanesLost.modify n (· + 1) } ∧
      t.warps = s.warps ∧ SameBytes s t ∧
      (n < 18 → (12 ≤ n ∨ nth 0 s.ctl.lanesLost n = 0) → t.repaired = s.repaired ++ [(4, n)]) ∧
      (n < 12 → 0 < nth 0 s.ctl.lanesLost n → t.repaired = s.repaired))

/-! ## The control window, bring-up, errors and repair -/

/-- R318, R422, R423, R444, R447, R486, R489, R491, R493: a TLBI names what is to be removed and is dropped with ERR for a reserved
OP or while BUSY; it keeps every translation that it does not remove, and BUSY ends when all that it removes are gone
and what was issued before is performed; RTAIL and REGBASE are written, REGBASE not while a launch of its region is
unfinished; outside READY only the identity block and the status registers answer, and in LOCKED attestation, reads and writes alike, to
the last byte of its report: another write is discarded and counted, another register reads ones and memory poisoned data. In which order
a TLBI removes translations is free (log 37), and so is the value that PWRST gives for the draw (log 5); that RTAIL waits for the writes
of the host before it is the model's choice (log 58). -/
def Obligations.ControlRegisters : Prop :=
  (∀ (s : State) (op : Nat) (psz : BitVec 4) (i : Instr), s.carries = true → s.ctl.tlbiBusy = false →
    (i = .tlbiPage psz ∧ op = 0 ∨ i = .tlbiRoot ∧ op = 1 ∨ i = .tlbiAll ∧ op = 2) → ∃ t, exec i s = .next t ∧
      t.ctl.tlbiBusy = true ∧ t.ctl.tlbiErr = s.ctl.tlbiErr ∧ SameButHolds s t ∧ SameBytes s t ∧
      (bitsAt t.ctl.tlbictl 0 2).toNat = op ∧ ∀ c x, (x ∈ (t.core c).tlb → x ∈ (s.core c).tlb) ∧
        (x ∈ (s.core c).tlb → t.ctl.removes op x.root x.base x.size = false → x ∈ (t.core c).tlb)) ∧
  (∀ (s : State) (psz : BitVec 4), s.carries = true →
    exec .tlbiReservedOp s = .next (s.modCtl fun c => { c with tlbiErr := true }) ∧
    (s.ctl.tlbiBusy = true → ∀ i, (i = .tlbiPage psz ∨ i = .tlbiRoot ∨ i = .tlbiAll) →
      exec i s = .next (s.modCtl fun c => { c with tlbiErr := true }))) ∧
  (∀ (s : State), (s.ctl.tlbiBusy = false → exec .tlbiComplete s = .next s) ∧
    (s.ctl.tlbiBusy = true → s.ctl.tlbiFence = 0 → s.drainedTo s.nextId = true →
      ∃ t, exec .tlbiComplete s = .next t ∧ t.ctl.tlbiBusy = false ∧ SameButHolds s t ∧ SameBytes s t ∧
        ∀ c x, x ∈ (t.core c).tlb ↔ x ∈ (s.core c).tlb ∧
          s.ctl.removes (bitsAt s.ctl.tlbictl 0 2).toNat x.root x.base x.size = false) ∧
    (s.ctl.tlbiBusy = true → s.ctl.tlbiFence ≠ 0 →
      (s.drainedTo s.ctl.tlbiFence = false → exec .tlbiComplete s = .next s) ∧
      (s.drainedTo s.ctl.tlbiFence = true →
        ∃ t, exec .tlbiComplete s = .next t ∧ t.ctl.tlbiBusy = false ∧ SameButHolds s t ∧ SameBytes s t))) ∧
  (∀ (s : State) (n : Nat) (v : BitVec 32), s.carries = true → n < 1024 →
    (s.hostWriting = true → exec (.rtailWrite n v) s = .next s) ∧
    (s.hostWriting = false → ∃ t, exec (.rtailWrite n v) s = .next t ∧
      (t.regionEnt n).tail.toNat = (bitsAt v 0 12).toNat ∧ (t.regionEnt n).base = (s.regionEnt n).base ∧
      (∀ m, m ≠ n → t.regionEnt m = s.regionEnt m) ∧ t.warps = s.warps ∧ SameBytes s t)) ∧
  (∀ (s : State) (n : Nat) (v : BitVec 64), s.carries = true → n < 1024 →
    ((s.regionEnt n).block ≠ 0 → s.unfinished (s.regionEnt n).block = true → exec (.regbaseWrite n v) s = .next s) ∧
    (s.unfinished (s.regionEnt n).block = false → ∃ t, exec (.regbaseWrite n v) s = .next t ∧
      (t.regionEnt n).base = v &&& ~~~0x7F ∧ (t.regionEnt n).tail = (s.regionEnt n).tail ∧
      ((t.regionEnt n).block ≠ 0 → (t.regionEnt n).block ∉ t.stopped) ∧
      (∀ m, m ≠ n → t.regionEnt m = s.regionEnt m) ∧ t.warps = s.warps ∧ SameBytes s t)) ∧
  (∀ (s : State) (off : BitVec 32) (v : BitVec 64),
    (s.ctl.modst ≠ .ready → 0x108 ≤ off.toNat →
      (s.ctl.modst = .locked → ¬ (0x10040 ≤ off.toNat ∧ off.toNat < 0x10064) ∧ ¬ (0x11000 ≤ off.toNat ∧ off.toNat < 0x137D5)) →
      exec (.controlRegisterWrite off v) s = .next (s.modCtl fun c => { c with nrcnt := c.nrcnt + 1 })) ∧
    (off.toNat < 0x108 → exec (.controlRegisterWrite off v) s = .next s) ∧
    ((s.ctl.modst = .ready ∨ s.ctl.modst = .locked) → 0x11000 ≤ off.toNat → off.toNat < 0x137D5 →
      exec (.controlRegisterWrite off v) s = .next s) ∧
    (s.ctl.modst = .ready → off = 0x10010 →
      exec (.controlRegisterWrite off v) s = exec (.alarmcfgWrite (v.setWidth 32)) s) ∧
    ((s.ctl.modst = .ready ∨ s.ctl.modst = .locked) → ∀ i, i < 4 → off.toNat = 0x10040 + 8 * i →
      ∃ t, exec (.controlRegisterWrite off v) s = .next t ∧ bitsAt t.ctl.attnonce (64 * i) 64 = v ∧
        (∀ j, j < 4 → j ≠ i → bitsAt t.ctl.attnonce (64 * j) 64 = bitsAt s.ctl.attnonce (64 * j) 64) ∧
        t.warps = s.warps ∧ SameBytes s t) ∧
    ((s.ctl.modst = .ready ∨ s.ctl.modst = .locked) → off = 0x10060 → bitAt v 0 = true →
      exec (.controlRegisterWrite off v) s = exec .attestGo s) ∧
    (s.ctl.modst = .ready → ∀ c, s.ctl.plainWrite off.toNat v = some c →
      exec (.controlRegisterWrite off v) s = .next { s with ctl := c }) ∧
    (s.ctl.modst = .ready → off = 0x20010 →
      exec (.controlRegisterWrite off v) s = .next (s.tlbi (bitsAt v 0 2).toNat (bitsAt v 4 4).toNat)) ∧
    (s.ctl.modst = .ready → ∀ n, n < 1024 → off.toNat = 0x30000 + 16 * n →
      exec (.controlRegisterWrite off v) s = exec (.regbaseWrite n v) s) ∧
    (s.ctl.modst = .ready → ∀ n, n < 1024 → off.toNat = 0x30000 + 16 * n + 8 →
      exec (.controlRegisterWrite off v) s = exec (.rtailWrite n (v.setWidth 32)) s)) ∧
  (∀ (s : State), (s.ctl.modst = .ready → ∀ k, k ≠ .regRead → exec (.notReadyAccess k) s = .next s) ∧
    ((s.ctl.modst = .ready ∨ s.cur.line < 0x108 ∨ s.ctl.modst = .locked ∧
        (0x10040 ≤ s.cur.line ∧ s.cur.line < 0x10064 ∨ 0x11000 ≤ s.cur.line ∧ s.cur.line < 0x137D5)) → ∃ x, exec (.notReadyAccess .regRead) s =
      .next (({ s with free := s.free + 1 } : State).send (.registerRead (s.controlWord x s.cur.line)))) ∧
    (s.ctl.modst ≠ .ready →
      let t := s.modCtl fun c => { c with nrcnt := c.nrcnt + 1 }
      (0x108 ≤ s.cur.line → (s.ctl.modst = .locked → ¬ (0x10040 ≤ s.cur.line ∧ s.cur.line < 0x10064) ∧
          ¬ (0x11000 ≤ s.cur.line ∧ s.cur.line < 0x137D5)) →
        exec (.notReadyAccess .regRead) s = .next (t.send (.registerRead 0xFFFFFFFF)) ∧
        exec (.notReadyAccess .regWrite) s = .next t) ∧
      exec (.notReadyAccess .memRead) s = .next (t.send (.readData s.cur.line LineData.poisoned)) ∧
      exec (.notReadyAccess .memWrite) s = .next t)) ∧
  (∀ (s : State) (x : Word), s.controlWord x 0x00 = 0x5445574B ∧ s.controlWord x 0x04 = 0x00004E49 ∧
    s.controlWord x 0x08 = 0x00008100 ∧ s.controlWord x 0x0C = 0x00030000 ∧
    (∀ i, 0x58 ≤ i → i < 0x100 → s.controlWord x i = 0) ∧
    s.controlWord x 0x100 = BitVec.ofNat 32 (s.ctl.modst.code + 256 * s.ctl.cfgerr) ∧ s.controlWord x 0x104 = s.ctl.nrcnt ∧
    s.controlWord x 0x20404 &&& 0xF = BitVec.ofNat 32 (s.ctl.level % 16) ∧ s.controlWord x 0x20404 >>> 12 = s.ctl.draw.setWidth 32 ∧
    (∀ i, i < 8 → s.controlWord x (0x10040 + 4 * i) = bitsAt s.ctl.attnonce (32 * i) 32) ∧
    (∀ i, i < 2550 → ∀ k, k < 4 → bitsAt (s.controlWord x (0x11000 + 4 * i)) (8 * k) 8 = nth 0#8 s.ctl.attbuf (4 * i + k)) ∧
    ∀ p, p < 2 → let y := s.controlWord x (0x20080 + 4 * p)
      bitAt y 0 = (s.port p).hdmdb ∧ bitAt y 1 = (s.port p).cache ∧ bitAt y 2 = (s.port p).owned ∧ y >>> 3 = 0)

/-- R486 to R493: the power level rises while the draw is over the cap and falls below it; GO takes the nonce and is
ignored while BUSY; an attestation takes its signature index at GO, in flash as well, and ends with a report under it, or with the code of what
stopped it; an alarm is kept and its policy applied; a field of ALARMCFG only rises; and RESET stops with the code of the check
that fails, or brings the module up with the values of its configuration record. That RESET takes one step, empties memory and keeps PWRCAP
within its limits, and that a request for a die stands until a launch has given one, are the model's readings (log 39). -/
def Obligations.PowerAttestationAndReset : Prop :=
  (∀ (s : State) (d : Nat),
    (s.ctl.cap < d → s.ctl.level < 15 → exec (.powerLevelUp d) s =
      .next (s.modCtl fun c => { c with level := c.level + 1 })) ∧
    (s.ctl.cap < d → 15 ≤ s.ctl.level → exec (.powerLevelUp d) s =
      .next (s.modCtl fun c => { c with withdrawAsked := s.runningLaunches })) ∧
    (d ≤ s.ctl.cap → exec (.powerLevelUp d) s = .next s) ∧
    (100 * d ≤ 95 * s.ctl.cap → exec (.powerLevelDown d) s =
      .next (s.modCtl fun c => { c with level := c.level - 1 })) ∧
    (95 * s.ctl.cap < 100 * d → exec (.powerLevelDown d) s = .next s)) ∧
  (∀ (s : State),
    (s.ctl.modst ≠ .ready → s.ctl.modst ≠ .locked → exec .attestGo s = .next (s.modCtl fun c => { c with nrcnt := c.nrcnt + 1 })) ∧
    ((s.ctl.modst = .ready ∨ s.ctl.modst = .locked) → (s.ctl.attbusy = true → exec .attestGo s = .next s) ∧
      (s.ctl.attbusy = false → ∃ t, exec .attestGo s = .next t ∧ t.ctl.attlatched = s.ctl.attnonce ∧ t.ctl.atterr = 0 ∧
        t.ctl.attbusy = true ∧ t.ctl.attindex = s.ctl.flash.sigIndex ∧ t.warps = s.warps ∧ SameBytes s t ∧
        (s.ctl.flash.keyErased = false → s.ctl.flash.sigIndex < 2 ^ 40 → t.ctl.flash.sigIndex = s.ctl.flash.sigIndex + 1) ∧
        (s.ctl.flash.keyErased = true ∨ 2 ^ 40 ≤ s.ctl.flash.sigIndex → t.ctl.flash = s.ctl.flash)))) ∧
  (∀ (s : State) (fails : Bool), (s.ctl.attbusy = false → exec (.attestComplete fails) s = .next s) ∧
    (s.ctl.attbusy = true → ∃ t, exec (.attestComplete fails) s = .next t ∧ t.ctl.attbusy = false ∧ t.warps = s.warps ∧
      SameBytes s t ∧
      (s.ctl.flash.keyErased = true → t.ctl.atterr = 1) ∧
      (s.ctl.flash.keyErased = false → 2 ^ 40 ≤ s.ctl.attindex → t.ctl.atterr = 2) ∧
      (s.ctl.flash.keyErased = false → s.ctl.attindex < 2 ^ 40 →
        (fails = true → t.ctl.atterr = 3 ∧ t.ctl.attbuf = s.ctl.attbuf) ∧
        (fails = false → t.ctl.atterr = 0 ∧ t.ctl.flash = s.ctl.flash ∧ t.ctl.attbuf = s.ctl.report s.ctl.attindex)))) ∧
  (∀ (s : State) (n : Nat), n < 5 → ∃ t, exec (.alarm n) s = .next t ∧ t.ctl.alarmst = s.ctl.alarmst ||| (1#32 <<< n) ∧
    (s.ctl.policy n = 0 → t.ctl.modst = s.ctl.modst ∧ t.warps = s.warps ∧ SameBytes s t) ∧
    (1 ≤ s.ctl.policy n → s.ctl.modst = .ready → t.ctl.modst = .locked) ∧
    (t.ctl.flash.keyErased = (s.ctl.flash.keyErased || decide (2 ≤ s.ctl.policy n))) ∧
    (2 ≤ s.ctl.policy n → t.ctl.flash.sigIndex = 0 ∧ bitsAt t.ctl.attctl 4 4 = 1)) ∧
  (∀ (s : State) (v : BitVec 32) (n : Nat), s.carries = true → n < 5 → ∃ t, exec (.alarmcfgWrite v) s = .next t ∧
    t.ctl.policy n = max (s.ctl.policy n) (bitsAt v (2 * n) 2).toNat) ∧
  (∀ (s : State), ∃ t, exec .reset s = .next t ∧ t.warps = [] ∧ t.groups = [] ∧ t.launches = [] ∧ t.mem = [] ∧
    let f := s.ctl.flash
    (f.signatureOk = false → t.ctl.modst = .failed ∧ t.ctl.cfgerr = 1) ∧
    (f.signatureOk = true → f.contentsOk = false → t.ctl.modst = .failed ∧ t.ctl.cfgerr = 2) ∧
    (f.signatureOk = true → f.contentsOk = true → f.repairOk = false → t.ctl.modst = .failed ∧ t.ctl.cfgerr = 3) ∧
    (f.signatureOk = true → f.contentsOk = true → f.repairOk = true → t.ctl.modst = .ready ∧ t.ctl.cfgerr = 0 ∧
      t.ctl.alarmcfg = f.alarmcfg &&& 0x3FF ∧ (∀ c, c < 256 → (t.core c).stcfg = f.interval ∧
        (t.core c).disabled = (!bitAt f.enabledCores c || s.repaired.contains (1, c))) ∧ t.ctl.meas.length = 4 ∧
      (∀ b ∈ t.ctl.poolUp ++ t.ctl.peerUp, b = true) ∧ t.ctl.flash = f ∧
      t.ctl.pwrcap.toNat = min 3000 (max 600 ((f.pwrcap.map fun x => (bitsAt x 0 12).toNat).getD 3000))))

/-- R453, R455, R494: a correctable error is counted and nothing else changes; an uncorrectable error of a register or a
predicate poisons the word of its lane, whose value stays; one of a warp's control state escalates at once; a core that
is to be repaired waits until no group holds it and no line of it is in a flow, and is then replaced or disabled; a die has one spare
slice, which waits until no line of the old one is in a flow; and a repaired row changes no byte. What a repair waits for, and the numbers
under which the repairs are entered, are the model's readings and choices (log 40). -/
def Obligations.ErrorsAndRepair : Prop :=
  (∀ (s : State), exec .correctableError s = .next { s with correctable := s.correctable + 1 }) ∧
  (∀ (s : State) (w r l : Nat), w < s.warps.length → r < (s.warp w).regs.length → l < 32 →
    ∃ t, exec (.uncorrectableError (.reg w r l)) s = .next t ∧ ((t.warp w).reg r).val = ((s.warp w).reg r).val ∧
      ((t.warp w).reg r).poison = ((s.warp w).reg r).poison ||| (1#32 <<< l) ∧
      (∀ q, q ≠ r → (t.warp w).reg q = (s.warp w).reg q) ∧ (∀ v, v ≠ w → t.warp v = s.warp v) ∧ SameBytes s t) ∧
  (∀ (s : State) (w p l : Nat), w < s.warps.length → p < 12 → l < 32 →
    ∃ t, exec (.uncorrectableError (.pred w p l)) s = .next t ∧ ((t.warp w).predAt p).val = ((s.warp w).predAt p).val ∧
      ((t.warp w).predAt p).poison = ((s.warp w).predAt p).poison ||| (1#32 <<< l) ∧ (t.warp w).regs = (s.warp w).regs ∧
      (∀ v, v ≠ w → t.warp v = s.warp v) ∧ SameBytes s t) ∧
  (∀ (s : State) (w : Nat), w < s.warps.length → (s.warp w).exited = false → (s.warp w).held = none →
    ∃ t x, exec (.uncorrectableError (.control w)) s = .next t ∧ (t.warp w).trap = some x ∧ x.cause = .poison ∧
      x.extra = 0xFD ∧ (t.warp w).escalates = true ∧ (t.warp w).regs = (s.warp w).regs ∧
      (∀ v, v ≠ w → t.warp v = s.warp v) ∧ SameBytes s t) ∧
  (∀ (s : State) (c : Nat), c < s.cores.length → c < 256 → (s.core c).disabled = false → (s.coreBusy c = true ∨ s.coreInFlow c = true) →
    ∃ t, exec (.coreRepair c) s = .next t ∧ t.core c = { s.core c with failing := true } ∧ t.warps = s.warps ∧ SameBytes s t) ∧
  (∀ (s u : State) (c : Nat), c < 256 → c < u.cores.length → (s.core c).disabled = false → s.coreBusy c = false → s.coreInFlow c = false →
    (List.range s.groups.length).foldl (fun (t : Option State) g => match t with
      | some t => t.moveImage c g
      | none => none) (some s) = some u →
    ∃ t, exec (.coreRepair c) s = .next t ∧ (t.core c).l1 = [] ∧ (t.core c).failing = false ∧
      (t.core c).disabled = !u.sparesLeft (dieOf c) ∧ t.repaired = u.repaired ++ [(if u.sparesLeft (dieOf c) then 0 else 1, c)]) ∧
  (∀ (s : State) (die slice : Nat), (s.repaired.any (fun x => x.1 == 2 && x.2 / 32 == die) = true ∨
      ∃ x ∈ s.l2, homeDie x.1 = die ∧ homeSlice x.1 = slice ∧ (s.lineBusy x.1 = true ∨ s.reaches x.1 = false)) →
    exec (.l2SliceRepair die slice) s = .next s) ∧
  (∀ (s : State) (die slice : Nat), s.repaired.any (fun x => x.1 == 2 && x.2 / 32 == die) = false → s.l2 = [] →
    ∃ t, exec (.l2SliceRepair die slice) s = .next t ∧ t.repaired = s.repaired ++ [(2, 32 * die + slice)] ∧
      t.warps = s.warps ∧ SameBytes s t) ∧
  (∀ (s : State) (stack bank row : Nat), ∃ t, exec (.hbmRowRepair stack bank row) s = .next t ∧
    t.repaired.length = s.repaired.length + 1 ∧ t.warps = s.warps ∧ t.l2 = s.l2 ∧ t.cores = s.cores ∧ SameBytes s t)

/-- R197, R278, R319, R479, R483, R486, R491, R492: after reset no group is placed and nothing is held; MODSTAT is
RESET, ACTHR is 256, STCFG is 1024, PPAREA is 2, PWRCAP is 3000, no window is granted, no pool or peer port is trained, and the
clocks agree. That memory lists nothing is the model's choice (log 1), and so is that the configuration record names no PWRCAP and no
STCFG, from which 3000 and 1024 follow (log 4). -/
def Obligations.ResetState : Prop :=
  let s := State.reset
  s.warps = [] ∧ s.groups = [] ∧ s.launches = [] ∧ s.mem = [] ∧ s.l2 = [] ∧ s.writes = [] ∧ s.loads = [] ∧ s.watches = [] ∧
    s.resv = [] ∧ s.clock = 0 ∧ s.ctl.modst = .reset ∧ s.ctl.cfgerr = 0 ∧ s.ctl.acthr = 256 ∧ s.ctl.pparea = 2 ∧
    s.ctl.pwrcap = 3000 ∧ s.ctl.level = 0 ∧ s.ctl.tlbiBusy = false ∧ s.ctl.attbusy = false ∧ s.ctl.alarmst = 0 ∧
    (∀ b ∈ s.ctl.poolUp ++ s.ctl.peerUp, b = false) ∧ (∀ w ∈ s.ctl.pwins, w.grant = false ∧ w.lost = false) ∧ s.ctl.pwins.length = 32 ∧
    (∀ c ∈ s.cores, c.stcfg = 1024 ∧ (∀ b ∈ c.banks, b.mode = .cache) ∧ c.baton = none) ∧ s.cores.length = 256 ∧
    Memory.wf s.mem ∧ s.Clocked
end

