-- ==== Sys2Proof/Laws/State.lean ====
section
/-! SUPPORT. The fields of the state and of a warp after an update of one part: one lemma for each field that the update
leaves as it was. -/

namespace Sys2Proof.Machine

/-! ## `State.modWarp` -/

@[simp] theorem State.modWarp_agenda (s : State) (w : Nat) (f : Warp → Warp) : (s.modWarp w f).agenda = s.agenda := rfl
@[simp] theorem State.modWarp_cur (s : State) (w : Nat) (f : Warp → Warp) : (s.modWarp w f).cur = s.cur := rfl
@[simp] theorem State.modWarp_free (s : State) (w : Nat) (f : Warp → Warp) : (s.modWarp w f).free = s.free := rfl
@[simp] theorem State.modWarp_clock (s : State) (w : Nat) (f : Warp → Warp) : (s.modWarp w f).clock = s.clock := rfl
@[simp] theorem State.modWarp_gtime (s : State) (w : Nat) (f : Warp → Warp) : (s.modWarp w f).gtime = s.gtime := rfl
@[simp] theorem State.modWarp_gfrac (s : State) (w : Nat) (f : Warp → Warp) : (s.modWarp w f).gfrac = s.gfrac := rfl
@[simp] theorem State.modWarp_nextId (s : State) (w : Nat) (f : Warp → Warp) : (s.modWarp w f).nextId = s.nextId := rfl
@[simp] theorem State.modWarp_mem (s : State) (w : Nat) (f : Warp → Warp) : (s.modWarp w f).mem = s.mem := rfl
@[simp] theorem State.modWarp_memP (s : State) (w : Nat) (f : Warp → Warp) : (s.modWarp w f).memP = s.memP := rfl
@[simp] theorem State.modWarp_l2 (s : State) (w : Nat) (f : Warp → Warp) : (s.modWarp w f).l2 = s.l2 := rfl
@[simp] theorem State.modWarp_apart (s : State) (w : Nat) (f : Warp → Warp) : (s.modWarp w f).apart = s.apart := rfl
@[simp] theorem State.modWarp_cores (s : State) (w : Nat) (f : Warp → Warp) : (s.modWarp w f).cores = s.cores := rfl
@[simp] theorem State.modWarp_l2tlb (s : State) (w : Nat) (f : Warp → Warp) : (s.modWarp w f).l2tlb = s.l2tlb := rfl
@[simp] theorem State.modWarp_walkCache (s : State) (w : Nat) (f : Warp → Warp) : (s.modWarp w f).walkCache = s.walkCache := rfl
@[simp] theorem State.modWarp_groups (s : State) (w : Nat) (f : Warp → Warp) : (s.modWarp w f).groups = s.groups := rfl
@[simp] theorem State.modWarp_launches (s : State) (w : Nat) (f : Warp → Warp) : (s.modWarp w f).launches = s.launches := rfl
@[simp] theorem State.modWarp_walks (s : State) (w : Nat) (f : Warp → Warp) : (s.modWarp w f).walks = s.walks := rfl
@[simp] theorem State.modWarp_loads (s : State) (w : Nat) (f : Warp → Warp) : (s.modWarp w f).loads = s.loads := rfl
@[simp] theorem State.modWarp_fills (s : State) (w : Nat) (f : Warp → Warp) : (s.modWarp w f).fills = s.fills := rfl
@[simp] theorem State.modWarp_joins (s : State) (w : Nat) (f : Warp → Warp) : (s.modWarp w f).joins = s.joins := rfl
@[simp] theorem State.modWarp_writes (s : State) (w : Nat) (f : Warp → Warp) : (s.modWarp w f).writes = s.writes := rfl
@[simp] theorem State.modWarp_blocks (s : State) (w : Nat) (f : Warp → Warp) : (s.modWarp w f).blocks = s.blocks := rfl
@[simp] theorem State.modWarp_scs (s : State) (w : Nat) (f : Warp → Warp) : (s.modWarp w f).scs = s.scs := rfl
@[simp] theorem State.modWarp_nfs (s : State) (w : Nat) (f : Warp → Warp) : (s.modWarp w f).nfs = s.nfs := rfl
@[simp] theorem State.modWarp_upgs (s : State) (w : Nat) (f : Warp → Warp) : (s.modWarp w f).upgs = s.upgs := rfl
@[simp] theorem State.modWarp_resv (s : State) (w : Nat) (f : Warp → Warp) : (s.modWarp w f).resv = s.resv := rfl
@[simp] theorem State.modWarp_holds (s : State) (w : Nat) (f : Warp → Warp) : (s.modWarp w f).holds = s.holds := rfl
@[simp] theorem State.modWarp_watches (s : State) (w : Nat) (f : Warp → Warp) : (s.modWarp w f).watches = s.watches := rfl
@[simp] theorem State.modWarp_stackFree (s : State) (w : Nat) (f : Warp → Warp) : (s.modWarp w f).stackFree = s.stackFree := rfl
@[simp] theorem State.modWarp_smvQ (s : State) (w : Nat) (f : Warp → Warp) : (s.modWarp w f).smvQ = s.smvQ := rfl
@[simp] theorem State.modWarp_stopped (s : State) (w : Nat) (f : Warp → Warp) : (s.modWarp w f).stopped = s.stopped := rfl
@[simp] theorem State.modWarp_accCnt (s : State) (w : Nat) (f : Warp → Warp) : (s.modWarp w f).accCnt = s.accCnt := rfl
@[simp] theorem State.modWarp_subupd (s : State) (w : Nat) (f : Warp → Warp) : (s.modWarp w f).subupd = s.subupd := rfl
@[simp] theorem State.modWarp_subskip (s : State) (w : Nat) (f : Warp → Warp) : (s.modWarp w f).subskip = s.subskip := rfl
@[simp] theorem State.modWarp_bifp (s : State) (w : Nat) (f : Warp → Warp) : (s.modWarp w f).bifp = s.bifp := rfl
@[simp] theorem State.modWarp_correctable (s : State) (w : Nat) (f : Warp → Warp) : (s.modWarp w f).correctable = s.correctable := rfl
@[simp] theorem State.modWarp_outbox (s : State) (w : Nat) (f : Warp → Warp) : (s.modWarp w f).outbox = s.outbox := rfl
@[simp] theorem State.modWarp_mgmtLog (s : State) (w : Nat) (f : Warp → Warp) : (s.modWarp w f).mgmtLog = s.mgmtLog := rfl
@[simp] theorem State.modWarp_repaired (s : State) (w : Nat) (f : Warp → Warp) : (s.modWarp w f).repaired = s.repaired := rfl
@[simp] theorem State.modWarp_ctl (s : State) (w : Nat) (f : Warp → Warp) : (s.modWarp w f).ctl = s.ctl := rfl

/-! ## `State.modCore` -/

@[simp] theorem State.modCore_agenda (s : State) (c : Nat) (f : CoreSt → CoreSt) : (s.modCore c f).agenda = s.agenda := rfl
@[simp] theorem State.modCore_cur (s : State) (c : Nat) (f : CoreSt → CoreSt) : (s.modCore c f).cur = s.cur := rfl
@[simp] theorem State.modCore_free (s : State) (c : Nat) (f : CoreSt → CoreSt) : (s.modCore c f).free = s.free := rfl
@[simp] theorem State.modCore_clock (s : State) (c : Nat) (f : CoreSt → CoreSt) : (s.modCore c f).clock = s.clock := rfl
@[simp] theorem State.modCore_gtime (s : State) (c : Nat) (f : CoreSt → CoreSt) : (s.modCore c f).gtime = s.gtime := rfl
@[simp] theorem State.modCore_gfrac (s : State) (c : Nat) (f : CoreSt → CoreSt) : (s.modCore c f).gfrac = s.gfrac := rfl
@[simp] theorem State.modCore_nextId (s : State) (c : Nat) (f : CoreSt → CoreSt) : (s.modCore c f).nextId = s.nextId := rfl
@[simp] theorem State.modCore_mem (s : State) (c : Nat) (f : CoreSt → CoreSt) : (s.modCore c f).mem = s.mem := rfl
@[simp] theorem State.modCore_memP (s : State) (c : Nat) (f : CoreSt → CoreSt) : (s.modCore c f).memP = s.memP := rfl
@[simp] theorem State.modCore_l2 (s : State) (c : Nat) (f : CoreSt → CoreSt) : (s.modCore c f).l2 = s.l2 := rfl
@[simp] theorem State.modCore_apart (s : State) (c : Nat) (f : CoreSt → CoreSt) : (s.modCore c f).apart = s.apart := rfl
@[simp] theorem State.modCore_l2tlb (s : State) (c : Nat) (f : CoreSt → CoreSt) : (s.modCore c f).l2tlb = s.l2tlb := rfl
@[simp] theorem State.modCore_walkCache (s : State) (c : Nat) (f : CoreSt → CoreSt) : (s.modCore c f).walkCache = s.walkCache := rfl
@[simp] theorem State.modCore_warps (s : State) (c : Nat) (f : CoreSt → CoreSt) : (s.modCore c f).warps = s.warps := rfl
@[simp] theorem State.modCore_groups (s : State) (c : Nat) (f : CoreSt → CoreSt) : (s.modCore c f).groups = s.groups := rfl
@[simp] theorem State.modCore_launches (s : State) (c : Nat) (f : CoreSt → CoreSt) : (s.modCore c f).launches = s.launches := rfl
@[simp] theorem State.modCore_walks (s : State) (c : Nat) (f : CoreSt → CoreSt) : (s.modCore c f).walks = s.walks := rfl
@[simp] theorem State.modCore_loads (s : State) (c : Nat) (f : CoreSt → CoreSt) : (s.modCore c f).loads = s.loads := rfl
@[simp] theorem State.modCore_fills (s : State) (c : Nat) (f : CoreSt → CoreSt) : (s.modCore c f).fills = s.fills := rfl
@[simp] theorem State.modCore_joins (s : State) (c : Nat) (f : CoreSt → CoreSt) : (s.modCore c f).joins = s.joins := rfl
@[simp] theorem State.modCore_writes (s : State) (c : Nat) (f : CoreSt → CoreSt) : (s.modCore c f).writes = s.writes := rfl
@[simp] theorem State.modCore_blocks (s : State) (c : Nat) (f : CoreSt → CoreSt) : (s.modCore c f).blocks = s.blocks := rfl
@[simp] theorem State.modCore_scs (s : State) (c : Nat) (f : CoreSt → CoreSt) : (s.modCore c f).scs = s.scs := rfl
@[simp] theorem State.modCore_nfs (s : State) (c : Nat) (f : CoreSt → CoreSt) : (s.modCore c f).nfs = s.nfs := rfl
@[simp] theorem State.modCore_upgs (s : State) (c : Nat) (f : CoreSt → CoreSt) : (s.modCore c f).upgs = s.upgs := rfl
@[simp] theorem State.modCore_resv (s : State) (c : Nat) (f : CoreSt → CoreSt) : (s.modCore c f).resv = s.resv := rfl
@[simp] theorem State.modCore_holds (s : State) (c : Nat) (f : CoreSt → CoreSt) : (s.modCore c f).holds = s.holds := rfl
@[simp] theorem State.modCore_watches (s : State) (c : Nat) (f : CoreSt → CoreSt) : (s.modCore c f).watches = s.watches := rfl
@[simp] theorem State.modCore_stackFree (s : State) (c : Nat) (f : CoreSt → CoreSt) : (s.modCore c f).stackFree = s.stackFree := rfl
@[simp] theorem State.modCore_smvQ (s : State) (c : Nat) (f : CoreSt → CoreSt) : (s.modCore c f).smvQ = s.smvQ := rfl
@[simp] theorem State.modCore_stopped (s : State) (c : Nat) (f : CoreSt → CoreSt) : (s.modCore c f).stopped = s.stopped := rfl
@[simp] theorem State.modCore_accCnt (s : State) (c : Nat) (f : CoreSt → CoreSt) : (s.modCore c f).accCnt = s.accCnt := rfl
@[simp] theorem State.modCore_subupd (s : State) (c : Nat) (f : CoreSt → CoreSt) : (s.modCore c f).subupd = s.subupd := rfl
@[simp] theorem State.modCore_subskip (s : State) (c : Nat) (f : CoreSt → CoreSt) : (s.modCore c f).subskip = s.subskip := rfl
@[simp] theorem State.modCore_bifp (s : State) (c : Nat) (f : CoreSt → CoreSt) : (s.modCore c f).bifp = s.bifp := rfl
@[simp] theorem State.modCore_correctable (s : State) (c : Nat) (f : CoreSt → CoreSt) : (s.modCore c f).correctable = s.correctable := rfl
@[simp] theorem State.modCore_outbox (s : State) (c : Nat) (f : CoreSt → CoreSt) : (s.modCore c f).outbox = s.outbox := rfl
@[simp] theorem State.modCore_mgmtLog (s : State) (c : Nat) (f : CoreSt → CoreSt) : (s.modCore c f).mgmtLog = s.mgmtLog := rfl
@[simp] theorem State.modCore_repaired (s : State) (c : Nat) (f : CoreSt → CoreSt) : (s.modCore c f).repaired = s.repaired := rfl
@[simp] theorem State.modCore_ctl (s : State) (c : Nat) (f : CoreSt → CoreSt) : (s.modCore c f).ctl = s.ctl := rfl

/-! ## `State.modGroup` -/

@[simp] theorem State.modGroup_agenda (s : State) (g : Nat) (f : GroupSt → GroupSt) : (s.modGroup g f).agenda = s.agenda := rfl
@[simp] theorem State.modGroup_cur (s : State) (g : Nat) (f : GroupSt → GroupSt) : (s.modGroup g f).cur = s.cur := rfl
@[simp] theorem State.modGroup_free (s : State) (g : Nat) (f : GroupSt → GroupSt) : (s.modGroup g f).free = s.free := rfl
@[simp] theorem State.modGroup_clock (s : State) (g : Nat) (f : GroupSt → GroupSt) : (s.modGroup g f).clock = s.clock := rfl
@[simp] theorem State.modGroup_gtime (s : State) (g : Nat) (f : GroupSt → GroupSt) : (s.modGroup g f).gtime = s.gtime := rfl
@[simp] theorem State.modGroup_gfrac (s : State) (g : Nat) (f : GroupSt → GroupSt) : (s.modGroup g f).gfrac = s.gfrac := rfl
@[simp] theorem State.modGroup_nextId (s : State) (g : Nat) (f : GroupSt → GroupSt) : (s.modGroup g f).nextId = s.nextId := rfl
@[simp] theorem State.modGroup_mem (s : State) (g : Nat) (f : GroupSt → GroupSt) : (s.modGroup g f).mem = s.mem := rfl
@[simp] theorem State.modGroup_memP (s : State) (g : Nat) (f : GroupSt → GroupSt) : (s.modGroup g f).memP = s.memP := rfl
@[simp] theorem State.modGroup_l2 (s : State) (g : Nat) (f : GroupSt → GroupSt) : (s.modGroup g f).l2 = s.l2 := rfl
@[simp] theorem State.modGroup_apart (s : State) (g : Nat) (f : GroupSt → GroupSt) : (s.modGroup g f).apart = s.apart := rfl
@[simp] theorem State.modGroup_cores (s : State) (g : Nat) (f : GroupSt → GroupSt) : (s.modGroup g f).cores = s.cores := rfl
@[simp] theorem State.modGroup_l2tlb (s : State) (g : Nat) (f : GroupSt → GroupSt) : (s.modGroup g f).l2tlb = s.l2tlb := rfl
@[simp] theorem State.modGroup_walkCache (s : State) (g : Nat) (f : GroupSt → GroupSt) : (s.modGroup g f).walkCache = s.walkCache := rfl
@[simp] theorem State.modGroup_warps (s : State) (g : Nat) (f : GroupSt → GroupSt) : (s.modGroup g f).warps = s.warps := rfl
@[simp] theorem State.modGroup_launches (s : State) (g : Nat) (f : GroupSt → GroupSt) : (s.modGroup g f).launches = s.launches := rfl
@[simp] theorem State.modGroup_walks (s : State) (g : Nat) (f : GroupSt → GroupSt) : (s.modGroup g f).walks = s.walks := rfl
@[simp] theorem State.modGroup_loads (s : State) (g : Nat) (f : GroupSt → GroupSt) : (s.modGroup g f).loads = s.loads := rfl
@[simp] theorem State.modGroup_fills (s : State) (g : Nat) (f : GroupSt → GroupSt) : (s.modGroup g f).fills = s.fills := rfl
@[simp] theorem State.modGroup_joins (s : State) (g : Nat) (f : GroupSt → GroupSt) : (s.modGroup g f).joins = s.joins := rfl
@[simp] theorem State.modGroup_writes (s : State) (g : Nat) (f : GroupSt → GroupSt) : (s.modGroup g f).writes = s.writes := rfl
@[simp] theorem State.modGroup_blocks (s : State) (g : Nat) (f : GroupSt → GroupSt) : (s.modGroup g f).blocks = s.blocks := rfl
@[simp] theorem State.modGroup_scs (s : State) (g : Nat) (f : GroupSt → GroupSt) : (s.modGroup g f).scs = s.scs := rfl
@[simp] theorem State.modGroup_nfs (s : State) (g : Nat) (f : GroupSt → GroupSt) : (s.modGroup g f).nfs = s.nfs := rfl
@[simp] theorem State.modGroup_upgs (s : State) (g : Nat) (f : GroupSt → GroupSt) : (s.modGroup g f).upgs = s.upgs := rfl
@[simp] theorem State.modGroup_resv (s : State) (g : Nat) (f : GroupSt → GroupSt) : (s.modGroup g f).resv = s.resv := rfl
@[simp] theorem State.modGroup_holds (s : State) (g : Nat) (f : GroupSt → GroupSt) : (s.modGroup g f).holds = s.holds := rfl
@[simp] theorem State.modGroup_watches (s : State) (g : Nat) (f : GroupSt → GroupSt) : (s.modGroup g f).watches = s.watches := rfl
@[simp] theorem State.modGroup_stackFree (s : State) (g : Nat) (f : GroupSt → GroupSt) : (s.modGroup g f).stackFree = s.stackFree := rfl
@[simp] theorem State.modGroup_smvQ (s : State) (g : Nat) (f : GroupSt → GroupSt) : (s.modGroup g f).smvQ = s.smvQ := rfl
@[simp] theorem State.modGroup_stopped (s : State) (g : Nat) (f : GroupSt → GroupSt) : (s.modGroup g f).stopped = s.stopped := rfl
@[simp] theorem State.modGroup_accCnt (s : State) (g : Nat) (f : GroupSt → GroupSt) : (s.modGroup g f).accCnt = s.accCnt := rfl
@[simp] theorem State.modGroup_subupd (s : State) (g : Nat) (f : GroupSt → GroupSt) : (s.modGroup g f).subupd = s.subupd := rfl
@[simp] theorem State.modGroup_subskip (s : State) (g : Nat) (f : GroupSt → GroupSt) : (s.modGroup g f).subskip = s.subskip := rfl
@[simp] theorem State.modGroup_bifp (s : State) (g : Nat) (f : GroupSt → GroupSt) : (s.modGroup g f).bifp = s.bifp := rfl
@[simp] theorem State.modGroup_correctable (s : State) (g : Nat) (f : GroupSt → GroupSt) : (s.modGroup g f).correctable = s.correctable := rfl
@[simp] theorem State.modGroup_outbox (s : State) (g : Nat) (f : GroupSt → GroupSt) : (s.modGroup g f).outbox = s.outbox := rfl
@[simp] theorem State.modGroup_mgmtLog (s : State) (g : Nat) (f : GroupSt → GroupSt) : (s.modGroup g f).mgmtLog = s.mgmtLog := rfl
@[simp] theorem State.modGroup_repaired (s : State) (g : Nat) (f : GroupSt → GroupSt) : (s.modGroup g f).repaired = s.repaired := rfl
@[simp] theorem State.modGroup_ctl (s : State) (g : Nat) (f : GroupSt → GroupSt) : (s.modGroup g f).ctl = s.ctl := rfl

/-! ## `State.modLaunch` -/

@[simp] theorem State.modLaunch_agenda (s : State) (l : Nat) (f : LaunchSt → LaunchSt) : (s.modLaunch l f).agenda = s.agenda := rfl
@[simp] theorem State.modLaunch_cur (s : State) (l : Nat) (f : LaunchSt → LaunchSt) : (s.modLaunch l f).cur = s.cur := rfl
@[simp] theorem State.modLaunch_free (s : State) (l : Nat) (f : LaunchSt → LaunchSt) : (s.modLaunch l f).free = s.free := rfl
@[simp] theorem State.modLaunch_clock (s : State) (l : Nat) (f : LaunchSt → LaunchSt) : (s.modLaunch l f).clock = s.clock := rfl
@[simp] theorem State.modLaunch_gtime (s : State) (l : Nat) (f : LaunchSt → LaunchSt) : (s.modLaunch l f).gtime = s.gtime := rfl
@[simp] theorem State.modLaunch_gfrac (s : State) (l : Nat) (f : LaunchSt → LaunchSt) : (s.modLaunch l f).gfrac = s.gfrac := rfl
@[simp] theorem State.modLaunch_nextId (s : State) (l : Nat) (f : LaunchSt → LaunchSt) : (s.modLaunch l f).nextId = s.nextId := rfl
@[simp] theorem State.modLaunch_mem (s : State) (l : Nat) (f : LaunchSt → LaunchSt) : (s.modLaunch l f).mem = s.mem := rfl
@[simp] theorem State.modLaunch_memP (s : State) (l : Nat) (f : LaunchSt → LaunchSt) : (s.modLaunch l f).memP = s.memP := rfl
@[simp] theorem State.modLaunch_l2 (s : State) (l : Nat) (f : LaunchSt → LaunchSt) : (s.modLaunch l f).l2 = s.l2 := rfl
@[simp] theorem State.modLaunch_apart (s : State) (l : Nat) (f : LaunchSt → LaunchSt) : (s.modLaunch l f).apart = s.apart := rfl
@[simp] theorem State.modLaunch_cores (s : State) (l : Nat) (f : LaunchSt → LaunchSt) : (s.modLaunch l f).cores = s.cores := rfl
@[simp] theorem State.modLaunch_l2tlb (s : State) (l : Nat) (f : LaunchSt → LaunchSt) : (s.modLaunch l f).l2tlb = s.l2tlb := rfl
@[simp] theorem State.modLaunch_walkCache (s : State) (l : Nat) (f : LaunchSt → LaunchSt) : (s.modLaunch l f).walkCache = s.walkCache := rfl
@[simp] theorem State.modLaunch_warps (s : State) (l : Nat) (f : LaunchSt → LaunchSt) : (s.modLaunch l f).warps = s.warps := rfl
@[simp] theorem State.modLaunch_groups (s : State) (l : Nat) (f : LaunchSt → LaunchSt) : (s.modLaunch l f).groups = s.groups := rfl
@[simp] theorem State.modLaunch_walks (s : State) (l : Nat) (f : LaunchSt → LaunchSt) : (s.modLaunch l f).walks = s.walks := rfl
@[simp] theorem State.modLaunch_loads (s : State) (l : Nat) (f : LaunchSt → LaunchSt) : (s.modLaunch l f).loads = s.loads := rfl
@[simp] theorem State.modLaunch_fills (s : State) (l : Nat) (f : LaunchSt → LaunchSt) : (s.modLaunch l f).fills = s.fills := rfl
@[simp] theorem State.modLaunch_joins (s : State) (l : Nat) (f : LaunchSt → LaunchSt) : (s.modLaunch l f).joins = s.joins := rfl
@[simp] theorem State.modLaunch_writes (s : State) (l : Nat) (f : LaunchSt → LaunchSt) : (s.modLaunch l f).writes = s.writes := rfl
@[simp] theorem State.modLaunch_blocks (s : State) (l : Nat) (f : LaunchSt → LaunchSt) : (s.modLaunch l f).blocks = s.blocks := rfl
@[simp] theorem State.modLaunch_scs (s : State) (l : Nat) (f : LaunchSt → LaunchSt) : (s.modLaunch l f).scs = s.scs := rfl
@[simp] theorem State.modLaunch_nfs (s : State) (l : Nat) (f : LaunchSt → LaunchSt) : (s.modLaunch l f).nfs = s.nfs := rfl
@[simp] theorem State.modLaunch_upgs (s : State) (l : Nat) (f : LaunchSt → LaunchSt) : (s.modLaunch l f).upgs = s.upgs := rfl
@[simp] theorem State.modLaunch_resv (s : State) (l : Nat) (f : LaunchSt → LaunchSt) : (s.modLaunch l f).resv = s.resv := rfl
@[simp] theorem State.modLaunch_holds (s : State) (l : Nat) (f : LaunchSt → LaunchSt) : (s.modLaunch l f).holds = s.holds := rfl
@[simp] theorem State.modLaunch_watches (s : State) (l : Nat) (f : LaunchSt → LaunchSt) : (s.modLaunch l f).watches = s.watches := rfl
@[simp] theorem State.modLaunch_stackFree (s : State) (l : Nat) (f : LaunchSt → LaunchSt) : (s.modLaunch l f).stackFree = s.stackFree := rfl
@[simp] theorem State.modLaunch_smvQ (s : State) (l : Nat) (f : LaunchSt → LaunchSt) : (s.modLaunch l f).smvQ = s.smvQ := rfl
@[simp] theorem State.modLaunch_stopped (s : State) (l : Nat) (f : LaunchSt → LaunchSt) : (s.modLaunch l f).stopped = s.stopped := rfl
@[simp] theorem State.modLaunch_accCnt (s : State) (l : Nat) (f : LaunchSt → LaunchSt) : (s.modLaunch l f).accCnt = s.accCnt := rfl
@[simp] theorem State.modLaunch_subupd (s : State) (l : Nat) (f : LaunchSt → LaunchSt) : (s.modLaunch l f).subupd = s.subupd := rfl
@[simp] theorem State.modLaunch_subskip (s : State) (l : Nat) (f : LaunchSt → LaunchSt) : (s.modLaunch l f).subskip = s.subskip := rfl
@[simp] theorem State.modLaunch_bifp (s : State) (l : Nat) (f : LaunchSt → LaunchSt) : (s.modLaunch l f).bifp = s.bifp := rfl
@[simp] theorem State.modLaunch_correctable (s : State) (l : Nat) (f : LaunchSt → LaunchSt) : (s.modLaunch l f).correctable = s.correctable := rfl
@[simp] theorem State.modLaunch_outbox (s : State) (l : Nat) (f : LaunchSt → LaunchSt) : (s.modLaunch l f).outbox = s.outbox := rfl
@[simp] theorem State.modLaunch_mgmtLog (s : State) (l : Nat) (f : LaunchSt → LaunchSt) : (s.modLaunch l f).mgmtLog = s.mgmtLog := rfl
@[simp] theorem State.modLaunch_repaired (s : State) (l : Nat) (f : LaunchSt → LaunchSt) : (s.modLaunch l f).repaired = s.repaired := rfl
@[simp] theorem State.modLaunch_ctl (s : State) (l : Nat) (f : LaunchSt → LaunchSt) : (s.modLaunch l f).ctl = s.ctl := rfl

/-! ## `State.modCtl` -/

@[simp] theorem State.modCtl_agenda (s : State) (f : Ctl → Ctl) : (s.modCtl f).agenda = s.agenda := rfl
@[simp] theorem State.modCtl_cur (s : State) (f : Ctl → Ctl) : (s.modCtl f).cur = s.cur := rfl
@[simp] theorem State.modCtl_free (s : State) (f : Ctl → Ctl) : (s.modCtl f).free = s.free := rfl
@[simp] theorem State.modCtl_clock (s : State) (f : Ctl → Ctl) : (s.modCtl f).clock = s.clock := rfl
@[simp] theorem State.modCtl_gtime (s : State) (f : Ctl → Ctl) : (s.modCtl f).gtime = s.gtime := rfl
@[simp] theorem State.modCtl_gfrac (s : State) (f : Ctl → Ctl) : (s.modCtl f).gfrac = s.gfrac := rfl
@[simp] theorem State.modCtl_nextId (s : State) (f : Ctl → Ctl) : (s.modCtl f).nextId = s.nextId := rfl
@[simp] theorem State.modCtl_mem (s : State) (f : Ctl → Ctl) : (s.modCtl f).mem = s.mem := rfl
@[simp] theorem State.modCtl_memP (s : State) (f : Ctl → Ctl) : (s.modCtl f).memP = s.memP := rfl
@[simp] theorem State.modCtl_l2 (s : State) (f : Ctl → Ctl) : (s.modCtl f).l2 = s.l2 := rfl
@[simp] theorem State.modCtl_apart (s : State) (f : Ctl → Ctl) : (s.modCtl f).apart = s.apart := rfl
@[simp] theorem State.modCtl_cores (s : State) (f : Ctl → Ctl) : (s.modCtl f).cores = s.cores := rfl
@[simp] theorem State.modCtl_l2tlb (s : State) (f : Ctl → Ctl) : (s.modCtl f).l2tlb = s.l2tlb := rfl
@[simp] theorem State.modCtl_walkCache (s : State) (f : Ctl → Ctl) : (s.modCtl f).walkCache = s.walkCache := rfl
@[simp] theorem State.modCtl_warps (s : State) (f : Ctl → Ctl) : (s.modCtl f).warps = s.warps := rfl
@[simp] theorem State.modCtl_groups (s : State) (f : Ctl → Ctl) : (s.modCtl f).groups = s.groups := rfl
@[simp] theorem State.modCtl_launches (s : State) (f : Ctl → Ctl) : (s.modCtl f).launches = s.launches := rfl
@[simp] theorem State.modCtl_walks (s : State) (f : Ctl → Ctl) : (s.modCtl f).walks = s.walks := rfl
@[simp] theorem State.modCtl_loads (s : State) (f : Ctl → Ctl) : (s.modCtl f).loads = s.loads := rfl
@[simp] theorem State.modCtl_fills (s : State) (f : Ctl → Ctl) : (s.modCtl f).fills = s.fills := rfl
@[simp] theorem State.modCtl_joins (s : State) (f : Ctl → Ctl) : (s.modCtl f).joins = s.joins := rfl
@[simp] theorem State.modCtl_writes (s : State) (f : Ctl → Ctl) : (s.modCtl f).writes = s.writes := rfl
@[simp] theorem State.modCtl_blocks (s : State) (f : Ctl → Ctl) : (s.modCtl f).blocks = s.blocks := rfl
@[simp] theorem State.modCtl_scs (s : State) (f : Ctl → Ctl) : (s.modCtl f).scs = s.scs := rfl
@[simp] theorem State.modCtl_nfs (s : State) (f : Ctl → Ctl) : (s.modCtl f).nfs = s.nfs := rfl
@[simp] theorem State.modCtl_upgs (s : State) (f : Ctl → Ctl) : (s.modCtl f).upgs = s.upgs := rfl
@[simp] theorem State.modCtl_resv (s : State) (f : Ctl → Ctl) : (s.modCtl f).resv = s.resv := rfl
@[simp] theorem State.modCtl_holds (s : State) (f : Ctl → Ctl) : (s.modCtl f).holds = s.holds := rfl
@[simp] theorem State.modCtl_watches (s : State) (f : Ctl → Ctl) : (s.modCtl f).watches = s.watches := rfl
@[simp] theorem State.modCtl_stackFree (s : State) (f : Ctl → Ctl) : (s.modCtl f).stackFree = s.stackFree := rfl
@[simp] theorem State.modCtl_smvQ (s : State) (f : Ctl → Ctl) : (s.modCtl f).smvQ = s.smvQ := rfl
@[simp] theorem State.modCtl_stopped (s : State) (f : Ctl → Ctl) : (s.modCtl f).stopped = s.stopped := rfl
@[simp] theorem State.modCtl_accCnt (s : State) (f : Ctl → Ctl) : (s.modCtl f).accCnt = s.accCnt := rfl
@[simp] theorem State.modCtl_subupd (s : State) (f : Ctl → Ctl) : (s.modCtl f).subupd = s.subupd := rfl
@[simp] theorem State.modCtl_subskip (s : State) (f : Ctl → Ctl) : (s.modCtl f).subskip = s.subskip := rfl
@[simp] theorem State.modCtl_bifp (s : State) (f : Ctl → Ctl) : (s.modCtl f).bifp = s.bifp := rfl
@[simp] theorem State.modCtl_correctable (s : State) (f : Ctl → Ctl) : (s.modCtl f).correctable = s.correctable := rfl
@[simp] theorem State.modCtl_outbox (s : State) (f : Ctl → Ctl) : (s.modCtl f).outbox = s.outbox := rfl
@[simp] theorem State.modCtl_mgmtLog (s : State) (f : Ctl → Ctl) : (s.modCtl f).mgmtLog = s.mgmtLog := rfl
@[simp] theorem State.modCtl_repaired (s : State) (f : Ctl → Ctl) : (s.modCtl f).repaired = s.repaired := rfl

/-! ## `State.send` -/

@[simp] theorem State.send_agenda (s : State) (m : Msg) : (s.send m).agenda = s.agenda := rfl
@[simp] theorem State.send_cur (s : State) (m : Msg) : (s.send m).cur = s.cur := rfl
@[simp] theorem State.send_free (s : State) (m : Msg) : (s.send m).free = s.free := rfl
@[simp] theorem State.send_clock (s : State) (m : Msg) : (s.send m).clock = s.clock := rfl
@[simp] theorem State.send_gtime (s : State) (m : Msg) : (s.send m).gtime = s.gtime := rfl
@[simp] theorem State.send_gfrac (s : State) (m : Msg) : (s.send m).gfrac = s.gfrac := rfl
@[simp] theorem State.send_nextId (s : State) (m : Msg) : (s.send m).nextId = s.nextId := rfl
@[simp] theorem State.send_mem (s : State) (m : Msg) : (s.send m).mem = s.mem := rfl
@[simp] theorem State.send_memP (s : State) (m : Msg) : (s.send m).memP = s.memP := rfl
@[simp] theorem State.send_l2 (s : State) (m : Msg) : (s.send m).l2 = s.l2 := rfl
@[simp] theorem State.send_apart (s : State) (m : Msg) : (s.send m).apart = s.apart := rfl
@[simp] theorem State.send_cores (s : State) (m : Msg) : (s.send m).cores = s.cores := rfl
@[simp] theorem State.send_l2tlb (s : State) (m : Msg) : (s.send m).l2tlb = s.l2tlb := rfl
@[simp] theorem State.send_walkCache (s : State) (m : Msg) : (s.send m).walkCache = s.walkCache := rfl
@[simp] theorem State.send_warps (s : State) (m : Msg) : (s.send m).warps = s.warps := rfl
@[simp] theorem State.send_groups (s : State) (m : Msg) : (s.send m).groups = s.groups := rfl
@[simp] theorem State.send_launches (s : State) (m : Msg) : (s.send m).launches = s.launches := rfl
@[simp] theorem State.send_walks (s : State) (m : Msg) : (s.send m).walks = s.walks := rfl
@[simp] theorem State.send_loads (s : State) (m : Msg) : (s.send m).loads = s.loads := rfl
@[simp] theorem State.send_fills (s : State) (m : Msg) : (s.send m).fills = s.fills := rfl
@[simp] theorem State.send_joins (s : State) (m : Msg) : (s.send m).joins = s.joins := rfl
@[simp] theorem State.send_writes (s : State) (m : Msg) : (s.send m).writes = s.writes := rfl
@[simp] theorem State.send_blocks (s : State) (m : Msg) : (s.send m).blocks = s.blocks := rfl
@[simp] theorem State.send_scs (s : State) (m : Msg) : (s.send m).scs = s.scs := rfl
@[simp] theorem State.send_nfs (s : State) (m : Msg) : (s.send m).nfs = s.nfs := rfl
@[simp] theorem State.send_upgs (s : State) (m : Msg) : (s.send m).upgs = s.upgs := rfl
@[simp] theorem State.send_resv (s : State) (m : Msg) : (s.send m).resv = s.resv := rfl
@[simp] theorem State.send_holds (s : State) (m : Msg) : (s.send m).holds = s.holds := rfl
@[simp] theorem State.send_watches (s : State) (m : Msg) : (s.send m).watches = s.watches := rfl
@[simp] theorem State.send_stackFree (s : State) (m : Msg) : (s.send m).stackFree = s.stackFree := rfl
@[simp] theorem State.send_smvQ (s : State) (m : Msg) : (s.send m).smvQ = s.smvQ := rfl
@[simp] theorem State.send_stopped (s : State) (m : Msg) : (s.send m).stopped = s.stopped := rfl
@[simp] theorem State.send_accCnt (s : State) (m : Msg) : (s.send m).accCnt = s.accCnt := rfl
@[simp] theorem State.send_subupd (s : State) (m : Msg) : (s.send m).subupd = s.subupd := rfl
@[simp] theorem State.send_subskip (s : State) (m : Msg) : (s.send m).subskip = s.subskip := rfl
@[simp] theorem State.send_bifp (s : State) (m : Msg) : (s.send m).bifp = s.bifp := rfl
@[simp] theorem State.send_correctable (s : State) (m : Msg) : (s.send m).correctable = s.correctable := rfl
@[simp] theorem State.send_mgmtLog (s : State) (m : Msg) : (s.send m).mgmtLog = s.mgmtLog := rfl
@[simp] theorem State.send_repaired (s : State) (m : Msg) : (s.send m).repaired = s.repaired := rfl
@[simp] theorem State.send_ctl (s : State) (m : Msg) : (s.send m).ctl = s.ctl := rfl

/-! ## `State.setL2` -/

@[simp] theorem State.setL2_agenda (s : State) (line : Nat) (x : L2Line) : (s.setL2 line x).agenda = s.agenda := rfl
@[simp] theorem State.setL2_cur (s : State) (line : Nat) (x : L2Line) : (s.setL2 line x).cur = s.cur := rfl
@[simp] theorem State.setL2_free (s : State) (line : Nat) (x : L2Line) : (s.setL2 line x).free = s.free := rfl
@[simp] theorem State.setL2_clock (s : State) (line : Nat) (x : L2Line) : (s.setL2 line x).clock = s.clock := rfl
@[simp] theorem State.setL2_gtime (s : State) (line : Nat) (x : L2Line) : (s.setL2 line x).gtime = s.gtime := rfl
@[simp] theorem State.setL2_gfrac (s : State) (line : Nat) (x : L2Line) : (s.setL2 line x).gfrac = s.gfrac := rfl
@[simp] theorem State.setL2_nextId (s : State) (line : Nat) (x : L2Line) : (s.setL2 line x).nextId = s.nextId := rfl
@[simp] theorem State.setL2_mem (s : State) (line : Nat) (x : L2Line) : (s.setL2 line x).mem = s.mem := rfl
@[simp] theorem State.setL2_memP (s : State) (line : Nat) (x : L2Line) : (s.setL2 line x).memP = s.memP := rfl
@[simp] theorem State.setL2_apart (s : State) (line : Nat) (x : L2Line) : (s.setL2 line x).apart = s.apart := rfl
@[simp] theorem State.setL2_cores (s : State) (line : Nat) (x : L2Line) : (s.setL2 line x).cores = s.cores := rfl
@[simp] theorem State.setL2_l2tlb (s : State) (line : Nat) (x : L2Line) : (s.setL2 line x).l2tlb = s.l2tlb := rfl
@[simp] theorem State.setL2_walkCache (s : State) (line : Nat) (x : L2Line) : (s.setL2 line x).walkCache = s.walkCache := rfl
@[simp] theorem State.setL2_warps (s : State) (line : Nat) (x : L2Line) : (s.setL2 line x).warps = s.warps := rfl
@[simp] theorem State.setL2_groups (s : State) (line : Nat) (x : L2Line) : (s.setL2 line x).groups = s.groups := rfl
@[simp] theorem State.setL2_launches (s : State) (line : Nat) (x : L2Line) : (s.setL2 line x).launches = s.launches := rfl
@[simp] theorem State.setL2_walks (s : State) (line : Nat) (x : L2Line) : (s.setL2 line x).walks = s.walks := rfl
@[simp] theorem State.setL2_loads (s : State) (line : Nat) (x : L2Line) : (s.setL2 line x).loads = s.loads := rfl
@[simp] theorem State.setL2_fills (s : State) (line : Nat) (x : L2Line) : (s.setL2 line x).fills = s.fills := rfl
@[simp] theorem State.setL2_joins (s : State) (line : Nat) (x : L2Line) : (s.setL2 line x).joins = s.joins := rfl
@[simp] theorem State.setL2_writes (s : State) (line : Nat) (x : L2Line) : (s.setL2 line x).writes = s.writes := rfl
@[simp] theorem State.setL2_blocks (s : State) (line : Nat) (x : L2Line) : (s.setL2 line x).blocks = s.blocks := rfl
@[simp] theorem State.setL2_scs (s : State) (line : Nat) (x : L2Line) : (s.setL2 line x).scs = s.scs := rfl
@[simp] theorem State.setL2_nfs (s : State) (line : Nat) (x : L2Line) : (s.setL2 line x).nfs = s.nfs := rfl
@[simp] theorem State.setL2_upgs (s : State) (line : Nat) (x : L2Line) : (s.setL2 line x).upgs = s.upgs := rfl
@[simp] theorem State.setL2_resv (s : State) (line : Nat) (x : L2Line) : (s.setL2 line x).resv = s.resv := rfl
@[simp] theorem State.setL2_holds (s : State) (line : Nat) (x : L2Line) : (s.setL2 line x).holds = s.holds := rfl
@[simp] theorem State.setL2_watches (s : State) (line : Nat) (x : L2Line) : (s.setL2 line x).watches = s.watches := rfl
@[simp] theorem State.setL2_stackFree (s : State) (line : Nat) (x : L2Line) : (s.setL2 line x).stackFree = s.stackFree := rfl
@[simp] theorem State.setL2_smvQ (s : State) (line : Nat) (x : L2Line) : (s.setL2 line x).smvQ = s.smvQ := rfl
@[simp] theorem State.setL2_stopped (s : State) (line : Nat) (x : L2Line) : (s.setL2 line x).stopped = s.stopped := rfl
@[simp] theorem State.setL2_accCnt (s : State) (line : Nat) (x : L2Line) : (s.setL2 line x).accCnt = s.accCnt := rfl
@[simp] theorem State.setL2_subupd (s : State) (line : Nat) (x : L2Line) : (s.setL2 line x).subupd = s.subupd := rfl
@[simp] theorem State.setL2_subskip (s : State) (line : Nat) (x : L2Line) : (s.setL2 line x).subskip = s.subskip := rfl
@[simp] theorem State.setL2_bifp (s : State) (line : Nat) (x : L2Line) : (s.setL2 line x).bifp = s.bifp := rfl
@[simp] theorem State.setL2_correctable (s : State) (line : Nat) (x : L2Line) : (s.setL2 line x).correctable = s.correctable := rfl
@[simp] theorem State.setL2_outbox (s : State) (line : Nat) (x : L2Line) : (s.setL2 line x).outbox = s.outbox := rfl
@[simp] theorem State.setL2_mgmtLog (s : State) (line : Nat) (x : L2Line) : (s.setL2 line x).mgmtLog = s.mgmtLog := rfl
@[simp] theorem State.setL2_repaired (s : State) (line : Nat) (x : L2Line) : (s.setL2 line x).repaired = s.repaired := rfl
@[simp] theorem State.setL2_ctl (s : State) (line : Nat) (x : L2Line) : (s.setL2 line x).ctl = s.ctl := rfl

/-! ## `State.storeMem` -/

@[simp] theorem State.storeMem_agenda (s : State) (line : Nat) (d : LineData) : (s.storeMem line d).agenda = s.agenda := rfl
@[simp] theorem State.storeMem_cur (s : State) (line : Nat) (d : LineData) : (s.storeMem line d).cur = s.cur := rfl
@[simp] theorem State.storeMem_free (s : State) (line : Nat) (d : LineData) : (s.storeMem line d).free = s.free := rfl
@[simp] theorem State.storeMem_clock (s : State) (line : Nat) (d : LineData) : (s.storeMem line d).clock = s.clock := rfl
@[simp] theorem State.storeMem_gtime (s : State) (line : Nat) (d : LineData) : (s.storeMem line d).gtime = s.gtime := rfl
@[simp] theorem State.storeMem_gfrac (s : State) (line : Nat) (d : LineData) : (s.storeMem line d).gfrac = s.gfrac := rfl
@[simp] theorem State.storeMem_nextId (s : State) (line : Nat) (d : LineData) : (s.storeMem line d).nextId = s.nextId := rfl
@[simp] theorem State.storeMem_l2 (s : State) (line : Nat) (d : LineData) : (s.storeMem line d).l2 = s.l2 := rfl
@[simp] theorem State.storeMem_apart (s : State) (line : Nat) (d : LineData) : (s.storeMem line d).apart = s.apart := rfl
@[simp] theorem State.storeMem_cores (s : State) (line : Nat) (d : LineData) : (s.storeMem line d).cores = s.cores := rfl
@[simp] theorem State.storeMem_l2tlb (s : State) (line : Nat) (d : LineData) : (s.storeMem line d).l2tlb = s.l2tlb := rfl
@[simp] theorem State.storeMem_walkCache (s : State) (line : Nat) (d : LineData) : (s.storeMem line d).walkCache = s.walkCache := rfl
@[simp] theorem State.storeMem_warps (s : State) (line : Nat) (d : LineData) : (s.storeMem line d).warps = s.warps := rfl
@[simp] theorem State.storeMem_groups (s : State) (line : Nat) (d : LineData) : (s.storeMem line d).groups = s.groups := rfl
@[simp] theorem State.storeMem_launches (s : State) (line : Nat) (d : LineData) : (s.storeMem line d).launches = s.launches := rfl
@[simp] theorem State.storeMem_walks (s : State) (line : Nat) (d : LineData) : (s.storeMem line d).walks = s.walks := rfl
@[simp] theorem State.storeMem_loads (s : State) (line : Nat) (d : LineData) : (s.storeMem line d).loads = s.loads := rfl
@[simp] theorem State.storeMem_fills (s : State) (line : Nat) (d : LineData) : (s.storeMem line d).fills = s.fills := rfl
@[simp] theorem State.storeMem_joins (s : State) (line : Nat) (d : LineData) : (s.storeMem line d).joins = s.joins := rfl
@[simp] theorem State.storeMem_writes (s : State) (line : Nat) (d : LineData) : (s.storeMem line d).writes = s.writes := rfl
@[simp] theorem State.storeMem_blocks (s : State) (line : Nat) (d : LineData) : (s.storeMem line d).blocks = s.blocks := rfl
@[simp] theorem State.storeMem_scs (s : State) (line : Nat) (d : LineData) : (s.storeMem line d).scs = s.scs := rfl
@[simp] theorem State.storeMem_nfs (s : State) (line : Nat) (d : LineData) : (s.storeMem line d).nfs = s.nfs := rfl
@[simp] theorem State.storeMem_upgs (s : State) (line : Nat) (d : LineData) : (s.storeMem line d).upgs = s.upgs := rfl
@[simp] theorem State.storeMem_resv (s : State) (line : Nat) (d : LineData) : (s.storeMem line d).resv = s.resv := rfl
@[simp] theorem State.storeMem_holds (s : State) (line : Nat) (d : LineData) : (s.storeMem line d).holds = s.holds := rfl
@[simp] theorem State.storeMem_watches (s : State) (line : Nat) (d : LineData) : (s.storeMem line d).watches = s.watches := rfl
@[simp] theorem State.storeMem_stackFree (s : State) (line : Nat) (d : LineData) : (s.storeMem line d).stackFree = s.stackFree := rfl
@[simp] theorem State.storeMem_smvQ (s : State) (line : Nat) (d : LineData) : (s.storeMem line d).smvQ = s.smvQ := rfl
@[simp] theorem State.storeMem_stopped (s : State) (line : Nat) (d : LineData) : (s.storeMem line d).stopped = s.stopped := rfl
@[simp] theorem State.storeMem_accCnt (s : State) (line : Nat) (d : LineData) : (s.storeMem line d).accCnt = s.accCnt := rfl
@[simp] theorem State.storeMem_subupd (s : State) (line : Nat) (d : LineData) : (s.storeMem line d).subupd = s.subupd := rfl
@[simp] theorem State.storeMem_subskip (s : State) (line : Nat) (d : LineData) : (s.storeMem line d).subskip = s.subskip := rfl
@[simp] theorem State.storeMem_bifp (s : State) (line : Nat) (d : LineData) : (s.storeMem line d).bifp = s.bifp := rfl
@[simp] theorem State.storeMem_correctable (s : State) (line : Nat) (d : LineData) : (s.storeMem line d).correctable = s.correctable := rfl
@[simp] theorem State.storeMem_outbox (s : State) (line : Nat) (d : LineData) : (s.storeMem line d).outbox = s.outbox := rfl
@[simp] theorem State.storeMem_mgmtLog (s : State) (line : Nat) (d : LineData) : (s.storeMem line d).mgmtLog = s.mgmtLog := rfl
@[simp] theorem State.storeMem_repaired (s : State) (line : Nat) (d : LineData) : (s.storeMem line d).repaired = s.repaired := rfl
@[simp] theorem State.storeMem_ctl (s : State) (line : Nat) (d : LineData) : (s.storeMem line d).ctl = s.ctl := rfl

/-! ## `State.tick` -/

@[simp] theorem State.tick_agenda (s : State) (dt : Nat) : (s.tick dt).agenda = s.agenda := rfl
@[simp] theorem State.tick_cur (s : State) (dt : Nat) : (s.tick dt).cur = s.cur := rfl
@[simp] theorem State.tick_free (s : State) (dt : Nat) : (s.tick dt).free = s.free := rfl
@[simp] theorem State.tick_nextId (s : State) (dt : Nat) : (s.tick dt).nextId = s.nextId := rfl
@[simp] theorem State.tick_mem (s : State) (dt : Nat) : (s.tick dt).mem = s.mem := rfl
@[simp] theorem State.tick_memP (s : State) (dt : Nat) : (s.tick dt).memP = s.memP := rfl
@[simp] theorem State.tick_l2 (s : State) (dt : Nat) : (s.tick dt).l2 = s.l2 := rfl
@[simp] theorem State.tick_apart (s : State) (dt : Nat) : (s.tick dt).apart = s.apart := rfl
@[simp] theorem State.tick_cores (s : State) (dt : Nat) : (s.tick dt).cores = s.cores := rfl
@[simp] theorem State.tick_l2tlb (s : State) (dt : Nat) : (s.tick dt).l2tlb = s.l2tlb := rfl
@[simp] theorem State.tick_walkCache (s : State) (dt : Nat) : (s.tick dt).walkCache = s.walkCache := rfl
@[simp] theorem State.tick_groups (s : State) (dt : Nat) : (s.tick dt).groups = s.groups := rfl
@[simp] theorem State.tick_launches (s : State) (dt : Nat) : (s.tick dt).launches = s.launches := rfl
@[simp] theorem State.tick_walks (s : State) (dt : Nat) : (s.tick dt).walks = s.walks := rfl
@[simp] theorem State.tick_loads (s : State) (dt : Nat) : (s.tick dt).loads = s.loads := rfl
@[simp] theorem State.tick_fills (s : State) (dt : Nat) : (s.tick dt).fills = s.fills := rfl
@[simp] theorem State.tick_joins (s : State) (dt : Nat) : (s.tick dt).joins = s.joins := rfl
@[simp] theorem State.tick_writes (s : State) (dt : Nat) : (s.tick dt).writes = s.writes := rfl
@[simp] theorem State.tick_blocks (s : State) (dt : Nat) : (s.tick dt).blocks = s.blocks := rfl
@[simp] theorem State.tick_scs (s : State) (dt : Nat) : (s.tick dt).scs = s.scs := rfl
@[simp] theorem State.tick_nfs (s : State) (dt : Nat) : (s.tick dt).nfs = s.nfs := rfl
@[simp] theorem State.tick_upgs (s : State) (dt : Nat) : (s.tick dt).upgs = s.upgs := rfl
@[simp] theorem State.tick_resv (s : State) (dt : Nat) : (s.tick dt).resv = s.resv := rfl
@[simp] theorem State.tick_holds (s : State) (dt : Nat) : (s.tick dt).holds = s.holds := rfl
@[simp] theorem State.tick_watches (s : State) (dt : Nat) : (s.tick dt).watches = s.watches := rfl
@[simp] theorem State.tick_stackFree (s : State) (dt : Nat) : (s.tick dt).stackFree = s.stackFree := rfl
@[simp] theorem State.tick_smvQ (s : State) (dt : Nat) : (s.tick dt).smvQ = s.smvQ := rfl
@[simp] theorem State.tick_stopped (s : State) (dt : Nat) : (s.tick dt).stopped = s.stopped := rfl
@[simp] theorem State.tick_accCnt (s : State) (dt : Nat) : (s.tick dt).accCnt = s.accCnt := rfl
@[simp] theorem State.tick_subupd (s : State) (dt : Nat) : (s.tick dt).subupd = s.subupd := rfl
@[simp] theorem State.tick_subskip (s : State) (dt : Nat) : (s.tick dt).subskip = s.subskip := rfl
@[simp] theorem State.tick_bifp (s : State) (dt : Nat) : (s.tick dt).bifp = s.bifp := rfl
@[simp] theorem State.tick_correctable (s : State) (dt : Nat) : (s.tick dt).correctable = s.correctable := rfl
@[simp] theorem State.tick_outbox (s : State) (dt : Nat) : (s.tick dt).outbox = s.outbox := rfl
@[simp] theorem State.tick_mgmtLog (s : State) (dt : Nat) : (s.tick dt).mgmtLog = s.mgmtLog := rfl
@[simp] theorem State.tick_repaired (s : State) (dt : Nat) : (s.tick dt).repaired = s.repaired := rfl
@[simp] theorem State.tick_ctl_tlbiva (s : State) (dt : Nat) : (s.tick dt).ctl.tlbiva = s.ctl.tlbiva := by
  simp only [State.tick]; split <;> rfl
@[simp] theorem State.tick_ctl_tlbiroot (s : State) (dt : Nat) : (s.tick dt).ctl.tlbiroot = s.ctl.tlbiroot := by
  simp only [State.tick]; split <;> rfl
@[simp] theorem State.tick_ctl_tlbictl (s : State) (dt : Nat) : (s.tick dt).ctl.tlbictl = s.ctl.tlbictl := by
  simp only [State.tick]; split <;> rfl
@[simp] theorem State.tick_ctl_tlbiBusy (s : State) (dt : Nat) : (s.tick dt).ctl.tlbiBusy = s.ctl.tlbiBusy := by
  simp only [State.tick]; split <;> rfl
@[simp] theorem State.tick_ctl_tlbiErr (s : State) (dt : Nat) : (s.tick dt).ctl.tlbiErr = s.ctl.tlbiErr := by
  simp only [State.tick]; split <;> rfl
@[simp] theorem State.tick_ctl_tlbiFence (s : State) (dt : Nat) : (s.tick dt).ctl.tlbiFence = s.ctl.tlbiFence := by
  simp only [State.tick]; split <;> rfl
@[simp] theorem State.tick_ctl_tlbiFreed (s : State) (dt : Nat) : (s.tick dt).ctl.tlbiFreed = s.ctl.tlbiFreed := by
  simp only [State.tick]; split <;> rfl
@[simp] theorem State.tick_ctl_nqbase (s : State) (dt : Nat) : (s.tick dt).ctl.nqbase = s.ctl.nqbase := by
  simp only [State.tick]; split <;> rfl
@[simp] theorem State.tick_ctl_nqsize (s : State) (dt : Nat) : (s.tick dt).ctl.nqsize = s.ctl.nqsize := by
  simp only [State.tick]; split <;> rfl
@[simp] theorem State.tick_ctl_nqhead (s : State) (dt : Nat) : (s.tick dt).ctl.nqhead = s.ctl.nqhead := by
  simp only [State.tick]; split <;> rfl
@[simp] theorem State.tick_ctl_nqtail (s : State) (dt : Nat) : (s.tick dt).ctl.nqtail = s.ctl.nqtail := by
  simp only [State.tick]; split <;> rfl
@[simp] theorem State.tick_ctl_nqovf (s : State) (dt : Nat) : (s.tick dt).ctl.nqovf = s.ctl.nqovf := by
  simp only [State.tick]; split <;> rfl
@[simp] theorem State.tick_ctl_nqseq (s : State) (dt : Nat) : (s.tick dt).ctl.nqseq = s.ctl.nqseq := by
  simp only [State.tick]; split <;> rfl
@[simp] theorem State.tick_ctl_acthr (s : State) (dt : Nat) : (s.tick dt).ctl.acthr = s.ctl.acthr := by
  simp only [State.tick]; split <;> rfl
@[simp] theorem State.tick_ctl_ppbase (s : State) (dt : Nat) : (s.tick dt).ctl.ppbase = s.ctl.ppbase := by
  simp only [State.tick]; split <;> rfl
@[simp] theorem State.tick_ctl_pparea (s : State) (dt : Nat) : (s.tick dt).ctl.pparea = s.ctl.pparea := by
  simp only [State.tick]; split <;> rfl
@[simp] theorem State.tick_ctl_ppcount (s : State) (dt : Nat) : (s.tick dt).ctl.ppcount = s.ctl.ppcount := by
  simp only [State.tick]; split <;> rfl
@[simp] theorem State.tick_ctl_areas (s : State) (dt : Nat) : (s.tick dt).ctl.areas = s.ctl.areas := by
  simp only [State.tick]; split <;> rfl
@[simp] theorem State.tick_ctl_pwins (s : State) (dt : Nat) : (s.tick dt).ctl.pwins = s.ctl.pwins := by
  simp only [State.tick]; split <;> rfl
@[simp] theorem State.tick_ctl_regions (s : State) (dt : Nat) : (s.tick dt).ctl.regions = s.ctl.regions := by
  simp only [State.tick]; split <;> rfl
@[simp] theorem State.tick_ctl_ringSeq (s : State) (dt : Nat) : (s.tick dt).ctl.ringSeq = s.ctl.ringSeq := by
  simp only [State.tick]; split <;> rfl
@[simp] theorem State.tick_ctl_pwrcap (s : State) (dt : Nat) : (s.tick dt).ctl.pwrcap = s.ctl.pwrcap := by
  simp only [State.tick]; split <;> rfl
@[simp] theorem State.tick_ctl_level (s : State) (dt : Nat) : (s.tick dt).ctl.level = s.ctl.level := by
  simp only [State.tick]; split <;> rfl
@[simp] theorem State.tick_ctl_withdrawAsked (s : State) (dt : Nat) : (s.tick dt).ctl.withdrawAsked = s.ctl.withdrawAsked := by
  simp only [State.tick]; split <;> rfl
@[simp] theorem State.tick_ctl_attnonce (s : State) (dt : Nat) : (s.tick dt).ctl.attnonce = s.ctl.attnonce := by
  simp only [State.tick]; split <;> rfl
@[simp] theorem State.tick_ctl_attbuf (s : State) (dt : Nat) : (s.tick dt).ctl.attbuf = s.ctl.attbuf := by
  simp only [State.tick]; split <;> rfl
@[simp] theorem State.tick_ctl_atterr (s : State) (dt : Nat) : (s.tick dt).ctl.atterr = s.ctl.atterr := by
  simp only [State.tick]; split <;> rfl
@[simp] theorem State.tick_ctl_attbusy (s : State) (dt : Nat) : (s.tick dt).ctl.attbusy = s.ctl.attbusy := by
  simp only [State.tick]; split <;> rfl
@[simp] theorem State.tick_ctl_attlatched (s : State) (dt : Nat) : (s.tick dt).ctl.attlatched = s.ctl.attlatched := by
  simp only [State.tick]; split <;> rfl
@[simp] theorem State.tick_ctl_attindex (s : State) (dt : Nat) : (s.tick dt).ctl.attindex = s.ctl.attindex := by
  simp only [State.tick]; split <;> rfl
@[simp] theorem State.tick_ctl_alarmst (s : State) (dt : Nat) : (s.tick dt).ctl.alarmst = s.ctl.alarmst := by
  simp only [State.tick]; split <;> rfl
@[simp] theorem State.tick_ctl_alarmcfg (s : State) (dt : Nat) : (s.tick dt).ctl.alarmcfg = s.ctl.alarmcfg := by
  simp only [State.tick]; split <;> rfl
@[simp] theorem State.tick_ctl_modst (s : State) (dt : Nat) : (s.tick dt).ctl.modst = s.ctl.modst := by
  simp only [State.tick]; split <;> rfl
@[simp] theorem State.tick_ctl_cfgerr (s : State) (dt : Nat) : (s.tick dt).ctl.cfgerr = s.ctl.cfgerr := by
  simp only [State.tick]; split <;> rfl
@[simp] theorem State.tick_ctl_nrcnt (s : State) (dt : Nat) : (s.tick dt).ctl.nrcnt = s.ctl.nrcnt := by
  simp only [State.tick]; split <;> rfl
@[simp] theorem State.tick_ctl_meas (s : State) (dt : Nat) : (s.tick dt).ctl.meas = s.ctl.meas := by
  simp only [State.tick]; split <;> rfl
@[simp] theorem State.tick_ctl_flash (s : State) (dt : Nat) : (s.tick dt).ctl.flash = s.ctl.flash := by
  simp only [State.tick]; split <;> rfl
@[simp] theorem State.tick_ctl_hostPorts (s : State) (dt : Nat) : (s.tick dt).ctl.hostPorts = s.ctl.hostPorts := by
  simp only [State.tick]; split <;> rfl
@[simp] theorem State.tick_ctl_poolUp (s : State) (dt : Nat) : (s.tick dt).ctl.poolUp = s.ctl.poolUp := by
  simp only [State.tick]; split <;> rfl
@[simp] theorem State.tick_ctl_peerUp (s : State) (dt : Nat) : (s.tick dt).ctl.peerUp = s.ctl.peerUp := by
  simp only [State.tick]; split <;> rfl
@[simp] theorem State.tick_ctl_lanesLost (s : State) (dt : Nat) : (s.tick dt).ctl.lanesLost = s.ctl.lanesLost := by
  simp only [State.tick]; split <;> rfl

/-! ## `Warp.modReg` -/

@[simp] theorem Warp.modReg_group (v : Warp) (r : Nat) (f : Reg → Reg) : (v.modReg r f).group = v.group := rfl
@[simp] theorem Warp.modReg_index (v : Warp) (r : Nat) (f : Reg → Reg) : (v.modReg r f).index = v.index := rfl
@[simp] theorem Warp.modReg_core (v : Warp) (r : Nat) (f : Reg → Reg) : (v.modReg r f).core = v.core := rfl
@[simp] theorem Warp.modReg_pos (v : Warp) (r : Nat) (f : Reg → Reg) : (v.modReg r f).pos = v.pos := rfl
@[simp] theorem Warp.modReg_loc (v : Warp) (r : Nat) (f : Reg → Reg) : (v.modReg r f).loc = v.loc := rfl
@[simp] theorem Warp.modReg_half (v : Warp) (r : Nat) (f : Reg → Reg) : (v.modReg r f).half = v.half := rfl
@[simp] theorem Warp.modReg_slot (v : Warp) (r : Nat) (f : Reg → Reg) : (v.modReg r f).slot = v.slot := rfl
@[simp] theorem Warp.modReg_area (v : Warp) (r : Nat) (f : Reg → Reg) : (v.modReg r f).area = v.area := rfl
@[simp] theorem Warp.modReg_exited (v : Warp) (r : Nat) (f : Reg → Reg) : (v.modReg r f).exited = v.exited := rfl
@[simp] theorem Warp.modReg_active (v : Warp) (r : Nat) (f : Reg → Reg) : (v.modReg r f).active = v.active := rfl
@[simp] theorem Warp.modReg_readySince (v : Warp) (r : Nat) (f : Reg → Reg) : (v.modReg r f).readySince = v.readySince := rfl
@[simp] theorem Warp.modReg_preds (v : Warp) (r : Nat) (f : Reg → Reg) : (v.modReg r f).preds = v.preds := rfl
@[simp] theorem Warp.modReg_pc (v : Warp) (r : Nat) (f : Reg → Reg) : (v.modReg r f).pc = v.pc := rfl
@[simp] theorem Warp.modReg_mask (v : Warp) (r : Nat) (f : Reg → Reg) : (v.modReg r f).mask = v.mask := rfl
@[simp] theorem Warp.modReg_join (v : Warp) (r : Nat) (f : Reg → Reg) : (v.modReg r f).join = v.join := rfl
@[simp] theorem Warp.modReg_pid (v : Warp) (r : Nat) (f : Reg → Reg) : (v.modReg r f).pid = v.pid := rfl
@[simp] theorem Warp.modReg_dstack (v : Warp) (r : Nat) (f : Reg → Reg) : (v.modReg r f).dstack = v.dstack := rfl
@[simp] theorem Warp.modReg_cstack (v : Warp) (r : Nat) (f : Reg → Reg) : (v.modReg r f).cstack = v.cstack := rfl
@[simp] theorem Warp.modReg_badArea (v : Warp) (r : Nat) (f : Reg → Reg) : (v.modReg r f).badArea = v.badArea := rfl
@[simp] theorem Warp.modReg_badStpc (v : Warp) (r : Nat) (f : Reg → Reg) : (v.modReg r f).badStpc = v.badStpc := rfl
@[simp] theorem Warp.modReg_rep (v : Warp) (r : Nat) (f : Reg → Reg) : (v.modReg r f).rep = v.rep := rfl
@[simp] theorem Warp.modReg_repAside (v : Warp) (r : Nat) (f : Reg → Reg) : (v.modReg r f).repAside = v.repAside := rfl
@[simp] theorem Warp.modReg_fairCount (v : Warp) (r : Nat) (f : Reg → Reg) : (v.modReg r f).fairCount = v.fairCount := rfl
@[simp] theorem Warp.modReg_lrCount (v : Warp) (r : Nat) (f : Reg → Reg) : (v.modReg r f).lrCount = v.lrCount := rfl
@[simp] theorem Warp.modReg_syncs (v : Warp) (r : Nat) (f : Reg → Reg) : (v.modReg r f).syncs = v.syncs := rfl
@[simp] theorem Warp.modReg_mode (v : Warp) (r : Nat) (f : Reg → Reg) : (v.modReg r f).mode = v.mode := rfl
@[simp] theorem Warp.modReg_modeDue (v : Warp) (r : Nat) (f : Reg → Reg) : (v.modReg r f).modeDue = v.modeDue := rfl
@[simp] theorem Warp.modReg_fpfl (v : Warp) (r : Nat) (f : Reg → Reg) : (v.modReg r f).fpfl = v.fpfl := rfl
@[simp] theorem Warp.modReg_flagQ (v : Warp) (r : Nat) (f : Reg → Reg) : (v.modReg r f).flagQ = v.flagQ := rfl
@[simp] theorem Warp.modReg_board (v : Warp) (r : Nat) (f : Reg → Reg) : (v.modReg r f).board = v.board := rfl
@[simp] theorem Warp.modReg_modw (v : Warp) (r : Nat) (f : Reg → Reg) : (v.modReg r f).modw = v.modw := rfl
@[simp] theorem Warp.modReg_trapBase (v : Warp) (r : Nat) (f : Reg → Reg) : (v.modReg r f).trapBase = v.trapBase := rfl
@[simp] theorem Warp.modReg_tableBase (v : Warp) (r : Nat) (f : Reg → Reg) : (v.modReg r f).tableBase = v.tableBase := rfl
@[simp] theorem Warp.modReg_dstkBase (v : Warp) (r : Nat) (f : Reg → Reg) : (v.modReg r f).dstkBase = v.dstkBase := rfl
@[simp] theorem Warp.modReg_stepCtl (v : Warp) (r : Nat) (f : Reg → Reg) : (v.modReg r f).stepCtl = v.stepCtl := rfl
@[simp] theorem Warp.modReg_stepArmed (v : Warp) (r : Nat) (f : Reg → Reg) : (v.modReg r f).stepArmed = v.stepArmed := rfl
@[simp] theorem Warp.modReg_handler (v : Warp) (r : Nat) (f : Reg → Reg) : (v.modReg r f).handler = v.handler := rfl
@[simp] theorem Warp.modReg_trap (v : Warp) (r : Nat) (f : Reg → Reg) : (v.modReg r f).trap = v.trap := rfl
@[simp] theorem Warp.modReg_opened (v : Warp) (r : Nat) (f : Reg → Reg) : (v.modReg r f).opened = v.opened := rfl
@[simp] theorem Warp.modReg_held (v : Warp) (r : Nat) (f : Reg → Reg) : (v.modReg r f).held = v.held := rfl
@[simp] theorem Warp.modReg_escalating (v : Warp) (r : Nat) (f : Reg → Reg) : (v.modReg r f).escalating = v.escalating := rfl
@[simp] theorem Warp.modReg_phase (v : Warp) (r : Nat) (f : Reg → Reg) : (v.modReg r f).phase = v.phase := rfl
@[simp] theorem Warp.modReg_wissue (v : Warp) (r : Nat) (f : Reg → Reg) : (v.modReg r f).wissue = v.wissue := rfl
@[simp] theorem Warp.modReg_wparcel (v : Warp) (r : Nat) (f : Reg → Reg) : (v.modReg r f).wparcel = v.wparcel := rfl
@[simp] theorem Warp.modReg_wevict (v : Warp) (r : Nat) (f : Reg → Reg) : (v.modReg r f).wevict = v.wevict := rfl
@[simp] theorem Warp.modReg_wswap (v : Warp) (r : Nat) (f : Reg → Reg) : (v.modReg r f).wswap = v.wswap := rfl
@[simp] theorem Warp.modReg_strands (v : Warp) (r : Nat) (f : Reg → Reg) : (v.modReg r f).strands = v.strands := rfl
@[simp] theorem Warp.modReg_bcasts (v : Warp) (r : Nat) (f : Reg → Reg) : (v.modReg r f).bcasts = v.bcasts := rfl
@[simp] theorem Warp.modReg_eng (v : Warp) (r : Nat) (f : Reg → Reg) : (v.modReg r f).eng = v.eng := rfl
@[simp] theorem Warp.modReg_matx (v : Warp) (r : Nat) (f : Reg → Reg) : (v.modReg r f).matx = v.matx := rfl
@[simp] theorem Warp.modReg_fails (v : Warp) (r : Nat) (f : Reg → Reg) : (v.modReg r f).fails = v.fails := rfl
@[simp] theorem Warp.modReg_wait (v : Warp) (r : Nat) (f : Reg → Reg) : (v.modReg r f).wait = v.wait := rfl
@[simp] theorem Warp.modReg_begun (v : Warp) (r : Nat) (f : Reg → Reg) : (v.modReg r f).begun = v.begun := rfl
@[simp] theorem Warp.modReg_begunAside (v : Warp) (r : Nat) (f : Reg → Reg) : (v.modReg r f).begunAside = v.begunAside := rfl
@[simp] theorem Warp.modReg_watch (v : Warp) (r : Nat) (f : Reg → Reg) : (v.modReg r f).watch = v.watch := rfl
@[simp] theorem Warp.modReg_mwait (v : Warp) (r : Nat) (f : Reg → Reg) : (v.modReg r f).mwait = v.mwait := rfl
@[simp] theorem Warp.modReg_lwaitAt (v : Warp) (r : Nat) (f : Reg → Reg) : (v.modReg r f).lwaitAt = v.lwaitAt := rfl
@[simp] theorem Warp.modReg_lwaitFor (v : Warp) (r : Nat) (f : Reg → Reg) : (v.modReg r f).lwaitFor = v.lwaitFor := rfl
@[simp] theorem Warp.modReg_exits (v : Warp) (r : Nat) (f : Reg → Reg) : (v.modReg r f).exits = v.exits := rfl
@[simp] theorem Warp.modReg_early (v : Warp) (r : Nat) (f : Reg → Reg) : (v.modReg r f).early = v.early := rfl
@[simp] theorem Warp.modReg_acqEarly (v : Warp) (r : Nat) (f : Reg → Reg) : (v.modReg r f).acqEarly = v.acqEarly := rfl
@[simp] theorem Warp.modReg_lostWrite (v : Warp) (r : Nat) (f : Reg → Reg) : (v.modReg r f).lostWrite = v.lostWrite := rfl
@[simp] theorem Warp.modReg_graph (v : Warp) (r : Nat) (f : Reg → Reg) : (v.modReg r f).graph = v.graph := rfl
@[simp] theorem Warp.modReg_barPhase (v : Warp) (r : Nat) (f : Reg → Reg) : (v.modReg r f).barPhase = v.barPhase := rfl
@[simp] theorem Warp.modReg_resvFrom (v : Warp) (r : Nat) (f : Reg → Reg) : (v.modReg r f).resvFrom = v.resvFrom := rfl
@[simp] theorem Warp.modReg_acqIds (v : Warp) (r : Nat) (f : Reg → Reg) : (v.modReg r f).acqIds = v.acqIds := rfl
@[simp] theorem Warp.modReg_resumeAt (v : Warp) (r : Nat) (f : Reg → Reg) : (v.modReg r f).resumeAt = v.resumeAt := rfl
@[simp] theorem Warp.modReg_resumed (v : Warp) (r : Nat) (f : Reg → Reg) : (v.modReg r f).resumed = v.resumed := rfl
@[simp] theorem Warp.modReg_age (v : Warp) (r : Nat) (f : Reg → Reg) : (v.modReg r f).age = v.age := rfl
@[simp] theorem Warp.modReg_flowLost (v : Warp) (r : Nat) (f : Reg → Reg) : (v.modReg r f).flowLost = v.flowLost := rfl

/-! ## `Warp.modPred` -/

@[simp] theorem Warp.modPred_group (v : Warp) (p : Nat) (f : PReg → PReg) : (v.modPred p f).group = v.group := rfl
@[simp] theorem Warp.modPred_index (v : Warp) (p : Nat) (f : PReg → PReg) : (v.modPred p f).index = v.index := rfl
@[simp] theorem Warp.modPred_core (v : Warp) (p : Nat) (f : PReg → PReg) : (v.modPred p f).core = v.core := rfl
@[simp] theorem Warp.modPred_pos (v : Warp) (p : Nat) (f : PReg → PReg) : (v.modPred p f).pos = v.pos := rfl
@[simp] theorem Warp.modPred_loc (v : Warp) (p : Nat) (f : PReg → PReg) : (v.modPred p f).loc = v.loc := rfl
@[simp] theorem Warp.modPred_half (v : Warp) (p : Nat) (f : PReg → PReg) : (v.modPred p f).half = v.half := rfl
@[simp] theorem Warp.modPred_slot (v : Warp) (p : Nat) (f : PReg → PReg) : (v.modPred p f).slot = v.slot := rfl
@[simp] theorem Warp.modPred_area (v : Warp) (p : Nat) (f : PReg → PReg) : (v.modPred p f).area = v.area := rfl
@[simp] theorem Warp.modPred_exited (v : Warp) (p : Nat) (f : PReg → PReg) : (v.modPred p f).exited = v.exited := rfl
@[simp] theorem Warp.modPred_active (v : Warp) (p : Nat) (f : PReg → PReg) : (v.modPred p f).active = v.active := rfl
@[simp] theorem Warp.modPred_readySince (v : Warp) (p : Nat) (f : PReg → PReg) : (v.modPred p f).readySince = v.readySince := rfl
@[simp] theorem Warp.modPred_regs (v : Warp) (p : Nat) (f : PReg → PReg) : (v.modPred p f).regs = v.regs := rfl
@[simp] theorem Warp.modPred_pc (v : Warp) (p : Nat) (f : PReg → PReg) : (v.modPred p f).pc = v.pc := rfl
@[simp] theorem Warp.modPred_mask (v : Warp) (p : Nat) (f : PReg → PReg) : (v.modPred p f).mask = v.mask := rfl
@[simp] theorem Warp.modPred_join (v : Warp) (p : Nat) (f : PReg → PReg) : (v.modPred p f).join = v.join := rfl
@[simp] theorem Warp.modPred_pid (v : Warp) (p : Nat) (f : PReg → PReg) : (v.modPred p f).pid = v.pid := rfl
@[simp] theorem Warp.modPred_dstack (v : Warp) (p : Nat) (f : PReg → PReg) : (v.modPred p f).dstack = v.dstack := rfl
@[simp] theorem Warp.modPred_cstack (v : Warp) (p : Nat) (f : PReg → PReg) : (v.modPred p f).cstack = v.cstack := rfl
@[simp] theorem Warp.modPred_badArea (v : Warp) (p : Nat) (f : PReg → PReg) : (v.modPred p f).badArea = v.badArea := rfl
@[simp] theorem Warp.modPred_badStpc (v : Warp) (p : Nat) (f : PReg → PReg) : (v.modPred p f).badStpc = v.badStpc := rfl
@[simp] theorem Warp.modPred_rep (v : Warp) (p : Nat) (f : PReg → PReg) : (v.modPred p f).rep = v.rep := rfl
@[simp] theorem Warp.modPred_repAside (v : Warp) (p : Nat) (f : PReg → PReg) : (v.modPred p f).repAside = v.repAside := rfl
@[simp] theorem Warp.modPred_fairCount (v : Warp) (p : Nat) (f : PReg → PReg) : (v.modPred p f).fairCount = v.fairCount := rfl
@[simp] theorem Warp.modPred_lrCount (v : Warp) (p : Nat) (f : PReg → PReg) : (v.modPred p f).lrCount = v.lrCount := rfl
@[simp] theorem Warp.modPred_syncs (v : Warp) (p : Nat) (f : PReg → PReg) : (v.modPred p f).syncs = v.syncs := rfl
@[simp] theorem Warp.modPred_mode (v : Warp) (p : Nat) (f : PReg → PReg) : (v.modPred p f).mode = v.mode := rfl
@[simp] theorem Warp.modPred_modeDue (v : Warp) (p : Nat) (f : PReg → PReg) : (v.modPred p f).modeDue = v.modeDue := rfl
@[simp] theorem Warp.modPred_fpfl (v : Warp) (p : Nat) (f : PReg → PReg) : (v.modPred p f).fpfl = v.fpfl := rfl
@[simp] theorem Warp.modPred_flagQ (v : Warp) (p : Nat) (f : PReg → PReg) : (v.modPred p f).flagQ = v.flagQ := rfl
@[simp] theorem Warp.modPred_board (v : Warp) (p : Nat) (f : PReg → PReg) : (v.modPred p f).board = v.board := rfl
@[simp] theorem Warp.modPred_modw (v : Warp) (p : Nat) (f : PReg → PReg) : (v.modPred p f).modw = v.modw := rfl
@[simp] theorem Warp.modPred_trapBase (v : Warp) (p : Nat) (f : PReg → PReg) : (v.modPred p f).trapBase = v.trapBase := rfl
@[simp] theorem Warp.modPred_tableBase (v : Warp) (p : Nat) (f : PReg → PReg) : (v.modPred p f).tableBase = v.tableBase := rfl
@[simp] theorem Warp.modPred_dstkBase (v : Warp) (p : Nat) (f : PReg → PReg) : (v.modPred p f).dstkBase = v.dstkBase := rfl
@[simp] theorem Warp.modPred_stepCtl (v : Warp) (p : Nat) (f : PReg → PReg) : (v.modPred p f).stepCtl = v.stepCtl := rfl
@[simp] theorem Warp.modPred_stepArmed (v : Warp) (p : Nat) (f : PReg → PReg) : (v.modPred p f).stepArmed = v.stepArmed := rfl
@[simp] theorem Warp.modPred_handler (v : Warp) (p : Nat) (f : PReg → PReg) : (v.modPred p f).handler = v.handler := rfl
@[simp] theorem Warp.modPred_trap (v : Warp) (p : Nat) (f : PReg → PReg) : (v.modPred p f).trap = v.trap := rfl
@[simp] theorem Warp.modPred_opened (v : Warp) (p : Nat) (f : PReg → PReg) : (v.modPred p f).opened = v.opened := rfl
@[simp] theorem Warp.modPred_held (v : Warp) (p : Nat) (f : PReg → PReg) : (v.modPred p f).held = v.held := rfl
@[simp] theorem Warp.modPred_escalating (v : Warp) (p : Nat) (f : PReg → PReg) : (v.modPred p f).escalating = v.escalating := rfl
@[simp] theorem Warp.modPred_phase (v : Warp) (p : Nat) (f : PReg → PReg) : (v.modPred p f).phase = v.phase := rfl
@[simp] theorem Warp.modPred_wissue (v : Warp) (p : Nat) (f : PReg → PReg) : (v.modPred p f).wissue = v.wissue := rfl
@[simp] theorem Warp.modPred_wparcel (v : Warp) (p : Nat) (f : PReg → PReg) : (v.modPred p f).wparcel = v.wparcel := rfl
@[simp] theorem Warp.modPred_wevict (v : Warp) (p : Nat) (f : PReg → PReg) : (v.modPred p f).wevict = v.wevict := rfl
@[simp] theorem Warp.modPred_wswap (v : Warp) (p : Nat) (f : PReg → PReg) : (v.modPred p f).wswap = v.wswap := rfl
@[simp] theorem Warp.modPred_strands (v : Warp) (p : Nat) (f : PReg → PReg) : (v.modPred p f).strands = v.strands := rfl
@[simp] theorem Warp.modPred_bcasts (v : Warp) (p : Nat) (f : PReg → PReg) : (v.modPred p f).bcasts = v.bcasts := rfl
@[simp] theorem Warp.modPred_eng (v : Warp) (p : Nat) (f : PReg → PReg) : (v.modPred p f).eng = v.eng := rfl
@[simp] theorem Warp.modPred_matx (v : Warp) (p : Nat) (f : PReg → PReg) : (v.modPred p f).matx = v.matx := rfl
@[simp] theorem Warp.modPred_fails (v : Warp) (p : Nat) (f : PReg → PReg) : (v.modPred p f).fails = v.fails := rfl
@[simp] theorem Warp.modPred_wait (v : Warp) (p : Nat) (f : PReg → PReg) : (v.modPred p f).wait = v.wait := rfl
@[simp] theorem Warp.modPred_begun (v : Warp) (p : Nat) (f : PReg → PReg) : (v.modPred p f).begun = v.begun := rfl
@[simp] theorem Warp.modPred_begunAside (v : Warp) (p : Nat) (f : PReg → PReg) : (v.modPred p f).begunAside = v.begunAside := rfl
@[simp] theorem Warp.modPred_watch (v : Warp) (p : Nat) (f : PReg → PReg) : (v.modPred p f).watch = v.watch := rfl
@[simp] theorem Warp.modPred_mwait (v : Warp) (p : Nat) (f : PReg → PReg) : (v.modPred p f).mwait = v.mwait := rfl
@[simp] theorem Warp.modPred_lwaitAt (v : Warp) (p : Nat) (f : PReg → PReg) : (v.modPred p f).lwaitAt = v.lwaitAt := rfl
@[simp] theorem Warp.modPred_lwaitFor (v : Warp) (p : Nat) (f : PReg → PReg) : (v.modPred p f).lwaitFor = v.lwaitFor := rfl
@[simp] theorem Warp.modPred_exits (v : Warp) (p : Nat) (f : PReg → PReg) : (v.modPred p f).exits = v.exits := rfl
@[simp] theorem Warp.modPred_early (v : Warp) (p : Nat) (f : PReg → PReg) : (v.modPred p f).early = v.early := rfl
@[simp] theorem Warp.modPred_acqEarly (v : Warp) (p : Nat) (f : PReg → PReg) : (v.modPred p f).acqEarly = v.acqEarly := rfl
@[simp] theorem Warp.modPred_lostWrite (v : Warp) (p : Nat) (f : PReg → PReg) : (v.modPred p f).lostWrite = v.lostWrite := rfl
@[simp] theorem Warp.modPred_graph (v : Warp) (p : Nat) (f : PReg → PReg) : (v.modPred p f).graph = v.graph := rfl
@[simp] theorem Warp.modPred_barPhase (v : Warp) (p : Nat) (f : PReg → PReg) : (v.modPred p f).barPhase = v.barPhase := rfl
@[simp] theorem Warp.modPred_resvFrom (v : Warp) (p : Nat) (f : PReg → PReg) : (v.modPred p f).resvFrom = v.resvFrom := rfl
@[simp] theorem Warp.modPred_acqIds (v : Warp) (p : Nat) (f : PReg → PReg) : (v.modPred p f).acqIds = v.acqIds := rfl
@[simp] theorem Warp.modPred_resumeAt (v : Warp) (p : Nat) (f : PReg → PReg) : (v.modPred p f).resumeAt = v.resumeAt := rfl
@[simp] theorem Warp.modPred_resumed (v : Warp) (p : Nat) (f : PReg → PReg) : (v.modPred p f).resumed = v.resumed := rfl
@[simp] theorem Warp.modPred_age (v : Warp) (p : Nat) (f : PReg → PReg) : (v.modPred p f).age = v.age := rfl
@[simp] theorem Warp.modPred_flowLost (v : Warp) (p : Nat) (f : PReg → PReg) : (v.modPred p f).flowLost = v.flowLost := rfl

/-! ## `Warp.modStrand` -/

@[simp] theorem Warp.modStrand_group (v : Warp) (k : Nat) (f : Strand → Strand) : (v.modStrand k f).group = v.group := rfl
@[simp] theorem Warp.modStrand_index (v : Warp) (k : Nat) (f : Strand → Strand) : (v.modStrand k f).index = v.index := rfl
@[simp] theorem Warp.modStrand_core (v : Warp) (k : Nat) (f : Strand → Strand) : (v.modStrand k f).core = v.core := rfl
@[simp] theorem Warp.modStrand_pos (v : Warp) (k : Nat) (f : Strand → Strand) : (v.modStrand k f).pos = v.pos := rfl
@[simp] theorem Warp.modStrand_loc (v : Warp) (k : Nat) (f : Strand → Strand) : (v.modStrand k f).loc = v.loc := rfl
@[simp] theorem Warp.modStrand_half (v : Warp) (k : Nat) (f : Strand → Strand) : (v.modStrand k f).half = v.half := rfl
@[simp] theorem Warp.modStrand_slot (v : Warp) (k : Nat) (f : Strand → Strand) : (v.modStrand k f).slot = v.slot := rfl
@[simp] theorem Warp.modStrand_area (v : Warp) (k : Nat) (f : Strand → Strand) : (v.modStrand k f).area = v.area := rfl
@[simp] theorem Warp.modStrand_exited (v : Warp) (k : Nat) (f : Strand → Strand) : (v.modStrand k f).exited = v.exited := rfl
@[simp] theorem Warp.modStrand_active (v : Warp) (k : Nat) (f : Strand → Strand) : (v.modStrand k f).active = v.active := rfl
@[simp] theorem Warp.modStrand_readySince (v : Warp) (k : Nat) (f : Strand → Strand) : (v.modStrand k f).readySince = v.readySince := rfl
@[simp] theorem Warp.modStrand_regs (v : Warp) (k : Nat) (f : Strand → Strand) : (v.modStrand k f).regs = v.regs := rfl
@[simp] theorem Warp.modStrand_preds (v : Warp) (k : Nat) (f : Strand → Strand) : (v.modStrand k f).preds = v.preds := rfl
@[simp] theorem Warp.modStrand_pc (v : Warp) (k : Nat) (f : Strand → Strand) : (v.modStrand k f).pc = v.pc := rfl
@[simp] theorem Warp.modStrand_mask (v : Warp) (k : Nat) (f : Strand → Strand) : (v.modStrand k f).mask = v.mask := rfl
@[simp] theorem Warp.modStrand_join (v : Warp) (k : Nat) (f : Strand → Strand) : (v.modStrand k f).join = v.join := rfl
@[simp] theorem Warp.modStrand_pid (v : Warp) (k : Nat) (f : Strand → Strand) : (v.modStrand k f).pid = v.pid := rfl
@[simp] theorem Warp.modStrand_dstack (v : Warp) (k : Nat) (f : Strand → Strand) : (v.modStrand k f).dstack = v.dstack := rfl
@[simp] theorem Warp.modStrand_cstack (v : Warp) (k : Nat) (f : Strand → Strand) : (v.modStrand k f).cstack = v.cstack := rfl
@[simp] theorem Warp.modStrand_badArea (v : Warp) (k : Nat) (f : Strand → Strand) : (v.modStrand k f).badArea = v.badArea := rfl
@[simp] theorem Warp.modStrand_badStpc (v : Warp) (k : Nat) (f : Strand → Strand) : (v.modStrand k f).badStpc = v.badStpc := rfl
@[simp] theorem Warp.modStrand_rep (v : Warp) (k : Nat) (f : Strand → Strand) : (v.modStrand k f).rep = v.rep := rfl
@[simp] theorem Warp.modStrand_repAside (v : Warp) (k : Nat) (f : Strand → Strand) : (v.modStrand k f).repAside = v.repAside := rfl
@[simp] theorem Warp.modStrand_fairCount (v : Warp) (k : Nat) (f : Strand → Strand) : (v.modStrand k f).fairCount = v.fairCount := rfl
@[simp] theorem Warp.modStrand_lrCount (v : Warp) (k : Nat) (f : Strand → Strand) : (v.modStrand k f).lrCount = v.lrCount := rfl
@[simp] theorem Warp.modStrand_syncs (v : Warp) (k : Nat) (f : Strand → Strand) : (v.modStrand k f).syncs = v.syncs := rfl
@[simp] theorem Warp.modStrand_mode (v : Warp) (k : Nat) (f : Strand → Strand) : (v.modStrand k f).mode = v.mode := rfl
@[simp] theorem Warp.modStrand_modeDue (v : Warp) (k : Nat) (f : Strand → Strand) : (v.modStrand k f).modeDue = v.modeDue := rfl
@[simp] theorem Warp.modStrand_fpfl (v : Warp) (k : Nat) (f : Strand → Strand) : (v.modStrand k f).fpfl = v.fpfl := rfl
@[simp] theorem Warp.modStrand_flagQ (v : Warp) (k : Nat) (f : Strand → Strand) : (v.modStrand k f).flagQ = v.flagQ := rfl
@[simp] theorem Warp.modStrand_board (v : Warp) (k : Nat) (f : Strand → Strand) : (v.modStrand k f).board = v.board := rfl
@[simp] theorem Warp.modStrand_modw (v : Warp) (k : Nat) (f : Strand → Strand) : (v.modStrand k f).modw = v.modw := rfl
@[simp] theorem Warp.modStrand_trapBase (v : Warp) (k : Nat) (f : Strand → Strand) : (v.modStrand k f).trapBase = v.trapBase := rfl
@[simp] theorem Warp.modStrand_tableBase (v : Warp) (k : Nat) (f : Strand → Strand) : (v.modStrand k f).tableBase = v.tableBase := rfl
@[simp] theorem Warp.modStrand_dstkBase (v : Warp) (k : Nat) (f : Strand → Strand) : (v.modStrand k f).dstkBase = v.dstkBase := rfl
@[simp] theorem Warp.modStrand_stepCtl (v : Warp) (k : Nat) (f : Strand → Strand) : (v.modStrand k f).stepCtl = v.stepCtl := rfl
@[simp] theorem Warp.modStrand_stepArmed (v : Warp) (k : Nat) (f : Strand → Strand) : (v.modStrand k f).stepArmed = v.stepArmed := rfl
@[simp] theorem Warp.modStrand_handler (v : Warp) (k : Nat) (f : Strand → Strand) : (v.modStrand k f).handler = v.handler := rfl
@[simp] theorem Warp.modStrand_trap (v : Warp) (k : Nat) (f : Strand → Strand) : (v.modStrand k f).trap = v.trap := rfl
@[simp] theorem Warp.modStrand_opened (v : Warp) (k : Nat) (f : Strand → Strand) : (v.modStrand k f).opened = v.opened := rfl
@[simp] theorem Warp.modStrand_held (v : Warp) (k : Nat) (f : Strand → Strand) : (v.modStrand k f).held = v.held := rfl
@[simp] theorem Warp.modStrand_escalating (v : Warp) (k : Nat) (f : Strand → Strand) : (v.modStrand k f).escalating = v.escalating := rfl
@[simp] theorem Warp.modStrand_phase (v : Warp) (k : Nat) (f : Strand → Strand) : (v.modStrand k f).phase = v.phase := rfl
@[simp] theorem Warp.modStrand_wissue (v : Warp) (k : Nat) (f : Strand → Strand) : (v.modStrand k f).wissue = v.wissue := rfl
@[simp] theorem Warp.modStrand_wparcel (v : Warp) (k : Nat) (f : Strand → Strand) : (v.modStrand k f).wparcel = v.wparcel := rfl
@[simp] theorem Warp.modStrand_wevict (v : Warp) (k : Nat) (f : Strand → Strand) : (v.modStrand k f).wevict = v.wevict := rfl
@[simp] theorem Warp.modStrand_wswap (v : Warp) (k : Nat) (f : Strand → Strand) : (v.modStrand k f).wswap = v.wswap := rfl
@[simp] theorem Warp.modStrand_bcasts (v : Warp) (k : Nat) (f : Strand → Strand) : (v.modStrand k f).bcasts = v.bcasts := rfl
@[simp] theorem Warp.modStrand_eng (v : Warp) (k : Nat) (f : Strand → Strand) : (v.modStrand k f).eng = v.eng := rfl
@[simp] theorem Warp.modStrand_matx (v : Warp) (k : Nat) (f : Strand → Strand) : (v.modStrand k f).matx = v.matx := rfl
@[simp] theorem Warp.modStrand_fails (v : Warp) (k : Nat) (f : Strand → Strand) : (v.modStrand k f).fails = v.fails := rfl
@[simp] theorem Warp.modStrand_wait (v : Warp) (k : Nat) (f : Strand → Strand) : (v.modStrand k f).wait = v.wait := rfl
@[simp] theorem Warp.modStrand_begun (v : Warp) (k : Nat) (f : Strand → Strand) : (v.modStrand k f).begun = v.begun := rfl
@[simp] theorem Warp.modStrand_begunAside (v : Warp) (k : Nat) (f : Strand → Strand) : (v.modStrand k f).begunAside = v.begunAside := rfl
@[simp] theorem Warp.modStrand_watch (v : Warp) (k : Nat) (f : Strand → Strand) : (v.modStrand k f).watch = v.watch := rfl
@[simp] theorem Warp.modStrand_mwait (v : Warp) (k : Nat) (f : Strand → Strand) : (v.modStrand k f).mwait = v.mwait := rfl
@[simp] theorem Warp.modStrand_lwaitAt (v : Warp) (k : Nat) (f : Strand → Strand) : (v.modStrand k f).lwaitAt = v.lwaitAt := rfl
@[simp] theorem Warp.modStrand_lwaitFor (v : Warp) (k : Nat) (f : Strand → Strand) : (v.modStrand k f).lwaitFor = v.lwaitFor := rfl
@[simp] theorem Warp.modStrand_exits (v : Warp) (k : Nat) (f : Strand → Strand) : (v.modStrand k f).exits = v.exits := rfl
@[simp] theorem Warp.modStrand_early (v : Warp) (k : Nat) (f : Strand → Strand) : (v.modStrand k f).early = v.early := rfl
@[simp] theorem Warp.modStrand_acqEarly (v : Warp) (k : Nat) (f : Strand → Strand) : (v.modStrand k f).acqEarly = v.acqEarly := rfl
@[simp] theorem Warp.modStrand_lostWrite (v : Warp) (k : Nat) (f : Strand → Strand) : (v.modStrand k f).lostWrite = v.lostWrite := rfl
@[simp] theorem Warp.modStrand_graph (v : Warp) (k : Nat) (f : Strand → Strand) : (v.modStrand k f).graph = v.graph := rfl
@[simp] theorem Warp.modStrand_barPhase (v : Warp) (k : Nat) (f : Strand → Strand) : (v.modStrand k f).barPhase = v.barPhase := rfl
@[simp] theorem Warp.modStrand_resvFrom (v : Warp) (k : Nat) (f : Strand → Strand) : (v.modStrand k f).resvFrom = v.resvFrom := rfl
@[simp] theorem Warp.modStrand_acqIds (v : Warp) (k : Nat) (f : Strand → Strand) : (v.modStrand k f).acqIds = v.acqIds := rfl
@[simp] theorem Warp.modStrand_resumeAt (v : Warp) (k : Nat) (f : Strand → Strand) : (v.modStrand k f).resumeAt = v.resumeAt := rfl
@[simp] theorem Warp.modStrand_resumed (v : Warp) (k : Nat) (f : Strand → Strand) : (v.modStrand k f).resumed = v.resumed := rfl
@[simp] theorem Warp.modStrand_age (v : Warp) (k : Nat) (f : Strand → Strand) : (v.modStrand k f).age = v.age := rfl
@[simp] theorem Warp.modStrand_flowLost (v : Warp) (k : Nat) (f : Strand → Strand) : (v.modStrand k f).flowLost = v.flowLost := rfl

end Sys2Proof.Machine
end

