-- ==== Sys2Proof/Laws/Access.lean ====
section
/-! SUPPORT. Reading one part of the state after another part, or the same, has changed. -/

namespace Sys2Proof

/-! ## Tables of 32, 12 and 8 values -/

theorem Lanes.at'_tab {α : Type} (f : Nat → α) (l : Nat) (h : l < 32) : (Lanes.tab f).at' l = f l := by
  unfold Lanes.at'
  rw [dif_pos h]
  interval_cases l <;> rfl

theorem Preds.at'_tab {α : Type} (d : α) (f : Nat → α) (i : Nat) :
    (Preds.tab f).at' d i = if i < 12 then f i else d := by
  unfold Preds.at'
  split
  · next h => interval_cases i <;> rfl
  · rfl

theorem Accs.at'_tab {α : Type} (d : α) (f : Nat → α) (i : Nat) :
    (Accs.tab f).at' d i = if i < 8 then f i else d := by
  unfold Accs.at'
  split
  · next h => interval_cases i <;> rfl
  · rfl

/-- A table of the values that a table holds is that table. -/
theorem Accs.tab_at' {α : Type} (d : α) (v : Accs α) : (Accs.tab fun i => v.at' d i) = v := by
  ext i h
  have := Accs.at'_tab d (fun i => v.at' d i) i
  simp only [Accs.at', h, dif_pos, if_pos] at this ⊢
  exact this

/-- Lane `l` of a mask of lanes. -/
theorem getLsbD_maskOf (f : Nat → Bool) (l : Nat) (h : l < 32) : (maskOf f).getLsbD l = f l := by
  unfold maskOf
  rw [BitVec.getLsbD_ofBoolListLE]
  interval_cases l <;> rfl

end Sys2Proof

namespace Sys2Proof.Machine

/-! ## Lists -/

theorem nth_modify_self {α : Type} (d : α) (l : List α) (i : Nat) (f : α → α) (h : i < l.length) :
    nth d (l.modify i f) i = f (nth d l i) := by
  simp [nth, h]

theorem nth_modify_ne {α : Type} (d : α) (l : List α) (i j : Nat) (f : α → α) (h : i ≠ j) :
    nth d (l.modify i f) j = nth d l j := by
  simp [nth, h]

/-! ## Warps -/

theorem State.warp_modWarp (s : State) (w : Nat) (f : Warp → Warp) (h : w < s.warps.length) :
    (s.modWarp w f).warp w = f (s.warp w) := nth_modify_self _ _ _ _ h

theorem State.warp_modWarp_ne (s : State) (w u : Nat) (f : Warp → Warp) (h : w ≠ u) :
    (s.modWarp w f).warp u = s.warp u := nth_modify_ne _ _ _ _ _ h

theorem State.me_modMe (s : State) (f : Warp → Warp) (h : s.cur.warp < s.warps.length) :
    (s.modMe f).me = f s.me := State.warp_modWarp s s.cur.warp f h

theorem State.warps_modWarp_length (s : State) (w : Nat) (f : Warp → Warp) :
    (s.modWarp w f).warps.length = s.warps.length := by simp [State.modWarp]

/-! ## Registers, predicates, strands -/

theorem Warp.reg_modReg (v : Warp) (r : Nat) (f : Reg → Reg) (h : r < v.regs.length) :
    (v.modReg r f).reg r = f (v.reg r) := nth_modify_self _ _ _ _ h

theorem Warp.reg_modReg_ne (v : Warp) (r q : Nat) (f : Reg → Reg) (h : r ≠ q) :
    (v.modReg r f).reg q = v.reg q := nth_modify_ne _ _ _ _ _ h

theorem Warp.predAt_modPred (v : Warp) (p q : Nat) (f : PReg → PReg) (h : q < 12) :
    (v.modPred p f).predAt q = if q = p then f (v.predAt q) else v.predAt q := by
  simp [Warp.modPred, Warp.predAt, Preds.at'_tab, h]

theorem Warp.predAt_far (v : Warp) (q : Nat) (h : ¬q < 12) : v.predAt q = PReg.clear := by
  simp [Warp.predAt, Preds.at', h]

theorem Warp.strand_modStrand (v : Warp) (k j : Nat) (f : Strand → Strand) (h : j < 8) :
    (v.modStrand k f).strand j = if j = k then f (v.strand j) else v.strand j := by
  simp [Warp.modStrand, Warp.strand, Accs.at'_tab, h]

theorem Warp.strand_far (v : Warp) (k : Nat) (h : ¬k < 8) : v.strand k = Strand.clear := by
  simp [Warp.strand, Accs.at', h]

/-- Lane `l` of a register after a write of the lanes of a mask (R69). -/
theorem Reg.write_val (r : Reg) (m : Mask) (f : Nat → Word) (l : Nat) (h : l < 32) :
    (r.write m f).val.at' l = if m.getLsbD l then f l else r.val.at' l := by
  simp [Reg.write, Lanes.at'_tab, h]

/-! ## Cores, groups, launches -/

theorem State.core_modCore (s : State) (c : Nat) (f : CoreSt → CoreSt) (h : c < s.cores.length) :
    (s.modCore c f).core c = f (s.core c) := nth_modify_self _ _ _ _ h

theorem State.core_modCore_ne (s : State) (c k : Nat) (f : CoreSt → CoreSt) (h : c ≠ k) :
    (s.modCore c f).core k = s.core k := nth_modify_ne _ _ _ _ _ h

theorem State.group_modGroup (s : State) (g : Nat) (f : GroupSt → GroupSt) (h : g < s.groups.length) :
    (s.modGroup g f).group g = f (s.group g) := nth_modify_self _ _ _ _ h

theorem State.group_modGroup_ne (s : State) (g k : Nat) (f : GroupSt → GroupSt) (h : g ≠ k) :
    (s.modGroup g f).group k = s.group k := nth_modify_ne _ _ _ _ _ h

end Sys2Proof.Machine
end

