-- ==== Sys2Proof/Laws/Issue.lean ====
section
/-! SUPPORT. What the issue of a long-form instruction can do: its effect when it is ready, and otherwise a wait or a
trap; what raising a trap, retiring an instruction and writing a result do (R19, R20, R69, R89, R114, R225). -/

namespace Sys2Proof.Machine

/-! ## The prologue (R114) -/

theorem find?_full (v : Warp) (l : List Nat) (h : v.allFull l = true) :
    (l.find? fun r => !(v.reg r).full) = none := by
  simp only [Warp.allFull, List.all_eq_true] at h
  simp only [List.find?_eq_none]
  intro r hr
  simp [h r hr]

theorem pendingPred_ready (v : Warp) (l : List Nat) (h : v.allReady l = true) : v.pendingPred l = none := by
  simp only [Warp.allReady, List.all_eq_true] at h
  simp only [Warp.pendingPred, List.find?_eq_none]
  intro p hp
  have := h p hp
  by_cases hq : p < 12 <;> simp_all

theorem emptySource_full (v : Warp) (u : Uses) (fe : BitVec 3) (h : v.allFull (u.list.flatMap Use.sources) = true) :
    v.emptySource u fe = none := by
  simp only [Warp.allFull, List.all_eq_true, Uses.list, List.flatMap_cons, List.flatMap_nil, List.append_nil,
    List.mem_append] at h
  simp only [Warp.emptySource, List.findSome?_eq_none_iff]
  intro x hx
  simp only [List.mem_cons, List.not_mem_nil, or_false] at hx
  rw [Option.map_eq_none_iff, List.find?_eq_none]
  intro r hr
  rcases hx with rfl | rfl | rfl | rfl <;> simp [h r (by simp [hr])]

theorem prologue_ready (s : State) (i : Instr) (e : Mask) (h : s.Ready i e) : s.prologue i = .go e := by
  obtain ⟨h, rfl⟩ := h
  simp only [State.ready, Bool.and_eq_true, decide_eq_true_eq, beq_iff_eq, Bool.not_eq_true', Option.isNone_iff_eq_none,
    List.isEmpty_iff] at h
  obtain ⟨⟨⟨⟨⟨⟨⟨⟨⟨⟨⟨h1, h2⟩, h3⟩, h4⟩, h5⟩, h6⟩, h7⟩, h8⟩, h9⟩, h10⟩, h11⟩, h12⟩ := h
  unfold State.prologue
  simp only [pendingPred_ready _ _ h3, h4, h5, h6, h7, h8, find?_full _ _ h9, emptySource_full _ _ _ h10,
    pendingPred_ready _ _ h11, h12]
  simp

/-- A ready instruction has its own effect, in the lanes of its active set. -/
theorem issue_ready (s : State) (i : Instr) (e : Mask) (k : Mask → State → State) (h : s.Ready i e) :
    s.issue i k = k e s := by
  simp [State.issue, prologue_ready s i e h]

theorem ready_warp (s : State) (i : Instr) (e : Mask) (h : s.Ready i e) : s.cur.warp < s.warps.length := by
  have := h.1
  simp only [State.ready, Bool.and_eq_true, decide_eq_true_eq] at this
  exact this.1.1.1.1.1.1.1.1.1.1.1

theorem ready_unit (s : State) (i : Instr) (e : Mask) (h : s.Ready i e) : s.cur.unit = 0 := by
  have := h.1
  simp only [State.ready, Bool.and_eq_true, beq_iff_eq] at this
  exact this.1.1.1.1.1.1.1.1.1.1.2

theorem ready_legal (s : State) (i : Instr) (e : Mask) (h : s.Ready i e) : i.legal = true := by
  have := h.1
  simp only [State.ready, Bool.and_eq_true] at this
  exact this.1.1.1.1.1.1.1.1.2

/-- The registers that an instruction writes are those of its fields, whatever the format slots hold. -/
theorem usesOf_dests (s : State) (i : Instr) : (s.usesOf i).list.flatMap Use.dests = i.uses.list.flatMap Use.dests := by
  unfold State.usesOf
  split
  · split
    · rfl
    · simp [Uses.list, Instr.uses, Use.dests]
  · rfl

theorem ready_range (s : State) (i : Instr) (e : Mask) (h : s.Ready i e) :
    ∀ u ∈ (s.usesOf i).list, ∀ r ∈ u.regs, r < s.me.regs.length := by
  have := h.1
  simp only [State.ready, Bool.and_eq_true] at this
  have := this.1.1.1.1.1.1.1.2
  simpa [Uses.inRange] using this

theorem ready_full (s : State) (i : Instr) (e : Mask) (h : s.Ready i e) :
    ∀ u ∈ (s.usesOf i).list, ∀ r ∈ u.dests, (s.me.reg r).full = true := by
  have := h.1
  simp only [State.ready, Bool.and_eq_true] at this
  have := this.1.1.1.2
  simp only [Warp.allFull, List.all_eq_true, List.mem_flatMap] at this
  exact fun u hu r hr => this r ⟨u, hu, hr⟩

end Sys2Proof.Machine
end

