-- ==== Sys2Proof/Laws/Frame.lean ====
section
/-! SUPPORT. What the operations that end an issue leave as it was: changing the executing warp, noting the issue,
raising a trap, the trap of a step, and retiring an instruction (R19, R20, R89, R176, R225, R337, R452). -/

namespace Sys2Proof.Machine

/-! ## Frames compose -/

theorem SameBytes.refl (s : State) : SameBytes s s := ⟨fun _ => rfl, fun _ _ _ => rfl⟩

theorem SameBytes.trans {s t u : State} (h : SameBytes s t) (k : SameBytes t u) : SameBytes s u :=
  ⟨fun pa => (k.global pa).trans (h.global pa), fun g p o => (k.scratch g p o).trans (h.scratch g p o)⟩

/-- Bytes are the same when memory, the homes and every group's scratch are. -/
theorem SameBytes.of_eq {s t : State} (hm : t.mem = s.mem) (hp : t.memP = s.memP) (hl : t.l2 = s.l2)
    (hg : ∀ g, (t.group g).scratch = (s.group g).scratch ∧ (t.group g).scratchP = (s.group g).scratchP) :
    SameBytes s t := by
  constructor
  · intro pa
    simp only [State.byteAt, State.homeLine, State.l2At, State.memAt, hm, hp, hl]
  · intro g p o
    simp only [State.scratchAt, GroupSt.peek, (hg g).1, (hg g).2]

theorem KeepsRest.refl (s : State) : KeepsRest s s :=
  ⟨rfl, fun _ _ => rfl, SameBytes.refl s, rfl, ⟨rfl, rfl, rfl, rfl⟩, rfl⟩

theorem KeepsRest.trans {s t u : State} (h : KeepsRest s t) (k : KeepsRest t u) : KeepsRest s u where
  cur := k.cur.trans h.cur
  warps w hw := (k.warps w (by rw [h.cur]; exact hw)).trans (h.warps w hw)
  bytes := h.bytes.trans k.bytes
  cores := k.cores.trans h.cores
  traffic := ⟨k.traffic.1.trans h.traffic.1, k.traffic.2.1.trans h.traffic.2.1,
    k.traffic.2.2.1.trans h.traffic.2.2.1, k.traffic.2.2.2.trans h.traffic.2.2.2⟩
  ctl := k.ctl.trans h.ctl

theorem KeepsWarp.refl (v : Warp) (rs ps : List Nat) : KeepsWarp v v rs ps := by
  constructor <;> simp

theorem KeepsWarp.trans {v u x : Warp} {rs ps : List Nat} (h : KeepsWarp v u rs ps) (k : KeepsWarp u x rs ps) :
    KeepsWarp v x rs ps where
  regs r hr := (k.regs r hr).trans (h.regs r hr)
  preds p hp := (k.preds p hp).trans (h.preds p hp)
  count := k.count.trans h.count
  path := ⟨k.path.1.trans h.path.1, k.path.2.1.trans h.path.2.1, k.path.2.2.trans h.path.2.2⟩
  saved := ⟨k.saved.1.trans h.saved.1, k.saved.2.trans h.saved.2⟩
  special := ⟨k.special.1.trans h.special.1, k.special.2.1.trans h.special.2.1, k.special.2.2.1.trans h.special.2.2.1,
    k.special.2.2.2.1.trans h.special.2.2.2.1, k.special.2.2.2.2.1.trans h.special.2.2.2.2.1,
    k.special.2.2.2.2.2.1.trans h.special.2.2.2.2.2.1, k.special.2.2.2.2.2.2.trans h.special.2.2.2.2.2.2⟩
  strands := k.strands.trans h.strands
  engine := ⟨k.engine.1.trans h.engine.1, k.engine.2.1.trans h.engine.2.1, k.engine.2.2.1.trans h.engine.2.2.1,
    k.engine.2.2.2.trans h.engine.2.2.2⟩
  mode := ⟨k.mode.1.trans h.mode.1, k.mode.2.1.trans h.mode.2.1, k.mode.2.2.1.trans h.mode.2.2.1,
    k.mode.2.2.2.trans h.mode.2.2.2⟩
  waits := ⟨k.waits.1.trans h.waits.1, k.waits.2.1.trans h.waits.2.1, k.waits.2.2.1.trans h.waits.2.2.1,
    k.waits.2.2.2.trans h.waits.2.2.2⟩

/-! ## Single operations -/

/-- Scratch is the same where the groups' scratch fields are. -/
theorem scratch_modGroup (s : State) (g k : Nat) (f : GroupSt → GroupSt)
    (hf : ∀ x, (f x).scratch = x.scratch ∧ (f x).scratchP = x.scratchP) :
    ((s.modGroup g f).group k).scratch = (s.group k).scratch ∧ ((s.modGroup g f).group k).scratchP = (s.group k).scratchP := by
  by_cases h : g = k
  · subst h
    by_cases hl : g < s.groups.length
    · rw [State.group_modGroup _ _ _ hl]
      exact hf _
    · simp [State.group, State.modGroup, nth, List.getElem?_eq_none (Nat.le_of_not_lt hl)]
  · rw [State.group_modGroup_ne _ _ _ _ h]
    exact ⟨rfl, rfl⟩

theorem modMe_rest (s : State) (f : Warp → Warp) : KeepsRest s (s.modMe f) where
  cur := rfl
  warps _ hw := State.warp_modWarp_ne _ _ _ _ (Ne.symm hw)
  bytes := SameBytes.of_eq rfl rfl rfl fun _ => ⟨rfl, rfl⟩
  cores := rfl
  traffic := ⟨rfl, rfl, rfl, rfl⟩
  ctl := rfl

theorem noteIssue_rest (s : State) : KeepsRest s s.noteIssue := by
  unfold State.noteIssue
  split
  · exact ⟨rfl, fun _ _ => rfl, SameBytes.of_eq rfl rfl rfl fun _ => ⟨rfl, rfl⟩, rfl, ⟨rfl, rfl, rfl, rfl⟩, rfl⟩
  · exact KeepsRest.refl s

theorem noteIssue_warps (s : State) : s.noteIssue.warps = s.warps := by
  unfold State.noteIssue; split <;> rfl

theorem noteIssue_cur (s : State) : s.noteIssue.cur = s.cur := by
  unfold State.noteIssue; split <;> rfl

theorem noteIssue_clock (s : State) : s.noteIssue.clock = s.clock := by
  unfold State.noteIssue; split <;> rfl

theorem noteIssue_me (s : State) : s.noteIssue.me = s.me := by
  simp [State.me, State.warp, noteIssue_warps, noteIssue_cur]

theorem clearResv_rest (s : State) (w : Nat) : KeepsRest s (s.clearResv w) where
  cur := rfl
  warps _ _ := rfl
  bytes := SameBytes.of_eq rfl rfl rfl fun g => scratch_modGroup s _ g _ fun _ => ⟨rfl, rfl⟩
  cores := rfl
  traffic := ⟨rfl, rfl, rfl, rfl⟩
  ctl := rfl

/-- Raising a trap: the warp keeps everything but its trap, its wait and the step it was armed for, and its reservations
are cleared. -/
theorem raise_raised (s : State) (c : Cause) (m : Mask) (x a : DWord) (g : Bool) (h : s.cur.warp < s.warps.length) :
    Raised s (s.raise c m x a g) c m x a := by
  have hme : (s.raise c m x a g).me = (s.modMe _).me := rfl
  unfold State.raise at *
  rw [State.me_modMe _ _ h] at hme
  refine ⟨?_, ?_, ⟨fun r hr => ?_, ?_⟩, ?_, (modMe_rest s _).trans (clearResv_rest _ _)⟩
  · rw [hme]
    exact ⟨_, rfl, rfl, rfl, rfl, rfl, rfl, rfl, rfl, rfl⟩
  · rw [hme]
  · simp only [State.clearResv, List.mem_filter] at hr
    simpa using hr.2
  · rw [hme]
  · rw [hme]; constructor <;> simp [Warp.reg, Warp.predAt]

/-- What `stepped` adds: nothing, or the trap of a step that was armed. -/
theorem stepped_cases (s : State) :
    s.stepped = s ∨ (s.me.stepArmed = true ∧ ∃ m x, s.stepped = s.raise .step m x) := by
  unfold State.stepped
  split
  · rename_i h
    simp only [Warp.steps, Bool.and_eq_true] at h
    exact .inr ⟨h.1.1.1, _, _, rfl⟩
  · exact .inl rfl

/-- The end of an issue keeps the warp but for the trap of a step. -/
theorem stepped_keeps (s : State) (h : s.cur.warp < s.warps.length) :
    KeepsWarp s.me s.stepped.me [] [] ∧ KeepsRest s s.stepped ∧ s.stepped.me.pc = s.me.pc ∧
      s.stepped.me.modw = s.me.modw ∧ s.stepped.me.flagQ = s.me.flagQ ∧ s.stepped.me.wissue = s.me.wissue ∧
      s.stepped.me.wparcel = s.me.wparcel ∧ (s.me.stepArmed = false → s.stepped.me.trap = s.me.trap) ∧
      s.stepped.me.board = s.me.board := by
  rcases stepped_cases s with hs | ⟨ha, m, x, hs⟩
  · rw [hs]
    exact ⟨KeepsWarp.refl _ _ _, KeepsRest.refl s, rfl, rfl, rfl, rfl, rfl, fun _ => rfl, rfl⟩
  · have hr := raise_raised s .step m x 0 false h
    have hme : (s.raise .step m x).me = (s.modMe _).me := rfl
    unfold State.raise at hme
    rw [State.me_modMe _ _ h] at hme
    rw [hs]
    refine ⟨hr.warp, hr.rest, hr.pc, ?_, ?_, ?_, ?_, fun h0 => ?_, ?_⟩
    · unfold State.raise; rw [hme]
    · unfold State.raise; rw [hme]
    · unfold State.raise; rw [hme]
    · unfold State.raise; rw [hme]
    · rw [h0] at ha; exact absurd ha (by decide)
    · unfold State.raise; rw [hme]

theorem hold_rest (s : State) (i : Instr) : KeepsRest s (s.hold i) := by
  unfold State.hold
  split
  · exact KeepsRest.refl s
  · exact ⟨rfl, fun _ _ => rfl, SameBytes.of_eq rfl rfl rfl fun _ => ⟨rfl, rfl⟩, rfl, ⟨rfl, rfl, rfl, rfl⟩, rfl⟩

theorem hold_warps (s : State) (i : Instr) : (s.hold i).warps = s.warps := by unfold State.hold; split <;> rfl

theorem hold_cur (s : State) (i : Instr) : (s.hold i).cur = s.cur := by unfold State.hold; split <;> rfl

theorem hold_clock (s : State) (i : Instr) : (s.hold i).clock = s.clock := by unfold State.hold; split <;> rfl

theorem hold_me (s : State) (i : Instr) : (s.hold i).me = s.me := by
  simp [State.me, State.warp, hold_warps, hold_cur]

/-- What is on its way changes no register, no predicate and no count. -/
theorem post_keeps (v : Warp) (i : Instr) (c : Nat) : KeepsWarp v (v.post i c) [] [] := by
  constructor <;> simp [Warp.reg, Warp.predAt, Warp.post]

theorem advance_keeps (v : Warp) : KeepsWarp v v.advance [] [] := by
  unfold Warp.advance
  split
  · constructor <;> simp [Warp.reg, Warp.predAt]
  · split <;> constructor <;> simp [Warp.reg, Warp.predAt]

/-- What an instruction has written is on its way up to its latency. -/
theorem onWay_post (v : Warp) (i : Instr) (clock r c : Nat) (hr : r ∈ i.uses.list.flatMap Use.dests)
    (hf : (v.reg r).full = true) (hc : c < clock + i.latency) : (v.post i clock).onWay c r = true := by
  simp only [Warp.onWay, Warp.post, List.any_eq_true]
  refine ⟨(r, clock + i.latency), ?_, by simp [hc]⟩
  simp only [List.mem_append, List.mem_map]
  exact .inr ⟨r, .inl (List.mem_filter.2 ⟨hr, hf⟩), rfl⟩

/-- Retiring an instruction of a spine: the counts, MODW, the PC, and nothing else. -/
theorem retire_issued (s : State) (i : Instr) (h : s.cur.warp < s.warps.length) :
    OnlyIssued s (s.retire i) i := by
  have h1 : (s.noteIssue.hold i).cur.warp < (s.noteIssue.hold i).warps.length := by
    rw [hold_cur, hold_warps, noteIssue_cur, noteIssue_warps]; exact h
  unfold State.retire
  generalize ht : ((s.noteIssue.hold i).modMe fun v => (((v.counted s.clock).fallBack i).advance).post i s.clock) = t
  have hme : t.me = (((s.me.counted s.clock).fallBack i).advance).post i s.clock := by
    rw [← ht, State.me_modMe _ _ h1, hold_me, noteIssue_me]
  have hlen : t.cur.warp < t.warps.length := by
    rw [← ht]; simp only [State.modMe, State.warps_modWarp_length, State.modWarp_cur]; exact h1
  have hw : KeepsWarp s.me t.me [] [] := by
    rw [hme]
    refine KeepsWarp.trans (KeepsWarp.trans ?_ (advance_keeps _)) (post_keeps _ _ _)
    constructor <;> simp [Warp.reg, Warp.predAt, Warp.counted, Warp.fallBack]
  have hrest : KeepsRest s t := by
    rw [← ht]; exact ((noteIssue_rest s).trans (hold_rest _ i)).trans (modMe_rest _ _)
  have hpost : t.me.pc = ((s.me.counted s.clock).fallBack i).advance.pc ∧
      t.me.modw = ((s.me.counted s.clock).fallBack i).advance.modw ∧
      t.me.flagQ = ((s.me.counted s.clock).fallBack i).advance.flagQ ∧
      t.me.wissue = ((s.me.counted s.clock).fallBack i).advance.wissue ∧
      t.me.trap = ((s.me.counted s.clock).fallBack i).advance.trap ∧
      t.me.stepArmed = ((s.me.counted s.clock).fallBack i).advance.stepArmed := by
    rw [hme]; exact ⟨rfl, rfl, rfl, rfl, rfl, rfl⟩
  obtain ⟨p1, p2, p3, p4, p5, p6⟩ := hpost
  obtain ⟨k1, k2, k3, k4, k5, k6, -, k8, k9⟩ := stepped_keeps t hlen
  refine ⟨⟨?_, ?_, ?_, ?_, ?_, ?_⟩, hw.trans k1, hrest.trans k2⟩
  · rw [k3, p1]
    unfold Warp.advance Warp.pcAfter Warp.fallBack Warp.counted
    cases hr : s.me.rep with
    | none => simp
    | some r => by_cases hl : r.left ≤ 1 <;> simp [hl]
  · rw [k4, p2]
    unfold Warp.advance
    split
    · rfl
    · split <;> rfl
  · rw [k5, p3]
    unfold Warp.advance
    split
    · simp [queued, Warp.fallBack, Warp.counted]
    · split <;> simp [queued, Warp.fallBack, Warp.counted]
  · rw [k6, p4]
    unfold Warp.advance
    split
    · rfl
    · split <;> rfl
  · intro ha
    have hs : t.me.stepArmed = false := by
      rw [p6]
      unfold Warp.advance
      split
      · exact ha
      · split <;> exact ha
    rw [k8 hs, p5]
    unfold Warp.advance
    split
    · rfl
    · split <;> rfl
  · intro r hr hf c hc
    rw [k1.regs r (by simp)] at hf
    have hb : t.stepped.me.onWay c r = t.me.onWay c r := by unfold Warp.onWay; rw [k9]
    rw [hb, hme]
    rw [hme] at hf
    exact onWay_post _ i s.clock r c hr (by simpa [Warp.reg, Warp.post] using hf) hc

end Sys2Proof.Machine
end

