-- ==== Sys2Proof/Laws/Mem.lean ====
section
/-! SUPPORT. The canonical form of sparse maps: every operation on memory keeps it, memory at reset has it, and what is
read after a write (R290, R329; log 1). -/

namespace Sys2Proof.Machine

/-! ## Keys -/

theorem mem_alPut {α : Type} (k : Nat) (v : α) (m : List (Nat × α)) (x : Nat × α) (h : x ∈ alPut k v m) :
    x = (k, v) ∨ x ∈ m := by
  induction m with
  | nil => simpa [alPut] using h
  | cons y m ih =>
    obtain ⟨j, u⟩ := y
    unfold alPut at h
    split at h
    · simp only [List.mem_cons] at h ⊢; tauto
    · split at h
      · simp only [List.mem_cons] at h ⊢; tauto
      · simp only [List.mem_cons] at h ⊢
        rcases h with h | h
        · exact Or.inr (Or.inl h)
        · rcases ih h with h | h <;> tauto

theorem mem_alDel {α : Type} (k : Nat) (m : List (Nat × α)) (x : Nat × α) (h : x ∈ alDel k m) : x ∈ m := by
  induction m with
  | nil => simp [alDel] at h
  | cons y m ih =>
    obtain ⟨j, u⟩ := y
    unfold alDel at h
    split at h
    · exact List.mem_cons_of_mem _ h
    · split at h
      · exact h
      · simp only [List.mem_cons] at h ⊢
        rcases h with h | h
        · exact Or.inl h
        · exact Or.inr (ih h)

theorem alPut_rising {α : Type} (k : Nat) (v : α) (m : List (Nat × α)) (h : m.Pairwise fun x y => x.1 < y.1) :
    (alPut k v m).Pairwise fun x y => x.1 < y.1 := by
  induction m with
  | nil => simp [alPut]
  | cons y m ih =>
    obtain ⟨j, u⟩ := y
    rw [List.pairwise_cons] at h
    unfold alPut
    split
    · next hj => subst hj; exact List.pairwise_cons.mpr h
    · split
      · next hk =>
        refine List.pairwise_cons.mpr ⟨fun x hx => ?_, List.pairwise_cons.mpr h⟩
        rcases List.mem_cons.mp hx with rfl | hx
        · exact hk
        · exact lt_trans hk (h.1 x hx)
      · refine List.pairwise_cons.mpr ⟨fun x hx => ?_, ih h.2⟩
        rcases mem_alPut k v m x hx with rfl | hx
        · simp only; omega
        · exact h.1 x hx

theorem alDel_rising {α : Type} (k : Nat) (m : List (Nat × α)) (h : m.Pairwise fun x y => x.1 < y.1) :
    (alDel k m).Pairwise fun x y => x.1 < y.1 := by
  induction m with
  | nil => simp [alDel]
  | cons y m ih =>
    obtain ⟨j, u⟩ := y
    rw [List.pairwise_cons] at h
    unfold alDel
    split
    · exact h.2
    · split
      · exact List.pairwise_cons.mpr h
      · exact List.pairwise_cons.mpr ⟨fun x hx => h.1 x (mem_alDel k m x hx), ih h.2⟩

/-! ## The canonical form -/

/-- Setting a key keeps the canonical form: a value equal to the default is not listed. -/
theorem alSet_wf {α : Type} [DecidableEq α] (d : α) (k : Nat) (v : α) (m : List (Nat × α)) (h : Sparse.wf d m) :
    Sparse.wf d (alSet d k v m) := by
  unfold alSet
  split
  · exact ⟨alDel_rising k m h.1, fun x hx => h.2 x (mem_alDel k m x hx)⟩
  · next hv =>
    refine ⟨alPut_rising k v m h.1, fun x hx => ?_⟩
    rcases mem_alPut k v m x hx with rfl | hx
    · exact hv
    · exact h.2 x hx

theorem foldl_alSet_wf {α : Type} [DecidableEq α] (d : α) (g : Nat → Nat) (f : Nat → α) (l : List Nat) :
    ∀ m : List (Nat × α), Sparse.wf d m → Sparse.wf d (l.foldl (fun m i => alSet d (g i) (f i) m) m) := by
  induction l with
  | nil => exact fun m h => h
  | cons i l ih => exact fun m h => ih _ (alSet_wf d (g i) (f i) m h)

theorem memPutLine_wf (m : List Host.Cell) (line : Nat) (x : LineData) (h : Memory.wf m) : Memory.wf (memPutLine m line x) :=
  foldl_alSet_wf (0 : Byte) (fun i => 128 * line + i) (fun i => lineByte x.bits i) (List.range 128) m h

theorem memPutPoison_wf (m : List (Nat × Bool)) (line : Nat) (x : LineData) (h : Sparse.wf false m) :
    Sparse.wf false (memPutPoison m line x) :=
  foldl_alSet_wf false (fun i => 32 * line + i) (fun i => x.poison.getLsbD i) (List.range 32) m h

theorem storeMem_wf (s : State) (line : Nat) (x : LineData) (h : Memory.wf s.mem) (hp : Sparse.wf false s.memP) :
    Memory.wf (s.storeMem line x).mem ∧ Sparse.wf false (s.storeMem line x).memP :=
  ⟨memPutLine_wf s.mem line x h, memPutPoison_wf s.memP line x hp⟩

theorem poke_wf (g : GroupSt) (pos off : Nat) (bs : List MarkedByte) (h : Sparse.wf (0 : Byte) g.scratch) :
    Sparse.wf (0 : Byte) (g.poke pos off bs).scratch :=
  foldl_alSet_wf (0 : Byte) (fun i => scratchKey pos off + i) (fun i => (nth ((0 : Byte), false) bs i).1)
    (List.range bs.length) g.scratch h

theorem reset_mem_wf : Memory.wf State.reset.mem := ⟨List.Pairwise.nil, fun _ h => absurd h List.not_mem_nil⟩

/-! ## Reading after a write -/

theorem alFind_none {α : Type} (k : Nat) (m : List (Nat × α)) (h : ∀ x ∈ m, k < x.1) : alFind k m = none := by
  cases m with
  | nil => rfl
  | cons y m =>
    obtain ⟨j, u⟩ := y
    have := h (j, u) List.mem_cons_self
    unfold alFind
    rw [if_neg (by simp only at this; omega), if_pos (by simpa using this)]

theorem alFind_alPut {α : Type} (k j : Nat) (v : α) (m : List (Nat × α)) (h : m.Pairwise fun x y => x.1 < y.1) :
    alFind j (alPut k v m) = if j = k then some v else alFind j m := by
  induction m with
  | nil =>
    simp only [alPut, alFind]
    by_cases hj : k = j
    · simp [hj]
    · rw [if_neg hj, if_neg (Ne.symm hj)]; simp
  | cons y m ih =>
    obtain ⟨i, u⟩ := y
    rw [List.pairwise_cons] at h
    unfold alPut
    split
    · next hi =>
      subst hi
      simp only [alFind]
      by_cases hj : i = j
      · simp [hj]
      · rw [if_neg hj, if_neg hj, if_neg (Ne.symm hj)]
    · split
      · next hi hk =>
        simp only [alFind]
        by_cases hj : k = j
        · simp [hj]
        · rw [if_neg hj, if_neg (Ne.symm hj)]
          split
          · next hjk => rw [if_neg (by omega), if_pos (by omega)]
          · rfl
      · next hi hk =>
        simp only [alFind]
        rw [ih h.2]
        by_cases hj : j = k
        · subst hj
          rw [if_neg hi, if_neg hk, if_pos rfl, if_pos rfl]
        · rw [if_neg hj, if_neg hj]

theorem alFind_alDel {α : Type} (k j : Nat) (m : List (Nat × α)) (h : m.Pairwise fun x y => x.1 < y.1) :
    alFind j (alDel k m) = if j = k then none else alFind j m := by
  induction m with
  | nil => simp [alDel, alFind]
  | cons y m ih =>
    obtain ⟨i, u⟩ := y
    rw [List.pairwise_cons] at h
    unfold alDel
    split
    · next hi =>
      subst hi
      by_cases hj : j = i
      · subst hj
        rw [if_pos rfl]
        exact alFind_none _ _ h.1
      · rw [if_neg hj]
        simp only [alFind]
        rw [if_neg (Ne.symm hj)]
        split
        · next hlt => exact alFind_none _ _ fun x hx => lt_trans hlt (h.1 x hx)
        · rfl
    · split
      · next hi hk =>
        by_cases hj : j = k
        · subst hj
          rw [if_pos rfl]
          simp only [alFind]
          rw [if_neg hi, if_pos hk]
        · rw [if_neg hj]
      · next hi hk =>
        simp only [alFind]
        rw [ih h.2]
        by_cases hj : j = k
        · subst hj
          rw [if_neg hi, if_neg hk, if_pos rfl, if_pos rfl]
        · rw [if_neg hj, if_neg hj]

/-- A key reads the value written to it, and every other key what it read before. -/
theorem alGet_alSet {α : Type} [DecidableEq α] (d : α) (k j : Nat) (v : α) (m : List (Nat × α))
    (h : m.Pairwise fun x y => x.1 < y.1) : alGet d j (alSet d k v m) = if j = k then v else alGet d j m := by
  unfold alSet alGet
  split
  · next hv =>
    rw [alFind_alDel k j m h]
    split <;> simp [hv]
  · rw [alFind_alPut k j v m h]
    split <;> simp

end Sys2Proof.Machine
end

