-- ==== Sys2Proof/Laws/Result.lean ====
section
/-! SUPPORT. What writing a result to registers or to a predicate does, with and without flags, and when it raises
FPEXC instead (R19, R69, R73, R74, R225, R454). -/

namespace Sys2Proof.Machine

/-! ## An update of the warp before an instruction retires -/

/-- Retiring after an update of the executing warp: the end of the issue, over the frame of the update. -/
theorem modMe_retire (s : State) (i : Instr) (f : Warp → Warp) (fl : Byte) (rs ps : List Nat)
    (h : s.cur.warp < s.warps.length) (hw : KeepsWarp s.me (f s.me) rs ps)
    (hpc : (f s.me).pc = s.me.pc) (hrep : (f s.me).rep = s.me.rep) (hmodw : (f s.me).modw = s.me.modw)
    (hfl : (f s.me).flagQ = s.me.flagQ ++ queued fl (s.clock + i.latency)) (hc : (f s.me).wissue = s.me.wissue)
    (hs : (f s.me).stepArmed = s.me.stepArmed) (ht : (f s.me).trap = s.me.trap) :
    Issued s ((s.modMe f).retire i) i fl ∧ KeepsWarp s.me ((s.modMe f).retire i).me rs ps ∧
      KeepsRest s ((s.modMe f).retire i) ∧ (∀ r, ((s.modMe f).retire i).me.reg r = (f s.me).reg r) ∧
      (∀ p, ((s.modMe f).retire i).me.predAt p = (f s.me).predAt p) := by
  have hlen : (s.modMe f).cur.warp < (s.modMe f).warps.length := by
    simp only [State.modMe, State.warps_modWarp_length, State.modWarp_cur]; exact h
  have hme := State.me_modMe s f h
  obtain ⟨hi, kw, kr⟩ := retire_issued (s.modMe f) i hlen
  rw [hme] at kw
  refine ⟨⟨?_, ?_, ?_, ?_, fun ha => ?_, hi.later⟩, ?_, (modMe_rest s f).trans kr, fun r => kw.regs r (by simp),
    fun p => kw.preds p (by simp)⟩
  · rw [hi.pc, hme]; simp [Warp.pcAfter, hpc, hrep]
  · rw [hi.modw, hme, hmodw]
  · rw [hi.flags, hme, hfl]; simp [queued]
  · rw [hi.count, hme, hc]
  · rw [hi.trap (by rw [hme, hs]; exact ha), hme, ht]
  · refine hw.trans ⟨fun r _ => kw.regs r (by simp), fun p _ => kw.preds p (by simp), kw.count, kw.path, kw.saved,
      kw.special, kw.strands, kw.engine, kw.mode, kw.waits⟩

theorem queued_zero (n : Nat) : queued 0 n = [] := by simp [queued]

/-! ## Registers and pairs -/

theorem setReg_keeps (v : Warp) (d : GReg) (m : Mask) (f : Nat → Word) : KeepsWarp v (v.setReg d m f) [d.toNat] [] := by
  constructor <;> try simp [Warp.setReg, Warp.predAt]
  · intro r hr
    exact Warp.reg_modReg_ne _ _ _ _ (Ne.symm hr)
  · simp [Warp.modReg]

theorem setReg2_keeps (v : Warp) (d : GReg) (m : Mask) (f : Nat → DWord) :
    KeepsWarp v (v.setReg2 d m f) [d.toNat, d.toNat + 1] [] := by
  constructor <;> try simp [Warp.setReg2, Warp.predAt]
  · intro r h0 h1
    rw [Warp.reg_modReg_ne _ _ _ _ (Ne.symm h1), Warp.reg_modReg_ne _ _ _ _ (Ne.symm h0)]
  · simp [Warp.modReg]

theorem reg_setReg (v : Warp) (d : GReg) (m : Mask) (f : Nat → Word) (h : d.toNat < v.regs.length) :
    (v.setReg d m f).reg d.toNat = (v.reg d.toNat).write m f := Warp.reg_modReg _ _ _ h

theorem reg_setReg2 (v : Warp) (d : GReg) (m : Mask) (f : Nat → DWord) (h : d.toNat + 1 < v.regs.length) :
    (v.setReg2 d m f).reg d.toNat = (v.reg d.toNat).write m (fun l => (f l).setWidth 32) ∧
      (v.setReg2 d m f).reg (d.toNat + 1) = (v.reg (d.toNat + 1)).write m fun l => (f l >>> 32).setWidth 32 := by
  unfold Warp.setReg2
  constructor
  · rw [Warp.reg_modReg_ne _ _ _ _ (by omega), Warp.reg_modReg _ _ _ (by omega)]
  · rw [Warp.reg_modReg _ _ _ (by simpa [Warp.modReg] using h), Warp.reg_modReg_ne _ _ _ _ (by omega)]

/-- A result written to a register, or to a pair, after the flags `fl` have been noted. -/
theorem writes_of (s : State) (i : Instr) (wide : Bool) (d : GReg) (e : Mask) (f : Nat → DWord) (fl : Byte) (g : Warp → Warp)
    (h : s.cur.warp < s.warps.length) (hr : ∀ r ∈ destRegs wide d, r < s.me.regs.length)
    (hf : ∀ r ∈ destRegs wide d, (s.me.reg r).full = true)
    (hg : g s.me = { s.me with flagQ := s.me.flagQ ++ queued fl (s.clock + i.latency) }) :
    WritesReg s ((s.modMe fun v => if wide then (g v).setReg2 d e f else (g v).setReg d e fun l => (f l).setWidth 32).retire i)
      i wide d e f fl := by
  have hreg : ∀ r, (g s.me).reg r = s.me.reg r := fun r => by rw [hg]; rfl
  have hlen : (g s.me).regs.length = s.me.regs.length := by rw [hg]
  cases wide with
  | true =>
    simp only [if_true]
    have hd : d.toNat + 1 < s.me.regs.length := hr _ (by simp [destRegs])
    have hk : KeepsWarp s.me ((g s.me).setReg2 d e f) (destRegs true d) [] := by
      refine KeepsWarp.trans ?_ (setReg2_keeps _ d e f)
      rw [hg]; constructor <;> simp [Warp.reg, Warp.predAt]
    obtain ⟨h1, h2, h3, h4, -⟩ := modMe_retire s i (fun v => (g v).setReg2 d e f) fl (destRegs true d) [] h hk
      (by rw [hg]; rfl) (by rw [hg]; rfl) (by rw [hg]; rfl) (by rw [hg]; rfl) (by rw [hg]; rfl) (by rw [hg]; rfl) (by rw [hg]; rfl)
    obtain ⟨w1, w2⟩ := reg_setReg2 (g s.me) d e f (by omega)
    refine ⟨fun l hl => ?_, fun _ l hl => ?_, fun r hr' => ?_, fun r hr' => ?_, h1, h2, h3⟩
    · simp only [Warp.lane, h4, w1, Reg.write_val _ _ _ _ hl, hreg]
    · simp only [h4, w2, Reg.write_val _ _ _ _ hl, hreg]
    · simp only [destRegs, if_true, List.mem_cons, List.not_mem_nil, or_false] at hr'
      rcases hr' with rfl | rfl
      · simp only [h4, w1, Reg.write, hreg]
      · simp only [h4, w2, Reg.write, hreg]
    · have := hf r hr'
      simp only [destRegs, if_true, List.mem_cons, List.not_mem_nil, or_false] at hr'
      rcases hr' with rfl | rfl
      · simp only [h4, w1, Reg.write, hreg, this]
      · simp only [h4, w2, Reg.write, hreg, this]
  | false =>
    simp only [Bool.false_eq_true, if_false]
    have hd : d.toNat < s.me.regs.length := hr _ (by simp [destRegs])
    have hk : KeepsWarp s.me ((g s.me).setReg d e fun l => (f l).setWidth 32) (destRegs false d) [] := by
      refine KeepsWarp.trans ?_ (setReg_keeps _ d e _)
      rw [hg]; constructor <;> simp [Warp.reg, Warp.predAt]
    obtain ⟨h1, h2, h3, h4, -⟩ := modMe_retire s i (fun v => (g v).setReg d e fun l => (f l).setWidth 32) fl
      (destRegs false d) [] h hk
      (by rw [hg]; rfl) (by rw [hg]; rfl) (by rw [hg]; rfl) (by rw [hg]; rfl) (by rw [hg]; rfl) (by rw [hg]; rfl) (by rw [hg]; rfl)
    have w1 := reg_setReg (g s.me) d e (fun l => (f l).setWidth 32) (by omega)
    refine ⟨fun l hl => ?_, fun hc => by simp at hc, fun r hr' => ?_, fun r hr' => ?_, h1, h2, h3⟩
    · simp only [Warp.lane, h4, w1, Reg.write_val _ _ _ _ hl, hreg]
    · simp only [destRegs, Bool.false_eq_true, if_false, List.mem_singleton] at hr'
      subst hr'
      simp only [h4, w1, Reg.write, hreg]
    · have := hf r hr'
      simp only [destRegs, Bool.false_eq_true, if_false, List.mem_singleton] at hr'
      subst hr'
      simp only [h4, w1, Reg.write, hreg, this]

theorem toRegs_writes (s : State) (wide : Bool) (i : Instr) (d : GReg) (e : Mask) (f : Nat → DWord)
    (h : s.cur.warp < s.warps.length) (hr : ∀ r ∈ destRegs wide d, r < s.me.regs.length)
    (hf : ∀ r ∈ destRegs wide d, (s.me.reg r).full = true) : WritesReg s (s.toRegs wide i d e f) i wide d e f 0 := by
  have := writes_of s i wide d e f 0 id h hr hf (by rw [queued_zero, List.append_nil]; rfl)
  unfold State.toRegs State.toReg2 State.toReg
  cases wide <;> simpa using this

theorem toReg_writes (s : State) (i : Instr) (d : GReg) (e : Mask) (f : Nat → Word)
    (h : s.cur.warp < s.warps.length) (hr : d.toNat < s.me.regs.length) (hf : (s.me.reg d.toNat).full = true) :
    WritesReg s (s.toReg i d e f) i false d e (fun l => (f l).setWidth 64) 0 := by
  have := writes_of s i false d e (fun l => (f l).setWidth 64) 0 id h (by simpa [destRegs] using hr)
    (by simpa [destRegs] using hf) (by rw [queued_zero, List.append_nil]; rfl)
  simpa [State.toReg] using this

theorem toReg2_writes (s : State) (i : Instr) (d : GReg) (e : Mask) (f : Nat → DWord)
    (h : s.cur.warp < s.warps.length) (hr : ∀ r ∈ destRegs true d, r < s.me.regs.length)
    (hf : ∀ r ∈ destRegs true d, (s.me.reg r).full = true) : WritesReg s (s.toReg2 i d e f) i true d e f 0 := by
  simpa [State.toRegs] using toRegs_writes s true i d e f h hr hf

/-! ## Predicates -/

theorem setPred_keeps (v : Warp) (p : PNum) (m : Mask) (f : Nat → Bool) :
    KeepsWarp v (v.setPred p m f) [] (if p = 15#4 then [] else [p.toNat]) := by
  unfold Warp.setPred
  by_cases h : p = 15#4
  · simp only [h, beq_self_eq_true, if_true]; exact KeepsWarp.refl _ _ _
  · simp only [beq_iff_eq, h, if_false]
    constructor <;> try simp [Warp.reg]
    intro q hq
    by_cases h12 : q < 12
    · rw [Warp.predAt_modPred _ _ _ _ h12, if_neg hq]
    · rw [Warp.predAt_far _ _ h12, Warp.predAt_far _ _ h12]

theorem predAt_setPred (v : Warp) (p : PNum) (m : Mask) (f : Nat → Bool) (h : p.toNat < 12) :
    (v.setPred p m f).predAt p.toNat = { v.predAt p.toNat with
      val := ((v.predAt p.toNat).val &&& ~~~m) ||| (maskOf f &&& m), poison := (v.predAt p.toNat).poison &&& ~~~m } := by
  have hp : p ≠ 15#4 := by intro hc; rw [hc] at h; exact absurd h (by decide)
  simp only [Warp.setPred, beq_iff_eq, hp, if_false, Warp.predAt_modPred _ _ _ _ h, if_true]

theorem toPred_of (s : State) (i : Instr) (d : PNum) (e : Mask) (f : Nat → Bool) (fl : Byte) (g : Warp → Warp)
    (h : s.cur.warp < s.warps.length) (hd : d.toNat < 12 ∨ d = 15#4)
    (hg : g s.me = { s.me with flagQ := s.me.flagQ ++ queued fl (s.clock + i.latency) }) :
    WritesPred s ((s.modMe fun v => (g v).setPred d e f).retire i) i d e f fl := by
  have hk : KeepsWarp s.me ((g s.me).setPred d e f) [] (if d = 15#4 then [] else [d.toNat]) := by
    refine KeepsWarp.trans ?_ (setPred_keeps _ d e f)
    rw [hg]; constructor <;> simp [Warp.reg, Warp.predAt]
  have same : ∀ v : Warp, (v.setPred d e f).pc = v.pc ∧ (v.setPred d e f).rep = v.rep ∧ (v.setPred d e f).modw = v.modw ∧
      (v.setPred d e f).flagQ = v.flagQ ∧ (v.setPred d e f).wissue = v.wissue ∧
      (v.setPred d e f).stepArmed = v.stepArmed ∧ (v.setPred d e f).trap = v.trap := by
    intro v
    unfold Warp.setPred
    split <;> simp
  obtain ⟨a1, a2, a3, a4, a5, a6, a7⟩ := same (g s.me)
  obtain ⟨h1, h2, h3, -, h5⟩ := modMe_retire s i (fun v => (g v).setPred d e f) fl [] (if d = 15#4 then [] else [d.toNat]) h hk
    (by rw [a1, hg]) (by rw [a2, hg]) (by rw [a3, hg]) (by rw [a4, hg]) (by rw [a5, hg]) (by rw [a6, hg]) (by rw [a7, hg])
  have hp : ∀ p, (g s.me).predAt p = s.me.predAt p := fun p => by rw [hg]; rfl
  refine ⟨fun hne l hl => ?_, fun hne => ?_, h1, h2, h3⟩
  · have hd := hd.resolve_right hne
    rw [h5, predAt_setPred _ _ _ _ hd, hp]
    simp only [BitVec.getLsbD_or, BitVec.getLsbD_and, BitVec.getLsbD_not, getLsbD_maskOf _ _ hl, hl, decide_true,
      Bool.true_and]
    cases e.getLsbD l <;> simp
  · have hd := hd.resolve_right hne
    rw [h5, predAt_setPred _ _ _ _ hd, hp]

theorem toPred_writes (s : State) (i : Instr) (d : PNum) (e : Mask) (f : Nat → Bool)
    (h : s.cur.warp < s.warps.length) (hd : d.toNat < 12 ∨ d = 15#4) : WritesPred s (s.toPred i d e f) i d e f 0 :=
  toPred_of s i d e f 0 id h hd (by rw [queued_zero, List.append_nil]; rfl)

/-! ## Flags (R19, R225) -/

theorem addFlags_eq (v : Warp) (fl : Byte) (due : Nat) : v.addFlags fl due = { v with flagQ := v.flagQ ++ queued fl due } := by
  unfold Warp.addFlags queued
  split <;> simp

theorem modMe_modMe (s : State) (f g : Warp → Warp) : (s.modMe f).modMe g = s.modMe fun v => g (f v) := by
  simp [State.modMe, State.modWarp, List.modify_modify_eq, Function.comp_def]

/-- A result with flags that raise no enabled exception. -/
theorem toRegFl_writes (s : State) (i : Instr) (d : GReg) (e : Mask) (f : Nat → FRes)
    (h : s.cur.warp < s.warps.length) (hr : d.toNat < s.me.regs.length) (hf : (s.me.reg d.toNat).full = true)
    (hx : raisingLanes s.me.mode e (fun l => (f l).fl) = 0) :
    WritesReg s (s.toRegFl i d e f) i false d e (fun l => BitVec.ofNat 64 (f l).code) (orFlags e fun l => (f l).fl) := by
  have := writes_of s i false d e (fun l => BitVec.ofNat 64 (f l).code) (orFlags e fun l => (f l).fl)
    (fun v => v.addFlags (orFlags e fun l => (f l).fl) (s.clock + i.latency)) h
    (by simpa [destRegs] using hr) (by simpa [destRegs] using hf) (addFlags_eq _ _ _)
  simp only [Bool.false_eq_true, if_false] at this
  unfold State.toRegFl State.flagged
  simp only [hx, ne_eq, not_true_eq_false, if_false]
  unfold State.toReg
  rw [modMe_modMe]
  have hn : ∀ n : Nat, (BitVec.ofNat 64 n).setWidth 32 = BitVec.ofNat 32 n := by
    intro n; apply BitVec.eq_of_toNat_eq; simp
  simpa [hn] using this

theorem toReg2Fl_writes (s : State) (i : Instr) (d : GReg) (e : Mask) (f : Nat → FRes)
    (h : s.cur.warp < s.warps.length) (hr : ∀ r ∈ destRegs true d, r < s.me.regs.length)
    (hf : ∀ r ∈ destRegs true d, (s.me.reg r).full = true) (hx : raisingLanes s.me.mode e (fun l => (f l).fl) = 0) :
    WritesReg s (s.toReg2Fl i d e f) i true d e (fun l => BitVec.ofNat 64 (f l).code) (orFlags e fun l => (f l).fl) := by
  have := writes_of s i true d e (fun l => BitVec.ofNat 64 (f l).code) (orFlags e fun l => (f l).fl)
    (fun v => v.addFlags (orFlags e fun l => (f l).fl) (s.clock + i.latency)) h hr hf (addFlags_eq _ _ _)
  simp only [if_true] at this
  unfold State.toReg2Fl State.flagged
  simp only [hx, ne_eq, not_true_eq_false, if_false]
  unfold State.toReg2
  rw [modMe_modMe]
  exact this

theorem toPredFl_writes (s : State) (i : Instr) (d : PNum) (e : Mask) (f : Nat → Bool × Byte)
    (h : s.cur.warp < s.warps.length) (hd : d.toNat < 12 ∨ d = 15#4)
    (hx : raisingLanes s.me.mode e (fun l => (f l).2) = 0) :
    WritesPred s (s.toPredFl i d e f) i d e (fun l => (f l).1) (orFlags e fun l => (f l).2) := by
  have := toPred_of s i d e (fun l => (f l).1) (orFlags e fun l => (f l).2)
    (fun v => v.addFlags (orFlags e fun l => (f l).2) (s.clock + i.latency)) h hd (addFlags_eq _ _ _)
  unfold State.toPredFl State.flagged
  simp only [hx, ne_eq, not_true_eq_false, if_false]
  unfold State.toPred
  rw [modMe_modMe]
  exact this

/-- An enabled exception raises FPEXC in its lanes, and nothing is written (R19). -/
theorem flagged_raises (s : State) (i : Instr) (m : Mask) (fl : Nat → Byte) (k : State → State)
    (hx : raisingLanes s.me.mode m fl ≠ 0) :
    s.flagged i m fl k = s.raise .fpexc (raisingLanes s.me.mode m fl)
      ((orFlags (raisingLanes s.me.mode m fl) fl &&& 0x1F).setWidth 64) := by
  unfold State.flagged
  simp only [hx, ne_eq, not_false_eq_true, if_true]

end Sys2Proof.Machine
end

