-- ==== Sys2Proof/Laws/Parcel.lean ====
section
/-! SUPPORT. What the issue of a parcel can do, and what its end leaves (R34, R35, R40, R89, R124, R131, R477). -/

namespace Sys2Proof.Machine

/-- A parcel that meets nothing has its own effect on the strand that it sees (R124). -/
theorem parcelOp_ready (s : State) (r : Reads) (q : Bool) (k : Mask → Strand → State → State)
    (h : s.parcelReady r q = true) :
    s.parcelOp r q k = k ((s.me.strand s.k).view.lanes q) (s.me.strand s.k).view s := by
  unfold State.parcelReady at h
  simp only [Bool.and_eq_true, beq_iff_eq] at h
  obtain ⟨⟨-, hp⟩, hw⟩ := h
  unfold State.parcelOp
  cases hr : r.win with
  | none => simp [hp]
  | some n =>
    simp only [hr, Bool.and_eq_true, beq_iff_eq] at hw
    simp [hw.1.1, hw.1.2, hw.2, hp]

theorem parcelReady_warp (s : State) (r : Reads) (q : Bool) (h : s.parcelReady r q = true) :
    s.cur.warp < s.warps.length ∧ 1 ≤ s.cur.unit ∧ s.cur.unit ≤ 8 := by
  unfold State.parcelReady at h
  simp only [Bool.and_eq_true, decide_eq_true_eq] at h
  exact ⟨h.1.1.1.1.1, h.1.1.1.1.2, h.1.1.1.2⟩

/-- The end of a parcel, after an update of the warp that adds flags at most. -/
theorem commitN_done (s : State) (i : Instr) (n : Nat) (st : Strand) (fl : Byte) (h : s.cur.warp < s.warps.length)
    (h1 : 1 ≤ s.cur.unit) (h8 : s.cur.unit ≤ 8) :
    ParcelDone s ((s.modMe fun v => v.addFlags fl (s.clock + i.latency)).commitN i n st) i n st fl := by
  have hk : s.k < 8 := by unfold State.k; omega
  unfold State.commitN
  generalize hu : (s.modMe fun v => v.addFlags fl (s.clock + i.latency)) = u
  have hul : u.cur.warp < u.warps.length := by
    rw [← hu]; simp only [State.modMe, State.warps_modWarp_length, State.modWarp_cur]; exact h
  have huc : u.cur = s.cur := by rw [← hu]; rfl
  have hut : u.clock = s.clock := by rw [← hu]; rfl
  have huk : u.k = s.k := by unfold State.k; rw [huc]
  have hum : u.me = s.me.addFlags fl (s.clock + i.latency) := by rw [← hu, State.me_modMe _ _ h]
  have hur : KeepsRest s u := by rw [← hu]; exact modMe_rest _ _
  generalize hf : (fun v : Warp => ({ (v.modStrand u.k fun _ => (st.moveOn n u.clock).post i u.clock).fallBack i with
      wparcel := v.wparcel + 1 } : Warp)) = f
  have hhl : (u.hold i).cur.warp < (u.hold i).warps.length := by rw [hold_cur, hold_warps]; exact hul
  have hme : ((u.hold i).modMe f).me = f u.me := by rw [State.me_modMe _ f hhl, hold_me]
  have hlen : ((u.hold i).modMe f).cur.warp < ((u.hold i).modMe f).warps.length := by
    simp only [State.modMe, State.warps_modWarp_length, State.modWarp_cur]; exact hhl
  obtain ⟨kw, kr, kpc, km, kf, -, kp, -, -⟩ := stepped_keeps ((u.hold i).modMe f) hlen
  have hfv : f u.me = { ((s.me.modStrand s.k fun _ => (st.moveOn n s.clock).post i s.clock).fallBack i) with
      wparcel := s.me.wparcel + 1, flagQ := s.me.flagQ ++ queued fl (s.clock + i.latency) } := by
    rw [← hf, hum, huk, hut]
    simp only [addFlags_eq]
    rfl
  generalize hg : (u.hold i).modMe f = g at *
  have hrest : KeepsRest s g := by
    rw [← hg]; exact (hur.trans (hold_rest u i)).trans (modMe_rest _ f)
  have hst : ∀ j, g.stepped.me.strand j = (s.me.modStrand s.k fun _ => (st.moveOn n s.clock).post i s.clock).strand j := by
    intro j
    have := kw.strands
    unfold Warp.strand
    rw [this, hme, hfv]
    rfl
  have hregs : g.stepped.me.regs = g.me.regs ∧ g.stepped.me.preds = g.me.preds := by
    rcases stepped_cases g with hs | ⟨-, m, x, hs⟩
    · rw [hs]; exact ⟨rfl, rfl⟩
    · rw [hs]
      have : (g.raise .step m x).me = (g.modMe _).me := rfl
      unfold State.raise at this ⊢
      rw [State.me_modMe _ _ hlen] at this
      rw [this]; exact ⟨rfl, rfl⟩
  refine ⟨?_, fun j hj => ?_, ⟨?_, ?_⟩, ⟨?_, ?_, ?_, ?_⟩, ⟨?_, ?_⟩, ?_, ?_, ?_, hrest.trans kr⟩
  · rw [hst, Warp.strand_modStrand _ _ _ _ hk, if_pos rfl]
  · rw [hst]
    by_cases h8 : j < 8
    · rw [Warp.strand_modStrand _ _ _ _ h8, if_neg hj]
    · rw [Warp.strand_far _ _ h8, Warp.strand_far _ _ h8]
  · rw [hregs.1, hme, hfv]; rfl
  · rw [hregs.2, hme, hfv]; rfl
  · rw [kpc, hme, hfv]; rfl
  · rw [kw.path.1, hme, hfv]; rfl
  · rw [kw.saved.1, hme, hfv]; rfl
  · rw [kw.saved.2, hme, hfv]; rfl
  · rw [kw.special.1, hme, hfv]; rfl
  · rw [kw.special.2.2.1, hme, hfv]; rfl
  · rw [km, hme, hfv]; rfl
  · rw [kf, hme, hfv]
  · rw [kp, hme, hfv]

theorem commit_done (s : State) (i : Instr) (n : Nat) (st : Strand) (h : s.cur.warp < s.warps.length)
    (h1 : 1 ≤ s.cur.unit) (h8 : s.cur.unit ≤ 8) : ParcelDone s (s.commitN i n st) i n st 0 := by
  have := commitN_done s i n st 0 h h1 h8
  have hz : (s.modMe fun v => v.addFlags 0 (s.clock + i.latency)) = s := by
    have : (fun v : Warp => v.addFlags 0 (s.clock + i.latency)) = id := by
      funext v; simp [Warp.addFlags]
    rw [this]
    have hid : List.modify s.warps s.cur.warp id = s.warps := by simp
    simp only [State.modMe, State.modWarp, hid]
  rwa [hz] at this

/-- A parcel with flags that raise no enabled exception (R19, R225). -/
theorem flagged_done (s : State) (i : Instr) (m : Mask) (fl : Nat → Byte) (st : Strand) (h : s.cur.warp < s.warps.length)
    (h1 : 1 ≤ s.cur.unit) (h8 : s.cur.unit ≤ 8) (hx : raisingLanes s.me.mode m fl = 0) :
    ParcelDone s (s.flagged i m fl fun s => s.commit i st) i 2 st (orFlags m fl) := by
  unfold State.flagged
  simp only [hx, ne_eq, not_true_eq_false, if_false]
  exact commitN_done s i 2 st _ h h1 h8

end Sys2Proof.Machine
end

