-- ==== Sys2Proof/Laws/Turn.lean ====
section
/-! SUPPORT. What a step is made of: the turn and its clocks, the fetch, and what is settled after it
(R197, R198, R411, R432, R486). -/

namespace Sys2Proof.Machine

/-! ## Clocks -/

theorem clockMHz_range (n : Nat) : 475 ≤ clockMHz n ∧ clockMHz n ≤ 850 := by
  unfold clockMHz
  omega

/-- The clocks that pass keep GTIME in step with CLOCK (R198). -/
theorem tick_clocked (s : State) (dt : Nat) (h : s.Clocked) : (s.tick dt).Clocked := by
  obtain ⟨h1, h2, h3⟩ := h
  obtain ⟨f1, f2⟩ := clockMHz_range s.ctl.level
  unfold State.tick State.Clocked
  simp only
  generalize clockMHz s.ctl.level = f at *
  have hf : 0 < f := by omega
  have hm := Nat.mod_lt (s.gfrac + 1000 * dt) hf
  have hd := Nat.div_add_mod (s.gfrac + 1000 * dt) f
  generalize (s.gfrac + 1000 * dt) / f = q at *
  generalize (s.gfrac + 1000 * dt) % f = r at *
  have l1 : 475 * q ≤ f * q := Nat.mul_le_mul_right _ f1
  have l2 : f * q ≤ 850 * q := Nat.mul_le_mul_right _ f2
  refine ⟨?_, ?_, ?_⟩ <;> omega

theorem noteWakes_clocks (s : State) :
    s.noteWakes.clock = s.clock ∧ s.noteWakes.gtime = s.gtime ∧ s.noteWakes.gfrac = s.gfrac := by
  unfold State.noteWakes
  split <;> exact ⟨rfl, rfl, rfl⟩

theorem foldl_keeps {α β γ : Type} (p : β → γ) (f : β → α → β) (h : ∀ b a, p (f b a) = p b) (l : List α) :
    ∀ b, p (l.foldl f b) = p b := by
  induction l with
  | nil => exact fun _ => rfl
  | cons a l ih => exact fun b => (ih _).trans (h b a)

theorem fillActive_keeps {γ : Type} (p : State → γ) (h : ∀ (s : State) (l : List Warp), p { s with warps := l } = p s) (n : Nat) :
    ∀ (s : State) (x : Nat × Nat), p (State.fillActive n s x) = p s := by
  induction n with
  | zero => exact fun _ _ => rfl
  | succ n ih =>
    intro s x
    unfold State.fillActive
    split
    · rfl
    · split
      · exact (ih _ _).trans (h s _)
      · split
        · exact h s _
        · rfl

theorem noteReady_clocks (s : State) :
    s.noteReady.clock = s.clock ∧ s.noteReady.gtime = s.gtime ∧ s.noteReady.gfrac = s.gfrac := by
  unfold State.noteReady
  split
  · refine ⟨?_, ?_, ?_⟩
    · exact (foldl_keeps State.clock _ (fillActive_keeps _ (fun _ _ => rfl) 9) _ _).trans rfl
    · exact (foldl_keeps State.gtime _ (fillActive_keeps _ (fun _ _ => rfl) 9) _ _).trans rfl
    · exact (foldl_keeps State.gfrac _ (fillActive_keeps _ (fun _ _ => rfl) 9) _ _).trans rfl
  · exact ⟨rfl, rfl, rfl⟩

/-- What a turn settles leaves the clocks. -/
theorem settleTurn_clocks (s : State) :
    s.settleTurn.clock = s.clock ∧ s.settleTurn.gtime = s.gtime ∧ s.settleTurn.gfrac = s.gfrac := by
  obtain ⟨a1, a2, a3⟩ := noteWakes_clocks s
  obtain ⟨b1, b2, b3⟩ := noteReady_clocks s.noteWakes
  exact ⟨b1.trans a1, b2.trans a2, b3.trans a3⟩

theorem nextTurn_clocks (s : State) :
    s.nextTurn.2.clock = s.clock ∧ s.nextTurn.2.gtime = s.gtime ∧ s.nextTurn.2.gfrac = s.gfrac := by
  unfold State.nextTurn
  split <;> exact ⟨rfl, rfl, rfl⟩

/-- A turn that is not RESET leaves the clocks as they were when it began. -/
theorem keepClocks_clocks (t : Turn) (a b : State) (h : ∀ w k l, t ≠ .event w k l .reset) :
    (State.keepClocks t a b).clock = a.clock ∧ (State.keepClocks t a b).gtime = a.gtime ∧
      (State.keepClocks t a b).gfrac = a.gfrac := by
  unfold State.keepClocks
  split
  · next w k l => exact absurd rfl (h w k l)
  · exact ⟨rfl, rfl, rfl⟩

/-- RESET leaves the clocks at zero. -/
theorem reset_clocks (s t : State) (h : execReset s = .next t) : t.clock = 0 ∧ t.gtime = 0 ∧ t.gfrac = 0 := by
  unfold execReset at h
  simp only [Host.Outcome.next.injEq] at h
  subst h
  split
  · exact ⟨rfl, rfl, rfl⟩
  · split
    · exact ⟨rfl, rfl, rfl⟩
    · split <;> exact ⟨rfl, rfl, rfl⟩

/-! ## Fetching -/

/-- A turn of the agenda, in the state in which it begins. -/
theorem runTurn_agenda (ex : Instr → State → Out) (s : State) (dt : Nat) (t : Turn) (l : List (Nat × Turn))
    (h : s.agenda = (dt, t) :: l) :
    s.runTurn ex = match ({ s with agenda := l } : State).tick dt |>.turn ex t with
      | .next u => .next (State.keepClocks t (({ s with agenda := l } : State).tick dt)
          ((({ s with agenda := l } : State).tick dt).spillStacks u))
      | .fault f => .fault f
      | .refused r => .refused r := by
  have hn : s.nextTurn = ((dt, t), { s with agenda := l }) := by
    unfold State.nextTurn
    split
    · next x y hx => rw [h] at hx; injection hx with h1 h2; subst h1 h2; rfl
    · next hx => rw [h] at hx; cases hx
  unfold State.runTurn
  rw [hn]
  all_goals
    dsimp only
    cases State.turn ex (({ s with agenda := l } : State).tick dt) t <;> rfl

end Sys2Proof.Machine
end

