-- ==== Sys2Proof/Tests/Slice0.lean ====
section
/-! SUPPORT. Tests: well-formedness, decoding, and states that meet the hypotheses of the statements. -/

namespace Sys2Proof.Machine

/-! ## States to test in -/

/-- Warp 0 changed. -/
def State.on (s : State) (f : Warp → Warp) : State := s.modWarp 0 f
/-- Registers of warp 0 with one value in every lane. -/
def State.holding (s : State) (l : List (Nat × Word)) : State :=
  s.on fun v => l.foldl (fun v x => v.modReg x.1 fun r => { r with val := Lanes.all x.2 }) v
/-- A field of the launch record. -/
def State.recorded (s : State) (off n x : Nat) : State := s.modLaunch 0 fun l => { l with record := recPut l.record off n x }

/-- A page of 1 GiB at address 0, mapped onto itself with every permission (R313, R314). -/
def pageOne : TlbEnt := { root := 0, base := 0, size := 0x40000000, pte := 0x90000000000000CF, ptr := 0x100000 }
/-- The spine with that page in the TLB of its core. -/
def State.mapped (s : State) : State := s.modCore 0 fun c => { c with tlb := [pageOne] }

end Sys2Proof.Machine

namespace Sys2Proof.Tests

open Sys2Proof.Machine

set_option Elab.async false
set_option maxRecDepth 20000
set_option exponentiation.threshold 2048

/-! ## Words written out from the encodings (R68 to R76, R84, R85) -/

/-- pt, no FE bit. -/
def hT : Hd := { gp := 15, gn := false, fe := 0 }
/-- An M-byte of zeros. -/
def m0 : MByte := { w64 := false, fz := false, rm := 0, sat := false, sg := 0 }
/-- An F-byte of zeros. -/
def f0 : FByte := { na := false, fz := false, rm := 0, sat := false, nb := false, nc := false }
/-- A relaxed b32 access of .g at .grp. -/
def g32 : AccMod := { nb := false, nc := false, ord := 0, scope := 0, space := 0, sg := 0, ty := 2 }
/-- A relaxed ADD of .g at .grp. -/
def add32 : AtomMod := { w64 := false, ord := 0, scope := 0, space := 0, sg := 0, aop := 0 }
/-- A modifier field of zeros. -/
def p0 : PMod := { sg := false, c := false, n := false, q := false }

theorem test_decode_transfers :
    decodeWord 0x00F0000000000000 = .nop hT ∧ decodeWord 0x01F0000000010300 = .rep 1 3 ∧
    decodeWord 0x0238000000500009 = .bra { gp := 3, gn := true, fe := 0 } 5 9 ∧
    decodeWord 0x03F0000007012000 = .jmp hT 7 0x120 ∧ decodeWord 0x04F0000500000000 = .jmpi hT 5 ∧
    decodeWord 0x05F0000002FFF800 = .call hT 2 0xFFF8 ∧ decodeWord 0x0650000500000000 = .calli { hT with gp := 5 } 5 ∧
    decodeWord 0x07F0000000000000 = .ret hT ∧ decodeWord 0x08B8000000000000 = .exit { gp := 11, gn := true, fe := 0 } ∧
    decodeWord 0x09F0000080000100 = .trap hT 0x800001 ∧ decodeWord 0x0AF1000600000000 = .wsync { hT with fe := 1 } 6 ∧
    decodeWord 0x0BF0000000000000 = .yield hT ∧ decodeWord 0x0CF0000000002A00 = .bkpt hT 42 ∧
    decodeWord 0x0DF0000000000000 = .eret := by decide

theorem test_decode_segments_and_predicates :
    decodeWord 0x10F001000000C000 = .strand hT 1 0 0xC0 ∧ decodeWord 0x11F0000000000F00 = .waits hT 0x0F ∧
    decodeWord 0x12F000000000FF00 = .squash hT 0xFF ∧
    decodeWord 0x18F001101D000105 = .icmp hT { m0 with sg := 1 } 5 1 16 29 ∧
    decodeWord 0x19F0011100000001 = .icmpi hT 1 0 1 17 0 ∧
    decodeWord 0x1AF0020405008202 = .fcmp hT { f0 with na := true, nb := true } 2 2 4 5 ∧
    decodeWord 0x1BF00F0406000006 = .dcmp hT f0 6 15 4 6 ∧
    decodeWord 0x1CF00301020FC000 = .plop hT 3 { neg := false, p := 1 } 2 15 0xC0 ∧
    decodeWord 0x1DF0090000000000 = .p2g hT 9 ∧ decodeWord 0x1EF0000900000F00 = .g2p hT 9 0x00F ∧
    decodeWord 0x1FF0060405820000 = .sel hT m0 6 4 5 { neg := true, p := 2 } := by decide

theorem test_decode_integer :
    decodeWord 0x20F0040405000600 = .iadd hT { m0 with sat := true, sg := 2 } 4 4 5 ∧
    decodeWord 0x21F01111FFFFFF00 = .iaddi hT 17 17 0xFFFFFF ∧
    decodeWord 0x22F0040405000500 = .isub hT { m0 with sat := true, sg := 1 } 4 4 5 ∧
    decodeWord 0x23F0060405000000 = .imul hT m0 6 4 5 ∧ decodeWord 0x24F00D0C1E000100 = .imulh hT { m0 with sg := 1 } 13 12 30 ∧
    decodeWord 0x25F0100D1F0C0000 = .imad hT m0 16 13 31 12 ∧
    decodeWord 0x26F0080405080100 = .imadw hT { m0 with sg := 1 } 8 4 5 8 ∧
    decodeWord 0x27F0060405000000 = .idiv hT m0 6 4 5 ∧ decodeWord 0x28F0060405000000 = .irem hT m0 6 4 5 ∧
    decodeWord 0x29F0060405000100 = .imin hT { m0 with sg := 1 } 6 4 5 ∧ decodeWord 0x2AF0060405000000 = .imax hT m0 6 4 5 ∧
    decodeWord 0x2BF0060400000400 = .iabs hT { m0 with sat := true } 6 4 ∧
    decodeWord 0x2CF0140A0D050000 = .iaddx hT 20 10 13 5 ∧ decodeWord 0x2DF008080A000000 = .iadd64 hT m0 8 8 10 ∧
    decodeWord 0x2EF0060205000400 = .lea hT false 2 6 2 5 ∧ decodeWord 0x2FF0140A0D050000 = .isubx hT 20 10 13 5 := by decide

theorem test_decode_logic_and_moves :
    decodeWord 0x30F0060405000001 = .and hT m0 true 6 4 5 ∧ decodeWord 0x31F0060406008000 = .or hT { m0 with w64 := true } false 6 4 6 ∧
    decodeWord 0x32F0060405000000 = .xor hT m0 false 6 4 5 ∧ decodeWord 0x33F00604FFFF0000 = .lopi hT 0 6 4 0xFFFF00 ∧
    decodeWord 0x34F0080818000000 = .lsl hT m0 8 8 24 ∧ decodeWord 0x35F0060405000000 = .lsr hT m0 6 4 5 ∧
    decodeWord 0x36F0060405000000 = .asr hT m0 6 4 5 ∧ decodeWord 0x37F0060405000000 = .rot hT m0 6 4 5 ∧
    decodeWord 0x38F0080800001A01 = .shi hT 1 8 8 26 ∧ decodeWord 0x39F0060405000200 = .bfe hT { m0 with sg := 2 } 6 4 5 ∧
    decodeWord 0x3AF0060405070000 = .bfi hT m0 6 4 5 7 ∧ decodeWord 0x3BF0060400000000 = .popc hT m0 6 4 ∧
    decodeWord 0x3CF0060400000000 = .clz hT m0 6 4 ∧ decodeWord 0x3DF0060400000000 = .ffs hT m0 6 4 ∧
    decodeWord 0x3EF0080500000000 = .brev hT m0 8 5 ∧ decodeWord 0x3FF0140600008000 = .mov hT { m0 with w64 := true } 20 6 ∧
    decodeWord 0x4028080000000000 = .movi { gp := 2, gn := true, fe := 0 } 8 0 ∧
    decodeWord 0x41F00A000000000F = .movs hT 0x0F 10 ∧ decodeWord 0x42F0000400000013 = .sets hT 4 := by decide

theorem test_decode_lanes :
    decodeWord 0x48F00E0A16000003 = .shfl hT m0 3 14 10 22 ∧ decodeWord 0x49F0090100000000 = .vote hT 0 9 { neg := false, p := 1 } ∧
    decodeWord 0x49F0028100000002 = .vote hT 2 2 { neg := true, p := 1 } ∧
    decodeWord 0x4AF0070908000001 = .mbcnt hT true 7 9 8 ∧ decodeWord 0x4BF0060400000002 = .matchLanes hT 2 6 4 ∧
    decodeWord 0x4CF0050400000202 = .redux hT { m0 with sg := 2 } 2 5 4 ∧
    decodeWord 0x4DF0060400004011 = .fredux hT 1 true true 6 4 ∧
    decodeWord 0x4EF0060405008000 = .rdlane hT false true 6 4 5 := by decide

theorem test_decode_floating :
    decodeWord 0x50F0040506001000 = .fadd hT { f0 with rm := 2 } 4 5 6 ∧ decodeWord 0x51F0040506000000 = .fsub hT f0 4 5 6 ∧
    decodeWord 0x52F0040506000400 = .fmul hT { f0 with sat := true } 4 5 6 ∧ decodeWord 0x53F0040505060000 = .ffma hT f0 4 5 5 6 ∧
    decodeWord 0x54F0040506000000 = .fmin hT f0 4 5 6 ∧ decodeWord 0x55F0040506000200 = .fmax hT { f0 with nb := true } 4 5 6 ∧
    decodeWord 0x56F0040506000000 = .fdiv hT f0 4 5 6 ∧ decodeWord 0x57F0040500000000 = .fsqrt hT f0 4 5 ∧
    decodeWord 0x58F0040500000000 = .frcp hT f0 4 5 ∧ decodeWord 0x59F0040500004000 = .frsq hT { f0 with fz := true } 4 5 ∧
    decodeWord 0x5AF0040506070100 = .fexp2 hT { f0 with nc := true } 4 5 6 7 ∧ decodeWord 0x5BF0040500000000 = .flog2 hT f0 4 5 ∧
    decodeWord 0x5CF0040500008000 = .fsin hT { f0 with na := true } 4 5 ∧ decodeWord 0x5DF0040500000000 = .fcos hT f0 4 5 ∧
    decodeWord 0x5EF0040500000001 = .frnd hT f0 true 4 5 ∧ decodeWord 0x5FF0040500000000 = .fclass hT false 4 5 ∧
    decodeWord 0x60F0040608000000 = .dadd hT f0 4 6 8 ∧ decodeWord 0x61F0040608000000 = .dmul hT f0 4 6 8 ∧
    decodeWord 0x62F00406080A0000 = .dfma hT f0 4 6 8 10 ∧ decodeWord 0x63F0040608002000 = .ddiv hT { f0 with rm := 4 } 4 6 8 ∧
    decodeWord 0x64F0040600000000 = .dsqrt hT f0 4 6 ∧ decodeWord 0x65F0040608000001 = .dminmax hT f0 true 4 6 8 ∧
    decodeWord 0x66F0040506070000 = .pkfma hT f0 false 4 5 6 7 ∧ decodeWord 0x67F0040506000001 = .pkadd hT f0 true 4 5 6 ∧
    decodeWord 0x68F0040506000400 = .pkmul hT { f0 with sat := true } false 4 5 6 ∧
    decodeWord 0x69F0040500000306 = .cvt hT 6 false false 0 3 4 5 ∧ decodeWord 0x6AF0040506000200 = .qnt hT 2 4 5 6 ∧
    decodeWord 0x6BF0040500000700 = .dqnt hT 7 4 5 ∧ decodeWord 0x6CF0040500000100 = .scaleinit hT 1 4 5 := by decide

theorem test_decode_memory :
    decodeWord 0x70F0100400100B02 = .ld hT { g32 with ord := 1, scope := 3 } 16 4 0x10 ∧
    decodeWord 0x71F0140600000300 = .st hT { g32 with scope := 3, ty := 0 } 20 6 0 ∧
    decodeWord 0x72F0040000204042 = .ldc hT { g32 with nb := true, space := 1 } 4 0 0x20 ∧
    decodeWord 0x73F0000405000300 = .atom hT { add32 with scope := 3 } 4 5 ∧
    decodeWord 0x74F00604080A2317 = .atomr hT { add32 with w64 := true, sg := 1, scope := 3, aop := 7 } 6 4 8 10 ∧
    decodeWord 0x75F0060400000B00 = .lr hT { add32 with ord := 1, scope := 3 } 6 4 ∧
    decodeWord 0x76F0030405001300 = .sc hT { add32 with ord := 2, scope := 3 } 3 4 5 ∧
    decodeWord 0x77F0000406020301 = .cstore hT true 0 3 4 6 2 ∧
    decodeWord 0x77F0080405921002 = .cstoreNf hT false 2 0 8 4 5 2 9 ∧
    decodeWord 0x78F0060408000300 = .tload hT 3 6 4 8 ∧ decodeWord 0x79F0040608000500 = .tstore hT 5 4 6 8 ∧
    decodeWord 0x7AF0000000000502 = .fence hT 2 5 ∧ decodeWord 0x7BF0000400000000 = .mon hT 4 ∧
    decodeWord 0x7CF0030600000000 = .mwait hT 3 6 ∧ decodeWord 0x7DF0000406000000 = .prefCnt hT 4 6 ∧
    decodeWord 0x7DF0000406080001 = .prefCl hT 4 6 8 ∧ decodeWord 0x7EF0000406070001 = .subs hT 1 4 6 7 ∧
    decodeWord 0x7FF0000406070000 = .upgr hT 0 4 6 7 := by decide

theorem test_decode_engine_and_matrix :
    decodeWord 0x80F0040608000301 = .copy hT 1 3 4 6 8 ∧ decodeWord 0x81F0050608090000 = .gath hT 0 5 6 8 9 ∧
    decodeWord 0x82F0040608000001 = .pxfer hT true 4 6 8 ∧ decodeWord 0x83F0000000003F02 = .waitc hT 2 63 ∧
    decodeWord 0x84F0000500000003 = .bankm hT 3 5 ∧ decodeWord 0x85F0000602000001 = .fpush hT true 2 6 ∧
    decodeWord 0x86F006001E000000 = .fpop hT false 6 30 ∧ decodeWord 0x87F0000500000000 = .ovld hT 5 ∧
    decodeWord 0x88F0060400200302 = .lds hT { g32 with scope := 3 } 6 4 0x20 ∧
    decodeWord 0x89F0000406070000 = .unsub hT 4 6 7 ∧
    decodeWord 0x90F0020405000300 = .mma hT 2 4 5 3 ∧ decodeWord 0x91F0010405000000 = .mmap hT 1 4 5 0 ∧
    decodeWord 0x92F0030406080700 = .smv hT 3 4 6 8 7 ∧ decodeWord 0x93F0070000000000 = .aclr hT 7 ∧
    decodeWord 0x94F0000406000301 = .ald hT 0 true 3 4 6 ∧ decodeWord 0x95F0000506000000 = .ast hT 0 false 0 5 6 ∧
    decodeWord 0x96F0000000000000 = .batonTake hT ∧ decodeWord 0x96F0000500000001 = .batonPass hT 5 ∧
    decodeWord 0x96F0000000000002 = .batonPassRing hT ∧ decodeWord 0x96F0000400000003 = .batonRing hT 4 ∧
    decodeWord 0x97F0030000000002 = .abind hT 3 2 ∧ decodeWord 0x98F0030000000000 = .afree hT 3 := by decide

theorem test_decode_system :
    decodeWord 0xA0F0000000000F00 = .bar hT 15 ∧ decodeWord 0xA1F0000000000200 = .bara hT 2 ∧
    decodeWord 0xA2F0000000000200 = .barw hT 2 ∧ decodeWord 0xA3F0000000000000 = .phase hT ∧
    decodeWord 0xA4F0000400000000 = .launch hT 4 ∧ decodeWord 0xA5F0000406000000 = .lwait hT 4 6 ∧
    decodeWord 0xA6F0010400000000 = .graph hT 1 4 ∧ decodeWord 0xA7F0000500000000 = .sbnd hT 5 ∧
    decodeWord 0xA8F0060000005801 = .traprd hT true 6 0x58 ∧ decodeWord 0xA9F0060000001100 = .sysr hT 0x11 6 ∧
    decodeWord 0xAAF0000500000300 = .sysw hT 3 5 := by decide

theorem test_decode_parcels_of_a_strand :
    decodeShort 0x0000 0 = .anop ∧ decodeShort 0x0200 0 = .aend ∧ decodeShort 0x0402 0 = .arep 2 ∧
    decodeShort 0x0688 0 = .amov { p0 with n := true } 2 ∧ decodeShort 0x0610 0 = .amov { p0 with c := true } 0 ∧
    decodeShort 0x0801 0x4040 = .amovi true false 0x4040 ∧ decodeShort 0x0802 0x1234 = .amovi false true 0x1234 ∧
    decodeShort 0x0A40 0 = .movc p0 1 ∧ decodeShort 0x0C04 0 = .axch { p0 with q := true } ∧
    decodeShort 0x0E40 0 = .aput 1 ∧ decodeShort 0x1040 0 = .afadd p0 1 ∧ decodeShort 0x1240 0 = .afsub p0 1 ∧
    decodeShort 0x1440 0 = .afrsub p0 1 ∧ decodeShort 0x1610 0 = .afmul { p0 with c := true } 0 ∧
    decodeShort 0x1884 0 = .afmac { p0 with q := true } 2 ∧ decodeShort 0x1A40 0 = .afmsc p0 1 ∧
    decodeShort 0x1C40 0 = .afmin p0 1 ∧ decodeShort 0x1E40 0 = .afmax p0 1 := by decide

theorem test_decode_more_parcels :
    decodeShort 0x2008 0 = .afabs { p0 with n := true } ∧ decodeShort 0x2200 0 = .afrcp p0 ∧
    decodeShort 0x2400 0 = .afrsq p0 ∧ decodeShort 0x2640 0 = .afdiv p0 1 ∧ decodeShort 0x2840 0 = .aexp2 p0 1 ∧
    decodeShort 0x2A00 0 = .alog2 p0 ∧ decodeShort 0x2C40 0 = .aiadd p0 1 ∧ decodeShort 0x2E40 0 = .aisub p0 1 ∧
    decodeShort 0x3040 0 = .aimul p0 1 ∧ decodeShort 0x3260 0 = .aimulh { p0 with sg := true } 1 ∧
    decodeShort 0x3448 0 = .aand { p0 with n := true } 1 ∧ decodeShort 0x3640 0 = .aor p0 1 ∧
    decodeShort 0x3810 0 = .axor { p0 with c := true } 0 ∧ decodeShort 0x3AC0 0 = .ashl false 0 3 ∧
    decodeShort 0x3C27 0 = .ashr true 7 0 ∧ decodeShort 0x3E82 0 = .acmp false 0 2 2 ∧ decodeShort 0x4040 0 = .asel p0 1 ∧
    decodeShort 0x4202 0 = .acvt 2 ∧ decodeShort 0x4424 0 = .ashfl 2 4 0 ∧ decodeShort 0x4603 0 = .ared 3 ∧
    decodeShort 0x4809 0 = .aslc 5 false 0 ∧ decodeShort 0x4A45 0 = .asts 1 true 1 := by decide

/-! ## Words that are no instructions (R69, R71, R73, R74, R84 to R86) -/

theorem test_reserved_words :
    [0x0EF0000000000000, 0xB0F0000000000000, 0x00C0000000000000, 0x20F0060405000001, 0x20F0060405002800,
     0x20F0060405000300, 0x18F0100405000000, 0x2DF009080A000000, 0x70F0060400000602, 0x41F0060000000014,
     0x38F0060400002001, 0x83F0000000014000, 0xA9F0060000000800].all
      (fun x => decodeLong (LongWord.ofBits x) == none) = true ∧
    [0x4C00, 0x0601, 0x1060, 0x0C08, 0x420E, 0x3E1F, 0x4425, 0x4830].all (fun x => decodeParcel x 0 == none) = true := by
  decide

theorem test_reserved_word_is_illegal :
    decodeWord 0x0EF0000000000000 = .reservedOpcode 0x0EF0000000000000 ∧ decodeShort 0x4C00 0 = .reservedSop 0x4C00 := by decide

/-! ## An ill-formed term for each check of `Instr.wf` -/

theorem test_wf_guard : ¬ (Instr.nop { hT with gp := 12 }).WellFormed := by decide
theorem test_wf_fe_of_a_field_not_read : ¬ (Instr.iaddi { hT with fe := 2 } 4 5 6).WellFormed := by decide
theorem test_wf_predicate : ¬ (Instr.icmp hT m0 0 13 4 5).WellFormed := by decide
theorem test_wf_odd_pair : ¬ (Instr.iadd64 hT m0 9 8 10).WellFormed := by decide
theorem test_wf_modifier : ¬ (Instr.iadd hT { m0 with rm := 5 } 4 5 6).WellFormed ∧
    ¬ (Instr.iadd hT { m0 with sg := 3 } 4 5 6).WellFormed ∧ ¬ (Instr.iadd hT { m0 with w64 := true } 4 6 8).WellFormed ∧
    ¬ (Instr.fsqrt hT { f0 with nb := true } 4 5).WellFormed ∧ ¬ (Instr.frcp hT { f0 with rm := 1 } 4 5).WellFormed := by decide
theorem test_wf_condition : ¬ (Instr.icmp hT m0 6 1 4 5).WellFormed ∧ ¬ (Instr.fcmp hT f0 7 1 4 5).WellFormed := by decide
theorem test_wf_access : ¬ (Instr.ld hT { g32 with scope := 6 } 4 6 0).WellFormed ∧
    ¬ (Instr.ld hT { g32 with space := 3 } 4 6 0).WellFormed ∧ ¬ (Instr.ld hT { g32 with ty := 4 } 4 6 0).WellFormed ∧
    ¬ (Instr.ld hT { g32 with nb := true } 4 0 0).WellFormed ∧ ¬ (Instr.lds hT { g32 with ty := 3 } 4 6 0).WellFormed ∧
    ¬ (Instr.atom hT { add32 with aop := 7 } 4 6).WellFormed ∧ ¬ (Instr.lr hT { add32 with space := 1 } 4 6).WellFormed := by decide
theorem test_wf_index : ¬ (Instr.movs hT 0x14 4).WellFormed ∧ ¬ (Instr.sysw hT 8 4).WellFormed ∧
    ¬ (Instr.traprd hT true 4 4).WellFormed ∧ ¬ (Instr.subs hT 0 4 6 7).WellFormed := by decide
theorem test_wf_parcel : ¬ (Instr.afadd { p0 with sg := true } 1).WellFormed ∧ ¬ (Instr.movc { p0 with c := true } 0).WellFormed ∧
    ¬ (Instr.acmp false 1 6 0).WellFormed ∧ ¬ (Instr.ashfl 3 1 0).WellFormed := by decide
theorem test_wf_accepts : (Instr.iadd hT m0 4 5 6).WellFormed ∧ (Instr.afadd p0 1).WellFormed := by decide

/-! ## States to execute in -/

/-- A warp of 16 registers at the first word of overlay 0, all of whose lanes are active. -/
def spine : State := { State.reset.withCode [0] with agenda := [] }
/-- The same on a strand: a0 with a started segment, its windows written, a tile of kind t128 bound. -/
def strand0 : State := { State.reset.placeWord 32 0x10400000 with agenda := [], cur := { warp := 0, unit := 1, line := 0 } }
/-- The word of lane `l` of a register after an instruction. -/
def after (s : State) (i : Instr) (r : GReg) (l : Nat := 0) : Option Word :=
  match exec i s with
  | .next t => some (t.me.lane r l)
  | _ => none
/-- The trap that an instruction raises. -/
def trapOf (s : State) (i : Instr) : Option (Cause × Mask × DWord × DWord) :=
  match exec i s with
  | .next t => t.me.trap.map fun x => (x.cause, x.lmask, x.extra, x.faddr)
  | _ => none
/-- Flags on their way to FPFL. -/
def flagsOf (s : State) (i : Instr) : Option Byte :=
  match exec i s with
  | .next t => some (t.me.flagQ.foldl (fun x y => x ||| y.2) 0)
  | _ => none

/-- A load of one word of line 32 into g6, lane 0. -/
def waitingLoad (got : Bool) : Load :=
  { id := 1, warp := 0, core := 0, kind := .ld, acq := false, scope := 0, d := 6, wide := false, bytes := 4, sext := false,
    lanes := 1, pieces := [{ lane := 0, off := 0, len := 4, pa := 0x1000, va := 0x1000, got := got, val := 0, poison := false }], at_ := 0 }

/-- Operands in g4, g5 and g7, with pairs at g8 and g10. -/
def ops (a b c : Word) : State := spine.holding [(4, a), (5, b), (7, c)]

/-! ## Results: the worked examples of the entries (R189 to R195, R240) -/

theorem test_results_of_integers :
    after (ops 0x7FFFFFFF 1 0) (.iadd hT { m0 with sat := true, sg := 2 } 4 4 5) 4 = some 0x7FFFFFFF ∧
    after (spine.holding [(12, 5)]) (.iaddi hT 13 12 0xFFFFFF) 13 = some 4 ∧
    after (ops 3 5 0) (.isub hT { m0 with sat := true, sg := 1 } 4 4 5) 4 = some 0 ∧
    after (ops 0x10000 0x10000 0) (.imul hT m0 6 4 5) 6 = some 0 ∧
    after (ops 116856100 349496 0) (.imulh hT { m0 with sg := 1 } 6 4 5) 6 = some 9508 ∧
    after (ops 9508 (-12289) 116856100) (.imad hT m0 6 4 5 7) 6 = some 12288 ∧
    after (ops (-7) 2 0) (.idiv hT m0 6 4 5) 6 = some 0xFFFFFFFD ∧ after (ops (-7) 2 0) (.irem hT m0 6 4 5) 6 = some 0xFFFFFFFF ∧
    after (ops (-1) 1 0) (.imin hT { m0 with sg := 1 } 6 4 5) 6 = some 1 ∧ after (ops (-1) 1 0) (.imax hT m0 6 4 5) 6 = some 1 ∧
    after (ops 0x80000000 0 0) (.iabs hT { m0 with sat := true } 6 4) 6 = some 0x7FFFFFFF ∧
    after (spine.holding [(4, -1), (5, -1), (8, 1)]) (.imadw hT { m0 with sg := 1 } 8 4 5 8) 9 = some 0xFFFFFFFE ∧
    after (spine.holding [(8, -1), (10, 1)]) (.iadd64 hT m0 8 8 10) 9 = some 1 ∧
    after (spine.holding [(3, 0x7F20), (5, 3)]) (.lea hT false 2 6 2 5) 6 = some 12 := by decide +kernel

theorem test_results_of_logic :
    after (ops 0xFF 0x0F 0) (.and hT m0 true 6 4 5) 6 = some 0xF0 ∧
    after (ops 0x12345678 0 0) (.lopi hT 0 6 4 0xFFFF00) 6 = some 0x12345600 ∧
    after (ops 3 3 0) (.lsl hT m0 6 4 5) 6 = some 24 ∧ after (ops 0x80000000 40 0) (.lsr hT m0 6 4 5) 6 = some 0 ∧
    after (ops 0x80000000 40 0) (.asr hT m0 6 4 5) 6 = some 0xFFFFFFFF ∧
    after (ops 0x80000001 1 0) (.rot hT m0 6 4 5) 6 = some 3 ∧ after (ops 0x80000000 0 0) (.shi hT 1 6 4 26) 6 = some 0x20 ∧
    after (ops 0xF000 0x040C 0) (.bfe hT { m0 with sg := 2 } 6 4 5) 6 = some 0xFFFFFFFF ∧
    after (ops 5 0x040C 0xFFFFFFFF) (.bfi hT m0 6 4 5 7) 6 = some 0xFFFF5FFF ∧
    after (ops 0xF0F0 0 0) (.popc hT m0 6 4) 6 = some 8 ∧ after (ops 0x10000 0 0) (.clz hT m0 6 4) 6 = some 15 ∧
    after (ops 0x10000 0 0) (.ffs hT m0 6 4) 6 = some 16 ∧ after (ops 5 0 0) (.brev hT m0 6 4) 6 = some 0xA0000000 := by decide +kernel

theorem test_results_of_floats :
    after (ops 0x3F800000 0x33C00000 0) (.fadd hT { f0 with rm := 2 } 6 4 5) 6 = some 0x3F800000 ∧
    flagsOf (ops 0x3F800000 0x33C00000 0) (.fadd hT { f0 with rm := 2 } 6 4 5) = some 0x10 ∧
    after (ops 0x3FC00000 0x3FC00000 0) (.fsub hT f0 6 4 5) 6 = some 0 ∧
    after (ops 0x7F000000 0x40800000 0) (.fmul hT { f0 with sat := true } 6 4 5) 6 = some 0x7F7FFFFF ∧
    after (ops 0x3F800800 0x3F800800 0xBF800000) (.ffma hT f0 6 4 5 7) 6 = some 0x3A000400 ∧
    after (ops 0x3F800000 0x40400000 0) (.fdiv hT f0 6 4 5) 6 = some 0x3EAAAAAB ∧
    after (ops 0x40000000 0 0) (.fsqrt hT f0 6 4) 6 = some 0x3FB504F3 ∧
    after (ops 0x7FC00000 0x40400000 0) (.fmax hT { f0 with nb := true } 6 4 5) 6 = some 0xC0400000 ∧
    after (ops 0x40200000 0 0) (.frnd hT f0 false 6 4) 6 = some 0x40000000 ∧
    after (ops 0x80000000 0 0) (.fclass hT false 6 4) 6 = some 0x20 ∧
    after (ops 0x40003C00 0x3C003C00 0x3C003C00) (.pkfma hT f0 false 6 4 5 7) 6 = some 0x42004000 ∧
    after (ops 0x3F803F80 0x3F803F80 0) (.pkadd hT f0 true 6 4 5) 6 = some 0x40004000 := by decide +kernel

/-! ## States that meet the hypotheses: decoding and one step -/

/-- All lanes. -/
def all : Mask := 0xFFFFFFFF
/-- Whether an instruction is ready in every lane of a state. -/
def readyIn (s : State) (i : Instr) : Bool := s.ready i && s.me.activeSet i.hd == all
/-- The agenda names a spine's turn. -/
def spineNext : State := { spine with agenda := [(0, .spine 0)] }
/-- The agenda names a strand's turn. -/
def strandNext : State := { strand0 with agenda := [(0, .strand 0 0)] }

theorem test_LongFormRoundTrip_meets : (Instr.iadd hT m0 6 4 5).WellFormed ∧ (encodeLong (.iadd hT m0 6 4 5)).isSome = true := by
  decide
theorem test_ParcelRoundTrip_meets : (Instr.amovi true false 7).WellFormed ∧ encodeParcels (.amovi true false 7) = [0x0801, 7] := by
  decide
theorem test_ReservedCodeRaisesIllegal_meets :
    (decodeLong (LongWord.ofBits 0x20F0060405000000)).isSome = true ∧ (decodeParcel 0x1040 0).isSome = true ∧
    decodeLong (LongWord.ofBits 0x0EF0000000000000) = none ∧ spine.cur.warp < spine.warps.length ∧ spine.cur.unit = 0 ∧
    spine.me.allReady [(bitsAt 0x0EF0000000000000#64 52 4).toNat] = true ∧ decodeParcel 0x4C00 0 = none := by decide
theorem test_StepRunsTheSpine_meets :
    let b := (spineNext.nextTurn.2).tick 0
    let u := { b with cur := { b.cur with warp := 0, unit := 0 } }
    spineNext.nextTurn.1 = (0, .spine 0) ∧ (b.unitsAhead (b.clusterUnit 0 none)).all (b.passes exec) = true ∧ u.mayIssue 0 0 = true ∧ u.me.flowLost = false ∧
    (u.me.badArea && !u.me.handler) = false ∧ u.me.atJoin = false ∧ u.me.switchDue = false ∧ offOf u.me.pc % 8 = 0 ∧
    u.me.resumed = false ∧ u.me.rep = none ∧ u.code 0 u.me.pc = some 0 ∧
    u.me.awaits (u.usesOf (decodeWord 0)) (decodeWord 0) u.clock = false ∧ u.unitBusy 0 0 (decodeWord 0) = false := by decide +kernel
/-- R433: a strand of the warp that is ready comes before its spine once the spine has had its turn. -/
theorem test_StepRunsTheSpine_meets_a_unit_ahead :
    let s : State := { strand0 with agenda := [(0, .spine 0)] }
    let b := (s.nextTurn.2).tick 0
    (b.unitsAhead (b.clusterUnit 0 none)).all (b.passes exec) = false ∨
      (b.unitsAhead (b.clusterUnit 0 (some 0))).all (b.passes exec) = false := by decide +kernel
/-- R174, R239: an IADD that reads the result of another waits for it, and a DADD for the FP64 datapath. -/
theorem test_StepRunsTheSpine_meets_waiting :
    let s := spine.modMe fun v => v.post (.iadd hT m0 6 4 5) 10
    let t := spine.hold (.dadd hT f0 6 4 8)
    let i : Instr := .iadd hT m0 7 6 5
    s.me.awaits (s.usesOf i) i 13 = true ∧ s.me.awaits (s.usesOf i) i 14 = false ∧
    t.unitBusy 0 0 (.dmul hT f0 6 4 8) = true ∧ t.unitBusy 0 0 (.fadd hT f0 6 4 8) = false := by decide +kernel
theorem test_StepRunsTheSpine_meets_in_a_repetition :
    let u := { ((spineNext.on fun v => { v with rep := some { left := 2, idx := 1, str := 1 } }).nextTurn.2).tick 0 with
      cur := { warp := 0, unit := 0, line := 0 } }
    u.mayIssue 0 0 = true ∧ u.me.atJoin = false ∧ u.me.switchDue = false ∧ u.me.rep ≠ none ∧ u.code 0 u.me.pc = some 0 := by
  decide +kernel
theorem test_StepRunsTheParcel_meets :
    let b := (strandNext.nextTurn.2).tick 0
    let u := { b with cur := { b.cur with warp := 0, unit := 1 } }
    strandNext.nextTurn.1 = (0, .strand 0 0) ∧ (b.unitsAhead (b.clusterUnit 0 (some 0))).all (b.passes exec) = true ∧ u.mayIssue 0 1 = true ∧ u.me.handler = false ∧
    (u.me.strand 0).segs = [oneSegment 4] ∧ (oneSegment 4).started = true ∧ (u.me.strand 0).earliest ≤ u.clock ∧
    bitAt u.me.badStpc 0 = false ∧ (oneSegment 4).index < segLen (oneSegment 4).hdr ∧ u.parcel 0 (oneSegment 4).pc = some 0 ∧
    isAmovi 0 = false ∧ (u.me.strand 0).awaits (decodeShort 0 0) u.clock = false ∧
    u.unitBusy 0 1 (decodeShort 0 0) = false := by decide +kernel
/-- R124 to R126: a parcel waits for the accumulator of an AFDIV, and one of the special-function unit for that unit. -/
theorem test_StepRunsTheParcel_meets_waiting :
    let st := Strand.clear.post (.afdiv ⟨false, false, false, false⟩ 0) 10
    let t := { spine with cur := { spine.cur with unit := 1 } }.hold (.afrcp ⟨false, false, false, false⟩)
    st.awaits (.aput 0) 21 = true ∧ st.awaits (.aput 0) 22 = false ∧ st.awaits .aend 21 = false ∧
    t.unitBusy 0 1 (.afrsq ⟨false, false, false, false⟩) = true ∧ t.unitBusy 0 2 (.afrsq ⟨false, false, false, false⟩) = false := by
  decide +kernel
theorem test_StepRunsTheEvent_meets :
    State.reset.nextTurn.1 = (0, .event 0 0 0 .reset) ∧ Instr.isEvent .reset = true ∧ Instr.isEvent .correctableError = true := by
  decide
theorem test_OnlyLostControlFlowStops_meets :
    let s : State := spineNext.on fun v => { v with flowLost := true }
    s.agenda = [(0, .spine 0)] ∧ (match step s with
      | .fault f => f == .controlFlowUndefined
      | _ => false) = true := by decide +kernel
/-- R433: the turn of a cluster, whose first unit is that spine. -/
theorem test_OnlyLostControlFlowStops_meets_a_cluster :
    let s : State := { spine.on fun v => { v with flowLost := true } with agenda := [(0, .cluster 0 0 0)] }
    s.nextTurn.1 = (0, .cluster 0 0 0) ∧ (match step s with
      | .fault f => f == .controlFlowUndefined
      | _ => false) = true ∧ ((s.nextTurn.2.tick 0).unitOrder 0 0 0).any (fun u => u.strand == none) = true := by decide +kernel
theorem test_EveryStepKeepsTheClocks_meets :
    spineNext.Clocked ∧ (match step spineNext with
      | .next t => t.gtime == 0
      | _ => false) = true := by unfold State.Clocked; decide +kernel

/-! ## Before an effect -/

/-- IADD g6, g4, g5 with FE set for its A. -/
def addFe : Instr := .iadd { gp := 1, gn := false, fe := 1 } m0 6 4 5
theorem test_PrologueStops_meets_guard_pending :
    let s := spine.on fun v => v.modPred 1 fun p => { p with ready := false }
    (encodeLong addFe).isSome = true ∧ s.me.allReady [(guardOf addFe).toNat] = false := by decide +kernel
theorem test_PrologueStops_meets_illegal :
    spine.me.allReady [(guardOf addFe).toNat] = true ∧
    let i : Instr := .iadd hT m0 6 4 16
    (i.legal && (spine.usesOf i).inRange spine.me.regs.length && !i.barred spine.me.handler) = false := by decide +kernel
theorem test_PrologueStops_meets_guard_poison :
    let s := spine.on fun v => v.modPred 1 fun p => { p with poison := 4 }
    (addFe.legal && (s.usesOf addFe).inRange s.me.regs.length && !addFe.barred s.me.handler) = true ∧
    s.me.mask &&& (s.me.pred (guardOf addFe)).poison ≠ 0 := by decide +kernel
theorem test_PrologueStops_meets_early :
    spine.me.allReady [15] = true ∧ (spine.early (.qnt hT 0 6 4 5) all).isSome = true := by decide +kernel
theorem test_PrologueStops_meets_empty_destination :
    let s := spine.on fun v => v.empty 6
    (spine.early addFe 0).isNone = true ∧
    ((s.usesOf addFe).list.flatMap Use.dests).find? (fun r => !(s.me.reg r).full) = some 6 := by decide +kernel
theorem test_PrologueStops_meets_empty_source :
    let s := spine.on fun v => v.empty 4
    s.me.allFull ((s.usesOf addFe).list.flatMap Use.dests) = true ∧ s.me.emptySource (s.usesOf addFe) 1 = some (true, 4) ∧
    s.me.emptySource (s.usesOf addFe) 0 = some (false, 4) := by decide +kernel
theorem test_PrologueStops_meets_pending_predicate :
    let s := spine.on fun v => v.modPred 2 fun p => { p with ready := false }
    let i : Instr := .sel hT m0 6 4 5 { neg := false, p := 2 }
    s.me.allFull ((s.usesOf i).list.flatMap Use.sources) = true ∧ s.me.allReady i.predsUsed = false := by decide +kernel
theorem test_PrologueStops_meets_poisoned_operand :
    let s := spine.on fun v => v.modReg 4 fun r => { r with poison := 1 }
    let i : Instr := .iadd hT m0 6 4 5
    s.me.allReady i.predsUsed = true ∧ s.poisonOf i all = [(4, 1)] := by decide +kernel

/-! ## Results -/

theorem test_IntegerResults_meets :
    [Instr.iadd hT m0 6 4 5, .iaddi hT 6 4 1, .isub hT m0 6 4 5, .imul hT m0 6 4 5, .imulh hT m0 6 4 5, .imad hT m0 6 4 5 7,
     .imadw hT m0 6 4 5 8, .imin hT m0 6 4 5, .imax hT m0 6 4 5, .iabs hT m0 6 4, .iadd64 hT m0 6 8 10, .lea hT true 7 6 8 5].all
      (fun i => readyIn spine i && (integerResult spine.me i).isSome) = true := by decide +kernel
theorem test_IntegerResults_meets_under_sat :
    let m := { m0 with sat := true }
    [Instr.iadd hT m 6 4 5, .isub hT m 6 4 5, .imul hT m 6 4 5, .imad hT m 6 4 5 7, .imadw hT m 6 4 5 8, .iabs hT m 6 4,
     .iadd64 hT m 6 8 10].all (fun i => readyIn spine i && (saturatedResult spine.me i).isSome) = true := by decide +kernel
theorem test_Division_meets :
    let s := ops 7 0 0
    let z := maskOf fun l => all.getLsbD l && s.me.lane 5 l == 0#32
    readyIn s (.idiv hT m0 6 4 5) = true ∧ readyIn s (.irem hT m0 6 4 5) = true ∧ z ≠ 0 ∧ bitAt s.me.mode 8 = false ∧
    bitAt (s.on fun v => { v with mode := 0x100 }).me.mode 8 = true := by decide +kernel
theorem test_Division_meets_without_zero :
    (maskOf fun l => all.getLsbD l && (ops 0x80000000 (-1) 0).me.lane 5 l == 0#32) = 0 := by decide +kernel
theorem test_CarryChain_meets :
    readyIn spine (.iaddx hT 6 4 5 3) = true ∧ readyIn spine (.isubx hT 6 4 5 15) = true := by decide +kernel
theorem test_LogicResults_meets :
    [Instr.and hT m0 true 6 4 5, .or hT { m0 with w64 := true } false 6 8 10, .xor hT m0 false 6 4 5, .lopi hT 3 6 4 1,
     .lsl hT m0 6 4 5, .lsr hT m0 6 4 5, .asr hT m0 6 4 5, .rot hT m0 6 4 5, .shi hT 1 6 4 31, .bfe hT m0 6 4 5,
     .bfi hT m0 6 4 5 7, .popc hT m0 6 4, .clz hT m0 6 4, .ffs hT m0 6 4, .brev hT { m0 with w64 := true } 6 8].all
      (fun i => readyIn spine i && (logicResult spine.me i).isSome) = true := by decide +kernel
theorem test_MoveResults_meets :
    [Instr.mov hT { m0 with w64 := true } 6 8, .movi hT 6 1, .movs hT 0 6, .movs hT 0x0F 6, .sysr hT 3 6, .sysr hT 5 6,
     .sel hT m0 6 4 5 { neg := true, p := 2 }, .p2g hT 6, .vote hT 0 6 { neg := false, p := 1 }, .mbcnt hT true 6 4 5,
     .matchLanes hT 3 6 4, .redux hT m0 5 6 4, .fclass hT true 6 4].all
      (fun i => readyIn spine i && (moveResult spine all i).isSome) = true := by decide +kernel
/-- R477: a counter waits for an acquire of the warp whose read is under way. -/
theorem test_MoveResults_meets_an_acquire :
    let s : State := { (spine.on fun v => { v with acqIds := [1] }) with loads := [waitingLoad false] }
    s.ReadySome (.sysr hT 0x11 6) all ∧ s.acquiring s.cur.warp = true ∧ spine.acquiring 0 = false := by decide +kernel
theorem test_PredicateResults_meets :
    [Instr.icmp hT m0 5 1 4 5, .icmpi hT 0 1 15 4 7, .plop hT 3 { neg := true, p := 1 } 2 15 0xC0,
     .vote hT 1 2 { neg := false, p := 1 }, .vote hT 3 2 { neg := false, p := 1 }].all
      (fun i => readyIn spine i && (decidedResult spine.me all i).isSome) = true ∧
    readyIn spine (.g2p hT 4 0xFFF) = true := by decide +kernel
theorem test_LaneExchange_meets :
    spine.ReadySome (.shfl hT m0 2 6 4 5) all ∧ (spine.me.reg 5).poison &&& all = 0 ∧
    spine.ReadySome (.rdlane hT false true 6 8 5) all ∧ spine.ReadySome (.rdlane hT true false 6 4 0) all ∧
    (spine.me.reg 8).poison.getLsbD 31 = false ∧
    spine.Ready (.rdlane { hT with gp := 1 } false false 6 4 5) 0 := by decide +kernel
theorem test_LaneExchange_meets_poison :
    let s := spine.on fun v => v.modReg 4 fun r => { r with poison := 0x80000000 }
    let i : Instr := .shfl { hT with gp := 1 } m0 2 6 4 5
    let t := s.on fun v => v.modPred 1 fun p => { p with val := 0x7FFFFFFF }
    let u := t.holding [(5, 1)]
    u.Ready i 0x7FFFFFFF ∧ (maskOf fun l => (0x7FFFFFFF : Mask).getLsbD l &&
      (u.me.reg 4).poison.getLsbD (shflFrom 2 ((u.me.lane 5 l).toNat % 32) l)) = 0x40000000 := by decide +kernel
/-- The high word of a pair, and the lane that RDLANE names, poisoned. -/
theorem test_LaneExchange_meets_poisoned_pairs :
    let s := spine.on fun v => v.modReg 9 fun r => { r with poison := 1 }
    let t := spine.on fun v => v.modReg 5 fun r => { r with poison := 1 }
    let j := fun (l : Nat) => shflFrom 2 ((s.me.lane 5 l).toNat % 32) l
    s.Ready (.shfl hT { m0 with w64 := true } 2 6 8 5) all ∧ (maskOf fun l => all.getLsbD l && (s.me.reg 8).poison.getLsbD (j l)) = 0 ∧
    (maskOf fun l => all.getLsbD l && (s.me.reg 9).poison.getLsbD (j l)) ≠ 0 ∧
    s.ReadySome (.rdlane hT false true 6 8 5) all ∧ (s.me.reg 8).poison.getLsbD ((s.me.lane 5 0).toNat % 32) = false ∧
    (s.me.reg 9).poison.getLsbD ((s.me.lane 5 0).toNat % 32) = true ∧ s.ReadySome (.rdlane hT false false 6 9 5) all ∧
    t.ReadySome (.rdlane hT false false 6 8 5) all ∧ (t.me.reg 8).poison.getLsbD ((t.me.lane 5 0).toNat % 32) = false ∧
    (t.me.reg 5).poison.getLsbD (lowest all) = true := by decide +kernel

/-! ## Floating point -/

/-- The spine with a slot for quantised codes: e4m3 with a scale for each 8 lanes. -/
def quantised : State := spine.recorded 0x58 8 0x5033

theorem test_FloatingResults_meets :
    [Instr.fadd hT f0 6 4 5, .fsub hT f0 6 4 5, .fmul hT f0 6 4 5, .ffma hT f0 6 4 5 7, .fmin hT f0 6 4 5, .fmax hT f0 6 4 5,
     .fdiv hT f0 6 4 5, .fsqrt hT f0 6 4, .frcp hT f0 6 4, .frsq hT f0 6 4, .fexp2 hT f0 6 4 5 7, .flog2 hT f0 6 4,
     .fsin hT f0 6 4, .fcos hT f0 6 4, .frnd hT f0 true 6 4].all
      (fun i => readyIn spine i && (f32Result spine.me i).isSome) = true ∧
    [Instr.dadd hT f0 6 8 10, .dmul hT f0 6 8 10, .dfma hT f0 6 8 10 12, .ddiv hT f0 6 8 10, .dsqrt hT f0 6 8,
     .dminmax hT f0 true 6 8 10, .pkfma hT f0 true 6 4 5 7, .pkadd hT f0 false 6 4 5, .pkmul hT f0 true 6 4 5].all
      (fun i => readyIn spine i && (wideResult spine.me i).isSome) = true ∧
    [Instr.cvt hT 0 false false 0 0 6 8, .cvt hT 6 true false 0 1 6 4, .qnt hT 1 6 4 5, .dqnt hT 1 6 4, .scaleinit hT 1 6 4].all
      (fun i => readyIn quantised i && (convertResult quantised all i).isSome) = true ∧
    [Instr.fcmp hT f0 2 1 4 5, .dcmp hT f0 6 15 8 10].all (fun i => readyIn spine i && (judgedResult spine.me i).isSome) = true := by
  decide +kernel
theorem test_FloatingResults_meets_both_ways :
    let f := fun (_ : Nat) => (f32F.div { rnd := .rne, sat := false, ftz := false } (f32F.val 0x3F800000) (f32F.val 0)).fl
    raisingLanes 0 all f = 0 ∧ raisingLanes 0xF8 all f = all := by decide +kernel
theorem test_Reductions_meets :
    spine.ReadySome (.fredux hT 0 false false 6 4) all ∧ spine.ReadySome (.fredux hT 2 true false 6 8) all ∧
    enabledFlags spine.me.mode = 0 ∧
    strand0.parcelReady { acc := true } false = true ∧ (strand0.me.strand 0).view.lanes false = all := by decide +kernel
/-- R19, R250: with IV enabled, a sum that meets infinities of both signs raises, and one of numbers does not. -/
theorem test_Reductions_meets_both_ways :
    let g := combined f32F true false false
    let both := fun (l : Nat) => if l = 0 then 0x7F800000 else if l = 1 then 0xFF800000 else 0x3F800000
    (exchangeFlags g both &&& enabledFlags 0x8) ≠ 0 ∧ (exchangeFlags g (fun _ => 0x3F800000) &&& enabledFlags 0x8) = 0 ∧
    enabledFlags 0x8 ≠ 0 := by decide +kernel
theorem test_NumberFormats_meets :
    0x3C00 < 2 ^ f16F.width ∧ (f16F.val 0x3C00).isNan = false ∧ roundShift .rne false 5 1 = (2, false) ∧
    roundShift .rna false 5 1 = (3, false) ∧ roundShift .ru true 5 1 = (2, false) ∧ roundShift .rz false 4 1 = (2, true) := by
  decide +kernel

/-! ## Parcels -/

theorem test_AccumulatorResults_meets :
    [Instr.amov p0 1, .amovi true true 7, .afabs p0, .aiadd p0 1, .aisub p0 1, .aimul p0 1, .aimulh p0 7, .aand p0 1, .aor p0 1,
     .axor { p0 with c := true } 0, .ashl false 0 3, .ashr true 31 0].all (fun i =>
      (accumulated (strand0.me.strand 0).view i).any fun x => strand0.parcelReady x.1 x.2.1) = true := by decide +kernel
theorem test_FloatParcelResults_meets :
    [Instr.afadd p0 1, .afsub p0 1, .afrsub p0 1, .afmul { p0 with c := true } 0, .afmac { p0 with q := true } 2, .afmsc p0 1,
     .afmin p0 1, .afmax p0 1, .afrcp p0, .afrsq p0, .afdiv p0 1, .aexp2 p0 1, .alog2 p0, .acvt 13].all (fun i =>
      (accumulatedFl 0 (strand0.me.strand 0).view i).any fun x => strand0.parcelReady x.1 x.2.1) = true := by decide +kernel
theorem test_StrandStateResults_meets :
    strand0.parcelReady { win := some 7, q := true } true = true ∧
    strand0.parcelReady { acc := true, carry := true, q := false } false = true ∧
    strand0.parcelReady { sourceReads p0 0 false false with q := true } false = true ∧
    strand0.parcelReady (sourceReads { p0 with c := true } 0 true false) false = true ∧
    strand0.parcelReady { win := some 1 } false = true ∧ strand0.parcelReady { win := none } false = true := by decide +kernel
theorem test_StrandStateResults_meets_poison :
    let s : State := strand0.modStrand 0 0 fun st => { st with accP := 1 }
    let st := (s.me.strand 0).view
    s.parcelReady { win := none } false = true ∧
    (maskOf fun l => (st.lanes false).getLsbD l && (some (l ^^^ 1)).any fun i => st.accP.getLsbD i) = 2 := by decide +kernel
theorem test_StrandFlow_meets :
    let st := (strand0.me.strand 0).view
    strand0.parcelReady {} false = true ∧ st.seg.index + 1 < segLen st.seg.hdr ∧
    (strand0.parcel 0 (st.seg.pc + 2)).any badBody = false ∧ strand0.parcelReady { acc := true } false = true ∧
    (segOutv st.seg.hdr 1 && !bitAt st.seg.puts 1) = true ∧ (segOut st.seg.hdr 1).toNat < strand0.me.regs.length ∧
    (segOutv st.seg.hdr 0 && !bitAt 1#4 0) = false := by decide +kernel
theorem test_StrandFlow_meets_a_bad_body :
    let s := strand0.modStrand 0 0 fun st => { st with segs := [{ oneSegment 1 with seq := 1 }] }
    s.parcelReady {} false = true ∧ segLen (oneSegment 1).hdr ≤ (oneSegment 1).index + 1 := by decide +kernel

/-! ## Segments and slices -/

/-- The strand with its window of row numbers at `row` in every lane. -/
def rows (row : Word) : State :=
  strand0.modStrand 0 0 fun st => { st with segs := st.segs.map fun g =>
    { g with win := g.win.map fun x => { x with val := Lanes.all row } } }
theorem test_TileSlices_meets :
    let s := rows 127
    let x : Tile := { kind := .t128, elems := [], suspect := false, untested := false }
    (s.me.strand 0).tile = some x ∧ segKind (s.me.strand 0).seg.hdr = 2 ∧
    s.me.tileBusy 0 (s.me.strand 0).seg.seq = false ∧ s.parcelReady { win := some 1, acc := true } false = true ∧
    (s.me.strand 0).view.lanes false = all ∧ (decide (x.kind.groups ≤ 3) || (false && x.kind != .t64d)) = false ∧
    (maskOf fun l => all.getLsbD l && decide (x.kind.rows ≤ (((s.me.strand 0).view.seg.slot 1).val.at' l).toNat)) = 0 ∧
    (x.at' 127 (32 * 3 + 31)).poison = false ∧ x.elems.Pairwise (fun a b => a.1 < b.1) := by decide +kernel
theorem test_TileSlices_meets_outside :
    let s := rows 128
    s.parcelReady { win := some 1, acc := false } false = true ∧ (s.me.strand 0).view.lanes false ≠ 0 ∧
    (maskOf fun l => all.getLsbD l && decide (TileKind.t128.rows ≤ (((s.me.strand 0).view.seg.slot 1).val.at' l).toNat)) = all ∧
    decide (TileKind.t128.groups ≤ 4) = true ∧
    ((strand0.modStrand 0 0 fun st => { st with tile := none }).me.strand 0).tile = none := by decide +kernel
/-- R125, R148, R150: the element of an ASTS lands later; a slice without a tile waits for an earlier tile instruction. -/
theorem test_TileSlices_meets_landing :
    let put : TilePut := { due := 4, row := 127, col := 0, hi := false, val := 7 }
    let s := (rows 127).modStrand 0 0 fun st => { st with tilePuts := [put] }
    let st := (s.me.strand 0)
    let o : MatxOp := { id := 1, k := 0, work := .bind .t128, started := false, streamed := false, due := 0, out := none, flags := 0,
                        scope := 0, sent := none }
    let t := (strand0.modStrand 0 0 fun st => { st with tile := none, segs := [{ oneSegment 4 with seq := 2 }] }).on fun v => { v with matx := [o] }
    (strand0.me.strand 0).view.tilePuts = [] ∧ 0 < s.warps.length ∧ (st.land 3).tile = st.tile ∧ (st.land 4).tilePuts = [] ∧
    ((((st.land 4).tile.map fun t => (t.at' 127 0).bits.extractLsb' 0 32).getD 0) = 7#32) ∧
    segKind (t.me.strand 0).seg.hdr = 2 ∧ (t.me.strand 0).tile = none ∧ t.me.tileBusy 0 (t.me.strand 0).seg.seq = true ∧
    t.cur.warp < t.warps.length := by decide +kernel

/-- A header: KIND clear, 4 parcels, OUT0 = g12, IN0 = g4, IN1 = g5. -/
def header : BitVec 128 := 0#3 ++ 0#1 ++ 1#4 ++ 4#12 ++ 1#4 ++ 12#32 ++ 3#8 ++ 0x0504#64
/-- A warp with a segment at offset 8 of its overlay. -/
def withSegment : State := State.reset.withCode [0, bitsAt header 0 64, bitsAt header 64 64, 0x0200]
theorem test_StrandQueuesASegment_meets :
    let s := withSegment.on fun v => v.empty 5
    s.ReadySome (.strand hT 1 0 8) all ∧ s.headerAt (codeAddr 0 8) = some header ∧ (s.overlay 0 0).isSome = true ∧
    s.headerOk 1 (codeAddr 0 8) header = true ∧ (s.me.strand 1).segs.length < 2 ∧
    (∀ r ∈ validOut header, (s.me.reg r.toNat).full = true) ∧
    segInv header 0 = true ∧ (s.me.reg (segIn header 0).toNat).full = true ∧
    segInv header 1 = true ∧ (s.me.reg (segIn header 1).toNat).full = false := by decide +kernel
theorem test_StrandQueuesASegment_meets_a_bad_header :
    let s := State.reset.withCode [0, 0, 0, 0]
    s.ReadySome (.strand hT 1 0 8) all ∧ s.headerAt (codeAddr 0 8) = some 0 ∧ s.headerOk 1 (codeAddr 0 8) 0 = false := by
  decide +kernel

/-- A segment that waits to start. -/
def waitingSegment : Segment := { oneSegment 4 with started := false }
theorem test_SegmentControl_meets_start :
    let s : State := { strand0.modStrand 0 0 (fun st => { st with segs := [waitingSegment] }) with clock := 4 }
    s.cur.warp < s.warps.length ∧ (s.me.strand s.k).segs = [waitingSegment] ∧ waitingSegment.started = false ∧
    waitingSegment.at_ + 4 ≤ s.clock ∧ (s.me.strand s.k).earliest ≤ s.clock ∧ s.me.handler = false ∧ s.me.trap = none := by
  decide +kernel
theorem test_SegmentControl_meets_waits :
    let s := spine.on fun v => v.modStrand 0 fun st => { st with segs := [waitingSegment] }
    s.Ready (.waits hT 1) all ∧ s.me.segmentsDone 1 = false ∧ s.me.segmentsDone 2 = true ∧ s.ReadySome (.squash hT 3) all ∧
    waitingSegment.unput = [0, 1, 2, 3] := by decide +kernel
theorem test_SegmentControl_meets_aend :
    strand0.parcelReady {} false = true ∧ (strand0.me.strand strand0.k).segs = [oneSegment 4] ∧
    (oneSegment 4).unput = [0, 1, 2, 3] := by decide +kernel
theorem test_SegmentControl_meets_delivery :
    let s := spine.on fun v => { v.empty 6 with bcasts := [{ r := 6, k := 0, due := 0 }] }
    0 < s.warps.length ∧ 6 < (s.warp 0).regs.length ∧
    ((s.warp 0).bcasts.any fun b => b.r.toNat == 6 && b.due ≤ s.clock) = true := by decide +kernel

/-! ## Control flow -/

/-- The same warp with an empty predicate as the guard of an instruction. -/
def hEmpty : Hd := { gp := 1, gn := false, fe := 0 }
theorem test_EmptyMaskHasNoEffect_meets :
    [Instr.iadd hEmpty m0 6 4 5, .ld hEmpty g32 6 4 0, .bar hEmpty 0, .jmpi hEmpty 4, .aclr hEmpty 0].all
      (fun i => i.hd.isSome && spine.ready i && spine.me.activeSet i.hd == 0) = true := by decide +kernel

/-- Two words of code. -/
def code2 : State := State.reset.withCode [0, 0]
/-- The low half of the lanes in p1. -/
def State.half (s : State) : State := s.on fun v => v.modPred 1 fun p => { p with val := 0xFFFF }
theorem test_Transfers_meets :
    code2.Ready (.nop hT) all ∧ code2.ReadySome (.jmp hT 0 8) all ∧ code2.ReadySome (.call hT 0 8) all ∧
    code2.ReadySome (.jmpi hT 4) all ∧ code2.ReadySome (.calli hT 4) all ∧ all = code2.me.mask ∧
    (maskOf fun l => all.getLsbD l && code2.me.lane 4 l != code2.me.lane 4 (lowest all)) = 0 ∧
    (offOf 8#32 % 8 = 0 ∧ offOf 8#32 < 0x10000 ∧ (code2.overlay 0 (ovlOf 8#32)).isSome = true) ∧
    code2.overlay 0 (ovlOf (codeAddr 9 8)) = none ∧ code2.me.cstack.length < 4096 ∧ code2.Ready (.rep 1 255) all := by
  decide +kernel
theorem test_Transfers_meets_traps :
    let s := code2.on fun v => { v with cstack := List.replicate 4096 { pc := 0, pid := 0 } }
    let t := (State.half code2)
    t.ReadySome (.jmp hEmpty 0 8) 0xFFFF ∧ (0xFFFF : Mask) ≠ t.me.mask ∧ offOf 0x10000#32 = 0x10000 ∧ offOf 4#32 % 8 ≠ 0 ∧
    4096 ≤ s.me.cstack.length ∧ s.ReadySome (.call hT 0 8) all ∧
    (maskOf fun l => all.getLsbD l && (code2.on fun v => v.modReg 4 fun r => { r with val := Lanes.tab fun l => BitVec.ofNat 32 l }).me.lane 4 l
      != 0) = 0xFFFFFFFE := by decide +kernel
theorem test_Transfers_meets_returns :
    let a : CEntry := { pc := 8, pid := 5 }
    let b : CEntry := { pc := 8, pid := 0 }
    let s := code2.on fun v => { v with cstack := [a, b] }
    s.ReadySome (.ret hT) all ∧ all = s.me.mask ∧ s.me.cstack = [a] ++ b :: [] ∧ b.pid = s.me.pid ∧ a.pid ≠ s.me.pid ∧
    (∀ c ∈ (code2.on fun v => { v with cstack := [a] }).me.cstack, c.pid ≠ s.me.pid) := by decide +kernel
theorem test_Transfers_meets_returns_that_trap :
    let go := fun (x : Word) => code2.on fun v => { v with cstack := [{ pc := x, pid := 0 }] }
    let t := State.half code2
    (go 4).ReadySome (.ret hT) all ∧ offOf 4#32 % 8 ≠ 0 ∧ (go (codeAddr 9 8)).ReadySome (.ret hT) all ∧
    (offOf (codeAddr 9 8) % 8 = 0 ∧ offOf (codeAddr 9 8) < 0x10000 ∧ code2.overlay 0 (ovlOf (codeAddr 9 8)) = none) ∧
    t.ReadySome (.ret hEmpty) 0xFFFF ∧ (0xFFFF : Mask) ≠ t.me.mask := by decide +kernel
theorem test_Transfers_meets_rep_bodies :
    let may := fun (x : BitVec 64) =>
      let w := LongWord.ofBits x
      let u := (w.dropFe.spell.map Instr.uses).getD {}
      !(w.op.toNat ≤ 0x12 || (0xA0 ≤ w.op.toNat && w.op.toNat ≤ 0xAA)) && u.d != .none
    may 0x20F0060405000000 = true ∧ may 0x01F0000000000000 = false ∧ may 0xA3F0000000000000 = false := by decide
theorem test_Branches_meets :
    let s := State.half code2
    s.Ready (.bra hEmpty 1 1) 0xFFFF ∧ s.branchTo 1 = some 8 ∧ s.me.mask ≠ 0 ∧ (0xFFFF : Mask) ≠ s.me.mask ∧
    s.me.dstack.length ≤ 1022 ∧ s.me.pids.length < 65000 ∧
    s.Ready (.bra hT 0 1) all ∧ s.branchTo 0 = some 0 ∧ code2.Ready (.bra hEmpty 1 1) 0 := by decide +kernel
theorem test_Branches_meets_a_full_stack :
    let e : DEntry := { pc := 0, mask := 1, join := 0, path := true, park := false, pid := 1, rejoin := 0 }
    let s := State.half (code2.on fun v => { v with dstack := List.replicate 1023 e })
    s.Ready (.bra hEmpty 1 1) 0xFFFF ∧ 1022 < s.me.dstack.length := by decide +kernel

/-- A path entry with one lane. -/
def entry (park : Bool) (rejoin : Mask) : DEntry :=
  { pc := 0, mask := 1, join := 0xFFFFFFFF, path := true, park := park, pid := 7, rejoin := rejoin }
/-- A warp whose lane 0 waits in an entry of the divergence stack. -/
def split (e : DEntry) : State := spine.on fun v => { v with mask := 0xFFFFFFFE, dstack := [e] }
theorem test_PathsEndRejoinAndSwitch_meets_exit :
    let s := split (entry false 0)
    s.ReadySome (.exit hT) 0xFFFFFFFE ∧ s.me.mask &&& ~~~(0xFFFFFFFE : Mask) = 0 ∧
    (State.half spine).ReadySome (.exit hEmpty) 0xFFFF ∧ (State.half spine).me.mask &&& ~~~(0xFFFF : Mask) ≠ 0 ∧
    spine.ReadySome (.exit hT) all ∧ spine.me.live &&& ~~~all = 0 ∧ spine.me.segmentsDone 0xFF = true ∧ spine.me.eng = [] ∧
    spine.me.matx = [] ∧ spine.me.fails = [] ∧
    (spine.on fun v => v.modStrand 0 fun st => { st with segs := [waitingSegment] }).me.segmentsDone 0xFF = false := by decide +kernel
theorem test_PathsEndRejoinAndSwitch_meets_exit_with_operations :
    let s := spine.on fun v => { v with eng := [{ id := 1, cls := 0, scope := 3, work := .none, pages := [] }] }
    let t := spine.on fun v => { v with fails := [{ cls := 0, id := 1, faddr := 0, extra := 8 }] }
    s.ReadySome (.exit hT) all ∧ s.me.eng ≠ [] ∧ t.ReadySome (.exit hT) all ∧ t.me.eng = [] ∧ t.me.fails ≠ [] := by decide +kernel
theorem test_PathsEndRejoinAndSwitch_meets_wsync :
    let s := (split (entry true all)).holding [(4, all)]
    let e : Mask := 0xFFFFFFFE
    s.ReadySome (.wsync hT 4) e ∧ (∀ l, l < 32 → e.getLsbD l = true → s.me.lane 4 l = s.me.lane 4 (lowest e)) ∧
    (s.me.lane 4 (lowest e) ||| e) &&& s.me.live = all ∧ (entry true all).pc = s.me.pc ∧
    (∀ l, l < 32 → all.getLsbD l = true → s.me.mask.getLsbD l = true ∨ (entry true all).mask.getLsbD l = true) := by decide +kernel
theorem test_PathsEndRejoinAndSwitch_meets_wsync_parking :
    let s := (split (entry false 0)).holding [(4, all)]
    let t := (split (entry true 1)).holding [(4, all)]
    s.ReadySome (.wsync hT 4) 0xFFFFFFFE ∧ s.me.mask.getLsbD 0 = false ∧ s.me.dstack = [] ++ entry false 0 :: [] ∧
    t.ReadySome (.wsync hT 4) 0xFFFFFFFE ∧ t.me.dstack.any (fun y => y.path && !y.park) = false ∧
    (maskOf fun l => all.getLsbD l && (spine.on fun v => v.modReg 4 fun r =>
      { r with val := Lanes.tab fun l => BitVec.ofNat 32 l }).me.lane 4 l != 0) ≠ 0 := by decide +kernel
theorem test_PathsEndRejoinAndSwitch_meets_a_switch :
    let s := (split (entry false 0)).on fun v => { v with fairCount := 2048 }
    s.mayIssue 0 0 = true ∧ s.me.switchDue = true ∧ s.me.atJoin = false ∧ s.me.dstack = [] ++ entry false 0 :: [] ∧
    s.cur.warp < s.warps.length ∧ s.ReadySome (.yield hT) 0xFFFFFFFE ∧ s.me.handler = false := by decide +kernel
/-- A JOIN entry. -/
def joinEntry (mask : Mask) : DEntry := { entry false 0 with pc := 8, mask := mask, path := false, pid := 3 }
/-- R158: a path at its join: below it a PATH entry, a JOIN entry without lanes and one with lanes, parked paths, or nothing. -/
theorem test_PathsEndRejoinAndSwitch_meets_a_join :
    let s := spineNext.on fun v => { v with join := v.pc, dstack := [joinEntry 0, joinEntry all] }
    let b := (s.nextTurn.2).tick 0
    let u := { b with cur := { b.cur with warp := 0, unit := 0 } }
    s.nextTurn.1 = (0, .spine 0) ∧ (b.unitsAhead (b.clusterUnit 0 none)).all (b.passes exec) = true ∧ u.mayIssue 0 0 = true ∧
    u.me.flowLost = false ∧ (u.me.badArea && !u.me.handler) = false ∧ u.me.pc = u.me.join ∧ u.me.cstack = [] ∧ u.me.rep = none ∧
    s.me.dstack = [joinEntry 0] ++ [joinEntry all] ∧ (joinEntry 0).path = false ∧ (joinEntry all).mask ≠ 0 ∧
    ((entry false 0).path && !(entry false 0).park) = true ∧ ((entry true 1).path && (entry true 1).park) = true ∧
    [entry true 1, entry true 1].any (fun y => y.path && !y.park) = false := by decide +kernel
/-- R183: an EXIT whose path keeps no lane, while a path with a JOIN entry above it waits. -/
theorem test_PathsEndRejoinAndSwitch_meets_an_exit_of_a_path :
    let s := spine.on fun v => { v with mask := 0xFFFFFFFE, dstack := [joinEntry 0xFFFFFFFE, entry false 0] }
    let e : Mask := 0xFFFFFFFE
    let cut := (s.me.dstack.map fun x => { x with mask := x.mask &&& ~~~e, rejoin := x.rejoin &&& ~~~e }).filter
      (fun x => !x.path || x.mask != 0)
    s.ReadySome (.exit hT) e ∧ s.me.mask &&& ~~~e = 0 ∧ s.me.live &&& ~~~e ≠ 0 ∧ cut = [joinEntry 0] ++ entry false 0 :: [] ∧
    (∀ y ∈ cut, y.park = false) ∧ (entry false 0).path = true := by decide +kernel

/-! ## Traps and system registers -/

/-- A trap of the spine. -/
def someTrap : Trap :=
  { cause := .software, unit := 0, lmask := all, faddr := 0, extra := 7, engine := false, rept := false, stepped := false,
    spc := 8, xmask := all, pid := 0, at_ := 0 }
/-- A record of nothing else. -/
def someSnap : Snap := { stpc := [], sbase := [], core := 0, slot := 0, half := 0 }
theorem test_TrapsAndReturn_meets :
    spine.ReadySome (.trap hT 0xFFFFFF) all ∧ spine.ReadySome (.bkpt hT 0) all := by decide +kernel
theorem test_TrapsAndReturn_meets_entry :
    let s := { (spine.mapped.on fun v => { v with trap := some someTrap, trapBase := 0x40 }) with clock := 10 }
    s.cur.warp < s.warps.length ∧ s.me.trap = some someTrap ∧ s.me.handler = false ∧ s.me.trapBase ≠ 0xFFFFFFFF ∧
    s.me.escalating = false ∧ s.me.held = none ∧ someTrap.at_ + 10 ≤ s.clock ∧
    (match (s.vwriteParts 0 s.me.dstkBase.toNat (s.me.saveParts none ++
        [(0x14100, s.record 0 (someTrap.seen s.me) s.me.snap none)])).1 with
      | .ok _ => true
      | _ => false) = true := by decide +kernel
theorem test_TrapsAndReturn_meets_return :
    let s := spine.mapped.on fun v => { v with handler := true, opened := some (someTrap, someSnap) }
    s.Ready .eret all ∧ s.areaPending 0 = false ∧ s.me.opened.isSome = true ∧ (match s.readArea 0 with
      | .ok _ => true
      | _ => false) = true := by decide +kernel
theorem test_EscalationStepAndRecord_meets :
    let s := spine.on fun v => { v with trap := some someTrap, handler := true, opened := some (someTrap, someSnap) }
    s.me.trap = some someTrap ∧ s.me.held = none ∧ s.me.exited = false ∧ s.me.handler = true ∧ s.me.escalating = false ∧
    s.me.opened = some (someTrap, someSnap) ∧ spine.me.trapBase = 0xFFFFFFFF ∧ someTrap.unit ≤ 8 ∧ spine.me.snap.stpc.length = 8 ∧
    spine.me.snap.sbase.length = 8 := by decide +kernel
/-- R455: an error in control state inside the handler escalates with the record that opened it. -/
theorem test_EscalationStepAndRecord_meets_an_error_in_the_handler :
    let v := { spine.me with handler := true, escalating := true, opened := some (someTrap, someSnap) }
    (v.escalated { someTrap with cause := .poison, extra := 0xFD }).2.2 = some .poison ∧
    (v.escalated { someTrap with cause := .poison, extra := 0xFD }).1 = { someTrap with extra := 0xFD } := by decide +kernel
/-- R436, R443, R446: the region's policy holds the warp; the launch may instead be one that retries, or a task. -/
theorem test_EscalationStepAndRecord_meets_policies :
    let s := spine.on fun v => { v with trap := some someTrap }
    let t := s.recorded 0x26 2 1
    let u := s.modLaunch 0 fun l => { l with task := some { warp := 0, entry := 0x8000 } }
    s.me.trapBase = 0xFFFFFFFF ∧ s.me.group < s.groups.length ∧ (s.me.escalated someTrap).2.2 = none ∧
    (s.launch (s.group s.me.group).launch).task = none ∧ (s.launch 0).versioned = false ∧ (t.launch 0).versioned = true ∧
    s.eff 0 5 0x22 1 = 0 ∧ (u.launch (u.group u.me.group).launch).task = some { warp := 0, entry := 0x8000 } ∧ u.me.trap = some someTrap ∧
    u.me.held = none ∧ u.me.exited = false := by decide +kernel
theorem test_EscalationStepAndRecord_meets_a_step :
    let s := spine.on fun v => { v with stepCtl := 0x81, stepArmed := true }
    8 = (bitsAt s.me.stepCtl 4 4).toNat ∧ s.me.stepArmed = true ∧ (s.me.strand 7).segs = [] ∧ s.me.trap = none ∧
    s.me.handler = false ∧ s.me.held = none ∧ s.me.exited = false ∧ s.me.resumeAt ≤ s.clock := by decide +kernel
theorem test_SystemRegisters_meets :
    spine.ReadySome (.sets hT 4) all ∧ [0, 1, 2, 0x10, 0x17].all (fun i => spine.ready (.sysw hT i 4)) = true ∧
    [3, 6, 7].all (fun i => (spine.on fun v => { v with handler := true }).ready (.sysw hT i 4)) = true ∧
    spine.ReadySome (.sysw hT 4 4) all ∧ spine.ReadySome (.sysw hT 5 4) all ∧ spine.me.dstack.length ≤ 16 ∧
    spine.me.core < spine.cores.length := by decide +kernel
theorem test_SystemRegisters_meets_a_mode_on_its_way :
    let s := spine.on fun v => { v with modeDue := some (3, 7) }
    0 < s.warps.length ∧ (s.warp 0).modeDue = some (3, 7) ∧ ((s.tick 3).warp 0).mode = 0 ∧ ((s.tick 4).warp 0).mode = 7 := by decide +kernel
theorem test_SystemRegisters_meets_a_deep_stack :
    let s := spine.on fun v => { v with dstack := List.replicate 17 (entry false 0) }
    let t := spine.on fun v => { v with cstack := List.replicate 9 { pc := 0, pid := 0 } }
    s.ready (.sysw hT 5 4) = true ∧ 16 < s.me.dstack.length ∧ 8 < t.me.cstack.length := by decide +kernel

/-- Placing accesses succeeds: what it leaves. -/
theorem places {s : State} {e : Mask} {rd wr sc : Bool} {accs : List Acc}
    (h : (s.placeAll s.cur.warp rd wr accs).1.2 = [])
    (c : (s.placeAll s.cur.warp rd wr accs).2.conditions e wr sc (s.placeAll s.cur.warp rd wr accs).1.1 = none)
    (m : ((s.placeAll s.cur.warp rd wr accs).2.placesWait (s.placeAll s.cur.warp rd wr accs).1.1) = false) :
    s.Places e rd wr sc accs (s.placeAll s.cur.warp rd wr accs).1.1 (s.placeAll s.cur.warp rd wr accs).2 :=
  ⟨Prod.ext (Prod.ext rfl h) rfl, c, m⟩
/-- Whether accesses are placed as `State.Places` says. -/
def placed (s : State) (e : Mask) (rd wr sc : Bool) (accs : List Acc) : Bool :=
  let x := s.placeAll s.cur.warp rd wr accs
  x.1.2.isEmpty && !x.1.1.isEmpty && (x.2.conditions e wr sc x.1.1).isNone &&
    !(x.2.placesWait x.1.1)
theorem placed_places {s : State} {e : Mask} {rd wr sc : Bool} {accs : List Acc} (h : placed s e rd wr sc accs = true) :
    ∃ ps u, ps ≠ [] ∧ s.Places e rd wr sc accs ps u := by
  simp only [placed, Bool.and_eq_true, List.isEmpty_iff, Option.isNone_iff_eq_none, Bool.not_eq_true'] at h
  exact ⟨_, _, by simpa using h.1.1.2, places h.1.1.1 h.1.2 h.2⟩

/-- Lane l's address in g4 and g5 as a pair: 128 * l. -/
def loading : State :=
  spine.mapped.on fun v => v.modReg 4 fun r => { r with val := Lanes.tab fun l => BitVec.ofNat 32 (0x1000 + 128 * l) }
theorem test_SystemRegisters_meets_traprd :
    let s := loading.on fun v => { v with handler := true }
    s.ReadySome (.traprd hT true 6 0x78) all ∧ s.areaPending 0 = false ∧ s.canAccess = true ∧
    placed s all true false false (s.me.recordParts all true 0x78) = true := by decide +kernel

/-! ## Memory -/

theorem test_BytesOfALine_meets : 120 + 8 ≤ 128 ∧ 8 ≤ 8 ∧ 7 < 8 := by decide
theorem test_MemoryForm_meets_a_step :
    spineNext.mem = [] ∧ spineNext.memP = [] ∧ spineNext.l2 = [] ∧ spineNext.apart = [] ∧
    (∀ g ∈ spineNext.groups, g.scratch = [] ∧ g.scratchP = []) ∧ (match step spineNext with
      | .next _ => true
      | _ => false) = true := by decide +kernel
theorem test_MemoryForm_meets : Memory.wf spine.mem ∧ Sparse.wf false spine.memP ∧ Sparse.wf (0 : Byte) spine.myGroup.scratch := by
  decide +kernel
theorem test_LoadsStart_meets :
    let s := loading
    s.ReadySome (.ld hT g32 6 4 0) all ∧ s.canAccess = true ∧ g32.space ≠ 1 ∧
    ((lanesOf all).all fun l => !s.me.misaligned g32 4 0 (AccMod.size g32) l) = true ∧
    placed s all true false false ((lanesOf all).flatMap (s.me.laneParts g32 4 0 (AccMod.size g32))) = true ∧
    s.ReadySome (.lds hT g32 6 4 0) all := by decide +kernel
theorem test_LoadsStart_meets_traps :
    let s := loading
    (maskOf fun l => all.getLsbD l && (s.me.addr64 4 2 l).toNat % 4 != 0) = all ∧
    (spine.placeAll 0 true false ((lanesOf all).flatMap (spine.me.laneParts g32 4 0 4))).1.2.isEmpty = false := by decide +kernel
/-- LDC b32 of the image and of the GOT. -/
def image32 : AccMod := g32
theorem test_LoadsStart_meets_ldc :
    let s := loading
    s.ReadySome (.ldc hT image32 6 4 0) all ∧
    (∀ l, l < 32 → all.getLsbD l = true → (s.me.addr32 false 4 0 l).toNat % 4 = 0 ∧ (s.me.addr32 false 4 0 l).toNat < 0x10000) ∧
    s.ReadySome (.ldc hT { image32 with space := 1 } 6 4 0) all ∧ s.me.tableBase.toNat % 4 = 0 ∧
    placed s all true false false ((lanesOf all).flatMap fun l =>
      accParts l ((s.me.tableBase + (s.me.addr32 false 4 0 l).setWidth 64).toNat) 4) = true := by decide +kernel
/-- R302: with 744 requests of the core outstanding, an LDC of the image that needs 32 waits. -/
theorem test_LoadsStart_meets_a_full_core :
    let p := fun (i : Nat) => ({ lane := i, off := 0, len := 4, pa := 128 * i, va := 128 * i, got := false, val := 0, poison := false } : LPiece)
    let s : State := { loading with loads := (List.range 24).map fun i => { waitingLoad false with id := i, pieces := (List.range 31).map p } }
    let ps := s.myLaunch.imagePieces 4 all (s.me.addr32 false 4 0)
    s.ReadySome (.ldc hT image32 6 4 0) all ∧ s.canAccess = true ∧ s.lacksEntries (ps.map fun p => lineNo p.pa) = true ∧
    loading.lacksEntries (ps.map fun p => lineNo p.pa) = false := by decide +kernel
theorem test_LoadsStart_meets_lr :
    let s := loading
    s.ReadySome (.lr hT { add32 with ord := 1 } 6 4) all ∧ s.me.atomMis 4 4 all = [] ∧
    placed s all true false false ((lanesOf all).flatMap fun l => accParts l (s.me.lane2 4 l).toNat 4) = true := by decide +kernel

/-- The fill of that load. -/
def openFill : Fill := { id := 2, core := 0, line := 32, at_ := 0, loads := [1], alloc := true, joinable := true, barred := [] }
/-- A line at its home. -/
def homeLine : L2Line := L2Line.fresh { bits := 0, poison := 0 } .m 0
theorem test_DataAndAnswersArrive_meets_fill :
    let s := ({ spine with loads := [waitingLoad false], fills := [openFill], clock := 1000 } : State).setL2 32 homeLine
    s.fills.find? (fun f => f.id == 2) = some openFill ∧ s.fillReady openFill = true ∧ s.l2At 32 = some homeLine ∧
    homeLine.host ≠ .he ∧ (s.core 0).l1At 32 = none := by decide +kernel
/-- R362, R368: a fill of its own, one tied to another that is not ready, and one of a line whose write is on its way. -/
theorem test_DataAndAnswersArrive_meets_ties :
    let s := ({ spine with loads := [waitingLoad false], fills := [openFill], clock := 1000 } : State).setL2 32 homeLine
    let p : LPiece := { lane := 0, off := 4, len := 4, pa := 0x1080, va := 0x1080, got := false, val := 0, poison := false }
    let y := { waitingLoad false with wide := true, bytes := 8, pieces := (waitingLoad false).pieces ++ [p] }
    let g := { openFill with id := 3, line := 33, at_ := 950 }
    let t := ({ spine with loads := [y], fills := [openFill, g], clock := 1000 } : State).setL2 32 homeLine
    let ids := (t.tiedFills openFill).flatMap fun g => g.loads
    let flow : Flow := { write := 7, words := 1, hostLeft := false, hostAsked := false, nodes := [], upgrade := none }
    let nc := { openFill with alloc := false }
    let u : State := { s.setL2 32 { homeLine with prop := some flow } with fills := [nc] }
    s.tiedFills openFill = [openFill] ∧ s.flowOf 32 = none ∧ t.fillReady openFill ids = true ∧ 2 ≤ (t.tiedFills openFill).length ∧
    g ∈ t.tiedFills openFill ∧ t.fillReady g ids = false ∧ t.atHand g.line = false ∧ u.flowOf 32 = some 7 ∧
    u.tiedFills nc = [nc] ∧ u.fillReady nc = true ∧ (waitingLoad false).warp < u.warps.length := by decide +kernel
theorem test_DataAndAnswersArrive_meets_lr :
    let y := { waitingLoad false with kind := .lr }
    let s := ({ spine with loads := [y], fills := [openFill], clock := 1000 } : State).setL2 32 homeLine
    s.fillReady openFill = true ∧ openFill.loads.contains y.id = true ∧ s.versionedOf y.warp = false ∧
    (y.lanesAt openFill.line).getLsbD 0 = true ∧ nth 0 (s.warp y.warp).resvFrom 0 ≤ y.id := by decide +kernel
theorem test_DataAndAnswersArrive_meets_fetch :
    let s : State := { spine with loads := [waitingLoad false], fills := [openFill], cur := { warp := 0, unit := 0, line := 32 } }
    s.frame (128 * s.cur.line) = .hbm ∧ s.l2At s.cur.line = none ∧ s.named s.cur.line = true ∧
    (s.sliceLines s.cur.line).length < sliceCap := by decide +kernel
theorem test_DataAndAnswersArrive_meets_load :
    let s : State := { spine with loads := [waitingLoad true] }
    s.loads.find? (fun x => x.id == 1 && x.performed) = some (waitingLoad true) ∧ 0 < s.warps.length ∧
    (∀ r ∈ destRegs false 6, r < (s.warp 0).regs.length) := by decide +kernel
theorem test_DataAndAnswersArrive_meets_answers :
    let x : ScReq := { id := 3, warp := 0, d := 3, lanes := 1, ok := 1 }
    let y : NfReq := { id := 4, warp := 0, d := 6, pf := 3, lanes := 1, count := 1, complete := true }
    let s : State := { spine with scs := [x], nfs := [y] }
    s.scs.find? (fun x => x.id == 3) = some x ∧ x.warp < s.warps.length ∧ s.writes = [] ∧
    s.nfs.find? (fun x => x.id == 4) = some y ∧ y.d.toNat < (s.warp y.warp).regs.length := by decide +kernel
/-- R282: a CSTORE.nf whose loop has stopped does not wait for the write that it has sent. -/
theorem test_DataAndAnswersArrive_meets_a_stopped_answer :
    let y : NfReq := { id := 4, warp := 0, d := 6, pf := 3, lanes := 1, count := 1, complete := false }
    let s : State := { spine with nfs := [y] }
    s.nfs.find? (fun x => x.id == 4) = some y ∧ y.complete = false ∧ y.d.toNat < (s.warp y.warp).regs.length := by decide +kernel

theorem test_StoresStart_meets :
    let s := loading
    let x := s.placeAll 0 false true ((lanesOf all).flatMap (s.me.laneParts g32 4 0 4))
    s.ReadySome (.st hT g32 6 4 0) all ∧ s.canAccess = true ∧
    placed s all false true false ((lanesOf all).flatMap (s.me.laneParts g32 4 0 4)) = true ∧
    x.2.mayRelease false 0 = true ∧ (∀ p ∈ x.1.1, p.pa % 128 + p.acc.len ≤ 128) ∧
    (x.1.1.Pairwise fun a b => a.pa + a.acc.len ≤ b.pa ∨ b.pa + b.acc.len ≤ a.pa) ∧ s.versioned = false := by decide +kernel
/-- The same in a versioned group. -/
def inVersion : State := loading.recorded 0x26 2 1
theorem test_StoresStart_meets_a_version :
    let s := inVersion
    let x := s.placeAll 0 false true ((lanesOf all).flatMap (s.me.laneParts g32 4 0 4))
    s.ReadySome (.st hT g32 6 4 0) all ∧ s.canAccess = true ∧
    placed s all false true false ((lanesOf all).flatMap (s.me.laneParts g32 4 0 4)) = true ∧
    x.2.mayRelease false 0 = true ∧ s.versioned = true ∧ s.me.group < s.groups.length ∧
    x.2.versionWaits all false x.1.1 = false := by decide +kernel

/-! ## Scratch and atomics -/

/-- The group's one bank is in SCRATCH mode: 32 KiB of scratch; lane l has 4 * l in g4. -/
def scratchy : State :=
  ((spine.recorded 0x22 2 32).modCore 0 fun c =>
    { c with banks := c.banks.set 0 { Bank.cache with mode := .scratch, owner := some (0, 0) } }).on fun v =>
      v.modReg 4 fun r => { r with val := Lanes.tab fun l => BitVec.ofNat 32 (32640 + 4 * l) }
/-- An access of .s. -/
def s32 : AccMod := { g32 with space := 1 }
theorem test_ScratchAccesses_meets :
    let s := scratchy
    let at_ := fun (l : Nat) => (0, 32640 + 4 * l)
    s.ReadySome (.ld hT s32 6 4 0) all ∧ s.ReadySome (.st hT s32 6 4 0) all ∧ s.canAccess = true ∧
    (∀ l, l < 32 → all.getLsbD l = true → (s.me.addr32 false 4 0 l).toNat % 4 = 0 ∧
      s.scratchRange 0 (s.me.addr32 false 4 0 l) 4 = some (at_ l) ∧ s.scratchWaits 0 (at_ l).1 (at_ l).2 4 = false ∧
      s.matxMeetsScr (at_ l).1 (at_ l).2 4 = false) ∧
    s.readsOpen 0 s.nextId all = false ∧ s.allPerformed 0 s.nextId 0 = true ∧ s.me.group < s.groups.length ∧ Sparse.wf (0 : Byte) s.myGroup.scratch ∧
    Sparse.wf false s.myGroup.scratchP ∧ (∀ l k, l < 32 → k < 32 → l ≠ k → at_ l ≠ at_ k) := by
  refine ⟨?_, ?_, ?_, ?_, ?_, ?_, ?_, ?_, ?_, fun l k _ _ h => by simp; omega⟩ <;> decide +kernel
theorem test_ScratchAccesses_meets_atomics :
    let s := scratchy
    let m : AtomMod := { add32 with space := 1 }
    s.ReadySome (.atom hT m 4 6) all ∧ s.ReadySome (.atomr hT { m with ord := 3 } 6 4 7 0) all ∧ m.space = 1 ∧
    (∀ l, l < 32 → all.getLsbD l = true → (s.me.lane 4 l).toNat % 4 = 0 ∧
      s.scratchRange 0 (s.me.lane 4 l) 4 = some (0, 32640 + 4 * l)) := by decide +kernel
theorem test_ScratchAccesses_meets_traps_of_atomics :
    let s := scratchy.on fun v => v.modReg 4 fun r => { r with val := Lanes.tab fun l => BitVec.ofNat 32 (32644 + 4 * l) }
    let t := scratchy.holding [(4, 2)]
    let m : AtomMod := { add32 with space := 1 }
    s.ReadySome (.atom hT m 4 6) all ∧ (maskOf fun l => all.getLsbD l && (s.me.lane 4 l).toNat % 4 != 0) = 0 ∧
    (maskOf fun l => all.getLsbD l && (s.scratchRange 0 (s.me.lane 4 l) 4).isNone) = 0x80000000 ∧
    t.ReadySome (.atomr hT m 6 4 7 0) all ∧ (maskOf fun l => all.getLsbD l && (t.me.lane 4 l).toNat % 4 != 0) = all := by decide +kernel
theorem test_ScratchAccesses_meets_traps :
    let s := scratchy
    (maskOf fun l => all.getLsbD l && (s.me.addr32 false 4 2 l).toNat % 4 != 0) = all ∧
    (maskOf fun l => all.getLsbD l && (s.me.addr32 false 4 4 l).toNat % 4 != 0) = 0 ∧
    (maskOf fun l => all.getLsbD l && (s.scratchRange 0 (s.me.addr32 false 4 4 l) 4).isNone) = 0x80000000 := by decide +kernel
/-- Two positive numbers with one exponent, and a NaN. -/
theorem test_AtomicValues_meets_a_sum :
    ∃ q, f32F.val 0x3F800000 = .fin false 0x800000 q ∧ f32F.val 0x3FC00000 = .fin false 0xC00000 q ∧
      0x800000 + 0xC00000 ≠ 0 ∧ (f32F.val 0x7FC00000).isNan = true := by
  exact ⟨_, rfl, by decide +kernel, by decide, by decide +kernel⟩
theorem test_AtomicValues_meets : 0xFFFFFFFF < 2 ^ 32 ∧ 124 + 4 ≤ 128 ∧ 120 + 8 ≤ 128 ∧ 120 % 8 = 0 ∧ (10#4).toNat ≤ 10 ∧
    (10#4 : BitVec 4) ≠ 8 := by decide
theorem test_AtomicsStart_meets :
    let s := loading
    let x := s.placeAll 0 true true (s.me.atomAccs 4 4 all)
    s.ReadySome (.atom hT add32 4 6) all ∧ s.ReadySome (.atomr hT { add32 with ord := 3 } 6 4 7 0) all ∧ add32.space ≠ 1 ∧
    s.canAccess = true ∧ s.me.atomMis 4 4 all = [] ∧ s.versioned = false ∧ placed s all true true true (s.me.atomAccs 4 4 all) = true ∧
    x.2.mayRelease true 0 = true ∧ s.ReadySome (.sc hT add32 3 4 6) all ∧
    placed s all false true true (s.me.atomAccs 4 4 all) = true ∧ x.2.versionWaits all true x.1.1 = false := by decide +kernel
theorem test_AtomicsStart_meets_a_version :
    let s := inVersion
    let x := s.placeAll 0 true true (s.me.atomAccs 4 4 all)
    s.ReadySome (.atom hT add32 4 6) all ∧ s.ReadySome (.sc hT add32 3 4 6) all ∧ s.versioned = true ∧ s.canAccess = true ∧
    s.me.atomMis 4 4 all = [] ∧ placed s all true true false (s.me.atomAccs 4 4 all) = true ∧
    x.2.versionWaits all false x.1.1 = false := by decide +kernel
/-- R327: a scope above the group, a write to host memory, and a version with all of its 2 MiB in use. -/
theorem test_AtomicsStart_meets_traps_of_a_version :
    let s := inVersion.modCore 0 fun c => { c with tlb := [{ pageOne with pte := 0x90010000000000CF }] }
    let t := inVersion
    let x := s.placeAll 0 true true (s.me.atomAccs 4 4 all)
    let y := t.placeAll 0 true true (s.me.atomAccs 4 4 all)
    s.ReadySome (.atom hT add32 4 6) all ∧ s.versioned = true ∧ x.1.2 = [] ∧ (x.1.1.filter x.2.outsideVersion).isEmpty = false ∧
    t.ReadySome (.atom hT { add32 with scope := 3 } 4 6) all ∧ y.1.2 = [] ∧
    (y.1.1.filter y.2.outsideVersion).isEmpty = true := by decide +kernel
theorem test_AtomicsStart_meets_a_full_version (v : VerLine) :
    (inVersion.modGroup 0 fun g => { g with version := List.replicate 16384 (1000, v) }).overflows 0 [32] = some 0 := by
  have h : ((inVersion.modGroup 0 fun g => { g with version := List.replicate 16384 (1000, v) }).group 0).version =
    List.replicate 16384 (1000, v) := rfl
  have f : alFind 32 (List.replicate 16384 (1000, v)) = none := by
    rw [List.replicate_succ]; rfl
  simp only [State.overflows, State.versionLines, h, List.length_replicate]
  rw [show ([32] : List Nat).eraseDups = [32] from rfl, show ([32].filter fun l =>
    (alFind l (List.replicate 16384 (1000, v))).isNone) = [32] by simp only [List.filter, f, Option.isNone_none]]
  rfl
/-- The spine with a base of 0x1000 in g4 and g5, and p1 true in the low half. -/
def compacting : State := State.half (spine.mapped.holding [(4, 0x1000)])
theorem test_AtomicsStart_meets_cstore :
    let s := compacting
    let x := s.cstoreGo 4 0x1000 (lanesOf (all &&& (s.me.pred 1).val)) 0
    s.ReadySome (.cstore hT false 0 0 4 6 1) all ∧ (s.me.lane2 4 (lowest all)).toNat = 0x1000 ∧ s.canAccess = true ∧
    s.versioned = false ∧ x.1.length = 16 ∧ x.2.1 = none ∧ (x.2.2.conditions all true false x.1).isNone = true ∧
    (x.2.2.placesWait x.1) = false ∧ x.2.2.mayRelease false 0 = true ∧
    (∀ p ∈ x.1, p.pa % 128 + p.acc.len ≤ 128) ∧ (x.1.Pairwise fun a b => a.pa + a.acc.len ≤ b.pa ∨ b.pa + b.acc.len ≤ a.pa) ∧
    x.2.2.versionWaits all false x.1 = false ∧ s.ReadySome (.cstoreNf hT false 0 0 8 4 6 1 2) all := by decide +kernel
theorem test_AtomicsStart_meets_cstore_in_a_version :
    let s := compacting.recorded 0x26 2 1
    let t := s.modCore 0 fun c => { c with tlb := [{ pageOne with pte := 0x90010000000000CF }] }
    let x := s.cstoreGo 4 0x1000 (lanesOf (all &&& (s.me.pred 1).val)) 0
    let y := t.cstoreGo 4 0x1000 (lanesOf (all &&& (s.me.pred 1).val)) 0
    s.ReadySome (.cstore hT false 0 0 4 6 1) all ∧ s.versioned = true ∧ s.canAccess = true ∧ x.2.1 = none ∧
    (x.2.2.conditions all true false x.1).isNone = true ∧ x.2.2.versionWaits all false x.1 = false ∧ s.me.group < s.groups.length ∧
    t.ReadySome (.cstore hT false 0 0 4 6 1) all ∧ (y.1.filter y.2.2.outsideVersion).isEmpty = false := by decide +kernel
theorem test_AtomicsStart_meets_a_stopped_cstore :
    let s := (State.half spine).holding [(4, 0x1000)]
    (s.cstoreGo 4 0x1000 (lanesOf (all &&& (s.me.pred 1).val)) 0).2.1 = some (List.range 16, 0x1000, 0) := by decide +kernel

/-! ## Lines at their homes -/

/-- A write of the first word of line 32 that warp 0 has sent. -/
def onItsWay (kind : WKind) (phase : WPhase) : Write :=
  { id := 5, warp := some 0, core := some 0, lanes := 1, line := 32, va := 0x1000, kind := kind,
    data := { bits := 7, poison := 0 }, mask := 15, rel := false, scope := 0, phase := phase, nf := none, through := false,
    ptes := [], counter := none, seen := 0, wb := .over, req := 5, root := 0, region := 0, note := none }
/-- The spine with writes under way and lines at their homes; the step is about line 32. -/
def withWrites (l : List Write) (x : L2Line) : State :=
  ({ spine with writes := l, cur := { warp := 0, unit := 0, line := 32 } } : State).setL2 32 x
theorem test_WritesAtHome_meets :
    let s := withWrites [onItsWay .store .pending] homeLine
    let x := onItsWay .store .pending
    s.writes.find? (fun x => x.id == 5 && x.phase == .pending) = some x ∧ s.writeOrdered x = true ∧
    x.warp.any s.versionedOf = false ∧ s.l2At x.line = some homeLine ∧ s.lineBusy x.line = false ∧ homeLine.priv = false ∧
    homeLine.host ≠ .he ∧ s.frame (128 * x.line) = .hbm ∧ Memory.wf s.mem ∧ Sparse.wf false s.memP ∧ x.ptes = [] ∧
    s.reaches x.line = true ∧ s.tied x = [x] ∧
    (s.writeValue x homeLine.data).1.isSome = true ∧ homeLine.sends { bits := 7, poison := 0 } 1 = false := by decide +kernel
/-- The line with core 0 on its list, which a write is to reach. -/
def sharedLine (f : Option Flow) : L2Line :=
  { homeLine with nodes := [{ core := 0, fmt := .full }], prop := f, busy := f.isSome }
def flow (upgrade : Option Nat) (nodes : List Node) : Flow :=
  { write := 5, words := 1, hostLeft := false, hostAsked := false, nodes := nodes, upgrade := upgrade }
/-- A copy of line 32 in an L1. -/
def copy32 (fmt : Fmt) : L1Line :=
  { line := 32, bank := 0, sectors := 15, fmt := fmt, pst := .listed, data := { bits := 0, poison := 0 }, granted := 0,
    written := 0 }
theorem test_WritesAtHome_meets_a_version :
    let x := onItsWay (.sc 9 0) .pending
    let y := onItsWay (.atom 0 false true 0 1 0 0 none) .pending
    let s := { withWrites [x] homeLine with launches := (spine.recorded 0x26 2 1).launches }
    let t := s.modGroup 0 fun g => { g with vresv := [(0, 0, 32)] }
    s.writes.find? (fun x => x.id == 5 && x.phase == .pending) = some x ∧ s.writeOrdered x = true ∧ s.versionedOf 0 = true ∧
    x.kind.inVersion = true ∧ y.kind.inVersion = true ∧ s.versionReady x = true ∧ homeLine.host ≠ .he ∧ (s.warp 0).group < s.groups.length ∧
    (s.writeValue x homeLine.data).1 = none ∧ (t.writeValue x homeLine.data).1.isSome = true ∧
    (s.writeValue y homeLine.data).1.isSome = true := by decide +kernel
/-- R315: the page of the write has STACKL. -/
theorem test_WritesAtHome_meets_a_page_written_through :
    let x := { onItsWay .store .pending with through := true }
    let s := withWrites [x] homeLine
    (homeLine.through || (x.through && s.frame (128 * x.line) = .hbm)) = true ∧ s.writeOrdered x = true := by decide +kernel
theorem test_WritesAtHome_meets_a_shared_line :
    (sharedLine none).sends { bits := 7, poison := 0 } 1 = true := by decide +kernel
theorem test_WritesAtHome_meets_atomics_and_sc :
    let s : State := { spine with resv := [(0, 3, 32)], scs := [{ id := 9, warp := 0, d := 3, lanes := 8, ok := 0 }] }
    (0, 3, 32) ∈ s.resv ∧ s.versionedOf 0 = false ∧ (onItsWay (.sc 9 3) .pending).kind = .sc 9 3 ∧
    (onItsWay (.atom 0 false true 0 1 0 0 none) .pending).kind = .atom 0 false true 0 1 0 0 none := by decide +kernel
theorem test_WritesAtHome_meets_propagation :
    let n : Node := { core := 0, fmt := .full }
    let s := (withWrites [onItsWay .store .propagating] (sharedLine (some (flow none [n])))).modCore 0 fun c =>
      { c with l1 := [copy32 .full] }
    let t : State := { withWrites [{ onItsWay .store .propagating with ptes := [0x2000] }] (sharedLine (some (flow none []))) with nextId := 6 }
    s.l2At 32 = some (sharedLine (some (flow none [n]))) ∧ 0 < s.cores.length ∧ (s.core 0).l1At 32 = some (copy32 .full) ∧
    (copy32 .full).pst ≠ .leaving ∧ (copy32 .full).pst ≠ .detached ∧
    t.writes.find? (fun y => y.id == 5) = some { onItsWay .store .propagating with ptes := [0x2000] } ∧ t.committed 32 = false ∧
    5 < t.nextId ∧ (t.devNat 0x2000 8).testBit 7 = false := by decide +kernel
theorem test_WritesAtHome_meets_held :
    let x := onItsWay .store .held
    let s := withWrites [x] homeLine
    let t := s.mapped.translate x.core (s.rootOf 0) (s.regionOf 0) x.va false true
    let p := { pageOne with pte := 0x91000000000000CF }
    let u := (s.modCore 0 fun c => { c with tlb := [p] }).translate x.core (s.rootOf 0) (s.regionOf 0) x.va false true
    s.writes.find? (fun x => x.id == 5 && x.phase == .held && x.wb == .over) = some x ∧ x.warp = some 0 ∧
    t.1 = .ok 0x1000 pageOne ∧ pteWb pageOne.pte = false ∧ u.1 = .ok 0x1000 p ∧ pteWb p.pte = true := by decide +kernel
/-- R322, R376: the new leaf allows no write, or maps to a pool window that is lost. -/
theorem test_WritesAtHome_meets_held_and_lost :
    let x := onItsWay .store .held
    let s := withWrites [x] homeLine
    let u := (s.modCore 0 fun c => { c with tlb := [{ pageOne with pte := 0x90000000000000CB }] }).translate x.core (s.rootOf 0) (s.regionOf 0) x.va false true
    let p := { pageOne with pte := 0x94020000000000CF }
    let t := (s.modCore 0 fun c => { c with tlb := [p] }).modCtl fun c =>
      { c with modst := .ready, poolUp := c.poolUp.set 0 true,
               pwins := c.pwins.modify 0 fun w => { w with size := 1, grant := true, lost := true } }
    let v := t.translate x.core (s.rootOf 0) (s.regionOf 0) x.va false true
    x.core = some 0 ∧ x.counter = none ∧ u.1 = .fault 2 ∧ v.1 = .ok (2 ^ 49 + 0x1000) p ∧ pteWb p.pte = false ∧
    v.2.poolLost (2 ^ 49 + 0x1000) = some 0 ∧ (s.mapped.translate x.core (s.rootOf 0) (s.regionOf 0) x.va false true).2.poolLost 0x1000 = none ∧
    0 < t.warps.length := by decide +kernel

/-- A range of two lines at 0x1000: g4 and g5 the base, g6 its width and rows, g7 the pitch. -/
def ranged : State := spine.mapped.holding [(4, 0x1000), (6, 0x00010040), (7, 0)]
theorem test_SharedLines_meets_a_range :
    Passes (fun k => ranged.subRange all 4 6 7 k) [32, 33] ranged ∧ ranged.me.group < ranged.groups.length ∧
    ranged.ReadySome (.subs hT 1 4 6 7) all ∧ ranged.ReadySome (.upgr hT 0 4 6 7) all ∧
    ranged.ReadySome (.unsub hT 4 6 7) all ∧ ranged.heldFmt 0 32 = none := by
  refine ⟨fun _ => rfl, ?_⟩
  decide +kernel
/-- Core 0 holds line 32 under a narrow format, subscribed by the group. -/
def subscribed (f : Fmt) (x : L2Line) (pst : Pst := .listed) : State :=
  ((withWrites [] x).modCore 0 fun c => { c with l1 := [{ copy32 f with pst := pst }] }).modGroup 0 fun g => { g with subs := [(0, 32)] }
theorem test_SharedLines_meets_a_lower_rank :
    (subscribed .e5m2 homeLine).heldFmt 0 32 = some .e5m2 ∧ Fmt.e5m2.rank < Fmt.bf16.rank := by decide +kernel
/-- R384: the copy is detached. -/
theorem test_SharedLines_meets_a_detached_copy :
    (subscribed .e5m2 homeLine .detached).heldFmt 0 32 = none ∧
    (subscribed .e5m2 homeLine .detached).detachedFmt 0 32 = some .e5m2 ∧ Fmt.e5m2.rank < (fmtOf 1).rank ∧ (fmtOf 3).rank ≤ Fmt.e5m2.rank ∧
    (subscribed .e5m2 homeLine).subscribed 0 32 = true := by decide +kernel
theorem test_SharedLines_meets_join_and_leave :
    let j : Join := { id := 4, core := 0, line := 32, fmt := .full, sectors := 15 }
    let k : Join := { j with fmt := .bf16 }
    let s : State := { withWrites [] homeLine with joins := [j] }
    let t := subscribed .full (sharedLine none) .leaving
    s.joins.find? (fun j => j.id == 4) = some j ∧ 0 < s.cores.length ∧ s.leaving 0 32 = false ∧ s.lineBusy 32 = false ∧
    s.l2At 32 = some homeLine ∧ homeLine.nodes.length < 16 ∧ homeLine.priv = false ∧ homeLine.host ≠ .he ∧ (s.core 0).l1At 32 = none ∧
    (∀ y ∈ s.joins, y.fmt = .full) ∧ (∃ i ∈ (s.core 0).cacheBanks, ∀ y ∈ (s.core 0).l1, y.line % 256 = 32 % 256 → y.bank ≠ i) ∧
    k.fmt ≠ .full ∧ (subscribed .full homeLine).subscribed 0 32 = true ∧ ((subscribed .full homeLine).core 0).l1At 32 = some (copy32 .full) ∧
    t.leaving 0 32 = true ∧ t.lineBusy 32 = false ∧ t.l2At 32 = some (sharedLine none) := by decide +kernel
theorem test_SharedLines_meets_upgrade :
    let u : Upg := { id := 4, core := 0, line := 32, fmt := .full, sent := false }
    let x := { sharedLine none with nodes := [{ core := 0, fmt := .bf16 }] }
    let s : State := { subscribed .bf16 x with upgs := [u] }
    let f := flow (some 4) [{ core := 0, fmt := .full }]
    let t := subscribed .bf16 { x with prop := some f, busy := true }
    s.upgs.find? (fun u => u.id == 4 && !u.sent) = some u ∧ s.lineBusy u.line = false ∧ s.joins = [] ∧ s.l2At u.line = some x ∧
    (s.core 0).l1At 32 = some (copy32 .bf16) ∧ (copy32 .bf16).pst ≠ .leaving ∧ x.host ≠ .he ∧ (x.nodes.any fun n => n.core == u.core) = true ∧
    t.l2At 32 = some { x with prop := some f, busy := true } ∧ (t.core 0).l1At 32 = some (copy32 .bf16) ∧ f.upgrade = some 4 := by
  decide +kernel
/-- A window in which two cores wrote different bytes. -/
def observed : Obs :=
  { wr := [(0, 15), (1, 240)], rd := [], streak := 0, union := [], barred := false, start := 0 }
theorem test_SharedLines_meets_windows :
    let s : State := { withWrites [] { homeLine with obs := observed } with clock := 1024 }
    let t : State := { withWrites [] homeLine with clock := 1024 }
    s.l2At s.cur.line = some { homeLine with obs := observed } ∧ observed.start + 1024 ≤ s.clock ∧
    s.lineBusy s.cur.line = false ∧ (observed.disjoint && s.grantable 32 { homeLine with obs := observed }) = true ∧
    s.clock < observed.start + 2048 ∧ observed.streak = 0 ∧ sharesNone (joinMasks observed.wr observed.union) = true ∧ homeLine.obs.start + 1024 ≤ t.clock ∧ (homeLine.obs.disjoint && t.grantable 32 homeLine) = false := by
  decide +kernel
theorem test_SharedLines_meets_merge_and_recall :
    let x := { homeLine with priv := true }
    let s : State := { withWrites [onItsWay .store .pending] x with clock := 0 }
    let y := { homeLine with dirty := true }
    let t := withWrites [] y
    s.named s.cur.line = true ∧ s.lineBusy s.cur.line = false ∧ s.l2At s.cur.line = some x ∧ t.l2At t.cur.line = some y ∧
    t.lineBusy t.cur.line = false ∧ y.host = .hi ∧ y.priv = false ∧ y.dirty = true ∧ t.lineLost t.cur.line = false ∧
    Sparse.wf false t.memP ∧ t.l2.Pairwise (fun a b => a.1 < b.1) ∧ Memory.wf t.mem := by
  decide +kernel
/-- R491: the home of a pool line cannot be reached before the module is READY. -/
theorem test_SharedLines_meets_a_recall_out_of_reach :
    let y := { homeLine with dirty := true }
    let s := { spine with cur := { spine.cur with line := 2 ^ 42 } }.setL2 (2 ^ 42) y
    s.reaches (2 ^ 42) = false ∧ (withWrites [] y).reaches 32 = true ∧ s.l2At s.cur.line = some y ∧ s.lineBusy s.cur.line = false ∧
    s.lineLost s.cur.line = false ∧ s.l2.Pairwise (fun a b => a.1 < b.1) ∧ Memory.wf s.mem := by decide +kernel

/-! ## Fences, watches, barriers and banks -/

theorem test_FencesAndWatches_meets_a_pending_write :
    let s : State := { withWrites [{ onItsWay .store .pending with id := 1 }] homeLine with nextId := 2 }
    s.ReadySome (.fence hT 2 3) all ∧ s.allPerformed 0 s.nextId 3 = false ∧ s.ReadySome (.fence hT 0 3) all ∧
    spine.ReadySome (.fence hT 1 5) all ∧ spine.allPerformed 0 spine.nextId 5 = true := by decide +kernel
/-- R369, R376: the warp has lost a pool write, or has read a value that is still on its way. -/
theorem test_FencesAndWatches_meets_lost_and_early :
    let s := spine.on fun v => { v with lostWrite := some (0x1000, 2) }
    let flow : Flow := { write := 7, words := 1, hostLeft := false, hostAsked := false, nodes := [], upgrade := none }
    let t := (spine.setL2 32 { homeLine with prop := some flow }).on fun v => { v with early := [(32, 7)], acqEarly := [(32, 7)] }
    s.ReadySome (.fence hT 2 4) all ∧ s.me.lostWrite = some (0x1000, 2) ∧ s.allPerformed 0 s.nextId 4 = true ∧
    t.ReadySome (.fence hT 0 3) all ∧ (32, 7) ∈ t.stillEarly t.me.early ∧ t.me.lostWrite = none := by decide +kernel
theorem test_FencesAndWatches_meets_waitc :
    let o : EngOp := { id := 1, cls := 0, scope := 3, work := .none, pages := [] }
    let f : EngFail := { cls := 0, id := 1, faddr := 0, extra := 8 }
    let s := spine.on fun v => { v with eng := [o] }
    let t := spine.on fun v => { v with fails := [f] }
    s.ReadySome (.waitc hT 0 0) all ∧ 0 < s.me.outstanding 0 ∧ s.me.outstanding 0 ≤ 1 ∧ t.ReadySome (.waitc hT 0 0) all ∧
    t.me.outstanding 0 ≤ 0 ∧ t.me.fails = [] ++ f :: [] ∧ (∀ f ∈ t.me.fails, f.cls ≠ 1) := by decide +kernel
/-- A watch of warp 0 on line 32. -/
def watched (lwait hit : Bool) (f : Warp → Warp) : State :=
  ({ spine with watches := [{ warp := 0, lwait := lwait, line := 32, hit := hit }], gtime := 1000 } : State).on f
theorem test_FencesAndWatches_meets_mon :
    loading.ReadySome (.mon hT 4) all ∧ loading.watches.length < 256 ∧
    placed loading all true false false [{ lane := 0, off := 0, len := 1, va := (loading.me.lane2 4 0).toNat }] = true := by
  decide +kernel
theorem test_FencesAndWatches_meets_mwait :
    let s := watched false false fun v => { v with watch := .armed }
    let q : MwaitReq := { limit := 10, start := 0 }
    let t := s.on fun v => { v with wait := some .mwait, mwait := some q }
    s.ReadySome (.mwait hT 3 6) all ∧ s.watchEnd = none ∧ (s.me.lane 6 0).toNat = 0 ∧
    (watched false true fun v => { v with watch := .armed }).watchEnd = some true ∧
    (spine.on fun v => { v with watch := .lost }).watchEnd = some false ∧
    t.me.mwait = some q ∧ t.me.wait = some .mwait ∧ q.limit ≠ 0 ∧ q.start + q.limit ≤ t.gtime ∧ t.watchEnd = none := by
  decide +kernel
theorem test_FencesAndWatches_meets_firing :
    let s := watched false true fun v => { v with watch := .armed }
    s.watchOf s.cur.warp false = some { warp := 0, lwait := false, line := 32, hit := true } ∧ s.me.watch = .armed ∧
    s.cur.warp < s.warps.length := by decide +kernel

theorem test_BarriersAndPhases_meets :
    let s := spine
    let b := s.myGroup.bar 15
    s.me.group < s.groups.length ∧ s.me.barPhase.length = 16 ∧ s.myGroup.bars.length ≤ 16 ∧
    s.ReadySome (.bara hT 15) all ∧ (b.since ++ [(0, s.nextId)]).all (fun x => s.allPerformed x.1 x.2 0) = true ∧ 0 ∈ s.liveWarps s.me.group ∧ 0 ∉ b.arrived ∧
    s.ReadySome (.bar hT 15) all ∧ s.me.begun ≠ some s.me.pc ∧ s.ReadySome (.barw hT 15) all ∧
    ((s.liveWarps s.me.group).all fun w => (b.arrived ++ [0]).contains w) = true := by decide +kernel
/-- The group has a second warp, which has not arrived. -/
def twoWarps : State :=
  { spine with warps := spine.warps ++ [{ Warp.start 16 with readySince := 1 }],
               groups := spine.groups.map fun g => { g with warps := [0, 1] } }
theorem test_BarriersAndPhases_meets_waiting :
    let s := twoWarps.on fun v => { v with begun := some 0, barPhase := v.barPhase.set 15 (some 0) }
    ((twoWarps.liveWarps 0).all fun w => ([] ++ [0]).contains w) = false ∧ s.ReadySome (.bar hT 15) all ∧ s.me.begun = some s.me.pc ∧
    s.me.barPhase[15]? = some (some 0) ∧ (s.myGroup.bar 15).phase = 0 ∧
    ({ withWrites [{ onItsWay .store .pending with id := 1 }] homeLine with nextId := 2 } : State).allPerformed 0 2 0 = false := by
  decide +kernel
theorem test_BarriersAndPhases_meets_a_second_arrival :
    let b : Bar := { phase := 0, arrived := [0], since := [(0, 1)], before := [] }
    let s := spine.modGroup 0 fun g => { g with bars := [b] }
    s.ReadySome (.bara hT 0) all ∧ s.cur.warp ∈ (s.myGroup.bar 0).arrived := by decide +kernel
theorem test_BarriersAndPhases_meets_phase :
    let s := (twoWarps.recorded 0x4A 2 1).modWarp 1 fun v => { v with core := 1 }
    spine.ReadySome (.phase hT) all ∧ (spine.modMe fun v => { v with phase := 1, begun := some 0 }).leads = false ∧
    s.ReadySome (.phase hT) all ∧ (s.modMe fun v => { v with phase := 2, begun := some 0 }).leads = true := by decide +kernel
theorem test_BarriersAndPhases_meets_swap :
    let s := ({ twoWarps with loads := [waitingLoad false] } : State).on fun v => { v.empty 6 with wait := some (.reg 6) }
    (s.warp 0).core = 0 ∧ (s.warp 0).half = 0 ∧ (s.warp 0).active = true ∧ (s.warp 0).exited = false ∧
    (s.group (s.warp 0).group).phase = .resident ∧ s.longBlocked 0 = true ∧ s.readiest 0 0 = some 1 ∧
    (s.core 0).swapUntil 0 ≤ s.clock := by decide +kernel

/-- The bank of `scratchy` in FIFO mode with some bytes in it. -/
def queueing (n : Nat) : State :=
  let b : Bank := { mode := .fifo, owner := some (0, 0), fifo := List.replicate n { bits := 0, poison := 0 }, pending := [] }
  scratchy.modCore 0 fun c => { c with banks := c.banks.set 0 b }
theorem test_BanksAndOverlays_meets_bankm :
    let s := scratchy.holding [(6, 0), (7, 1)]
    s.ReadySome (.bankm hT 3 6) all ∧ (s.me.lane 6 0).toNat < s.myLaunch.nb ∧ (s.bankAt 0 0 0).isSome = true ∧
    s.me.core < s.cores.length ∧ s.ReadySome (.bankm hT 3 7) all ∧ s.myLaunch.nb ≤ (s.me.lane 7 0).toNat := by decide +kernel
theorem test_BanksAndOverlays_meets_fifo :
    let s := queueing 4
    let t := queueing 1024
    s.ReadySome (.fpush hT false 0 6) all ∧ 0 < s.myLaunch.nb ∧ ((s.bankAt 0 0 0).map fun x => (x.2.mode, x.2.pending, x.2.fifo.length)) =
      some (.fifo, [], 4) ∧ s.allPerformed 0 s.nextId 0 = true ∧ 4 + 4 ≤ 1024 ∧ s.ReadySome (.fpop hT false 6 0) all ∧
    t.ReadySome (.fpush hT true 0 6) all ∧ ((t.bankAt 0 0 0).map fun x => x.2.fifo.length) = some 1024 ∧
    (queueing 3).ReadySome (.fpop hT false 6 0) all := by decide +kernel
/-- R359: a bank that the group does not have, one in another mode, and one that is still to be switched. -/
theorem test_BanksAndOverlays_meets_no_fifo :
    let s := scratchy
    let b : Bank := { mode := .fifo, owner := some (0, 0), fifo := [], pending := [.scratch] }
    let t := scratchy.modCore 0 fun c => { c with banks := c.banks.set 0 b }
    s.ReadySome (.fpush hT false 200 6) all ∧ s.ReadySome (.fpop hT false 6 200) all ∧ s.myLaunch.nb ≤ (200#8).toNat ∧
    ((s.bankAt 0 0 0).map fun x => (x.2.mode, x.2.pending)) = some (.scratch, []) ∧ t.ReadySome (.fpush hT false 0 6) all ∧
    t.ReadySome (.fpop hT false 6 0) all ∧ 0 < t.myLaunch.nb ∧ ((t.bankAt 0 0 0).map fun x => x.2.pending) = some [.scratch] := by
  decide +kernel
theorem test_BanksAndOverlays_meets_a_switch :
    let b : Bank := { mode := .fifo, owner := some (0, 0), fifo := [], pending := [.scratch] }
    let s := scratchy.modCore 0 fun c => { c with banks := c.banks.set 0 b }
    (s.core 0).banks[0]? = some b ∧ 0 < s.groups.length ∧
    s.bankUsed 0 (((s.group 0).cores.findIdx? fun c => c == 0).getD 0) 0 = false := by decide +kernel
/-- Overlay 3 of the binary, 8 bytes at 0x2000, and the overlay table at 0. -/
def overlaid : State := { spine.mapped.holding [(6, 3)] with mem := [(49, 0x20), (56, 8)] }
theorem test_BanksAndOverlays_meets_ovld :
    let s := overlaid
    let r : Run := { place := .phys 0x2000, len := 8, va := 0x2000, acc := false, pte := none, through := false }
    s.ReadySome (.ovld hT 6) all ∧ s.mayQueue 0 = true ∧ (bitsAt (s.me.lane 6 0) 0 8).toNat = 3 ∧
    (match s.overlayEntry (some s.me.core) (s.rootOf 0) (s.regionOf 0) (s.binary 0) 3 with
      | (.ok x, _) => x == (0x2000, 8)
      | _ => false) = true ∧
    Passes (fun k => s.transRange all 0x2000 8 true false k) [r] s ∧ PassesOn (s.globConds all 0 false [r] []) s ∧
    s.me.core < s.cores.length ∧ s.overlaySlot 0 (fun o => o.num != 0 && !s.protects 0 o) = some 1 := by
  refine ⟨?_, ?_, ?_, ?_, fun _ => rfl, fun _ => rfl, ?_, ?_⟩ <;> decide +kernel
/-- R360: an entry of length 0, a table that is mapped nowhere, and an overlay that is resident. -/
theorem test_BanksAndOverlays_meets_ovld_without_a_load :
    let s := overlaid
    let t := overlaid.modCore 0 fun c => { c with tlb := [] }
    let o : Overlay := { binary := 0, num := 3, code := [], loading := true, used := 0 }
    let u := overlaid.modCore 0 fun c => { c with overlays := c.overlays.set 1 (some o) }
    let entry := fun (s : State) (n : Nat) => (s.overlayEntry (some s.me.core) (s.rootOf 0) (s.regionOf 0) (s.binary 0) n).1
    (match entry s 4, entry t 3, entry u 3 with
      | .ok x, .error (.fault _ _), .ok y => x == (0, 0) && y == (0x2000, 8)
      | _, _, _ => false) = true ∧ (u.core 0).overlays[1]? = some (some o) ∧ u.ReadySome (.ovld hT 6) all ∧ u.mayQueue 0 = true ∧
    Passes (fun k => u.transRange all 0x2000 8 true false k)
      [{ place := .phys 0x2000, len := 8, va := 0x2000, acc := false, pte := none, through := false }] u ∧
    ((u.core 0).overlays[0]?).map (fun o => o.map fun x => x.num) = some (some 0) := by
  refine ⟨?_, ?_, ?_, ?_, fun _ => rfl, ?_⟩ <;> decide +kernel
theorem test_BanksAndOverlays_meets_overlay_0 :
    let s := spine.modCore 0 fun c => { c with overlays := [some { binary := 0, num := 0, code := [], loading := true, used := 0 }] }
    0 < s.cores.length ∧ (s.core 0).overlays[0]? = some (some { binary := 0, num := 0, code := [], loading := true, used := 0 }) := by
  decide +kernel

/-! ## Engine operations -/

/-- 32 KiB of scratch, a page at 0 that maps onto itself, and one at 1 GiB that maps to the window of peer 0. -/
def engines : State := scratchy.modCore 0 fun c => { c with tlb :=
  [pageOne, { root := 0, base := 0x40000000, size := 0x40000000, pte := 0x90060000000000CF, ptr := 0x100008 }] }
/-- A run of memory that is read. -/
def src (pa n : Nat) : Run := { place := .phys pa, len := n, va := pa, acc := false, pte := none, through := false }
/-- A run of memory that is written. -/
def dst (pa n : Nat) : Run := { place := .phys pa, len := n, va := pa, acc := false, pte := some 0x100000, through := false }
/-- A run of scratch. -/
def scr (off n : Nat) : Run := { place := .scr 0 off, len := n, va := off, acc := false, pte := none, through := false }
theorem test_EngineOperationsQueue_meets_pref :
    let s := engines.holding [(8, 0x1000), (10, 256), (12, 0x2000), (14, 0x2008)]
    s.ReadySome (.prefCnt hT 8 10) all ∧ s.ReadySome (.prefCl hT 8 10 12) all ∧ s.mayQueue 0 = true ∧ s.mayQueue 4 = true ∧
    (s.me.lane2 12 0).toNat % 64 = 0 ∧ s.ReadySome (.prefCl hT 8 10 14) all ∧ (s.me.lane2 14 0).toNat % 64 ≠ 0 ∧
    Passes (fun k => s.prefLines all 0x1000 256 k) [32, 33] s ∧ Passes (fun k => s.clausePlace all 0x2000 k) [dst 0x2000 8] s := by
  refine ⟨?_, ?_, ?_, ?_, ?_, ?_, ?_, fun _ => rfl, fun _ => rfl⟩ <;> decide +kernel
theorem test_EngineOperationsQueue_meets_copy :
    let s := engines.holding [(8, 0x1000), (10, 256), (12, 0x4000)]
    s.ReadySome (.copy hT 1 3 12 8 10) all ∧ s.me.live &&& ~~~all = 0 ∧ s.ReadySome (.copy hT 0 3 12 8 10) all ∧
    Passes (fun k => s.engRange all true 8 256 true false k) [src 0x1000 256] s ∧
    Passes (fun k => s.engRange all false 12 256 false true k) [scr 0x4000 256] s ∧
    Passes (fun k => s.engRange all true 12 256 false true k) [dst 0x4000 256] s ∧
    PassesOn (s.globConds all 0x4000 false [src 0x1000 256] [dst 0x4000 256]) s := by
  refine ⟨?_, ?_, ?_, fun _ => rfl, fun _ => rfl, fun _ => rfl, fun _ => rfl⟩ <;> decide +kernel
theorem passes_trans {s : State} {e : Mask} {va n : Nat} {rd wr : Bool} {r : List Run}
    (h : s.vruns (some s.me.core) (s.rootOf s.cur.warp) (s.regionOf s.cur.warp) va n rd wr false (!s.versioned) = (.ok r, s)) :
    Passes (fun k => s.transRange e va n rd wr k) r s := fun k => by simp only [State.transRange]; rw [h]
/-- R327: destinations in host memory, in a versioned group. -/
theorem test_EngineOperationsQueue_meets_a_version :
    let s := (engines.holding [(8, 0x1000), (10, 256), (12, 0x40004000), (14, 0x400), (6, 0x40001000)]).modCore 0 fun c => { c with tlb :=
      [pageOne, { root := 0, base := 0x40000000, size := 0x40000000, pte := 0x90010000000000CF, ptr := 0x100008 }] }
    let t := s.recorded 0x26 2 1
    let far := { dst 0x1000040004000 256 with va := 0x40004000, pte := some 0x100008 }
    t.ReadySome (.copy hT 0 3 12 8 10) all ∧ t.versioned = true ∧
    (t.me.lane2 12 0).toNat = 0x40004000 ∧
    Passes (fun k => t.transRange all 0x40004000 256 false true k) [{ far with place := .phys 0x1000000004000 }] t ∧
    (globRuns [{ far with place := .phys 0x1000000004000 }]).filter t.remoteRun = [{ far with place := .phys 0x1000000004000 }] ∧
    (globRuns [dst 0x4000 256]).filter t.remoteRun = [] ∧ (globRuns [dst 0x1000 128]).flatMap Run.lines = [32] ∧
    t.ReadySome (.tstore hT 0 6 14 10) all ∧ t.ReadySome (.tstore hT 3 6 14 10) all ∧ (t.me.lane2 6 0).toNat % 128 = 0 ∧
    Passes (fun k => t.scrRange all 0x400 256 k) [scr 0x400 256] t ∧ (Passes (fun k => t.transRange all 0x40001000 8 true true k)
      [{ far with place := .phys 0x1000000001000, va := 0x40001000, len := 8 }] t) ∧
    (Passes (fun k => t.transRange all 0x40001080 256 false true k)
      [{ far with place := .phys 0x1000000001080, va := 0x40001080 }] t) := by
  refine ⟨?_, ?_, ?_, passes_trans ?_, ?_, ?_, ?_, ?_, ?_, ?_, fun _ => rfl, passes_trans ?_, passes_trans ?_⟩ <;> decide +kernel
theorem test_EngineOperationsQueue_meets_gath :
    let s := engines.holding [(8, 0x1000), (10, 256), (12, 0x00200001), (14, 0x400)]
    s.ReadySome (.gath hT 0 14 8 10 12) all ∧ (bitsAt (s.me.lane 12 0) 0 16).toNat = 1 ∧
    (bitsAt (s.me.lane 12 0) 16 16).toNat = 32 ∧ s.mayQueue 1 = true ∧ s.myGroup.words 0 256 1 = [0] ∧
    Passes (fun k => s.scrRange all 256 4 k) [scr 256 4] s ∧ Passes (fun k => s.scrRange all 0x400 32 k) [scr 0x400 32] s ∧
    Passes (fun k => s.gathRows all 0x1000 32 k [0] []) [src 0x1000 32] s ∧
    PassesOn (s.globConds all 0x1000 false [src 0x1000 32] []) s := by
  refine ⟨?_, ?_, ?_, ?_, ?_, fun _ => rfl, fun _ => rfl, fun _ => rfl, fun _ => rfl⟩ <;> decide +kernel
theorem test_EngineOperationsQueue_meets_pxfer :
    let s := engines.holding [(8, 0x40001000), (10, 256), (12, 0x2000)]
    let t := s.recorded 0x26 2 1
    s.ReadySome (.pxfer hT true 12 8 10) all ∧ s.versioned = false ∧ s.mayQueue 3 = true ∧
    (∀ k, s.peerRange all 0x40001000 256 true false k =
      k 0 [{ src 0x6000000001000 256 with va := 0x40001000 }] s) ∧
    Passes (fun k => s.transRange all 0x2000 256 false true k) [dst 0x2000 256] s ∧
    PassesOn (s.globConds all 0x2000 true [] [dst 0x2000 256]) s ∧ t.versioned = true ∧
    t.ReadySome (.pxfer hT true 12 8 10) all := by
  refine ⟨?_, ?_, ?_, fun _ => rfl, fun _ => rfl, fun _ => rfl, ?_, ?_⟩ <;> decide +kernel
theorem test_EngineOperationsQueue_meets_tiles :
    let s := engines.holding [(8, 0x1000), (10, 256), (12, 0x400), (14, 0x1040)]
    s.ReadySome (.tload hT 0 12 8 10) all ∧ s.ReadySome (.tstore hT 0 8 12 10) all ∧ s.ReadySome (.tload hT 0 12 14 10) all ∧
    s.ReadySome (.tstore hT 0 14 12 10) all ∧ (s.me.lane2 14 0).toNat % 128 ≠ 0 ∧ s.versioned = false ∧
    (∀ k, s.tileRange all 0x1000 0x400 256 false false k = k [scr 0x400 256] [src 0x1000 8] [src 0x1080 256] s) ∧
    (∀ k, s.tileRange all 0x1000 0x400 256 true false k = k [scr 0x400 256] [dst 0x1000 8] [dst 0x1080 256] s) := by
  refine ⟨?_, ?_, ?_, ?_, ?_, ?_, fun _ => rfl, fun _ => rfl⟩ <;> decide +kernel
theorem test_EngineOperationsQueue_meets_a_missing_lane :
    let s := State.half engines
    let low : Mask := 0xFFFF
    s.ReadySome (.copy { hT with gp := 1 } 1 3 12 8 10) low ∧ s.me.live &&& ~~~low ≠ 0 := by decide +kernel
/-- Counts and sizes at the edges of their ranges. -/
theorem test_EngineOperationsQueue_meets_bad_counts :
    let s := engines.holding [(8, 0x1000), (10, 0), (12, 0x00200000), (6, 0x00210001), (14, 0x1080)]
    s.me.live &&& ~~~all = 0 ∧ s.ReadySome (.gath hT 0 14 8 10 12) all ∧ s.ReadySome (.gath hT 0 14 8 10 6) all ∧ s.mayQueue 1 = true ∧
    (bitsAt (s.me.lane 12 0) 0 16).toNat = 0 ∧ (bitsAt (s.me.lane 6 0) 16 16).toNat % 32 ≠ 0 ∧
    s.ReadySome (.tload hT 0 12 8 10) all ∧ s.ReadySome (.tstore hT 0 8 12 10) all ∧ s.mayQueue 0 = true ∧
    (s.me.lane2 8 0).toNat % 128 = 0 ∧ (s.me.lane 10 0).toNat = 0 := by decide +kernel

/-- An operation of a class. -/
def op (cls : Nat) (work : EngWork) : EngOp := { id := 1, cls := cls, scope := 0, work := work, pages := work.named.filterMap Run.range }
/-- The warp has operations outstanding; memory holds `m`. -/
def engaged (l : List EngOp) (m : List Host.Cell := []) : State :=
  { engines.on (fun v => { v with eng := l }) with mem := m, nextId := 2 }
theorem test_EngineOperationsComplete_meets_copy :
    let s := engaged [op 0 (.copy [src 0x1000 256] [dst 0x4000 256])]
    (s.warp 0).eng.filter (fun o => o.cls == 0) = op 0 (.copy [src 0x1000 256] [dst 0x4000 256]) :: [] ∧ (0 : BitVec 2) ≠ 2 ∧
    (s.group (s.warp 0).group).phase ≠ .killed ∧ PassesOn (s.bulk 0 1 0 [src 0x1000 256] [dst 0x4000 256]) s := by
  refine ⟨?_, ?_, ?_, fun _ => rfl⟩ <;> decide +kernel
theorem test_EngineOperationsComplete_meets_tload :
    let o := fun n pass => op 0 (.tload 0x1000 [src 0x1000 8] [src 0x1080 256] [scr 0x400 256] n pass)
    let s := engaged [o 0 none]
    let t := engaged [o 4095 none] [(0x1000, 3)]
    (∀ n p, (engaged [o n p]).me.eng = [o n p]) ∧ numOf (s.readGroup 0 [src 0x1000 8]) % 2 = 0 ∧
    numOf (t.readGroup 0 [src 0x1000 8]) % 2 = 1 ∧ PassesOn (s.bulk 0 1 0 [src 0x1000 8] []) s ∧
    PassesOn (t.bulk 0 1 0 [src 0x1000 8] []) t ∧
    PassesOn ((engaged [o 0 (some (0, false))]).bulk 0 1 0 [src 0x1080 256] [scr 0x400 256]) (engaged [o 0 (some (0, false))]) ∧
    PassesOn ((engaged [o 0 (some (0, true))]).bulk 0 1 0 [src 0x1000 8] []) (engaged [o 0 (some (0, true))]) := by
  refine ⟨fun _ _ => rfl, ?_, ?_, fun _ => rfl, fun _ => rfl, fun _ => rfl, fun _ => rfl⟩ <;> decide +kernel
theorem test_EngineOperationsComplete_meets_tstore :
    let ver := [dst 0x1000 8]
    let data := [dst 0x1080 256]
    let o := op 0 (.tstore ver [scr 0x400 256] data)
    let s := engaged [o]
    let t := engaged [o] [(0x1000, 3)]
    let v := s.recorded 0x26 2 1
    (s.warp 0).eng.filter (fun o => o.cls == 0) = [o] ∧ (t.warp 0).eng.filter (fun o => o.cls == 0) = [o] ∧
    s.versionedOf 0 = false ∧ (∀ q ∈ ver ++ data, q.held = false) ∧ s.unlinked (firstPa ver) = false ∧
    numOf (s.readGroup 0 ver) % 2 = 0 ∧ numOf (t.readGroup 0 ver) % 2 = 1 ∧ v.versionedOf 0 = true ∧
    PassesOn (s.bulk 0 1 0 ver []) s ∧ PassesOn (t.bulk 0 1 0 ver []) t ∧
    PassesOn (v.bulk 0 1 0 (ver ++ [scr 0x400 256]) (ver ++ data)) v := by
  refine ⟨?_, ?_, ?_, ?_, ?_, ?_, ?_, ?_, fun _ => rfl, fun _ => rfl, fun _ => rfl⟩ <;> decide +kernel
theorem test_EngineOperationsComplete_meets_writing :
    let o := op 0 (.writing [9] (.data [dst 0x1000 8] [scr 0x400 256] [dst 0x1080 256] 0))
    let p := op 0 (.writing [9] (.version [dst 0x1000 8] 0))
    let s := engaged [o]
    let t : State := { engaged [o] with writes := [{ onItsWay .engine .pending with id := 9 }] }
    s.allDone [9] 0 = true ∧ t.allDone [9] 0 = false ∧ (engaged [p]).allPerformed 0 1 0 = true ∧
    ({ engaged [p] with writes := [{ onItsWay .store .pending with id := 0 }] } : State).allPerformed 0 1 0 = false ∧
    PassesOn (s.bulk 0 1 0 [scr 0x400 256] [dst 0x1080 256]) s := by
  refine ⟨?_, ?_, ?_, ?_, fun _ => rfl⟩ <;> decide +kernel
theorem test_EngineOperationsComplete_meets_ovld_and_pref :
    let o := op 0 (.ovld 0 0)
    let p := op 4 (.pref [32] (some (dst 0x2000 8)))
    let q := op 0 (.pref [32] none)
    let s := (engaged [p]).setL2 32 homeLine
    ((engaged [o]).warp 0).eng.filter (fun o => o.cls == 0) = [o] ∧ ((engaged [p]).warp 0).eng.filter (fun o => o.cls == 4) = [p] ∧
    ((engaged [o]).core 0).overlays[0]?.isSome = true ∧ 0 < (engaged [o]).warps.length ∧
    ((engaged [q]).warp 0).eng.filter (fun o => o.cls == 0) = [q] ∧ s.linesPending 0 1 0 [32] = false ∧
    (State.installAll s [32]).1 = [] ∧ (State.installAll { s with free := s.free + 1 } [32]).1 = [] ∧ (dst 0x2000 8).place = .phys 0x2000 := by
  decide +kernel
theorem test_EngineOperationsComplete_meets_counts :
    let d : LineData := { bits := 1#1024 <<< 16, poison := 0 }
    2 + 2 ≤ 128 ∧ (lineRead d.bits 2 2).toNat = 1 ∧ (lineRead (0 : BitVec 1024) 2 2).toNat = 0 := by decide +kernel
theorem test_EngineOperationsComplete_meets_a_link_down :
    let near := [dst 0x2000 256]
    let far := [{ src 0x6000000001000 256 with va := 0x40001000 }]
    let s := (engaged [op 3 (.pxfer true 0x40001000 0 near far)]).modCtl fun c => { c with peerUp := c.peerUp.set 0 false }
    let t := (engaged [op 3 (.pxfer true 0x40001000 0 near far)]).modCtl fun c => { c with peerUp := c.peerUp.set 0 true }
    (s.warp 0).eng.filter (fun o => o.cls == 3) = [op 3 (.pxfer true 0x40001000 0 near far)] ∧ 1 ≤ runsLen far ∧
    nth true s.ctl.peerUp 0 = false ∧ nth true t.ctl.peerUp 0 = true ∧ 0 < s.warps.length ∧ PassesOn (s.bulk 0 1 0 [] near) s ∧
    PassesOn (t.bulk 0 1 0 [] near) t := by
  refine ⟨?_, ?_, ?_, ?_, ?_, fun _ => rfl, fun _ => rfl⟩ <;> decide +kernel
/-- R491: a module that is READY carries a transfer, and one that is not holds it back. -/
theorem test_EngineOperationsComplete_meets_carrying :
    spine.carries = false ∧ (engaged []).carries = false ∧ ((engaged []).modCtl fun c => { c with modst := .ready }).carries = true := by
  decide +kernel

/-! ## Matrix operations -/

/-- Accumulator 0 has a clear tile of a kind, and the pages of the first GiB lie in one stack; slot 1 names
e4m3 blocks, and slot 2 bf16 and e4m3 ones. -/
def tiled (kind : TileKind) : State :=
  ((((engines.recorded 0x58 8 0x5033).recorded 0x60 8 0x5031).recorded 0x24 2 64).modCore 0 fun c =>
    { c with tlb := [{ pageOne with pte := 0x92000000000000CF }] }).modStrand 0 0 fun st => { st with tile := some (Tile.clear kind) }
/-- A run in a page with STACKL. -/
def Run.whole (r : Run) : Run := { r with through := true }
theorem test_MatrixOperationsQueue_meets_mma :
    let s := (tiled .t128).holding [(8, 0), (9, 9216)]
    let t := s.modCore 0 fun c => { c with baton := some 3 }
    let x := s.myLaunch.slot 1
    s.ReadySome (.mma hT 0 8 9 1) all ∧ s.me.bound 0 = some (Tile.clear .t128) ∧ shapeKind x = .t128 ∧
    (Tile.clear .t128).suspect = false ∧ s.mayQueue 2 = true ∧ 0 < s.cores.length ∧
    Passes (fun k => s.ownBlock all true (s.me.lane 8 0) (blockBytes x (slotA x) (slotRows x)) k) 0 s ∧
    Passes (fun k => s.ownBlock all true (s.me.lane 9 0) (blockBytes x (slotB x) (slotRows x)) k) 9216 s ∧
    (s.core 0).baton = none ∧ (s.core 0).batonQ = [] ∧ t.holdsBaton = false ∧ (t.core 0).baton = some 3 ∧
    t.ReadySome (.mma hT 0 8 9 1) all := by
  refine ⟨?_, ?_, ?_, ?_, ?_, ?_, fun _ => rfl, fun _ => rfl, ?_⟩ <;> decide +kernel
theorem test_MatrixOperationsQueue_meets_mmap :
    let s := ((tiled .t128p).recorded 0x26 2 2).holding [(8, 0), (9, 9216)]
    let x := s.myLaunch.slot 1
    s.ReadySome (.mmap hT 0 8 9 1) all ∧ s.me.bound 0 = some (Tile.clear .t128p) ∧
    Passes (fun k => s.ownBlock all true (s.me.lane 9 0) (blockBytes x (slotB x) 256) k) 9216 s := by
  refine ⟨?_, ?_, fun _ => rfl⟩ <;> decide +kernel
theorem test_MatrixOperationsQueue_meets_smv :
    let s := (tiled .t128).holding [(8, 0), (10, 0x4000), (12, 0x00010001)]
    let t := s.holding [(12, 0)]
    let x := s.myLaunch.slot 2
    s.ReadySome (.smv hT 0 8 10 12 2) all ∧ t.ReadySome (.smv hT 0 8 10 12 2) all ∧ (bitsAt (s.me.lane 12 0) 0 4).toNat = 1 ∧
    (bitsAt (s.me.lane 12 0) 16 7).toNat = 1 ∧ s.me.lane 12 0 &&& 0xFF80FFF0 = 0 ∧ (s.me.lane2 10 0).toNat % 128 = 0 ∧
    Passes (fun k => s.ownBlock all false (s.me.lane 8 0) 128 k) 0 s ∧
    (∀ f, s.stackRange all f (rangeParts 0x4000 (1 * blockBytes x (slotB x) 128)) [] 0 = 
      f [Run.whole (src 0x4000 4096), Run.whole (src 0x5000 4096), Run.whole (src 0x6000 1024)] 0 s) := by
  refine ⟨?_, ?_, ?_, ?_, ?_, ?_, fun _ => rfl, fun _ => rfl⟩ <;> decide +kernel
theorem test_MatrixOperationsQueue_meets_tiles :
    let s := (tiled .t64).holding [(8, 0x4000), (10, 256), (12, 0)]
    let rows := (List.range 64).map fun r => [Run.whole (src (0x4000 + 256 * r) 256)]
    let outs := (List.range 64).map fun r => [Run.whole (dst (0x4000 + 256 * r) 256)]
    s.ReadySome (.aclr hT 0) all ∧ s.ReadySome (.ald hT 0 true 3 8 10) all ∧ s.ReadySome (.ast hT 0 true 3 8 10) all ∧
    Passes (fun k => s.tilePlace all (Tile.clear .t64) true 8 10 false k) rows s ∧
    Passes (fun k => s.tilePlace all (Tile.clear .t64) true 8 10 true k) outs s ∧ s.versioned = false ∧ s.mayQueue 2 = true := by
  refine ⟨?_, ?_, ?_, fun _ => rfl, fun _ => rfl, ?_, ?_⟩ <;> decide +kernel
theorem test_MatrixOperationsQueue_meets_no_tile :
    let s := (engines.recorded 0x58 8 0x5033).recorded 0x60 8 0x5031
    let t := (tiled .t128).modStrand 0 0 fun st => { st with tile := some { Tile.clear .t128 with suspect := true } }
    s.ReadySome (.mma hT 0 8 9 1) all ∧ s.ReadySome (.smv hT 0 8 10 12 2) all ∧ s.ReadySome (.aclr hT 0) all ∧
    s.ReadySome (.ald hT 0 false 0 8 10) all ∧ s.ReadySome (.ast hT 0 false 0 8 10) all ∧ s.me.bound 0 = none ∧
    t.ReadySome (.mma hT 0 8 9 1) all ∧ t.ReadySome (.smv hT 0 8 10 12 2) all ∧
    (t.me.strand 0).tile.map (fun t => t.suspect) = some true := by decide +kernel
theorem test_MatrixOperationsQueue_meets_binding :
    let s := (engines.recorded 0x24 2 64).modGroup 0 fun g => { g with granUsed := [0] }
    let t := engines
    let u := tiled .t64
    s.me.accIdle 0 = true ∧ s.me.group < s.groups.length ∧ s.ReadySome (.abind hT 0 0) all ∧ s.me.bound 0 = none ∧
    s.granulesFree 0 (tileKind 0) = true ∧ t.granulesFree 0 (tileKind 0) = false ∧ t.ReadySome (.abind hT 0 0) all ∧
    u.me.bound 0 = some (Tile.clear .t64) ∧ s.me.bound 0 = none ∧ (∀ o ∈ t.me.matx, o.work ≠ .free) ∧
    u.ReadySome (.abind hT 0 0) all ∧ u.ReadySome (.afree hT 0) all ∧ u.me.accIdle 0 = true ∧
    (u.me.strand 0).tile = some (Tile.clear .t64) ∧ s.ReadySome (.afree hT 0) all ∧ s.me.pos < s.myGroup.granUsed.length := by
  decide +kernel
theorem test_MatrixOperationsQueue_meets_baton :
    let s := spine
    let t := s.modCore 0 fun c => { c with baton := some 0 }
    s.me.core < s.cores.length ∧ s.ReadySome (.batonTake hT) all ∧ (s.core 0).baton = none ∧ (s.core 0).batonQ = [] ∧
    t.ReadySome (.batonPass hT 4) all ∧ t.ReadySome (.batonPassRing hT) all ∧ t.holdsBaton = true ∧ s.holdsBaton = false ∧
    s.ReadySome (.batonPass hT 4) all ∧ s.ReadySome (.batonPassRing hT) all ∧ s.ReadySome (.batonRing hT 4) all := by decide +kernel

/-- R259: tile instructions that an ABIND and an AFREE stand behind. -/
theorem test_MatrixOperationsQueue_meets_binding_behind_others :
    let o : MatxOp :=
      { id := 1, k := 0, work := .free, started := false, streamed := false, due := 0, out := none, flags := 0, scope := 0, sent := none }
    let s := ((tiled .t64).on fun v => { v with matx := [o] }).modGroup 0 fun g => { g with granUsed := [64] }
    let t := (tiled .t64).on fun v => { v with matx := [{ o with work := .aclr }] }
    s.me.bound 0 = none ∧ s.me.accIdle 0 = false ∧ s.ReadySome (.abind hT 0 0) all ∧ s.granulesFree 0 (tileKind 0) = false ∧
    (∃ o ∈ s.me.matx, o.k = (0 : AccNum).toNat ∧ o.work = .free) ∧ t.me.bound 0 = some (Tile.clear .t64) ∧ t.me.accIdle 0 = false ∧
    t.ReadySome (.afree hT 0) all := by decide +kernel
/-- R258: the AFREE of another accumulator gives an ABIND nothing to wait for. -/
theorem test_MatrixOperationsQueue_meets_binding_beside_others :
    let o : MatxOp :=
      { id := 1, k := 0, work := .free, started := false, streamed := false, due := 0, out := none, flags := 0, scope := 0, sent := none }
    let s := ((tiled .t64).on fun v => { v with matx := [o] }).modGroup 0 fun g => { g with granUsed := [64] }
    s.ReadySome (.abind hT 1 0) all ∧ s.me.bound 1 = none ∧ s.granulesFree 0 (tileKind 0) = false ∧
    (∀ o ∈ s.me.matx, o.k = (1 : AccNum).toNat → o.work ≠ .free) := by decide +kernel
/-- R262: a tile of another kind. -/
theorem test_MatrixOperationsQueue_meets_another_kind :
    let s := tiled .t64
    let t := (tiled .t128p).modStrand 0 0 fun st => { st with tile := some { Tile.clear .t128p with suspect := true } }
    s.ReadySome (.mma hT 0 8 9 1) all ∧ s.ReadySome (.mmap hT 0 8 9 1) all ∧ s.ReadySome (.smv hT 0 8 10 12 2) all ∧
    s.me.bound 0 = some (Tile.clear .t64) ∧ (Tile.clear .t64).kind ≠ shapeKind (s.myLaunch.slot 1) ∧ (Tile.clear .t64).kind ≠ .t128p ∧
    (Tile.clear .t64).kind ≠ .t128 ∧ t.ReadySome (.mmap hT 0 8 9 1) all ∧
    t.me.bound 0 = some { Tile.clear .t128p with suspect := true } := by decide +kernel

/-- An operation on accumulator 0. -/
def mop (work : MatxWork) : MatxOp :=
  { id := 1, k := 0, work := work, started := false, streamed := false, due := 0, out := none, flags := 0, scope := 0, sent := none }
/-- The warp has MATX operations outstanding; accumulator 0 has a clear tile of kind t64. -/
def worked (kind : TileKind) (l : List MatxOp) : State :=
  { (tiled kind).on (fun v => { v with matx := l }) with nextId := 2 }
theorem test_MatrixOperationsComplete_meets_start :
    let w := worked .t64 [mop .aclr]
    let found := fun o => (worked .t64 [o]).me.matx = [o]
    let rows := (List.range 64).map fun r => [src (0x4000 + 256 * r) 256]
    let s := worked .t64 [mop (.ald rows true)]
    w.me.matx.find? (fun o => o.id == 1 && !o.started) = some (mop .aclr) ∧ w.me.startTile (mop .aclr) = some (Tile.clear .t64) ∧
    found (mop (.ast [] true)) ∧ PassesOn (s.bulk 0 1 0 rows.flatten []) s := by
  refine ⟨?_, ?_, ?_, fun _ => rfl⟩ <;> decide +kernel
theorem test_MatrixOperationsComplete_meets_mma :
    let o := mop (.mma false 0 9216 0x5033)
    let s := worked .t128 [o]
    let t := s.modCore 0 fun c => { c with array := { c.array with testDue := true } }
    s.me.matx.find? (fun o => o.id == 1 && !o.started) = some o ∧ s.me.startTile o = some (Tile.clear .t128) ∧
    0 < s.warps.length ∧ (s.core 0).arrayFree s.clock = true ∧ 0 < s.cores.length ∧ (t.core 0).arrayFree t.clock = false := by
  decide +kernel
/-- R265, R269: an MMAP, on both arrays of its pair, on the leader's alone, or behind a follower that is busy. -/
theorem test_MatrixOperationsComplete_meets_mmap :
    let o := mop (.mma true 0 9216 0x5033)
    let s := worked .t128p [o]
    let t := s.modCore 1 fun c => { c with array := { c.array with excluded := true } }
    let u := s.modCore 1 fun c => { c with array := { c.array with busy := 100 } }
    s.me.matx.find? (fun o => o.id == 1 && !o.started) = some o ∧ s.me.startTile o = some (Tile.clear .t128p) ∧
    s.astMeets 0 1 (o.pending (s.warp 0).pos) = false ∧ s.pairWorks 0 = true ∧ (s.core 1).arrayFree s.clock = true ∧ 1 < s.cores.length ∧
    t.pairWorks 0 = false ∧ (t.core 0).arrayFree t.clock = true ∧ u.pairWorks 0 = true ∧ (u.core 1).arrayFree u.clock = false := by
  decide +kernel
/-- R260: an AST of the warp has still to write an operand of the MMA, or the x of the SMV. -/
theorem test_MatrixOperationsComplete_meets_an_ast_before :
    let a := { mop (.ast [[scr 0 256]] false) with id := 0 }
    let o := mop (.mma false 0 9216 0x5033)
    let p := { mop (.smv 0 [src 0x4000 4096] 1 1 0x5031 0) with started := true }
    let s := worked .t128 [a, o]
    let t := worked .t128 [a, p]
    s.me.matx.find? (fun o => o.id == 1 && !o.started) = some o ∧ s.astMeets 0 1 (o.pending (s.warp 0).pos) = true ∧
    t.me.matx.find? (fun o => o.id == 1 && o.started && !o.streamed) = some p ∧ t.astMeets 0 1 (p.pending (t.warp 0).pos) = true ∧
    (worked .t128 [p]).astMeets 0 1 (p.pending (s.warp 0).pos) = false := by decide +kernel
theorem test_MatrixOperationsComplete_meets_smv :
    let runs := [src 0x4000 4096, src 0x5000 4096, src 0x6000 1024]
    let o := { mop (.smv 0 runs 1 1 0x5031 0) with started := true }
    let s : State := { worked .t128 [o] with smvQ := [(0, 0, 1)] }
    s.me.matx.find? (fun o => o.id == 1 && o.started && !o.streamed) = some o ∧ s.me.startTile o = some (Tile.clear .t128) ∧
    s.smvQ.find? (fun q => q.1 == 0 && (s.warp q.2.1).matx.any fun p => p.id == q.2.2) = some (0, 0, 1) ∧ o.due ≤ s.clock ∧
    nth 0 s.stackFree 0 ≤ s.clock ∧ 0 < s.stackFree.length ∧ PassesOn (s.bulk 0 1 0 runs []) s := by
  refine ⟨?_, ?_, ?_, ?_, ?_, ?_, fun _ => rfl⟩ <;> decide +kernel
theorem test_MatrixOperationsComplete_meets_retire :
    let rows := (List.range 64).map fun r => dst (0x4000 + 256 * r) 256
    let o := { mop .aclr with started := true, out := some (Tile.clear .t64) }
    let p := { mop (.ast [rows] true) with started := true }
    let s := worked .t64 [o]
    let t := worked .t64 [p]
    s.me.matx.find? MatxOp.counted = some o ∧ o.finished s.clock = true ∧ s.myGroup.phase ≠ .killed ∧
    t.me.matx.find? MatxOp.counted = some p ∧ p.finished t.clock = true ∧ p.sent = none ∧
    (t.me.strand 0).tile = some (Tile.clear .t64) ∧ (mop .aclr).finished 0 = false ∧ o.k < 8 ∧
    PassesOn (t.bulk 0 1 0 [] rows) t := by
  refine ⟨?_, ?_, ?_, ?_, ?_, ?_, ?_, ?_, ?_, fun _ => rfl⟩ <;> decide +kernel
theorem test_MatrixOperationsComplete_meets_an_ast_under_way :
    let p := { mop (.ast [[dst 0x4000 256]] true) with started := true, sent := some [9] }
    let s := worked .t64 [p]
    let t : State := { s with writes := [{ onItsWay .engine .pending with id := 9 }] }
    s.me.matx.find? MatxOp.counted = some p ∧ p.finished s.clock = true ∧ s.allDone [9] 0 = true ∧ t.allDone [9] 0 = false := by
  decide +kernel
theorem test_MatrixOperationsComplete_meets_binding :
    let o := mop (.bind .t64)
    let p := mop .free
    let s := (worked .t64 [o]).modStrand 0 0 fun st => { st with tile := none }
    let t := worked .t64 [p]
    (s.warp 0).matx.find? (fun o => o.id == 1 && !o.started) = some o ∧ (s.warp 0).mayBind o = true ∧ 0 < s.warps.length ∧ o.k < 8 ∧
    (s.group (s.warp 0).group).phase ≠ .killed ∧ (t.warp 0).matx.find? (fun o => o.id == 1 && !o.started) = some p ∧
    (t.warp 0).mayBind p = true ∧ ((t.warp 0).strand 0).tile = some (Tile.clear .t64) := by decide +kernel
/-- R275: an SMV whose operands arrive earlier comes before one that was queued first. -/
theorem test_MatrixOperationsComplete_meets_the_order_of_streams :
    let runs := [src 0x4000 4096]
    let o := { mop (.smv 0 runs 1 1 0x5031 0) with due := 500 }
    let s := worked .t128 [o]
    s.insertSmv (0, 1, 7) 400 [(0, 0, 1)] = [(0, 1, 7), (0, 0, 1)] ∧ s.insertSmv (0, 1, 7) 500 [(0, 0, 1)] = [(0, 0, 1), (0, 1, 7)] ∧
    (∀ x ∈ [(0, 0, 1)], x.1 = 0 → ∀ o ∈ (s.warp x.2.1).matx, o.id = x.2.2 → o.due ≤ 500) := by decide +kernel
theorem test_MatrixOperationsComplete_meets_a_test :
    let s := (tiled .t64).modCore 0 fun c => { c with array := { c.array with testDue := true } }
    0 < s.cores.length ∧ (s.core 0).array.testDue = true ∧ (s.core 0).array.busy ≤ s.clock ∧ (s.core 1).followerOf ≠ some 0 ∧
    0 < s.warps.length ∧ (s.warp 0).core = 0 ∧ (s.group (s.warp 0).group).resident = true ∧
    ((s.warp 0).strand 0).tile = some (Tile.clear .t64) := by decide +kernel
/-- R271, R278: the test of a leader with a follower, which is free or busy. -/
theorem test_MatrixOperationsComplete_meets_a_test_of_a_pair :
    let s := ((tiled .t128p).modCore 0 fun c => { c with array := { c.array with testDue := true } }).modCore 1 fun c => { c with followerOf := some 0 }
    let t := s.modCore 1 fun c => { c with array := { c.array with busy := 9 } }
    0 + 1 < s.cores.length ∧ (s.core 0).array.testDue = true ∧ (s.core 0).array.busy ≤ s.clock ∧ (s.core (0 + 1)).followerOf = some 0 ∧
    (s.core 1).array.busy ≤ s.clock ∧ t.clock < (t.core 1).array.busy ∧ (s.warp 0).core = 0 ∧
    (s.group (s.warp 0).group).resident = true ∧ ((s.warp 0).strand 0).tile = some (Tile.clear .t128p) := by decide +kernel

/-! ## Launches and sentences -/

/-- Warp 0 with operands in pairs: g8 a place, g10 a target. -/
def counting : State := spine.mapped.holding [(8, 0x1000), (10, 2)]
theorem test_LaunchesAndCounters_meets_launch :
    let s := counting
    let t := s.modCore 0 fun c => { c with queue := List.replicate 4 { record := 0, region := 0, age := 0, warp := 0, id := 1 } }
    let u := s.recorded 0x26 2 1
    s.ReadySome (.launch hT 8) all ∧ s.versioned = false ∧ (s.me.lane2 8 (lowest all)).toNat = 0x1000 ∧
    s.acquiring 0 = false ∧ s.allWritten 0 s.nextId 3 = true ∧ (s.core 0).queue.length < 4 ∧ 0 < s.cores.length ∧
    t.ReadySome (.launch hT 8) all ∧ 4 ≤ (t.core 0).queue.length ∧ u.ReadySome (.launch hT 8) all ∧ u.versioned = true ∧
    s.ReadySome (.launch hT 10) all ∧ (s.me.lane2 10 (lowest all)).toNat % 256 ≠ 0 ∧
    Passes (fun k => s.instrRange all 0x1000 256 true false k) [src 0x1000 256] s ∧
    Passes (fun k => t.instrRange all 0x1000 256 true false k) [src 0x1000 256] t ∧
    PassesOn ((s.countIfReady [src 0x1000 256]).bulk 0 s.nextId 3 [src 0x1000 256] []) s := by
  refine ⟨?_, ?_, ?_, ?_, ?_, ?_, ?_, ?_, ?_, ?_, ?_, ?_, ?_, fun _ => rfl, fun _ => rfl, fun _ => rfl⟩ <;> decide +kernel
theorem test_LaunchesAndCounters_meets_lwait :
    let s := counting
    let t : State := { s with mem := [(0x1000, 2)] }
    s.ReadySome (.lwait hT 8 10) all ∧ s.watches.length < 256 ∧ s.me.wait ≠ some .lwait ∧
    s.matxMeets 0x1000 (firstPa [src 0x1000 8]) 8 = false ∧
    numOf ((s.dropWatch 0 true).readGroup 0 [src 0x1000 8]) < (s.me.lane2 10 (lowest all)).toNat ∧
    t.ReadySome (.lwait hT 8 10) all ∧ (t.me.lane2 10 (lowest all)).toNat ≤ numOf ((t.dropWatch 0 true).readGroup 0 [src 0x1000 8]) ∧
    Passes (fun k => s.instrRange all 0x1000 8 true false k) [src 0x1000 8] s ∧
    Passes (fun k => t.instrRange all 0x1000 8 true false k) [src 0x1000 8] t ∧
    PassesOn ((s.countIfReady [src 0x1000 8]).bulk 0 s.nextId 5 [src 0x1000 8] []) s ∧
    PassesOn ((t.countIfReady [src 0x1000 8]).bulk 0 t.nextId 5 [src 0x1000 8] []) t := by
  refine ⟨?_, ?_, ?_, ?_, ?_, ?_, ?_, fun _ => rfl, fun _ => rfl, fun _ => rfl, fun _ => rfl⟩ <;> decide +kernel
theorem test_LaunchesAndCounters_meets_graph_and_sbnd :
    let s := counting.holding [(12, 5)]
    let t := s.recorded 0x26 2 1
    s.ReadySome (.graph hT 3 8) all ∧ s.versioned = false ∧ (s.me.lane2 8 (lowest all)).toNat % 64 = 0 ∧
    s.me.graph = none ∧ s.allWritten 0 s.nextId 3 = true ∧ t.ReadySome (.graph hT 3 8) all ∧ t.versioned = true ∧ s.ReadySome (.sbnd hT 12) all ∧
    (s.launch 0).step < s.me.lane 12 0 ∧ s.ReadySome (.sbnd hT 13) all ∧ s.me.lane 13 0 ≤ (s.launch 0).step ∧
    s.myGroup.launch < s.launches.length ∧
    Passes (fun k => s.instrRange all 0x1000 64 true true k) [dst 0x1000 64] s := by
  refine ⟨?_, ?_, ?_, ?_, ?_, ?_, ?_, ?_, ?_, ?_, ?_, ?_, fun _ => rfl⟩ <;> decide +kernel
theorem test_LaunchesAndCounters_meets_waking :
    let s := watched true true fun v => { v with wait := some .lwait }
    let t := watched true false fun v => { v with wait := some .lwait }
    let u : State := { t with watches := [], gtime := 10000 }
    0 < s.warps.length ∧ s.me.inLwait = true ∧ (s.group s.me.group).phase ≠ .evicted ∧ (s.group s.me.group).phase ≠ .leaving ∧
    s.watchOf 0 true = some { warp := 0, lwait := true, line := 32, hit := true } ∧ t.me.inLwait = true ∧
    t.watchOf 0 true = some { warp := 0, lwait := true, line := 32, hit := false } ∧ u.watchOf 0 true = none ∧
    u.me.inLwait = true ∧ u.me.lwaitAt + 10000 ≤ u.gtime ∧ t.gtime < t.me.lwaitAt + 10000 := by decide +kernel
/-- R405, R409: the watch of a counter whose line of pool memory L2 does not hold, and of one that it holds. -/
theorem test_LaunchesAndCounters_meets_polling :
    let s : State := { spine.on fun v => { v with wait := some .lwait } with
      watches := [{ warp := 0, lwait := true, line := 2 ^ 42, hit := false }], gtime := 10000 }
    let t := watched true false fun v => { v with wait := some .lwait }
    s.me.inLwait = true ∧ s.watchOf 0 true = some { warp := 0, lwait := true, line := 2 ^ 42, hit := false } ∧ s.unseen (2 ^ 42) = true ∧
    s.me.lwaitAt + 10000 ≤ s.gtime ∧ t.unseen 32 = false := by decide +kernel

/-- Physical memory with the block of region 0, which allows 256 cores and 256 granules, and with the page table that
maps the first GiB onto itself. -/
def tables : List Host.Cell :=
  [(0x0D, 1), (0x0F, 1), (0x32, 0x10)]
/-- The levels of the page table (R312 to R314). -/
def levels : List Host.Cell :=
  [(0x100000, 0x41), (0x100001, 0x10), (0x100002, 0x10), (0x101000, 0x41), (0x101001, 0x20), (0x101002, 0x10),
    (0x102000, 0xCF), (0x102007, 0x90)]
/-- The spine with that table as its region's, and `m` between 0x100 and 0x100000. -/
def paged (m : List Host.Cell) : State :=
  { spine with mem := tables ++ m ++ levels, groups := spine.groups.map fun g => { g with root := 0x100000 } }
/-- A GRAPH waits for its answer about the header at 0x1000. -/
def asking (m : List Host.Cell) : State :=
  (paged m).on fun v => { v with graph := some { hdr := 0x1000, d := 3, lanes := all, sent := none, won := none } }
theorem test_SentencesAndTasks_meets_answers :
    let s := asking [(0x1000, 1)]
    let t := asking [(0x1000, 1), (0x1004, 1)]
    let bs := (s.vread (s.rootOf 0) (s.regionOf 0) 0x1000 8).1
    let cs := (t.vread (t.rootOf 0) (t.regionOf 0) 0x1000 8).1
    s.me.graph.isSome = true ∧ s.myGroup.phase ≠ .killed ∧ (match bs with
      | .ok bs => numOf (bs.drop 4) % 2 == 0
      | _ => false) = true ∧ (match cs with
      | .ok bs => numOf (bs.drop 4) % 2 == 1
      | _ => false) = true ∧ (match (s.vwrite none (s.rootOf 0) (s.regionOf 0) 0x1004 (bytesOf 4 1)) with
      | (.ok v, _) => 0 < v.warps.length
      | _ => false) = true := by decide +kernel
/-- R474: the test and set is to be sent, is on its way, has found the walk running, or has won. -/
theorem test_SentencesAndTasks_meets_a_claim :
    let req := fun (sent : Option Nat) (won : Option Bool) => ({ hdr := 0x1000, d := 3, lanes := all, sent := sent, won := won } : GraphReq)
    let s := asking [(0x1000, 1)]
    let at_ := fun r => s.on fun v => { v with graph := some r }
    let x := onItsWay (.dev (.claim 0 4)) .pending
    let y := { onItsWay (.dev (.claim 0 4)) .propagating with mask := byteRun 4 4 }
    let t := fun (r : GraphReq) (y : Write) => ({ at_ r with writes := [y] } : State)
    let old := homeLine.data
    (match (s.vrange none (s.rootOf 0) (s.regionOf 0) 0x1000 64 true true false true).1 with
      | .ok [r] => r.place == .phys 0x1000
      | _ => false) = true ∧ (at_ (req none none)).me.graph = some (req none none) ∧ 0 < s.warps.length ∧ s.myGroup.phase ≠ .killed ∧
    (∃ z ∈ (t (req (some 5) none) x).writes, z.id = 5) ∧ (at_ (req (some 5) (some false))).me.graph = some (req (some 5) (some false)) ∧
    (t (req (some 5) (some true)) y).writeDone y 3 = false ∧ (at_ (req (some 5) (some true))).writes = [] ∧
    y.mask = byteRun 4 4 ∧ old.bits.getLsbD (8 * 4) = false ∧ (1#1024 <<< 32).getLsbD (8 * 4) = true := by decide +kernel
/-- A walk with one clause, at 0x1040. -/
def walking (c : ClauseSt) (m : List Host.Cell) : State :=
  { paged m with walks := [{ hdr := 0x1000, root := 0x100000, region := 0, clauses := [c], failed := false, ended := false }] }
/-- A field of the clause. -/
def fieldOf (s : State) (off n : Nat) : Option Nat :=
  match (s.readClause (s.walk 0) 0).1 with
  | .ok c => some (clauseField c off n)
  | _ => none
theorem test_SentencesAndTasks_meets_clauses :
    let nop := walking .idle []
    let copy := walking .idle [(0x1040, 1), (0x1061, 0x20), (0x1069, 0x30), (0x1070, 64)]
    let signal := walking .idle [(0x1040, 3), (0x1061, 0x20), (0x1068, 5), (0x1070, 1)]
    let set := walking .idle [(0x1040, 3), (0x1061, 0x20), (0x1068, 5)]
    let bad := walking .idle [(0x1040, 7)]
    let held := walking .idle [(0x1042, 1)]
    (nop.walk 0).ended = false ∧ (nop.walk 0).failed = false ∧ (nop.walk 0).clauses[0]? = some .idle ∧
    fieldOf nop 0 1 = some 0 ∧ fieldOf nop 2 2 = some 0 ∧ fieldOf nop 6 2 = some 0 ∧ fieldOf copy 0 1 = some 1 ∧
    fieldOf copy 0x30 8 = some 64 ∧ fieldOf signal 0 1 = some 3 ∧ fieldOf signal 0x30 8 = some 1 ∧ fieldOf set 0x30 8 = some 0 ∧
    fieldOf bad 0 1 = some 7 ∧ fieldOf held 2 2 = some 1 := by decide +kernel
/-- What a check that passed found. -/
def found {ε α : Type} : Except ε α × State → Option (α × State)
  | (.ok a, t) => some (a, t)
  | _ => none
theorem found_ok {ε α : Type} {x : Except ε α × State} {a : α} {t : State} (h : found x = some (a, t)) : x = (.ok a, t) := by
  obtain ⟨_ | b, u⟩ := x
  · simp [found] at h
  · simp only [found, Option.some.injEq, Prod.mk.injEq] at h
    rw [h.1, h.2]
theorem clause_range {s t : State} {n i va len : Nat} {wr : Bool} {runs : List Run}
    (h : found (s.vrange none (s.walk n).root (s.walk n).region va len (!wr) wr false true) = some (runs, t)) :
    Passes (fun k => s.clauseRange n i va len wr k) runs t := fun k => by
  simp only [State.clauseRange, found_ok h]
theorem test_SentencesAndTasks_meets_copy_and_signal :
    let s := walking .idle [(0x1040, 1), (0x1061, 0x20), (0x1069, 0x30), (0x1070, 64)]
    let found := fun va n wr => found (s.vrange none (s.walk 0).root (s.walk 0).region va n (!wr) wr false true)
    let out := fun n => { dst 0x3000 n with pte := some 0x102000 }
    found 0x2000 64 false = some ([src 0x2000 64], s) ∧ found 0x3000 64 true = some ([out 64], s) ∧
    found 0x3000 8 true = some ([out 8], s) := by decide +kernel

/-- The record of a launch of one group of one warp, with 16 registers and the overlay table at 0x4000 (R415). -/
def kernel : BitVec 2048 :=
  [(0x08, 1), (0x0C, 1), (0x10, 1), (0x14, 32), (0x18, 1), (0x1C, 1), (0x20, 16), (0xA8, 0x4000)].foldl
    (fun r (x : Nat × Nat) => recPut r x.1 4 x.2) 0
/-- Overlay 0 has 8 bytes at 0x2000. -/
def overlay0 : List Host.Cell := [(0x4001, 0x20), (0x4008, 8)]
/-- The clause at 0x1040 launches the record at 0x3000, whose lines L2 holds. -/
def launchClause : State :=
  let half := fun (n : Nat) => { homeLine with data := { bits := kernel.extractLsb' n 1024, poison := 0 } }
  ((walking .idle ([(0x1040, 2), (0x1061, 0x30)] ++ overlay0)).setL2 96 (half 0)).setL2 97 (half 1024)
theorem test_SentencesAndTasks_meets_a_launch_clause :
    fieldOf launchClause 0 1 = some 2 ∧ found (launchClause.vrange none 0x100000 0 0x3000 256 true false false true) =
      some ([src 0x3000 256], launchClause) ∧ (launchClause.walk 0).root = 0x100000 := by decide +kernel
theorem test_SentencesAndTasks_meets_a_record :
    recordOf ((launchClause.lpRuns [src 0x3000 256]).readRuns [src 0x3000 256]) = kernel ∧
    (launchClause.checkRecord (LaunchSt.ofRecord kernel 0 0 0 0) false).1 = none ∧
    (launchClause.checkRecord (LaunchSt.ofRecord 0 0 0 0 0) false).1 = some 1 := by decide +kernel
theorem test_SentencesAndTasks_meets_finishing :
    let s := walking (.running (some 0)) []
    let t := s.modLaunch 0 fun l => { l with phase := .finished }
    let u := walking (.writing [9] 3) []
    let v : State := { u with writes := [{ onItsWay .store .pending with id := 9 }] }
    let w := s.modLaunch 0 fun l => { l with phase := .rejected }
    ((walking (.running none) []).walk 0).clauses[0]? = some (.running none) ∧
    (u.walk 0).clauses[0]? = some (.writing [9] 3) ∧ u.allDone [9] 3 = true ∧ v.allDone [9] 3 = false ∧ (w.launch 0).phase = .rejected ∧
    (w.walk 0).clauses[0]? = some (.running (some 0)) ∧ fieldOf w 0 1 = some 0 ∧
    (s.walk 0).clauses[0]? = some (.running (some 0)) ∧ (s.launch 0).phase = .accepted ∧
    (t.walk 0).clauses[0]? = some (.running (some 0)) ∧ (t.launch 0).phase = .finished := by decide +kernel
/-- A warp is held, and the handler task that serves it is a second launch. -/
def tasked (flags : Nat) (phase : LaunchPhase) (resolve : BitVec 8) : State :=
  let s : State := { spine.recorded 0x26 2 flags with mem := [(0x8094, resolve)] }
  { s.on fun v => { v with held := some { entry := 0x8000, resolve := none } } with
    launches := (s.recorded 0x26 2 flags).launches ++
      [{ LaunchSt.ofRecord kernel 0 0 0 0 with phase := phase, task := some { warp := 0, entry := 0x8000 } }] }
theorem test_SentencesAndTasks_meets_tasks :
    ((tasked 0 .accepted 0).launch 1).task = some { warp := 0, entry := 0x8000 } ∧
    ((tasked 0 .accepted 0).launch 1).phase ≠ .finished ∧ (tasked 0 .accepted 0).launchDone 1 2 = false ∧
    ((tasked 0 .finished 3).launch 1).phase = .finished ∧
    ((tasked 0 .finished 3).warp 0).held = some { entry := 0x8000, resolve := none } ∧
    (tasked 0 .finished 3).devNat 0x8094 4 = 3 ∧ (tasked 0 .finished 2).devNat 0x8094 4 = 2 ∧
    (tasked 1 .finished 1).devNat 0x8094 4 = 1 ∧ ((tasked 1 .finished 1).launch 0).versioned = true := by decide +kernel
/-- R449: the launch of the task has been discarded, and no group of it is left. -/
theorem test_SentencesAndTasks_meets_a_discarded_task :
    let s := tasked 0 .discarded 3
    (s.launch 1).phase = .discarded ∧ s.groupsIn 1 = [] ∧ (s.launch 1).task = some { warp := 0, entry := 0x8000 } ∧
    (s.warp 0).held = some { entry := 0x8000, resolve := none } ∧ s.groupsIn 0 ≠ [] := by decide +kernel

/-! ## The launch processor -/

/-- A launch of that record under the page table above, with private areas to give, and nothing placed. -/
def submitted (phase : LaunchPhase) : State :=
  let s := paged overlay0
  ({ s with groups := [], warps := [], launches := [{ LaunchSt.ofRecord kernel 0 0 0 0 with phase := phase, dies := [0] }] } :
    State).modCtl fun c => { c with ppcount := 64 }
theorem test_LaunchProcessor_meets_a_check :
    let e := fun (r : BitVec 2048) => ({ record := r, region := 0, age := 0, warp := 0, id := 5 } : QEntry)
    let at_ := fun (r : BitVec 2048) => ((paged overlay0).modCore 0 fun c => { c with queue := [e r] }).readQueue (.core 0 0)
    let s := at_ kernel
    let t := at_ 0
    let u : State := { s with loads := [{ waitingLoad false with id := 2 }] }
    s.front (.core 0 0) = some (e kernel) ∧ s.checkedRef (.core 0 0) = false ∧ s.allLoaded 0 5 = true ∧ u.allLoaded 0 5 = false ∧
    u.front (.core 0 0) = some (e kernel) ∧
    (s.checkRecord (LaunchSt.ofRecord kernel 0 0 0 s.gtime) false).1 = none ∧
    t.front (.core 0 0) = some (e 0) ∧ t.checkedRef (.core 0 0) = false ∧
    (t.checkRecord (LaunchSt.ofRecord 0 0 0 0 t.gtime) false).1 = some 1 := by decide +kernel
theorem test_LaunchProcessor_meets_placing :
    let s := (submitted .accepted).readRegion 0
    let t : State := { s with groups := [{ GroupSt.none with phase := .waiting }], launches := s.launches.map fun l => { l with next := 1 } }
    (s.launch 0).region = 0 ∧ (t.launch 0).region = 0 ∧
    ((s.cands.filter (s.candOf 0)).findSome? fun a => (s.serves a).map fun cs => (a, cs)) =
      some ({ kind := .next 0, prio := 0, age := 0, region := 0 }, [0]) ∧ (s.launch 0).phase = .accepted ∧
    (s.launch 0).pin = false ∧ (s.launch 0).dies ≠ [] ∧
    ((t.cands.filter (t.candOf 0)).findSome? fun a => (t.serves a).map fun cs => (a, cs)) =
      some ({ kind := .again 0, prio := 0, age := 0, region := 0 }, [0]) := by decide +kernel
theorem test_LaunchProcessor_meets_stagger :
    let s := (spine.recorded 0x48 2 1).modLaunch 0 fun l => { l with t0 := some 0 }
    let t : State := { s.modGroup 0 fun g => { g with staggered := true, rank := 1 } with clock := 16 }
    let u : State := { t with clock := 15 }
    (t.launch (t.group 0).launch).t0 = some 0 ∧ (t.group 0).staggered = true ∧ 0 < t.groups.length ∧
    0 + 16 * (t.launch (t.group 0).launch).stagger * (t.group 0).rank ≤ t.clock ∧
    u.clock < 0 + 16 * (u.launch (u.group 0).launch).stagger * (u.group 0).rank := by decide +kernel
theorem test_LaunchProcessor_meets_reserving :
    let s := (submitted .accepted).modLaunch 0 fun l => { l with record := recPut l.record 0x26 2 2 }
    let t : State := { s.modCtl fun c => { c with ppcount := 0 } with gtime := 1000000 }
    let u : State := { t with gtime := 999999 }
    let a : Cand := { kind := .next 0, prio := 0, age := 0, region := 0 }
    a ∈ t.cands ∧ t.launchOf a = 0 ∧ t.whereTo a = none ∧
    (∀ c ∈ t.cores, c.reserved ≠ some a.kind) ∧ t.neededCores a [0, 1] = true ∧ t.waitOf a + 1000000 ≤ t.gtime ∧
    (∀ c ∈ [0, 1], c < t.cores.length) ∧ ∀ a ∈ u.cands, u.launchOf a = 0 → u.gtime < u.waitOf a + 1000000 := by decide +kernel
/-- A retired group with a version of line 32. -/
def versioned (committing busy : Bool) : State :=
  let v : VerLine := { data := { bits := 7, poison := 0 }, written := 15, ptes := [] }
  (withWrites [] { homeLine with busy := busy }).modGroup 0 fun g =>
    { g with phase := .retired, version := [(32, v)], committing := committing }
/-- Such a group whose line's slice is full of lines that are busy. -/
def full : State :=
  { versioned false false with l2 := List.replicate sliceCap (32800, { homeLine with busy := true }) }
theorem test_LaunchProcessor_meets_no_room :
    (full.group 0).phase = .retired ∧ (full.group 0).version ≠ [] ∧ (full.group 0).committing = false ∧
    ([32].any full.lineBusy) = false ∧ full.versionOpen 0 = false ∧ full.l2At 32 = none ∧ full.holdLines [32] = none := by
  have hf : ∀ n (x : L2Line), alFind 32 (List.replicate n ((32800 : Nat), x)) = none := fun n x => by
    induction n with
    | zero => rfl
    | succ n _ => simp [List.replicate_succ, alFind]
  have hl : full.l2At 32 = none := hf _ _
  have hs : full.sliceLines 32 = List.replicate sliceCap 32800 := by
    have : (homeDie 32800 == homeDie 32 && homeSlice 32800 == homeSlice 32) = true := by decide
    simp only [State.sliceLines, full, List.map_replicate, List.filter_replicate, this, if_true]
  have he : full.evictable 32800 = false := by decide +kernel
  refine ⟨by decide +kernel, by decide +kernel, by decide +kernel, ?_, by decide +kernel, hl, ?_⟩
  · simp [State.lineBusy, hl]
  · have hm : full.mergeLine 32 = full := by simp [State.mergeLine, hl]
    have hr : full.roomFor 32 = none := by
      simp only [State.roomFor, hs, List.length_replicate, Nat.lt_irrefl, if_false, List.filter_replicate, he]
      rfl
    simp [State.holdLines, State.holdLine, hm, hl, State.install, hr]
theorem test_LaunchProcessor_meets_committing :
    let c : Write := { onItsWay .store .propagating with kind := .commit }
    let s : State := { versioned true true with writes := [c] }
    (s.group 0).phase = .retired ∧ (s.group 0).version ≠ [] ∧ (s.group 0).committing = true ∧ s.commitOpen 0 = true ∧
    (versioned true true).commitOpen 0 = false ∧ 0 < s.groups.length ∧ ((versioned false true).group 0).committing = false ∧
    ([32].any (versioned false true).lineBusy) = true ∧ ([32].any (versioned false false).lineBusy) = false ∧
    (versioned false false).versionOpen 0 = false ∧
    ({ versioned false false with writes := [{ onItsWay .store .pending with kind := .sc 9 0 }] } : State).versionOpen 0 = true ∧
    ((versioned false false).holdLines [32]).isSome = true ∧
    (versioned false false).l2At 32 = some homeLine ∧ homeLine.host ≠ .he := by decide +kernel
theorem test_LaunchProcessor_meets_finishing :
    let s := (paged []).modGroup 0 fun g => { g with phase := .retired }
    s.launchDone 0 (s.launch 0).endScope = true ∧ spine.launchDone 0 (spine.launch 0).endScope = false ∧
    found (s.vrange none 0x100000 0 0x2000 8 true true false true) = some ([{ dst 0x2000 8 with pte := some 0x102000 }], s) ∧
    0x2000 % 128 ≤ 120 ∧ ({ onItsWay .store .pending with kind := .dev (.inc 0 8 1) } : Write).kind = .dev (.inc 0 8 1) := by
  decide +kernel
theorem test_LaunchProcessor_meets_leaving :
    let s := ((paged []).modCore 0 fun c => { c with failing := true }).on fun v => { v with wait := some .lwait }
    let t := s.modGroup 0 fun g => { g with phase := .leaving }
    let u : State := { t with writes := [onItsWay .store .pending] }
    0 < s.groups.length ∧ (s.group 0).phase = .resident ∧ s.liveWarps 0 = [0] ∧ s.imageFits 0 = true ∧
    s.atBlockingPoint 0 = true ∧ (s.warp 0).canWake = true ∧ s.askedToLeave 0 = true ∧
    (paged []).askedToLeave 0 = false ∧ ((paged []).group 0).phase = .resident ∧
    (t.group 0).phase = .leaving ∧ t.quiet 0 = true ∧ (t.evictGroup 0).isSome = true ∧ (u.group 0).phase = .leaving ∧
    u.quiet 0 = false := by decide +kernel
theorem test_LaunchProcessor_meets_coming_back :
    let s := (submitted .accepted).readRegion 0
    let g : GroupSt := { GroupSt.none with phase := .evicted, woken := some 5 }
    let t : State := { s with groups := [g], launches := s.launches.map fun l => { l with next := 1 } }
    let u := t.modCtl fun c => { c with modst := .locked }
    let a : Cand := { kind := .back 0, prio := 0, age := 5, region := 0 }
    (t.launch (t.group 0).launch).region = 0 ∧
    t.cands.find? (fun a => a.kind == .back 0) = some a ∧ t.serves a = some [0] ∧
    u.cands.find? (fun a => a.kind == .back 0) = some a ∧ u.serves a = none := by decide +kernel

/-! ## The host, the pool and the links -/

/-- A module that is up, with host port 0 caching in both directions, pool window 0 granted, and a line at its home; the
step is about that line. -/
def module (line : Nat) (x : L2Line) (l : List Write) (owned : Bool := false) : State :=
  let port : HostPort := { up := true, hdmdb := true, cache := true, owned := owned }
  ({ spine with writes := l, cur := { warp := 0, unit := 0, line := line } } : State).setL2 line x |>.modCtl fun c =>
    { c with modst := .ready, hostPorts := c.hostPorts.set 0 port,
             poolUp := c.poolUp.set 0 true, pwins := c.pwins.modify 0 fun w => { w with size := 1, grant := true } }
/-- A line of host port 0 and a line of pool window 0. -/
def hostLine : Nat := 2 ^ 41
def poolLine : Nat := 2 ^ 42
/-- The host holds the line. -/
def owned (x : L2Line) : L2Line := { x with host := .he, busy := true }
theorem test_HostTraffic_meets_writes :
    let s := module 32 homeLine []
    let t : State := { s with l2 := [] }
    let d := s.modCtl fun c => { c with hostPorts := c.hostPorts.map fun p => { p with up := false } }
    s.carries = true ∧ s.hostUp = true ∧ s.frame (128 * 32) = .hbm ∧ s.lineBusy 32 = false ∧ s.l2At 32 = some homeLine ∧
    homeLine.priv = false ∧ t.l2At 32 = none ∧ (t.sliceLines 32).length < sliceCap ∧ t.carries = true ∧ t.hostUp = true ∧
    t.lineBusy 32 = false ∧ d.carries = true ∧ d.hostUp = false ∧ spine.carries = false ∧
    s.hostWriting = false ∧ t.hostWriting = false ∧
    s.frame (128 * 2 ^ 41) = .host 0 ∧ s.frame (128 * 2 ^ 42) = .pool 0 0 := by decide +kernel
/-- R398: the host holds the line shared, and a write of the host is on its way. -/
theorem test_HostTraffic_meets_a_shared_line :
    let x := { homeLine with host := .hs }
    let s := module 32 x []
    let t := module 32 homeLine [onItsWay .host .propagating]
    s.l2At 32 = some x ∧ x.host = .hs ∧ s.lineBusy 32 = false ∧ s.hostWriting = false ∧ t.hostWriting = true ∧ t.carries = true := by
  decide +kernel
theorem test_HostTraffic_meets_answers :
    let s := module 32 (owned homeLine) []
    let f := { flow none [] with hostLeft := true, hostAsked := true }
    let x := { homeLine with prop := some f }
    let t := module 32 x []
    s.carries = true ∧ t.carries = true ∧ x.prop = some f ∧
    s.l2At 32 = some (owned homeLine) ∧ (owned homeLine).busy = true ∧ (owned homeLine).prop = none ∧ (owned homeLine).host = .he ∧
    (owned homeLine).priv = false ∧ t.l2At 32 = some x ∧ f.hostLeft = true ∧ f.hostAsked = true ∧
    (module 32 homeLine []).calledBack 32 = false := by decide +kernel
theorem test_HostTraffic_meets_reads :
    let s := module 32 homeLine []
    s.l2At s.cur.line = some homeLine ∧ homeLine.host ≠ .he ∧ s.lineBusy s.cur.line = false ∧ s.hostUp = true ∧
    s.hostCaches = true ∧ homeLine.priv = false ∧ s.carries = true ∧ s.frame (128 * s.cur.line) = .hbm := by decide +kernel
theorem test_HostTraffic_meets_snoops :
    let at_ := fun st => { homeLine with st := st }
    let s := fun st own => module hostLine (at_ st) [] own
    (s .m false).carries = true ∧ (module 32 homeLine [] |>.carries) = true ∧ homeLine.priv = false ∧
    (s .m false).frame (128 * (s .m false).cur.line) = .host 0 ∧ ((s .m false).port 0).up = true ∧
    ((s .m false).port 0).cache = true ∧ (s .m false).l2At hostLine = some (at_ .m) ∧ (s .m false).lineBusy hostLine = false ∧
    ((s .m false).port 0).owned = false ∧ ((s .m true).port 0).owned = true ∧ (s .e false).l2At hostLine = some (at_ .e) ∧
    (s .s false).l2At hostLine = some (at_ .s) ∧ (s .o false).l2At hostLine = some (at_ .o) ∧
    (s .i false).l2At hostLine = some (at_ .i) ∧ (module 32 homeLine []).l2At hostLine = none ∧
    (s .m false).l2.Pairwise (fun a b => a.1 < b.1) ∧ Memory.wf (s .m false).mem ∧ Sparse.wf false (s .m false).memP := by
  decide +kernel
/-- A write of the first word of a line. -/
def sentTo (line : Nat) (phase : WPhase) : Write := { onItsWay .store phase with line := line }
theorem test_HostTraffic_meets_grants :
    let x := sentTo hostLine .asked
    let y := sentTo hostLine .remote
    let s := module hostLine homeLine [x]
    let t := module hostLine homeLine [y]
    s.frame (128 * hostLine) = .host 0 ∧ (s.port 0).cache = true ∧
    s.writes.find? (fun x => x.line == hostLine && x.phase == .asked) = some x ∧ x.kind = .store ∧ s.lineBusy hostLine = false ∧
    s.carries = true ∧ t.carries = true ∧ homeLine.through = false ∧
    (s.writes.filter fun y => y.warp == x.warp && y.req == x.req && y.kind == .store).length ≤ 1 ∧
    s.l2At hostLine = some homeLine ∧ t.writes.find? (fun x => x.id == 5) = some y ∧ t.frame (128 * y.line) = .host 0 ∧
    y.phase = .remote := by decide +kernel
theorem test_PoolAndLinks_meets_writes :
    let x := sentTo poolLine .asked
    let y := sentTo poolLine .remote
    let s := module poolLine homeLine [x]
    let t := module poolLine homeLine [y]
    s.carries = true ∧ t.carries = true ∧
    s.frame (128 * poolLine) = .pool 0 0 ∧ s.writes.find? (fun x => x.line == poolLine && x.phase == .asked) = some x ∧
    (s.writes.filter fun y => y.warp == x.warp && y.req == x.req && y.kind == .store).length ≤ 1 ∧
    x.kind = .store ∧ s.lineBusy poolLine = false ∧ s.l2At poolLine = some homeLine ∧ t.frame (128 * t.cur.line) = .pool 0 0 ∧
    y ∈ t.writes ∧ y.line = t.cur.line ∧ y.phase = .remote ∧ t.lineBusy t.cur.line = false ∧
    t.l2At t.cur.line = some homeLine ∧ homeLine.st = .m ∧ (module poolLine { homeLine with st := .e } [y]).l2At poolLine =
      some { homeLine with st := .e } := by decide +kernel
theorem test_PoolAndLinks_meets_probes :
    let at_ := fun st => { homeLine with st := st }
    let s := fun st => module poolLine (at_ st) []
    (s .m).carries = true ∧ (module 32 homeLine []).carries = true ∧ homeLine.priv = false ∧
    (s .m).frame (128 * poolLine) = .pool 0 0 ∧ lineNo (128 * poolLine) = poolLine ∧ (s .m).l2At poolLine = some (at_ .m) ∧
    (s .e).l2At poolLine = some (at_ .e) ∧ (s .s).l2At poolLine = some (at_ .s) ∧ (s .m).poolLost (128 * poolLine) = none ∧
    (s .m).lineBusy poolLine = false ∧ (s .m).l2.Pairwise (fun a b => a.1 < b.1) ∧ Memory.wf (s .m).mem ∧
    Sparse.wf false (s .m).memP ∧ (module 32 homeLine []).l2At poolLine = none ∧
    (∀ p w, (module 32 homeLine []).frame 0x1000 ≠ .pool p w) := by
  refine ⟨?_, ?_, ?_, ?_, ?_, ?_, ?_, ?_, ?_, ?_, ?_, ?_, ?_, ?_, fun p w h => ?_⟩
  case refine_15 =>
    have : (module 32 homeLine []).frame 0x1000 = .hbm := by decide +kernel
    rw [this] at h
    cases h
  all_goals decide +kernel
theorem test_PoolAndLinks_meets_windows :
    let s := module 32 homeLine []
    let t := s.modCtl fun c => { c with pwins := c.pwins.modify 0 fun w => { w with lost := true } }
    (s.ctl.pwins[0]?.map fun x => x.grant) = some true ∧ s.carries = true ∧ spine.carries = false ∧
    (nth PoolWin.start s.ctl.pwins 0).lost = false ∧ (t.ctl.pwins[0]?.map fun x => x.lost) = some true ∧
    nth true t.ctl.poolUp 0 = true ∧ t.carries = true ∧ s.ctl.hostPorts[0]?.map (·.up) = some true ∧
    (s.modCtl fun c => { c with hostPorts := c.hostPorts.set 0 { up := false, hdmdb := false, cache := false, owned := false } }
      ).ctl.hostPorts[0]?.map (·.up) = some false ∧ nth 0 s.ctl.lanesLost 0 = 0 ∧
    0 < nth 0 (s.modCtl fun c => { c with lanesLost := c.lanesLost.set 0 1 }).ctl.lanesLost 0 := by decide +kernel

/-! ## The control window, power, attestation, errors and repair -/

/-- A module that is up. -/
def ready (f : Ctl → Ctl) : State := (module 32 homeLine []).modCtl f
theorem test_ControlRegisters_meets_tlbi :
    let s := ready id
    let t := ready fun c => { c with tlbiBusy := true }
    let u := ready fun c => { c with tlbiBusy := true, tlbiFence := 1 }
    s.carries = true ∧ s.ctl.tlbiBusy = false ∧ t.carries = true ∧ t.ctl.tlbiBusy = true ∧ t.ctl.tlbiFence = 0 ∧
    t.drainedTo t.nextId = true ∧ u.ctl.tlbiBusy = true ∧ u.ctl.tlbiFence ≠ 0 ∧
    (s.mapped.core 0).tlb = [pageOne] ∧ s.ctl.removes 1 0 0 0x40000000 = true ∧ s.ctl.removes 1 5 0 0x40000000 = false ∧
    u.drainedTo u.ctl.tlbiFence = true ∧
    ({ u with writes := [{ onItsWay .store .pending with id := 0 }] } : State).drainedTo 1 = false := by decide +kernel
theorem test_ControlRegisters_meets_regions :
    let s := ready fun c => { c with regions := [(3, { base := 0x80, tail := 0, ages := [] })] }
    let t := s.modLaunch 0 fun l => { l with region := 0x80 }
    t.carries = true ∧ (t.regionEnt 3).block ≠ 0 ∧ t.unfinished (t.regionEnt 3).block = true ∧ s.unfinished (s.regionEnt 3).block = false ∧
    s.carries = true ∧ s.hostWriting = false ∧
    (module 32 homeLine [onItsWay .host .propagating]).hostWriting = true := by decide +kernel
/-- R489, R493: the last byte of the report and a word of the nonce in LOCKED, and the first byte after the report. -/
theorem test_ControlRegisters_meets_reads_when_locked :
    let at_ := fun (n : Nat) => ({ ready fun c => { c with modst := .locked } with cur := { warp := 0, unit := 0, line := n } } : State)
    (at_ 0x137D4).ctl.modst = .locked ∧ (0x11000 ≤ (at_ 0x137D4).cur.line ∧ (at_ 0x137D4).cur.line < 0x137D5) ∧
    (0x10040 ≤ (at_ 0x10063).cur.line ∧ (at_ 0x10063).cur.line < 0x10064) ∧ 0x108 ≤ (at_ 0x137D5).cur.line ∧
    ¬ (0x10040 ≤ (at_ 0x137D5).cur.line ∧ (at_ 0x137D5).cur.line < 0x10064) ∧
    ¬ (0x11000 ≤ (at_ 0x137D5).cur.line ∧ (at_ 0x137D5).cur.line < 0x137D5) ∧
    (0x137D4#32).toNat < 0x137D5 ∧ (0x10010#32 : BitVec 32) = 0x10010 := by decide +kernel
theorem test_ControlRegisters_meets_writes :
    let s := ready id
    let l := ready fun c => { c with modst := .locked }
    let off : BitVec 32 := 0x20000
    spine.ctl.modst ≠ .ready ∧ spine.ctl.modst ≠ .locked ∧ s.ctl.modst = .ready ∧ (s.ctl.plainWrite off.toNat 5).isSome = true ∧
    l.ctl.modst = .locked ∧ 0x108 ≤ off.toNat ∧ ¬ (0x10040 ≤ off.toNat ∧ off.toNat < 0x10064) ∧
    ¬ (0x11000 ≤ off.toNat ∧ off.toNat < 0x137D5) ∧ (0x107#32).toNat < 0x108 ∧ (0x10058#32).toNat = 0x10040 + 8 * 3 ∧
    bitAt (1#64) 0 = true ∧ (0x30030#32).toNat = 0x30000 + 16 * 3 ∧ (0x30038#32).toNat = 0x30000 + 16 * 3 + 8 ∧
    s.cur.line < 0x108 ∧ 0x108 ≤ ({ spine with cur := { spine.cur with line := 0x108 } } : State).cur.line := by decide +kernel
theorem test_PowerAttestationAndReset_meets_levels :
    let s := ready fun c => { c with pwrcap := 1000 }
    (ready fun c => { c with level := 15 }).ctl.level = 15 ∧
    s.ctl.cap < s.ctl.cap + 1 ∧ s.ctl.level < 15 ∧ 100 * 0 ≤ 95 * s.ctl.cap ∧ 95 * s.ctl.cap < 100 * s.ctl.cap := by decide +kernel
theorem test_PowerAttestationAndReset_meets_attestation :
    let s := ready fun c => { c with attbusy := true }
    let t := ready fun c => { c with attbusy := true, flash := { c.flash with keyErased := true } }
    let u := ready fun c => { c with attbusy := true, attindex := 2 ^ 40, flash := { c.flash with sigIndex := 2 ^ 40 } }
    let g := ready fun c => { c with flash := { c.flash with sigIndex := 2 ^ 40 } }
    spine.ctl.modst ≠ .ready ∧ spine.ctl.modst ≠ .locked ∧ g.ctl.attbusy = false ∧ 2 ^ 40 ≤ g.ctl.flash.sigIndex ∧
    (ready id).ctl.flash.sigIndex < 2 ^ 40 ∧ (ready id).ctl.flash.keyErased = false ∧ s.ctl.attindex < 2 ^ 40 ∧
    2 ^ 40 ≤ u.ctl.attindex ∧
    (ready id).ctl.attbusy = false ∧ (ready id).ctl.modst = .ready ∧ s.ctl.attbusy = true ∧ s.ctl.flash.keyErased = false ∧
    s.ctl.flash.sigIndex < 2 ^ 40 ∧ t.ctl.flash.keyErased = true ∧ u.ctl.flash.keyErased = false ∧
    2 ^ 40 ≤ u.ctl.flash.sigIndex := by decide +kernel
theorem test_PowerAttestationAndReset_meets_alarms :
    let s := ready fun c => { c with alarmcfg := 0x24 }
    s.ctl.policy 0 = 0 ∧ s.ctl.policy 1 = 1 ∧ 2 ≤ s.ctl.policy 2 ∧ s.ctl.modst = .ready ∧ s.carries = true := by decide +kernel
theorem test_PowerAttestationAndReset_meets_checks :
    let f := (ready id).ctl.flash
    let bad := fun (g : Flash → Flash) => (ready fun c => { c with flash := g c.flash }).ctl.flash
    (bad fun f => { f with signatureOk := false }).signatureOk = false ∧ f.signatureOk = true ∧
    (bad fun f => { f with contentsOk := false }).contentsOk = false ∧ f.contentsOk = true ∧
    (bad fun f => { f with repairOk := false }).repairOk = false ∧ f.repairOk = true := by decide +kernel
/-- An operation is in progress on a line of which core 7 has a copy. -/
def moving : State := withWrites [] { homeLine with busy := true, nodes := [{ core := 7, fmt := .full }] }
theorem test_ErrorsAndRepair_meets :
    let s := spine
    0 < s.warps.length ∧ 3 < (s.warp 0).regs.length ∧ (s.warp 0).exited = false ∧ (s.warp 0).held = none ∧
    0 < s.cores.length ∧ (s.core 0).disabled = false ∧ s.coreBusy 0 = true ∧ (s.core 7).disabled = false ∧ s.coreBusy 7 = false ∧
    7 < s.cores.length ∧ s.coreInFlow 7 = false ∧ moving.coreBusy 7 = false ∧ moving.coreInFlow 7 = true ∧ ((List.range s.groups.length).foldl (fun (t : Option State) g => match t with
      | some t => t.moveImage 7 g
      | none => none) (some s)) = some s ∧ s.repaired.any (fun x => x.1 == 2 && x.2 / 32 == 0) = false ∧ s.l2 = [] ∧
    ({ s with repaired := [(2, 5)] } : State).repaired.any (fun x => x.1 == 2 && x.2 / 32 == 0) = true := by decide +kernel
/-- R404, R491: a slice with a line in a flow, and one with a line of pool memory that cannot be written back. -/
theorem test_ErrorsAndRepair_meets_a_slice_that_waits :
    let s := moving
    let t := spine.setL2 (2 ^ 42) homeLine
    (∃ x ∈ s.l2, homeDie x.1 = homeDie 32 ∧ homeSlice x.1 = homeSlice 32 ∧ (s.lineBusy x.1 = true ∨ s.reaches x.1 = false)) ∧
    (∃ x ∈ t.l2, homeDie x.1 = homeDie (2 ^ 42) ∧ homeSlice x.1 = homeSlice (2 ^ 42) ∧ (t.lineBusy x.1 = true ∨ t.reaches x.1 = false)) := by
  decide +kernel

end Sys2Proof.Tests
end

section
/-! # Branches (O30)

What the end of a transfer does (`retireTo`), which numbers a split path takes (R157), and the four things a BRA can
do (R156, R179). -/

namespace Sys2Proof.Machine

/-! ## The end of a transfer -/

theorem KeepsState.trans {v u x : Warp} (h : KeepsState v u) (k : KeepsState u x) : KeepsState v x where
  regs := by simp [k.regs, h.regs]
  special := by simp [k.special, h.special]
  strands := k.strands.trans h.strands

theorem raise_warps_length (s : State) (c : Cause) (m : Mask) (x a : DWord) (g : Bool) :
    (s.raise c m x a g).warps.length = s.warps.length := State.warps_modWarp_length s s.cur.warp _

theorem raise_keepsState (s : State) (c : Cause) (m : Mask) (x a : DWord) (g : Bool)
    (h : s.cur.warp < s.warps.length) : KeepsState s.me (s.raise c m x a g).me := by
  have hme : (s.raise c m x a g).me = (s.modMe _).me := rfl
  rw [State.me_modMe _ _ h] at hme
  rw [hme]
  constructor <;> simp

/-- The trap of a step, where one was armed, leaves the same registers, special registers and strands. -/
theorem stepped_keepsState (s : State) (h : s.cur.warp < s.warps.length) : KeepsState s.me s.stepped.me := by
  rcases stepped_cases s with hs | ⟨-, m, x, hs⟩
  · rw [hs]
    constructor <;> simp
  · rw [hs]
    exact raise_keepsState s .step m x 0 false h

theorem stepped_warps_length (s : State) : s.stepped.warps.length = s.warps.length := by
  rcases stepped_cases s with hs | ⟨-, m, x, hs⟩
  · rw [hs]
  · rw [hs]
    exact raise_warps_length s .step m x 0 false

/-- A transfer ends at its address on the path that it was on, with the same call stack. -/
theorem retireTo_wentTo (s : State) (i : Instr) (pc : Word) (h : s.cur.warp < s.warps.length) :
    WentTo s (s.retireTo i pc) i pc s.me.cstack := by
  have hn : s.noteIssue.cur.warp < s.noteIssue.warps.length := by rw [noteIssue_cur, noteIssue_warps]; exact h
  unfold State.retireTo
  generalize ht : (s.noteIssue.modMe fun v => { (v.counted s.clock).fallBack i with pc := pc }) = t
  have hme : t.me = { (s.me.counted s.clock).fallBack i with pc := pc } := by
    rw [← ht, State.me_modMe _ _ hn, noteIssue_me]
  have hlen : t.cur.warp < t.warps.length := by
    rw [← ht]; simp only [State.modMe, State.warps_modWarp_length, State.modWarp_cur]; exact hn
  have hrest : KeepsRest s t := by
    rw [← ht]; exact (noteIssue_rest s).trans (modMe_rest _ _)
  have hstate : KeepsState s.me t.me := by
    rw [hme]; constructor <;> simp [Warp.fallBack, Warp.counted]
  obtain ⟨kw, kr, kpc, kmodw, -, kcount, -, ktrap, -⟩ := stepped_keeps t hlen
  refine ⟨?_, ?_, ?_, ?_, ?_, fun ha => ?_, hstate.trans (stepped_keepsState t hlen), hrest.trans kr⟩
  · rw [kpc, hme]
  · rw [kw.saved.2, hme]; rfl
  · rw [kw.path.1, kw.path.2.1, kw.path.2.2, kw.saved.1, hme]
    exact ⟨rfl, rfl, rfl, rfl⟩
  · rw [kmodw, hme]; rfl
  · rw [kcount, hme]; rfl
  · rw [ktrap (by rw [hme]; exact ha), hme]; rfl

/-- A transfer ends in the same warp, and it is still there. -/
theorem retireTo_warp_lt (s : State) (i : Instr) (pc : Word) (h : s.cur.warp < s.warps.length) :
    (s.retireTo i pc).cur.warp < (s.retireTo i pc).warps.length := by
  rw [(retireTo_wentTo s i pc h).rest.cur, State.retireTo, stepped_warps_length, State.modMe,
    State.warps_modWarp_length, noteIssue_warps]
  exact h

/-! ## Free path numbers (R157) -/

theorem le_lowestFree (used : List Nat) (n k : Nat) : k ≤ lowestFree used n k := by
  induction n generalizing k with
  | zero => exact Nat.le_refl k
  | succ n ih =>
    unfold lowestFree
    split
    · exact Nat.le_of_succ_le (ih (k + 1))
    · exact Nat.le_refl k

/-- Every number that the search has passed is in use. -/
theorem mem_of_lt_lowestFree (used : List Nat) (n k j : Nat) (hk : k ≤ j) (hj : j < lowestFree used n k) :
    j ∈ used := by
  induction n generalizing k with
  | zero => exact absurd hj (Nat.not_lt.2 hk)
  | succ n ih =>
    unfold lowestFree at hj
    split at hj
    next hu =>
      rcases Nat.eq_or_lt_of_le hk with rfl | hlt
      · exact List.contains_iff_mem.1 hu
      · exact ih (k + 1) hlt hj
    next => exact absurd hj (Nat.not_lt.2 hk)

/-- The search ends at a free number unless it has passed all `n` of its candidates. -/
theorem lowestFree_notMem (used : List Nat) (n k : Nat) (h : lowestFree used n k < k + n) :
    lowestFree used n k ∉ used := by
  induction n generalizing k with
  | zero => exact absurd h (Nat.lt_irrefl k)
  | succ n ih =>
    unfold lowestFree at h ⊢
    split at h
    next hu =>
      rw [if_pos hu]
      exact ih (k + 1) (by omega)
    next hu =>
      rw [if_neg hu]
      exact fun hm => hu (List.contains_iff_mem.2 hm)

/-- The search passes no more numbers than are in use. -/
theorem lowestFree_le (used : List Nat) (n k : Nat) : lowestFree used n k ≤ k + used.length := by
  have hsub : List.range' k (lowestFree used n k - k) ⊆ used := fun j hj => by
    rw [List.mem_range'_1] at hj
    exact mem_of_lt_lowestFree used n k j hj.1 (by omega)
  have hlen := (List.subperm_of_subset List.nodup_range' hsub).length_le
  rw [List.length_range'] at hlen
  omega

theorem freePid_pos (used : List Nat) : 0 < freePid used := le_lowestFree used 65535 1

theorem freePid_le (used : List Nat) : freePid used ≤ 1 + used.length := lowestFree_le used 65535 1

theorem freePid_notMem (used : List Nat) (h : used.length < 65535) : freePid used ∉ used :=
  lowestFree_notMem used 65535 1 (Nat.lt_of_le_of_lt (freePid_le used) (by omega))

/-- No free number lies below the one that is found. -/
theorem freePid_le_of_notMem (used : List Nat) (j : Nat) (hpos : 0 < j) (hj : j ∉ used) : freePid used ≤ j :=
  Nat.le_of_not_lt fun hlt => hj (mem_of_lt_lowestFree used 65535 1 j hpos hlt)

/-- The second number taken is above the first, and as free as it was (R156). -/
theorem freePid_lt_freePid_cons (used : List Nat) (h : used.length + 1 < 65535) :
    freePid used < freePid (freePid used :: used) ∧ freePid (freePid used :: used) ∉ used := by
  obtain ⟨hne, hfree⟩ := not_or.1 (mt List.mem_cons.2 (freePid_notMem (freePid used :: used) h))
  have hle := freePid_le_of_notMem used _ (freePid_pos _) hfree
  exact ⟨Nat.lt_of_le_of_ne hle (Ne.symm hne), hfree⟩

/-! ## The split of a path (R156, R157) -/

theorem split_keepsState (v : Warp) (t : Mask) (target join : Word) : KeepsState v (v.split t target join) := by
  constructor <;> simp [Warp.split]

/-- A new path restarts the fairness count and changes nothing else. -/
theorem newPath_eq (v : Warp) : ∃ n l, v.newPath = { v with fairCount := n, lrCount := l } := by
  unfold Warp.newPath
  split
  · exact ⟨v.fairCount, v.lrCount, rfl⟩
  · exact ⟨0, none, rfl⟩

theorem newPath_keepsState (v : Warp) : KeepsState v v.newPath := by
  obtain ⟨n, l, hv⟩ := newPath_eq v
  rw [hv]
  constructor <;> simp

/-- The numbers of a split path fit in 16 bits, are fresh, and the taken path has the lower one. -/
theorem splitPids_fresh (used : List Nat) (h : used.length < 65000) :
    let p := BitVec.ofNat 16 (freePid used)
    let q := BitVec.ofNat 16 (freePid (freePid used :: used))
    p.toNat ∉ used ∧ q.toNat ∉ used ∧ p ≠ 0 ∧ p.toNat < q.toNat := by
  have hp := freePid_le used
  have hq := freePid_le (freePid used :: used)
  rw [List.length_cons] at hq
  obtain ⟨hlt, hfree⟩ := freePid_lt_freePid_cons used (by omega)
  have ep : (BitVec.ofNat 16 (freePid used)).toNat = freePid used := Nat.mod_eq_of_lt (by omega)
  have eq : (BitVec.ofNat 16 (freePid (freePid used :: used))).toNat = freePid (freePid used :: used) :=
    Nat.mod_eq_of_lt (by omega)
  refine ⟨?_, ?_, fun h0 => ?_, ?_⟩
  · rw [ep]
    exact freePid_notMem used (by omega)
  · rw [eq]
    exact hfree
  · rw [h0] at ep
    exact absurd ep (Nat.ne_of_lt (freePid_pos used))
  · rw [ep, eq]
    exact hlt

/-! ## BRA (R156, R179) -/

/-- Every lane takes a guarded instruction exactly when no lane of the mask is outside its active set (R69). -/
theorem mask_andNot_activeSet_eq_zero_iff (v : Warp) (h : Option Hd) :
    v.mask &&& ~~~(v.activeSet h) = 0 ↔ v.activeSet h = v.mask := by
  have hsub : v.mask &&& v.activeSet h = v.activeSet h := by
    cases h with
    | none => exact BitVec.and_self
    | some h => simp only [Warp.activeSet, ← BitVec.and_assoc, BitVec.and_self]
  constructor
  · intro h0
    calc v.activeSet h = (v.mask &&& v.activeSet h) ||| (v.mask &&& ~~~(v.activeSet h)) := by
          rw [hsub, h0]; exact BitVec.or_zero.symm
      _ = v.mask := by
          rw [← BitVec.and_or_distrib_left, BitVec.or_not_self, BitVec.and_allOnes]
  · intro he
    rw [he]
    exact BitVec.and_not_self v.mask

/-- The effect of a ready BRA whose target and join lie in its overlay. -/
theorem exec_bra (s : State) (h : Hd) (target join : BitVec 20) (e : Mask) (x j : Word)
    (hr : s.Ready (.bra h target join) e) (hx : s.branchTo target = some x) (hj : s.branchTo join = some j) :
    exec (.bra h target join) s = .next (
      if e = s.me.mask then s.retireTo (.bra h target join) x
      else if e = 0 then s.retire (.bra h target join)
      else if 1022 < s.me.dstack.length then s.raise .stackOverflow e 0
      else ((s.modMe fun v => v.split e x j).retireTo (.bra h target join) x).modMe Warp.newPath) := by
  have hexec : exec (.bra h target join) s = execBra h target join s := rfl
  have hall : (s.me.mask &&& ~~~e = 0) = (e = s.me.mask) := by
    rw [hr.2]; exact propext (mask_andNot_activeSet_eq_zero_iff s.me _)
  have hfull : (1024 < s.me.dstack.length + 2) = (1022 < s.me.dstack.length) := propext (by omega)
  rw [hexec, execBra, issue_ready s _ e _ hr]
  simp only [hx, hj, hall, hfull]

/-- A path that splits goes to its target under the lower of two fresh numbers, above the entries of the other lanes and
of the whole path. -/
theorem split_retireTo (s : State) (i : Instr) (e : Mask) (x j : Word) (h : s.cur.warp < s.warps.length)
    (hpids : s.me.pids.length < 65000) :
    ∃ t p q, ((s.modMe fun v => v.split e x j).retireTo i x).modMe Warp.newPath = t ∧
      t.me.pc = x ∧ t.me.mask = e ∧ t.me.join = j ∧ t.me.pid = p ∧
      p.toNat ∉ s.me.pids ∧ q.toNat ∉ s.me.pids ∧ p ≠ 0 ∧ p.toNat < q.toNat ∧
      t.me.dstack =
        { pc := s.me.pc + 8, mask := s.me.mask &&& ~~~e, join := j, path := true, park := false, pid := q, rejoin := 0 } ::
        { pc := j, mask := s.me.mask, join := s.me.join, path := false, park := false, pid := s.me.pid, rejoin := 0 } ::
        s.me.dstack ∧
      t.me.cstack = s.me.cstack ∧ KeepsState s.me t.me ∧ KeepsRest s t := by
  have hu : (s.modMe fun v => v.split e x j).cur.warp < (s.modMe fun v => v.split e x j).warps.length := by
    simp only [State.modMe, State.warps_modWarp_length, State.modWarp_cur]; exact h
  have hsplit := State.me_modMe s (fun v => v.split e x j) h
  have hrest := modMe_rest s fun v => v.split e x j
  generalize (s.modMe fun v => v.split e x j) = u at hu hsplit hrest ⊢
  obtain ⟨hpc, hcalls, ⟨hmask, hjoin, hpid, hstack⟩, -, -, -, hstate, hrest'⟩ := retireTo_wentTo u i x hu
  have hnew := State.me_modMe (u.retireTo i x) Warp.newPath (retireTo_warp_lt u i x hu)
  obtain ⟨n, l, hpath⟩ := newPath_eq (u.retireTo i x).me
  obtain ⟨hp, hq, hp0, hlt⟩ := splitPids_fresh s.me.pids hpids
  refine ⟨_, _, _, rfl, ?_, ?_, ?_, ?_, hp, hq, hp0, hlt, ?_, ?_, ?_, ?_⟩
  · rw [hnew, hpath, hpc]
  · rw [hnew, hpath, hmask, hsplit, Warp.split]
  · rw [hnew, hpath, hjoin, hsplit, Warp.split]
  · rw [hnew, hpath, hpid, hsplit, Warp.split]
  · rw [hnew, hpath, hstack, hsplit, Warp.split]
  · rw [hnew, hpath, hcalls, hsplit, Warp.split]
  · rw [hnew]
    rw [hsplit] at hstate
    exact ((split_keepsState s.me e x j).trans hstate).trans (newPath_keepsState _)
  · exact (hrest.trans hrest').trans (modMe_rest _ _)

/-- Settles O30: the four cases of `exec_bra`, each by the lemma on how that issue ends. -/
theorem branches : Obligations.Branches := by
  intro s h target join e x j hr hx hj hm
  have hw := ready_warp s _ e hr
  have hexec := exec_bra s h target join e x j hr hx hj
  refine ⟨fun he => ?taken, fun he => ?passed, fun h0 hne hfull => ?full, fun h0 hne hroom hpids => ?split⟩
  case taken =>
    rw [if_pos he] at hexec
    exact ⟨_, hexec, retireTo_wentTo s _ x hw⟩
  case passed =>
    rw [if_neg (by rw [he]; exact hm.symm), if_pos he] at hexec
    exact ⟨_, hexec, retire_issued s _ hw⟩
  case full =>
    rw [if_neg hne, if_neg h0, if_pos hfull] at hexec
    exact ⟨_, hexec, raise_raised s _ e 0 0 false hw⟩
  case split =>
    rw [if_neg hne, if_neg h0, if_neg (Nat.not_lt.2 hroom)] at hexec
    obtain ⟨t, p, q, ht, hkeeps⟩ := split_retireTo s (.bra h target join) e x j hw hpids
    exact ⟨t, p, q, by rw [hexec, ht], hkeeps⟩

end Sys2Proof.Machine
end

section
/-! # Integer results, division and the exchange of lanes (O10, O11, O16)

Where a ready instruction writes, what the clamping of exact integers gives (R173), the integer instructions (R189,
R191, R193), division (R190), and the words that lanes read from each other (R200, R201, R206, R454). -/

namespace Sys2Proof.Machine

/-! ## The end of a ready instruction -/

/-- A ready instruction has what its own effect, in its active set, makes true. -/
theorem exec_of_ready {s : State} {i : Instr} {e : Mask} {P : State → Prop} {k : Mask → State → State}
    (h : s.Ready i e) (hexec : exec i s = .next (s.issue i k)) (hk : P (k e s)) : ∃ t, exec i s = .next t ∧ P t :=
  ⟨k e s, by rw [hexec, issue_ready s i e k h], hk⟩

/-- An effect that comes out as `t` leaves what is true of `t`. -/
theorem exec_next {s : State} {i : Instr} {P : State → Prop} {x t : State} (hexec : exec i s = .next x) (hx : x = t)
    (ht : P t) : ∃ t, exec i s = .next t ∧ P t :=
  ⟨t, hexec.trans (congrArg _ hx), ht⟩

theorem dests_subset_regs (u : Use) : u.dests ⊆ u.regs := by
  cases u <;> simp [Use.dests, Use.regs]

theorem dests_dst (wide : Bool) (d : GReg) : (dst wide d).dests = destRegs wide d := by
  cases wide <;> rfl

/-- The registers that a ready instruction writes exist and are full (R26, R41). -/
theorem ready_destRegs {s : State} {i : Instr} {e : Mask} {wide : Bool} {d : GReg} (h : s.Ready i e)
    (hd : i.uses.d = dst wide d) :
    (∀ r ∈ destRegs wide d, r < s.me.regs.length) ∧ ∀ r ∈ destRegs wide d, (s.me.reg r).full = true := by
  have huse : ∀ r ∈ destRegs wide d, ∃ u ∈ (s.usesOf i).list, r ∈ u.dests := fun r hr => by
    rw [← List.mem_flatMap, usesOf_dests, List.mem_flatMap]
    exact ⟨i.uses.d, by simp [Uses.list], by rw [hd, dests_dst]; exact hr⟩
  constructor <;> intro r hr <;> obtain ⟨u, hu, hru⟩ := huse r hr
  · exact ready_range s i e h u hu r (dests_subset_regs u hru)
  · exact ready_full s i e h u hu r hru

theorem toRegs_of_ready {s : State} {i : Instr} {e : Mask} {wide : Bool} {d : GReg} (h : s.Ready i e)
    (hd : i.uses.d = dst wide d) (f : Nat → DWord) : WritesReg s (s.toRegs wide i d e f) i wide d e f 0 :=
  toRegs_writes s wide i d e f (ready_warp s i e h) (ready_destRegs h hd).1 (ready_destRegs h hd).2

theorem toReg_of_ready {s : State} {i : Instr} {e : Mask} {d : GReg} (h : s.Ready i e) (hd : i.uses.d = .wr d)
    (f : Nat → Word) : WritesReg s (s.toReg i d e f) i false d e (fun l => word (f l)) 0 :=
  have hreg := ready_destRegs (wide := false) h hd
  toReg_writes s i d e f (ready_warp s i e h) (hreg.1 _ (List.mem_singleton.2 rfl)) (hreg.2 _ (List.mem_singleton.2 rfl))

theorem toReg2_of_ready {s : State} {i : Instr} {e : Mask} {d : GReg} (h : s.Ready i e) (hd : i.uses.d = .wr2 d)
    (f : Nat → DWord) : WritesReg s (s.toReg2 i d e f) i true d e f 0 :=
  toRegs_of_ready (wide := true) h hd f

/-! ## Results that may be clamped (R173) -/

/-- A value with whether it was clamped, as a result with flags. -/
def clampedRes (x : DWord × Bool) : FRes := { code := x.1.toNat, fl := if x.2 then flSAT else 0 }

/-- SAT raises no exception: MODE has no enable bit for it (R15, R19). -/
theorem raisingLanes_clamped (mode : Word) (e : Mask) (f : Nat → DWord × Bool) :
    raisingLanes mode e (fun l => (clampedRes (f l)).fl) = 0 := by
  have hbits : ∀ x : BitVec 5, flSAT &&& (0#3 ++ x) = 0#8 := by decide
  have hen : flSAT &&& enabledFlags mode = 0#8 := hbits _
  refine BitVec.eq_of_getLsbD_eq fun l hl => ?_
  rw [raisingLanes, getLsbD_maskOf _ _ hl]
  cases hf : (f l).2 <;> simp [clampedRes, hf, hen]

/-- The OR of a flag over lanes is the flag where a lane has it. -/
theorem foldl_or_flag (c : Nat → Bool) (x acc : Byte) (ls : List Nat) :
    ls.foldl (fun a l => a ||| if c l then x else 0) acc = acc ||| if ls.any c then x else 0 := by
  induction ls generalizing acc with
  | nil => simp
  | cons l ls ih =>
    rw [List.foldl_cons, ih, List.any_cons]
    cases c l <;> cases ls.any c <;> simp [BitVec.or_assoc]

theorem orFlags_clamped (e : Mask) (f : Nat → DWord × Bool) :
    orFlags e (fun l => (clampedRes (f l)).fl) = satFlags e f := by
  simp only [orFlags, clampedRes, satFlags, foldl_or_flag]
  exact BitVec.zero_or

theorem ofNat_clampedRes_code (x : DWord × Bool) : BitVec.ofNat 64 (clampedRes x).code = x.1 := by
  simp [clampedRes]

theorem toRegFl_clamped {s : State} {i : Instr} {e : Mask} {d : GReg} (h : s.Ready i e) (hd : i.uses.d = .wr d)
    (f : Nat → DWord × Bool) (g : Nat → FRes) (hg : ∀ l, g l = clampedRes (f l)) :
    WritesReg s (s.toRegFl i d e g) i false d e (fun l => (f l).1) (satFlags e f) := by
  have hreg := ready_destRegs (wide := false) h hd
  have hw := toRegFl_writes s i d e g (ready_warp s i e h) (hreg.1 _ (List.mem_singleton.2 rfl))
    (hreg.2 _ (List.mem_singleton.2 rfl)) (by simp only [hg]; exact raisingLanes_clamped _ _ f)
  simpa only [hg, ofNat_clampedRes_code, orFlags_clamped] using hw

theorem toReg2Fl_clamped {s : State} {i : Instr} {e : Mask} {d : GReg} (h : s.Ready i e) (hd : i.uses.d = .wr2 d)
    (f : Nat → DWord × Bool) (g : Nat → FRes) (hg : ∀ l, g l = clampedRes (f l)) :
    WritesReg s (s.toReg2Fl i d e g) i true d e (fun l => (f l).1) (satFlags e f) := by
  have hreg := ready_destRegs (wide := true) h hd
  have hw := toReg2Fl_writes s i d e g (ready_warp s i e h) hreg.1 hreg.2
    (by simp only [hg]; exact raisingLanes_clamped _ _ f)
  simpa only [hg, ofNat_clampedRes_code, orFlags_clamped] using hw

theorem satFlags_false (e : Mask) (f : Nat → DWord) : satFlags e (fun l => (f l, false)) = 0 := by
  simp [satFlags]

/-! ## Exact integers as words (R173) -/

theorem exact_eq_intOf {n : Nat} (sg : BitVec 2) (x : BitVec n) : exact sg x = intOf (sgSigned sg) x := by
  by_cases h : sg = 1#2 <;> simp [exact, intOf, sgSigned, h]

theorem ofInt_intOf {n : Nat} (sg : Bool) (x : BitVec n) : BitVec.ofInt n (intOf sg x) = x := by
  cases sg <;> simp [intOf]

theorem ofInt_intOf_extended (sg : BitVec 2) (x : Word) : BitVec.ofInt 64 (intOf (sgSigned sg) x) = extended sg x := by
  by_cases h : sg = 1#2
  · simp [intOf, sgSigned, extended, h]
  · simp [intOf, sgSigned, extended, h, BitVec.signExtend]

theorem setWidth_ofInt_toNat {n : Nat} (hn : n ≤ 64) (x : Int) : ((BitVec.ofInt n x).setWidth 64).toNat = intCode n x := by
  rw [BitVec.toNat_setWidth, BitVec.toNat_ofInt, Nat.mod_eq_of_lt, intCode]
  have := (BitVec.ofInt n x).isLt
  rw [BitVec.toNat_ofInt] at this
  exact Nat.lt_of_lt_of_le this (Nat.pow_le_pow_right (by decide) hn)

/-- Without SAT the result is the exact value modulo 2^n. -/
theorem clampInt_plain {n : Nat} (hn : n ≤ 64) (sg : Bool) (x : Int) :
    clampInt false sg n x = clampedRes ((BitVec.ofInt n x).setWidth 64, false) := by
  simp [clampInt, clampedRes, setWidth_ofInt_toNat hn]

/-- With SAT the result is the exact value clamped to its type. -/
theorem clampInt_saturated {n : Nat} (hn : n ≤ 64) (sg : BitVec 2) (x : Int) :
    clampInt true (sgSigned sg) n x = clampedRes ((saturated sg n x).1.setWidth 64, (saturated sg n x).2) := by
  have hlo : (intRange (sgSigned sg) n).1 = if sg = 1#2 then 0 else -2 ^ (n - 1) := by
    by_cases h : sg = 1#2 <;> simp [intRange, sgSigned, h]
  have hhi : (intRange (sgSigned sg) n).2 = if sg = 1#2 then 2 ^ n - 1 else 2 ^ (n - 1) - 1 := by
    by_cases h : sg = 1#2 <;> simp [intRange, sgSigned, h]
  have hsat : saturated sg n x =
      if x < (intRange (sgSigned sg) n).1 then (BitVec.ofInt n (intRange (sgSigned sg) n).1, true)
      else if (intRange (sgSigned sg) n).2 < x then (BitVec.ofInt n (intRange (sgSigned sg) n).2, true)
      else (BitVec.ofInt n x, false) := by
    rw [hlo, hhi, saturated]
  rw [hsat]
  by_cases h1 : x < (intRange (sgSigned sg) n).1
  · simp [clampInt, h1, clampedRes, setWidth_ofInt_toNat hn]
  · by_cases h2 : (intRange (sgSigned sg) n).2 < x <;> simp [clampInt, h1, h2, clampedRes, setWidth_ofInt_toNat hn]

/-- The value of a word lies in the range of its type, so that SAT leaves it as it is. -/
theorem clampInt_intOf (sat sg : Bool) (y : Word) : clampInt sat sg 32 (intOf sg y) = clampedRes (word y, false) := by
  have hrange : (intRange sg 32).1 ≤ intOf sg y ∧ intOf sg y ≤ (intRange sg 32).2 := by
    cases sg with
    | false =>
      have := y.isLt
      simp only [intOf, intRange, Bool.false_eq_true, if_false]
      omega
    | true =>
      have := BitVec.le_toInt y
      have := BitVec.toInt_lt (x := y)
      simp only [intOf, intRange, if_true]
      omega
  have hcode := setWidth_ofInt_toNat (n := 32) (by decide) (intOf sg y)
  rw [ofInt_intOf] at hcode
  simp [clampInt, Int.not_lt.2 hrange.1, Int.not_lt.2 hrange.2, clampedRes, word, ← hcode]

/-! ## Integer instructions (R189, R191, R193) -/

section Results
variable {s : State} {i : Instr} {e : Mask} {d : GReg}

/-- Without SAT: any way to write the exact value modulo 2^32. -/
theorem toRegFl_plain (h : s.Ready i e) (hd : i.uses.d = .wr d) {sat : Bool} (hsat : ¬sat = true) (sg : Bool) (x : Nat → Int)
    (f : Nat → Word) (hf : ∀ l, BitVec.ofInt 32 (x l) = f l) :
    WritesReg s (s.toRegFl i d e fun l => clampInt sat sg 32 (x l)) i false d e (fun l => word (f l)) 0 := by
  rw [Bool.not_eq_true] at hsat
  subst hsat
  have hw := toRegFl_clamped h hd (fun l => (word (f l), false)) (fun l => clampInt false sg 32 (x l))
    fun l => by rw [clampInt_plain (by decide), hf, word]
  rwa [satFlags_false] at hw

theorem toReg2Fl_plain (h : s.Ready i e) (hd : i.uses.d = .wr2 d) {sat : Bool} (hsat : ¬sat = true) (sg : Bool)
    (x : Nat → Int) (f : Nat → DWord) (hf : ∀ l, BitVec.ofInt 64 (x l) = f l) :
    WritesReg s (s.toReg2Fl i d e fun l => clampInt sat sg 64 (x l)) i true d e f 0 := by
  rw [Bool.not_eq_true] at hsat
  subst hsat
  have hw := toReg2Fl_clamped h hd (fun l => (f l, false)) (fun l => clampInt false sg 64 (x l))
    fun l => by rw [clampInt_plain (by decide), hf, BitVec.setWidth_eq]
  rwa [satFlags_false] at hw

/-- With SAT: the exact value, clamped. -/
theorem toRegFl_saturated (h : s.Ready i e) (hd : i.uses.d = .wr d) {sat : Bool} (hsat : sat = true) (sg : BitVec 2)
    (x : Nat → Int) :
    WritesReg s (s.toRegFl i d e fun l => clampInt sat (sgSigned sg) 32 (x l)) i false d e
      (fun l => word (saturated sg 32 (x l)).1)
      (satFlags e fun l => (word (saturated sg 32 (x l)).1, (saturated sg 32 (x l)).2)) := by
  subst hsat
  exact toRegFl_clamped h hd (fun l => (word (saturated sg 32 (x l)).1, (saturated sg 32 (x l)).2)) _
    fun l => clampInt_saturated (by decide) sg (x l)

theorem toReg2Fl_saturated (h : s.Ready i e) (hd : i.uses.d = .wr2 d) {sat : Bool} (hsat : sat = true) (sg : BitVec 2)
    (x : Nat → Int) :
    WritesReg s (s.toReg2Fl i d e fun l => clampInt sat (sgSigned sg) 64 (x l)) i true d e
      (fun l => (saturated sg 64 (x l)).1) (satFlags e fun l => saturated sg 64 (x l)) := by
  subst hsat
  exact toReg2Fl_clamped h hd (fun l => saturated sg 64 (x l)) _
    fun l => by rw [clampInt_saturated (by decide), BitVec.setWidth_eq]

end Results

theorem ofInt_int (v : Warp) (m : MByte) (r : GReg) (l : Nat) : BitVec.ofInt 32 (v.int m r l) = v.lane r l :=
  ofInt_intOf _ _

theorem ofInt_int2 (v : Warp) (m : MByte) (r : GReg) (l : Nat) : BitVec.ofInt 64 (v.int2 m r l) = v.lane2 r l :=
  ofInt_intOf _ _

theorem ofInt_int_extended (v : Warp) (m : MByte) (r : GReg) (l : Nat) :
    BitVec.ofInt 64 (v.int m r l) = extended m.sg (v.lane r l) := ofInt_intOf_extended _ _

theorem ofInt_sub_eq {n : Nat} (x y : Int) : BitVec.ofInt n (x - y) = BitVec.ofInt n x - BitVec.ofInt n y := by
  rw [Int.sub_eq_add_neg, BitVec.ofInt_add, BitVec.ofInt_neg, BitVec.sub_eq_add_neg]

/-- The absolute value modulo 2^32, that of -2^31 being 2^31. -/
theorem ofInt_natAbs_toInt (x : Word) : BitVec.ofInt 32 (x.toInt.natAbs : Int) = if x.msb then -x else x := by
  rw [BitVec.msb_eq_toInt]
  by_cases h : x.toInt < 0
  · rw [Int.ofNat_natAbs_of_nonpos (Int.le_of_lt h), BitVec.ofInt_neg, BitVec.ofInt_toInt]
    simp [h]
  · rw [Int.natAbs_of_nonneg (Int.not_lt.1 h), BitVec.ofInt_toInt]
    simp [h]

/-- Bits 63:32 of the exact value are the high half of the value modulo 2^64. -/
theorem ofInt_ushiftRight_32 (z : Int) : (BitVec.ofInt 64 z) >>> 32 = word (BitVec.ofInt 32 (z / 2 ^ 32)) := by
  apply BitVec.eq_of_toNat_eq
  rw [word, setWidth_ofInt_toNat (by decide), BitVec.toNat_ushiftRight, BitVec.toNat_ofInt, intCode, Nat.shiftRight_eq_div_pow]
  omega

theorem word_mulHigh (v : Warp) (m : MByte) (a b : GReg) (l : Nat) :
    word (mulHigh (v.int m a l) (v.int m b l)) = (extended m.sg (v.lane a l) * extended m.sg (v.lane b l)) >>> 32 := by
  rw [mulHigh, ← ofInt_ushiftRight_32, BitVec.ofInt_mul, ofInt_int_extended, ofInt_int_extended]

theorem notAbove_iff (v : Warp) (m : MByte) (a b : GReg) (l : Nat) :
    notAbove m.sg (v.lane a l) (v.lane b l) = true ↔ v.int m a l ≤ v.int m b l := by
  by_cases h : m.sg = 1#2
  · simp [notAbove, Warp.int, intOf, sgSigned, h, BitVec.ule_iff_toNat_le]
  · simp [notAbove, Warp.int, intOf, sgSigned, h, BitVec.sle_iff_toInt_le]

theorem shiftLeft_eq_mul_pow (x : DWord) (n : Nat) : x <<< n = x * BitVec.ofNat 64 (2 ^ n) := by
  rw [BitVec.shiftLeft_eq_mul_twoPow]
  congr 1
  apply BitVec.eq_of_toNat_eq
  rw [BitVec.toNat_twoPow, BitVec.toNat_ofNat]

/-- The instructions of `integerResult` write its result. -/
theorem integerResult_writes (s : State) (i : Instr) (e : Mask) (w : Bool) (d : GReg) (f : Nat → DWord) (hr : s.Ready i e)
    (h : integerResult s.me i = some (w, d, f)) : ∃ t, exec i s = .next t ∧ WritesReg s t i w d e f 0 := by
  cases i with
  | iadd hd m d' a b =>
    obtain ⟨hm, ⟨⟩⟩ := Option.ite_none_left_eq_some.1 h
    exact exec_of_ready hr rfl (toRegFl_plain hr rfl hm _ _ _ fun l => by rw [BitVec.ofInt_add, ofInt_int, ofInt_int])
  | iaddi hd d' a imm =>
    cases h
    exact exec_of_ready hr rfl (toReg_of_ready hr rfl _)
  | isub hd m d' a b =>
    obtain ⟨hm, ⟨⟩⟩ := Option.ite_none_left_eq_some.1 h
    exact exec_of_ready hr rfl (toRegFl_plain hr rfl hm _ _ _ fun l => by rw [ofInt_sub_eq, ofInt_int, ofInt_int])
  | imul hd m d' a b =>
    obtain ⟨hm, ⟨⟩⟩ := Option.ite_none_left_eq_some.1 h
    exact exec_of_ready hr rfl (toRegFl_plain hr rfl hm _ _ _ fun l => by rw [BitVec.ofInt_mul, ofInt_int, ofInt_int])
  | imulh hd m d' a b =>
    cases h
    simp only [← word_mulHigh]
    exact exec_of_ready hr rfl (toReg_of_ready hr rfl _)
  | imad hd m d' a b c =>
    obtain ⟨hm, ⟨⟩⟩ := Option.ite_none_left_eq_some.1 h
    exact exec_of_ready hr rfl (toRegFl_plain hr rfl hm _ _ _ fun l => by
      rw [BitVec.ofInt_add, BitVec.ofInt_mul, ofInt_int, ofInt_int, ofInt_int])
  | imadw hd m d' a b c =>
    obtain ⟨hm, ⟨⟩⟩ := Option.ite_none_left_eq_some.1 h
    exact exec_of_ready hr rfl (toReg2Fl_plain hr rfl hm _ _ _ fun l => by
      rw [BitVec.ofInt_add, BitVec.ofInt_mul, ofInt_int_extended, ofInt_int_extended, ofInt_int2])
  | imin hd m d' a b =>
    cases h
    simp only [notAbove_iff]
    exact exec_of_ready hr rfl (toReg_of_ready hr rfl _)
  | imax hd m d' a b =>
    cases h
    simp only [notAbove_iff]
    exact exec_of_ready hr rfl (toReg_of_ready hr rfl _)
  | iabs hd m d' a =>
    obtain ⟨hm, ⟨⟩⟩ := Option.ite_none_left_eq_some.1 h
    exact exec_of_ready hr rfl (toRegFl_plain hr rfl hm _ _ _ fun l => ofInt_natAbs_toInt _)
  | iadd64 hd m d' a b =>
    obtain ⟨hm, ⟨⟩⟩ := Option.ite_none_left_eq_some.1 h
    exact exec_of_ready hr rfl (toReg2Fl_plain hr rfl hm _ _ _ fun l => by rw [BitVec.ofInt_add, ofInt_int2, ofInt_int2])
  | lea hd sg sh d' a b =>
    cases h
    simp only [← shiftLeft_eq_mul_pow]
    exact exec_of_ready hr rfl (toReg2_of_ready hr rfl _)
  | _ => cases h

/-- The instructions of `saturatedResult` write its result and note the lanes that were clamped. -/
theorem saturatedResult_writes (s : State) (i : Instr) (e : Mask) (w : Bool) (d : GReg) (f : Nat → DWord × Bool)
    (hr : s.Ready i e) (h : saturatedResult s.me i = some (w, d, f)) :
    ∃ t, exec i s = .next t ∧ WritesReg s t i w d e (fun l => (f l).1) (satFlags e f) := by
  cases i with
  | iadd hd m d' a b | isub hd m d' a b | imul hd m d' a b | imad hd m d' a b c =>
    obtain ⟨hm, ⟨⟩⟩ := Option.ite_none_right_eq_some.1 h
    simp only [exact_eq_intOf]
    exact exec_of_ready hr rfl (toRegFl_saturated hr rfl hm _ _)
  | iabs hd m d' a =>
    obtain ⟨hm, ⟨⟩⟩ := Option.ite_none_right_eq_some.1 h
    exact exec_of_ready hr rfl (toRegFl_saturated hr rfl hm 2#2 _)
  | imadw hd m d' a b c | iadd64 hd m d' a b =>
    obtain ⟨hm, ⟨⟩⟩ := Option.ite_none_right_eq_some.1 h
    simp only [exact_eq_intOf]
    exact exec_of_ready hr rfl (toReg2Fl_saturated hr rfl hm _ _)
  | _ => cases h

/-- Settles O10: the results without SAT are exact integers modulo 2^n, those with SAT exact integers clamped. -/
theorem integerResults : Obligations.IntegerResults :=
  ⟨integerResult_writes, saturatedResult_writes⟩

/-! ## Division (R190) -/

/-- Whether a signed division with SAT overflows: -2^31 / -1. -/
def divOverflows (m : MByte) (a b : Word) : Bool := m.sat && m.sg != 1#2 && a == 0x80000000#32 && b == 0xFFFFFFFF#32

/-- A quotient that fits its type is the exact one, rounded towards zero. -/
theorem intOf_quot (sg : BitVec 2) (a b : Word) (h : sg = 1#2 ∨ a ≠ 0x80000000#32 ∨ b ≠ 0xFFFFFFFF#32) :
    intOf (sgSigned sg) (quotRem sg a b).1 = (intOf (sgSigned sg) a).tdiv (intOf (sgSigned sg) b) := by
  by_cases hsg : sg = 1#2
  · simp [intOf, sgSigned, quotRem, hsg, Int.tdiv_eq_ediv_of_nonneg]
  · have hs := BitVec.toInt_sdiv_of_ne_or_ne a b (h.resolve_left hsg)
    simpa [intOf, sgSigned, quotRem, hsg] using hs

/-- The remainder is the exact one, with the sign of the dividend. -/
theorem ofInt_rem (sg : BitVec 2) (a b : Word) :
    BitVec.ofInt 32 ((intOf (sgSigned sg) a).tmod (intOf (sgSigned sg) b)) = (quotRem sg a b).2 := by
  by_cases hsg : sg = 1#2
  · simp only [intOf, sgSigned, quotRem, hsg, bne_self_eq_false, Bool.false_eq_true, if_false, if_true]
    rw [← Int.ofNat_tmod, BitVec.ofInt_natCast, BitVec.umod_eq, ← BitVec.toNat_umod, BitVec.ofNat_toNat, BitVec.setWidth_eq]
  · simp only [intOf, sgSigned, quotRem, hsg, bne_iff_ne, ne_eq, not_false_eq_true, if_false, if_true]
    rw [← BitVec.toInt_srem, BitVec.ofInt_toInt]

theorem remRes_eq (m : MByte) (a b : Word) : remRes m a b = if b = 0 then a else (quotRem m.sg a b).2 := by
  simp only [remRes, ofInt_rem]

/-- The one quotient that does not fit its type: 2^31. -/
theorem clampInt_two_pow_31 (sat : Bool) :
    clampInt sat true 32 (2 ^ 31) = clampedRes (word (if sat then 0x7FFFFFFF else 0x80000000#32), sat) := by
  cases sat <;> decide

theorem divRes_eq (m : MByte) (a b : Word) :
    divRes m a b = clampedRes (word (if b = 0 then 0xFFFFFFFF else if divOverflows m a b then 0x7FFFFFFF
      else (quotRem m.sg a b).1), divOverflows m a b) := by
  by_cases hb : b = 0
  · subst hb
    simp [divRes, divOverflows, clampedRes, word]
  · simp only [divRes, hb, if_false]
    by_cases hfit : m.sg = 1#2 ∨ a ≠ 0x80000000#32 ∨ b ≠ 0xFFFFFFFF#32
    · have hno : divOverflows m a b = false := by
        rcases hfit with h | h | h <;> simp [divOverflows, h]
      rw [hno, ← intOf_quot m.sg a b hfit, clampInt_intOf]
      simp
    · obtain ⟨hsg, ha, hb'⟩ : m.sg ≠ 1#2 ∧ a = 0x80000000#32 ∧ b = 0xFFFFFFFF#32 := by
        simpa only [not_or, ne_eq, not_not] using hfit
      subst ha hb'
      have hover : divOverflows m 0x80000000#32 0xFFFFFFFF#32 = m.sat := by simp [divOverflows, hsg]
      have hsigned : sgSigned m.sg = true := by simp [sgSigned, hsg]
      have hquot : (intOf true 0x80000000#32).tdiv (intOf true 0xFFFFFFFF#32) = 2 ^ 31 := by decide
      have hword : (quotRem m.sg 0x80000000#32 0xFFFFFFFF#32).1 = 0x80000000#32 := by
        simp only [quotRem, hsg, if_false]
        decide
      rw [hover, hsigned, hquot, clampInt_two_pow_31, hword]

/-- The lanes of `e` that divide by zero. -/
def zeroDivisors (v : Warp) (b : GReg) (e : Mask) : Mask := maskOf fun l => e.getLsbD l && v.lane b l == 0#32

theorem divides_raises (s : State) (b : GReg) (e : Mask) (k : State → State) (hz : zeroDivisors s.me b e ≠ 0)
    (hen : bitAt s.me.mode 8 = true) : s.divides b e k = s.raise .idiv0 (zeroDivisors s.me b e) :=
  if_pos ⟨hz, hen⟩

theorem divides_passes (s : State) (b : GReg) (e : Mask) (k : State → State)
    (h : zeroDivisors s.me b e = 0 ∨ bitAt s.me.mode 8 = false) : s.divides b e k = k s :=
  if_neg fun ⟨hz, hen⟩ => h.elim hz fun hoff => Bool.false_ne_true (hoff.symm.trans hen)

/-- Settles O11: under EIDZ the lanes that divide by zero trap, and otherwise `divRes_eq` and `remRes_eq` give the
results. -/
theorem division : Obligations.Division := by
  rintro s h m d a b e z hz
  change z = zeroDivisors s.me b e at hz
  subst hz
  refine ⟨fun hr => ⟨fun hne hen => ?divTraps, fun hok => ?quotient⟩, fun hr => ⟨fun hne hen => ?remTraps, fun hok => ?remainder⟩⟩
  case divTraps | remTraps =>
    refine exec_of_ready hr rfl ?_
    rw [divides_raises s b e _ hne hen]
    exact raise_raised s .idiv0 _ 0 0 false (ready_warp s _ e hr)
  case quotient =>
    refine exec_of_ready hr rfl ?_
    rw [divides_passes s b e _ hok]
    exact toRegFl_clamped hr rfl _ _ fun l => divRes_eq m _ _
  case remainder =>
    refine exec_of_ready hr rfl ?_
    rw [divides_passes s b e _ hok]
    simp only [← remRes_eq m]
    exact toReg_of_ready hr rfl _

/-! ## Words from other lanes (R200, R201, R206, R454) -/

/-- The count of SHFL and the lane of RDLANE: bits 4:0 (R201, R206). -/
theorem bitsAt_0_5_toNat (x : Word) : (bitsAt x 0 5).toNat = x.toNat % 32 := by
  simp [bitsAt]

theorem shflLane_eq_shflFrom (mode : BitVec 2) (n l : Nat) : shflLane mode n l = shflFrom mode n l := by
  have hle : l + n ≤ 31 ↔ l + n < 32 := by omega
  have hmode : mode = 0#2 ∨ mode = 1#2 ∨ mode = 2#2 ∨ mode = 3#2 := by revert mode; decide
  rcases hmode with rfl | rfl | rfl | rfl <;> simp [shflLane, shflFrom, hle]

/-- The first register whose word from another lane is poisoned raises POISON in the lanes that receive it. -/
theorem consumeFrom_cons_raises (s : State) (r : Nat) (p : Mask) (uses : List (Nat × Mask)) (k : State → State)
    (hp : p ≠ 0) : s.consumeFrom ((r, p) :: uses) k = s.raise .poison p (BitVec.ofNat 64 r) := by
  have hb : (p != 0#32) = true := bne_iff_ne.2 hp
  simp only [State.consumeFrom, List.find?_cons, hb]

theorem consumeFrom_cons_clean (s : State) (r : Nat) (p : Mask) (uses : List (Nat × Mask)) (k : State → State)
    (hp : p = 0) : s.consumeFrom ((r, p) :: uses) k = s.consumeFrom uses k := by
  have hb : (p != 0#32) = false := bne_eq_false_iff_eq.2 hp
  simp only [State.consumeFrom, List.find?_cons, hb]

section Operand
variable {s : State} {wide : Bool} {a b : GReg} {p : Nat → Mask} {q m : Mask} {uses : List (Nat × Mask)} {k : State → State}

theorem consumeFrom_reg_clean (hq : q = 0) : s.consumeFrom [(b.toNat, q)] k = k s :=
  consumeFrom_cons_clean s b.toNat q [] k hq

theorem consumeFrom_reg_raises (hq : q = m) (hm : m ≠ 0) :
    s.consumeFrom ((b.toNat, q) :: uses) k = s.raise .poison m (b.setWidth 64) := by
  rw [hq, consumeFrom_cons_raises s _ _ _ k hm, BitVec.ofNat_toNat]

/-- An operand whose first register, the low word of a pair, is poisoned in lanes that receive it. -/
theorem consumeFrom_operand_low (hlow : p a.toNat = m) (hm : m ≠ 0) :
    s.consumeFrom ((regsOf wide a).map (fun r => (r, p r)) ++ uses) k = s.raise .poison m (a.setWidth 64) := by
  cases wide <;> exact consumeFrom_reg_raises hlow hm

/-- A pair whose high word alone is poisoned in lanes that receive it. -/
theorem consumeFrom_operand_high (hwide : wide = true) (hlow : p a.toNat = 0) (hhigh : p (a.toNat + 1) = m) (hm : m ≠ 0) :
    s.consumeFrom ((regsOf wide a).map (fun r => (r, p r)) ++ uses) k =
      s.raise .poison m (BitVec.ofNat 64 (a.toNat + 1)) := by
  subst hwide hhigh
  exact (consumeFrom_cons_clean s _ _ _ k hlow).trans (consumeFrom_cons_raises s _ _ _ k hm)

theorem consumeFrom_operand_clean (hlow : p a.toNat = 0) (hhigh : wide = true → p (a.toNat + 1) = 0) :
    s.consumeFrom ((regsOf wide a).map (fun r => (r, p r)) ++ uses) k = s.consumeFrom uses k := by
  cases wide with
  | false => exact consumeFrom_cons_clean s _ _ _ k hlow
  | true => exact (consumeFrom_cons_clean s _ _ _ k hlow).trans (consumeFrom_cons_clean s _ _ _ k (hhigh rfl))

end Operand

/-- When every lane reads one lane, all of them receive its poison or none. -/
theorem poisonFrom_const (v : Warp) (r : Nat) (e : Mask) (j : Nat) :
    v.poisonFrom r e (fun _ => j) = if (v.reg r).poison.getLsbD j = true then e else 0 := by
  refine BitVec.eq_of_getLsbD_eq fun l hl => ?_
  rw [Warp.poisonFrom, getLsbD_maskOf _ _ hl]
  cases (v.reg r).poison.getLsbD j <;> simp

theorem lowest_lt (e : Mask) : lowest e < 32 := by
  unfold lowest
  cases h : lanesOf e with
  | nil => decide
  | cons l ls =>
    have hl : l ∈ lanesOf e := h ▸ List.mem_cons_self
    exact List.mem_range.1 (List.mem_of_mem_filter hl)

theorem oneLane_ne_zero {l : Nat} (h : l < 32) : 1#32 <<< l ≠ 0 := by
  intro h0
  have hbit := congrArg (fun x => BitVec.getLsbD x l) h0
  simp [h] at hbit

/-! ## SHFL (R201) -/

/-- The lane that SHFL reads in lane `l`. -/
def shflSource (v : Warp) (mode : BitVec 2) (b : GReg) (l : Nat) : Nat := shflFrom mode ((v.lane b l).toNat % 32) l

/-- The effect of a ready SHFL. -/
theorem exec_shfl {s : State} {h : Hd} {m : MByte} {mode : BitVec 2} {d a b : GReg} {e : Mask}
    (hr : s.Ready (.shfl h m mode d a b) e) :
    exec (.shfl h m mode d a b) s = .next (s.consumeFrom
      ((regsOf m.w64 a).map (fun r => (r, s.me.poisonFrom r e (shflSource s.me mode b))) ++
        [(b.toNat, (s.me.reg b.toNat).poison &&& e)])
      fun t => t.toRegs m.w64 (.shfl h m mode d a b) d e fun l => s.me.wide m.w64 a (shflSource s.me mode b l)) := by
  have hexec : exec (.shfl h m mode d a b) s = execShfl h m mode d a b s := rfl
  rw [hexec, execShfl, issue_ready s _ e _ hr]
  simp only [bitsAt_0_5_toNat, shflLane_eq_shflFrom]
  rfl

/-! ## RDLANE (R206) -/

/-- The lane that RDLANE reads: the lowest lane of `e`, or the one that it names. -/
def rdlaneSource (v : Warp) (first : Bool) (b : GReg) (e : Mask) : Nat :=
  if first then lowest e else (v.lane b (lowest e)).toNat % 32

/-- Where the lowest lane of E consumes a poisoned lane number of RDLANE. -/
def rdlanePoison (v : Warp) (first : Bool) (b : GReg) (e : Mask) : Mask :=
  if first then 0 else (v.reg b.toNat).poison &&& (1#32 <<< lowest e)

theorem rdlanePoison_named (v : Warp) (b : GReg) (e : Mask) :
    rdlanePoison v false b e = if (v.reg b.toNat).poison.getLsbD (lowest e) = true then 1#32 <<< lowest e else 0 :=
  BitVec.and_twoPow _ _

theorem rdlanePoison_clean (v : Warp) (first : Bool) (b : GReg) (e : Mask)
    (h : first = false → (v.reg b.toNat).poison.getLsbD (lowest e) = false) : rdlanePoison v first b e = 0 := by
  cases first with
  | true => rfl
  | false => rw [rdlanePoison_named, h rfl, if_neg Bool.false_ne_true]

/-- The effect of a ready RDLANE with a lane in its active set. -/
theorem exec_rdlane {s : State} {h : Hd} {first w64 : Bool} {d a b : GReg} {e : Mask}
    (hr : s.ReadySome (.rdlane h first w64 d a b) e) :
    exec (.rdlane h first w64 d a b) s = .next (s.consumeFrom
      ((regsOf w64 a).map (fun r => (r,
          if (s.me.reg r).poison.getLsbD (rdlaneSource s.me first b e) = true then e else 0)) ++
        [(b.toNat, rdlanePoison s.me first b e)])
      fun t => t.toRegs w64 (.rdlane h first w64 d a b) d e fun _ => s.me.wide w64 a (rdlaneSource s.me first b e)) := by
  have hexec : exec (.rdlane h first w64 d a b) s = execRdlane h first w64 d a b s := rfl
  rw [hexec, execRdlane, issue_ready s _ e _ hr.1]
  simp only [bitsAt_0_5_toNat, if_neg hr.2, poisonFrom_const]
  rfl

/-- An RDLANE without an active lane has no effect. -/
theorem exec_rdlane_empty {s : State} {h : Hd} {first w64 : Bool} {d a b : GReg}
    (hr : s.Ready (.rdlane h first w64 d a b) 0) :
    exec (.rdlane h first w64 d a b) s = .next (s.retire (.rdlane h first w64 d a b)) := by
  have hexec : exec (.rdlane h first w64 d a b) s = execRdlane h first w64 d a b s := rfl
  rw [hexec, execRdlane, issue_ready s _ 0 _ hr]
  rfl

/-! ## The exchange of lanes -/

/-- Settles O16: `exec_shfl` and `exec_rdlane` list the registers consumed, the low word of a pair first (log 20); the first
poisoned one traps, and with none the words arrive. -/
theorem laneExchange : Obligations.LaneExchange := by
  refine ⟨fun s h m mode d a b e hr hnum => ⟨fun hlow => ?shflLow, fun hlow hwide hhigh => ?shflHigh, fun hlow hhigh => ?shfl⟩,
    fun s h first w64 d a b e hr hnum hlow hhigh => ?rdlane,
    fun s h first w64 d a b e hr => ⟨fun hlow => ?rdlaneLow, fun hlow hwide hhigh => ?rdlaneHigh,
      fun hlow hhigh hnamed hnum => ?rdlaneNumber⟩,
    fun s h first w64 d a b hr => ?empty⟩
  case shflLow =>
    exact exec_next (exec_shfl hr) (consumeFrom_operand_low rfl hlow) (raise_raised s _ _ _ _ _ (ready_warp s _ e hr))
  case shflHigh =>
    exact exec_next (exec_shfl hr) (consumeFrom_operand_high hwide hlow rfl hhigh)
      (raise_raised s _ _ _ _ _ (ready_warp s _ e hr))
  case shfl =>
    exact exec_next (exec_shfl hr) ((consumeFrom_operand_clean hlow hhigh).trans (consumeFrom_reg_clean hnum))
      (toRegs_of_ready hr rfl _)
  case rdlane =>
    exact exec_next (exec_rdlane hr)
      ((consumeFrom_operand_clean (if_neg (Bool.eq_false_iff.1 hlow)) fun hw => if_neg (Bool.eq_false_iff.1 (hhigh hw))).trans
        (consumeFrom_reg_clean (rdlanePoison_clean s.me first b e hnum)))
      (toRegs_of_ready hr.1 rfl _)
  case rdlaneLow =>
    exact exec_next (exec_rdlane hr) (consumeFrom_operand_low (if_pos hlow) hr.2)
      (raise_raised s _ _ _ _ _ (ready_warp s _ e hr.1))
  case rdlaneHigh =>
    exact exec_next (exec_rdlane hr)
      (consumeFrom_operand_high hwide (if_neg (Bool.eq_false_iff.1 hlow)) (if_pos hhigh) hr.2)
      (raise_raised s _ _ _ _ _ (ready_warp s _ e hr.1))
  case rdlaneNumber =>
    subst hnamed
    exact exec_next (exec_rdlane hr)
      ((consumeFrom_operand_clean (if_neg (Bool.eq_false_iff.1 hlow)) fun hw => if_neg (Bool.eq_false_iff.1 (hhigh hw))).trans
        (consumeFrom_reg_raises ((rdlanePoison_named s.me b e).trans (if_pos hnum)) (oneLane_ne_zero (lowest_lt e))))
      (raise_raised s _ _ _ _ _ (ready_warp s _ e hr.1))
  case empty =>
    exact exec_next (exec_rdlane_empty hr) rfl (retire_issued s _ (ready_warp s _ 0 hr))

end Sys2Proof.Machine
end
